-- ==== Sys2Proof/Word.lean ====
section
/-! DEFINITION. Word.lean: the word types of HFC (spec 00 R8, R10, R11). -/

namespace Sys2Proof

/-- A byte: a symbol, a scaled frequency, one unit of a stream (00 R8 `SYM_W`, `SF_W`; 20 R85). -/
abbrev Byte := BitVec 8

/-- A command word (30 R110). -/
abbrev Word32 := BitVec 32

/-- A 64-bit register, counter, weight or code pattern (00 R8 `CNT_W`, `WEIGHT_W`, `CODE_W`). -/
abbrev Word64 := BitVec 64

/-- A node handle: 0..510, or `NULL` = 0x1FF (00 R8 `HANDLE_W`). -/
abbrev Handle := BitVec 9

/-- A register number of the host's port (10 R21). -/
abbrev RegNum := BitVec 16

end Sys2Proof
end

