-- ==== Sys2Proof/Config.lean ====
section
/-! DEFINITION. Config.lean: the implementation parameters of spec 00 R8 and the free values (93 V1 to V3). -/

namespace Sys2Proof

/-- The handle that names no node (00 R8 `HANDLE_W`). -/
def Config.null : Handle := 0x1FF#9

/-- The symbol field of an internal node (00 R8 `INTERNAL_SYM`; 93 U3). -/
def Config.internalSym : Byte := 0xFF#8

/-- Size of the node arena (00 R8 `NODE_MAX`). -/
abbrev Config.nodeMax : Nat := 511

/-- Largest heap capacity (00 R8 `HEAP_MAX`). -/
abbrev Config.heapMax : Nat := 256

/-- Longest code, in bits (00 R8 `CODE_W`). -/
abbrev Config.codeBits : Nat := 64

/-- Size of the container's trailer in bytes (00 R8 `TB_BYTES`). -/
abbrev Config.trailerBytes : Nat := 8

/-- What the bit reader returns at the end of its stream, -1 in 64 bits (00 R8 `SENTINEL`). -/
def Config.sentinel : Word64 := BitVec.allOnes 64

/-- DESIGN CHOICE (log 2), unsafe: the value of the OPEN parameter `BUF_BYTES` in `State.reset`, the
reference value of 00 R8. A step takes it from the state, so a statement over all states holds for
every value. -/
def Config.bufBytesReference : Word64 := 4096#64

/-- A free value (log 5, log 6), safe: the `w` bits the spec leaves unspecified at draw number `tick`, entry
`index`. It has no body: nothing can be proved of it. -/
opaque Config.freeBits : (w : Nat) → (tick index : Nat) → BitVec w

/-- A free value (log 8), safe: what an entry that does not exist holds (`NODE[511]`, `HEAP[256]`, a byte
beyond `BUF_BYTES` or `IN_LEN`). No rule reads one in a state a run reaches. -/
opaque Config.absent : (w : Nat) → (index : Nat) → BitVec w

end Sys2Proof
end

