-- ==== Sys2Proof/Syntax.lean ====
section
/-! DEFINITION. Syntax.lean: the 24 commands of spec 30 R114 (spec/opcode_table.json), one constructor per row. -/

namespace Sys2Proof

/-- A command. The four A-format commands carry their 12-bit immediate `a` (30 R111, R113). -/
inductive Instr where
  | nop
  | clr
  | fcRun
  | fqScale
  | hpCreate (a : BitVec 12)
  | hpInsert (a : BitVec 12)
  | hpExtract
  | hpFill
  | ndLeaf (a : BitVec 12)
  | tbBuild
  | tbFree
  | cgRun
  | bwInit
  | bwWrite (a : BitVec 12)
  | bwFlush
  | brInit
  | brRead
  | hdrWrite
  | hdrRead
  | encStream
  | trlWrite
  | decStream
  | compress
  | decompress
  deriving DecidableEq, Repr

/-- The mnemonic of 30 R114. -/
def Instr.mnemonic : Instr → String
  | .nop => "NOP"
  | .clr => "CLR"
  | .fcRun => "FC_RUN"
  | .fqScale => "FQ_SCALE"
  | .hpCreate _ => "HP_CREATE"
  | .hpInsert _ => "HP_INSERT"
  | .hpExtract => "HP_EXTRACT"
  | .hpFill => "HP_FILL"
  | .ndLeaf _ => "ND_LEAF"
  | .tbBuild => "TB_BUILD"
  | .tbFree => "TB_FREE"
  | .cgRun => "CG_RUN"
  | .bwInit => "BW_INIT"
  | .bwWrite _ => "BW_WRITE"
  | .bwFlush => "BW_FLUSH"
  | .brInit => "BR_INIT"
  | .brRead => "BR_READ"
  | .hdrWrite => "HDR_WRITE"
  | .hdrRead => "HDR_READ"
  | .encStream => "ENC_STREAM"
  | .trlWrite => "TRL_WRITE"
  | .decStream => "DEC_STREAM"
  | .compress => "COMPRESS"
  | .decompress => "DECOMPRESS"

/-- The immediate of an A-format command (30 R113); a Z-format command has none. -/
def Instr.immediate : Instr → Option (BitVec 12)
  | .hpCreate a => some a
  | .hpInsert a => some a
  | .ndLeaf a => some a
  | .bwWrite a => some a
  | .nop => none
  | .clr => none
  | .fcRun => none
  | .fqScale => none
  | .hpExtract => none
  | .hpFill => none
  | .tbBuild => none
  | .tbFree => none
  | .cgRun => none
  | .bwInit => none
  | .bwFlush => none
  | .brInit => none
  | .brRead => none
  | .hdrWrite => none
  | .hdrRead => none
  | .encStream => none
  | .trlWrite => none
  | .decStream => none
  | .compress => none
  | .decompress => none

/-- A command as an assembler line writes it, immediate in decimal (30 R117). -/
def Instr.listing (i : Instr) : String :=
  match i.immediate with
  | none => i.mnemonic
  | some a => i.mnemonic ++ " " ++ toString a.toNat

end Sys2Proof
end

