-- ==== Sys2Proof/WellFormed.lean ====
section
/-! DEFINITION. WellFormed.lean: which commands an encoding can stand for (spec 30 R112, `amax`). -/

namespace Sys2Proof

/-- `amax(op)` of 30 R112 for the command's immediate; 0 for a command without one. -/
def Instr.immMax : Instr → Nat
  | .hpCreate _ => 256
  | .hpInsert _ => 510
  | .ndLeaf _ => 255
  | .bwWrite _ => 64
  | .nop => 0
  | .clr => 0
  | .fcRun => 0
  | .fqScale => 0
  | .hpExtract => 0
  | .hpFill => 0
  | .tbBuild => 0
  | .tbFree => 0
  | .cgRun => 0
  | .bwInit => 0
  | .bwFlush => 0
  | .brInit => 0
  | .brRead => 0
  | .hdrWrite => 0
  | .hdrRead => 0
  | .encStream => 0
  | .trlWrite => 0
  | .decStream => 0
  | .compress => 0
  | .decompress => 0

/-- The immediate, if there is one, is at most its `amax` (30 R112, last check). -/
def Instr.wellFormed (i : Instr) : Bool :=
  match i.immediate with
  | none => true
  | some a => decide (a.toNat ≤ i.immMax)

end Sys2Proof
end

