-- ==== Sys2Proof/Decode.lean ====
section
/-! DEFINITION. Decode.lean: the decoder of spec 30 R112 and the encoder of 30 R111, R114. -/

namespace Sys2Proof

/-- Why a word is no command (30 R112, R115); every one of them is `BadCmd` with the word as detail. -/
inductive DecodeError where
  /-- Bits 7:0 are none of the 24 opcodes. -/
  | unlistedOpcode
  /-- A bit of 31:20 is 1. -/
  | topBitsSet
  /-- A Z-format opcode with a non-zero `a`. -/
  | operandOnZ
  /-- An A-format opcode with `a` above its `amax`. -/
  | immediateTooLarge
  deriving DecidableEq, Repr

/-- `op` = bits 7:0 (30 R111). -/
def opField (w : Word32) : BitVec 8 := w.extractLsb' 0 8

/-- `a` = bits 19:8 (30 R111, R113). -/
def immField (w : Word32) : BitVec 12 := w.extractLsb' 8 12

/-- Bits 31:20, which must be zero (30 R111). -/
def topField (w : Word32) : BitVec 12 := w.extractLsb' 20 12

/-- The checks of 30 R112 after the opcode's, for format Z. -/
def decodeZ (w : Word32) (i : Instr) : Except DecodeError Instr :=
  if topField w ≠ 0 then .error .topBitsSet
  else if immField w ≠ 0 then .error .operandOnZ
  else .ok i

/-- The checks of 30 R112 after the opcode's, for format A. -/
def decodeA (w : Word32) (i : Instr) : Except DecodeError Instr :=
  if topField w ≠ 0 then .error .topBitsSet
  else if i.wellFormed then .ok i
  else .error .immediateTooLarge

/-- The opcode map of 30 R114 with the checks of 30 R112 in their order; total. -/
def decode (w : Word32) : Except DecodeError Instr :=
  match (opField w).toNat with
  | 0x00 => decodeZ w .nop
  | 0x01 => decodeZ w .clr
  | 0x10 => decodeZ w .fcRun
  | 0x11 => decodeZ w .fqScale
  | 0x20 => decodeA w (.hpCreate (immField w))
  | 0x21 => decodeA w (.hpInsert (immField w))
  | 0x22 => decodeZ w .hpExtract
  | 0x23 => decodeZ w .hpFill
  | 0x30 => decodeA w (.ndLeaf (immField w))
  | 0x31 => decodeZ w .tbBuild
  | 0x32 => decodeZ w .tbFree
  | 0x40 => decodeZ w .cgRun
  | 0x50 => decodeZ w .bwInit
  | 0x51 => decodeA w (.bwWrite (immField w))
  | 0x52 => decodeZ w .bwFlush
  | 0x58 => decodeZ w .brInit
  | 0x59 => decodeZ w .brRead
  | 0x60 => decodeZ w .hdrWrite
  | 0x61 => decodeZ w .hdrRead
  | 0x62 => decodeZ w .encStream
  | 0x63 => decodeZ w .trlWrite
  | 0x64 => decodeZ w .decStream
  | 0x68 => decodeZ w .compress
  | 0x69 => decodeZ w .decompress
  | _ => .error .unlistedOpcode

/-- The opcode of a command (30 R114). -/
def opcode : Instr → BitVec 8
  | .nop => 0x00
  | .clr => 0x01
  | .fcRun => 0x10
  | .fqScale => 0x11
  | .hpCreate _ => 0x20
  | .hpInsert _ => 0x21
  | .hpExtract => 0x22
  | .hpFill => 0x23
  | .ndLeaf _ => 0x30
  | .tbBuild => 0x31
  | .tbFree => 0x32
  | .cgRun => 0x40
  | .bwInit => 0x50
  | .bwWrite _ => 0x51
  | .bwFlush => 0x52
  | .brInit => 0x58
  | .brRead => 0x59
  | .hdrWrite => 0x60
  | .hdrRead => 0x61
  | .encStream => 0x62
  | .trlWrite => 0x63
  | .decStream => 0x64
  | .compress => 0x68
  | .decompress => 0x69

/-- The word of a command: `op | (a << 8)` (30 R114). -/
def encode (i : Instr) : Word32 :=
  (opcode i).setWidth 32 ||| ((i.immediate.getD 0).setWidth 32 <<< 8)

/-- The command the decoder reads from the `nbits` bits `w`, the bits above them zero; none where it
refuses. A command is one 32-bit word (30 R110). -/
def decodeTableWord (nbits w : Nat) : Option Instr :=
  (decode (BitVec.ofNat 32 (w % 2 ^ nbits))).toOption

end Sys2Proof
end

