-- ==== Sys2Proof/Machine/State.lean ====
section
/-! DEFINITION. Machine/State.lean: every piece of state spec 10 gives the machine, and its reset values (10 R53, 70 R280). -/

namespace Sys2Proof.Machine

/-- The flags of `STATUS` (10 R25); the register's other bits read 0. -/
structure Status where
  fault : Bool
  single : Bool
  ftValid : Bool
  sftValid : Bool
  heapValid : Bool
  ctValid : Bool
  hdrValid : Bool
  bwValid : Bool
  brValid : Bool
  deriving DecidableEq, Repr

/-- `STATUS` = 0: no fault, no valid flag, `SINGLE` = 0 (10 R53). -/
def Status.zero : Status := ⟨false, false, false, false, false, false, false, false, false⟩

/-- An arena entry (10 R44). -/
structure Node where
  sym : Byte
  w : Word64
  l : Handle
  r : Handle
  deriving DecidableEq, Repr

/-- What the host may do between commands (20 R96, 10 R21), and reset (70 R280, log 16). -/
inductive HostAction where
  /-- `RegRead(n)` -/
  | regRead (n : RegNum)
  /-- `RegWrite(n, v)`; to `CMD` it executes a command. -/
  | regWrite (n : RegNum) (v : Word64)
  /-- Replace `IN` (and with it `IN_LEN`). -/
  | replaceIn (bytes : List Byte)
  /-- Empty `OUT`. -/
  | discardOut
  /-- The one kind of reset. -/
  | reset
  deriving DecidableEq, Repr

/-- The machine's state, the register names of spec 10 in lower camel case. `IN_LEN` and `OUT_LEN` are
the lengths of the streams (log 9); `CMD` holds no value between commands (10 R24). -/
structure State where
  arg0 : Word64
  res : Word64
  status : Status
  err : BitVec 8
  errinfo : Word64
  nsym : BitVec 9
  divisor : Word64
  totalBits : Word64
  root : Handle
  nalloc : BitVec 10
  hsize : BitVec 9
  hmax : BitVec 9
  wpos : Word64
  wtotal : Word64
  rpos : Word64
  rfill : Word64
  rtotal : Word64
  rlimit : Word64
  olen : Word64
  inPos : Word64
  outCap : Word64
  /-- `BUF_BYTES`, the OPEN parameter; no step writes it (10 R39, log 2). -/
  bufBytes : Word64
  ft : Vector Word64 256
  sft : Vector Byte 256
  ctPat : Vector Word64 256
  ctLen : Vector Byte 256
  heap : Vector Handle 256
  node : Vector Node 511
  wbuf : List Byte
  rbuf : List Byte
  obuf : List Byte
  /-- `IN` (10 R48) -/
  input : List Byte
  /-- `OUT` (10 R49) -/
  output : List Byte
  /-- The MODEL's own: the host's actions still to come, the next one first (log 1). -/
  pending : List HostAction
  /-- The MODEL's own: what the last `RegRead` returned to the host (log 6). -/
  portOut : Option Word64
  /-- The MODEL's own: how many free values have been drawn (log 5). -/
  freeCount : Nat
  deriving DecidableEq, Repr

/-- Why a step stops the model. No command of the spec does: a fault of the hardware is recorded in `ERR`
and is a next state (60 R241). -/
inductive Fault where
  /-- Raised by the host action `replaceIn` alone, when the stream has 2^64 bytes or more: no `IN_LEN`
  (64 bits, 10 R37, 40 R132) is its length. Safe (log 9). -/
  | inputTooLong
  deriving DecidableEq, Repr

/-- Why a step refuses an instruction. No meaning of this model refuses. -/
inductive Refusal where
  /-- Raised by an arm of `exec` whose instruction has no meaning yet; safe. No arm does. -/
  | notModelled (mnemonic : String)
  deriving DecidableEq, Repr

/-- The machine right after reset (10 R53, 70 R280). Where the spec gives no value: the tables and buffers
are zero (log 3), the streams empty (log 4), `BUF_BYTES` its reference value (log 2), and the model's own
fields empty, none and 0 (log 1, 5, 6): each a DESIGN CHOICE, unsafe. -/
def State.reset : State where
  arg0 := 0
  res := 0
  status := Status.zero
  err := 0
  errinfo := 0
  nsym := 0
  divisor := 0
  totalBits := 0
  root := Config.null
  nalloc := 0
  hsize := 0
  hmax := 0
  wpos := 0
  wtotal := 0
  rpos := 0
  rfill := 0
  rtotal := 0
  rlimit := 0
  olen := 0
  inPos := 0
  outCap := BitVec.allOnes 64
  bufBytes := Config.bufBytesReference
  ft := Vector.replicate 256 0
  sft := Vector.replicate 256 0
  ctPat := Vector.replicate 256 0
  ctLen := Vector.replicate 256 0
  heap := Vector.replicate 256 0
  node := Vector.replicate 511 ⟨0, 0, 0, 0⟩
  wbuf := List.replicate Config.bufBytesReference.toNat 0
  rbuf := List.replicate Config.bufBytesReference.toNat 0
  obuf := List.replicate Config.bufBytesReference.toNat 0
  input := []
  output := []
  pending := []
  portOut := none
  freeCount := 0

end Sys2Proof.Machine
end

