-- ==== Sys2Proof/Machine/Flags.lean ====
section
/-! DEFINITION. Machine/Flags.lean: the error codes of spec 60 R245, the word of `STATUS` (10 R25), and the flag updates. -/

namespace Sys2Proof.Machine

/-- The named errors of 60 R245. -/
inductive Err where
  | alloc
  | heapFull
  | heapEmpty
  /-- Reserved, never raised (60 R245, 93 V5). -/
  | ioRead
  | ioWrite
  | corruptHeader
  | alphabet256
  | corruptStream
  | badCmd
  | state
  | overflow
  | codeLen
  | noCode
  | dupSymbol
  deriving DecidableEq, Repr

/-- The code `ERR` holds (60 R245). -/
def Err.code : Err → BitVec 8
  | .alloc => 1
  | .heapFull => 2
  | .heapEmpty => 3
  | .ioRead => 4
  | .ioWrite => 5
  | .corruptHeader => 6
  | .alphabet256 => 7
  | .corruptStream => 8
  | .badCmd => 9
  | .state => 10
  | .overflow => 11
  | .codeLen => 12
  | .noCode => 13
  | .dupSymbol => 14

/-- Bit `n` of a 64-bit word, set when the flag is. -/
def flagBit (b : Bool) (n : Nat) : Word64 := if b then 1#64 <<< n else 0

/-- `STATUS` as the port reads it: bit numbers of 10 R25, every other bit 0. -/
def Status.toWord (f : Status) : Word64 :=
  flagBit f.fault 0 ||| flagBit f.single 1 ||| flagBit f.ftValid 8 ||| flagBit f.sftValid 9 |||
  flagBit f.heapValid 10 ||| flagBit f.ctValid 11 ||| flagBit f.hdrValid 12 ||| flagBit f.bwValid 13 |||
  flagBit f.brValid 14

/-- `STATUS.FAULT <- 1` -/
def State.setFault (s : State) : State := { s with status := { s.status with fault := true } }

/-- `STATUS.SINGLE <- b` -/
def State.setSingle (b : Bool) (s : State) : State := { s with status := { s.status with single := b } }

/-- `STATUS.FT_VALID <- 1` -/
def State.setFtValid (s : State) : State := { s with status := { s.status with ftValid := true } }

/-- `STATUS.SFT_VALID <- 1` -/
def State.setSftValid (s : State) : State := { s with status := { s.status with sftValid := true } }

/-- `STATUS.HEAP_VALID <- b` -/
def State.setHeapValid (b : Bool) (s : State) : State :=
  { s with status := { s.status with heapValid := b } }

/-- `STATUS.CT_VALID <- 1` -/
def State.setCtValid (s : State) : State := { s with status := { s.status with ctValid := true } }

/-- `STATUS.HDR_VALID <- 1` -/
def State.setHdrValid (s : State) : State := { s with status := { s.status with hdrValid := true } }

/-- `STATUS.BW_VALID <- 1` -/
def State.setBwValid (s : State) : State := { s with status := { s.status with bwValid := true } }

/-- `STATUS.BR_VALID <- 1` -/
def State.setBrValid (s : State) : State := { s with status := { s.status with brValid := true } }

end Sys2Proof.Machine
end

