-- ==== Sys2Proof/Machine/Ops.lean ====
section
/-! DEFINITION. Machine/Ops.lean: the shared operations: raising a fault, sequencing, the streams, table access, the
unspecified contents, and how a command word runs. -/

namespace Sys2Proof.Machine

/-- `ceil(a / b)` on naturals (00 R10). -/
def ceilDiv (a b : Nat) : Nat := (a + b - 1) / b

/-- A 64-bit register's new value from an exact natural result (log 18). -/
def word (n : Nat) : Word64 := BitVec.ofNat 64 n

/-! ## Faults and sequencing (60 R241, 00 R15, R16) -/

/-- `raise Name(info)`, its record (60 R241): the first fault's code stays. -/
def State.raise (e : Err) (info : Word64) (s : State) : State :=
  if s.status.fault then s else { s with err := e.code, errinfo := info }.setFault

/-- How a procedure of the pseudocode ends: with a value, or at a `raise`, which ends the command and the
composite around it (60 R241). Either way with the state as the pseudocode left it (60 R242, log 7). -/
inductive Run (α : Type) where
  | ok (a : α) (s : State)
  | stop (s : State)

/-- A procedure of the pseudocode. -/
abbrev Proc (α : Type) := State → Run α

/-- What follows a procedure that did not raise. -/
def Run.bind {α β : Type} (r : Run α) (f : α → State → Run β) : Run β :=
  match r with
  | .ok a s => f a s
  | .stop s => .stop s

/-- The state a procedure leaves, raised or not. -/
def Run.state {α : Type} : Run α → State
  | .ok _ s => s
  | .stop s => s

/-- `raise Name(info)` (60 R241). -/
def fail {α : Type} (e : Err) (info : Word64) (s : State) : Run α := .stop (s.raise e info)

/-- `require c else raise Name(info)` (00 R15). -/
def require (c : Bool) (e : Err) (info : Word64) (s : State) : Run Unit :=
  if c then .ok () s else fail e info s

/-- `raise State(op)`'s detail, the opcode (60 R245, R250). -/
def opInfo (op : BitVec 8) : Word64 := op.setWidth 64

/-- A command under the sticky gate: ignored while a fault is recorded (30 R112 first line, 60 R243),
else run to its end or to a fault, either of which is the next state (00 R6). -/
def command (body : Proc Unit) (s : State) : Host.Outcome State Fault Refusal :=
  if s.status.fault then .next s else .next (body s).state

/-! ## The streams (20 R88 to R90) -/

/-- The bytes `OUT` can still take (20 R88). -/
def State.room (s : State) : Nat := s.outCap.toNat - s.output.length

/-- `OutAppend(v)`: append v, or what fits of it and raise `IoWrite` (20 R88). -/
def outAppend (v : List Byte) (s : State) : Run Unit :=
  if v.length ≤ s.room then .ok () { s with output := s.output ++ v }
  else fail .ioWrite (word (v.length - s.room)) { s with output := s.output ++ v.take s.room }

/-- `IN_LEN` (10 R37) -/
def State.inLen (s : State) : Nat := s.input.length

/-- `OUT_LEN` (10 R38) -/
def State.outLen (s : State) : Nat := s.output.length

/-- `InAvail` (20 R89) -/
def State.inAvail (s : State) : Nat := s.inLen - s.inPos.toNat

/-- The bytes a sequential read can still take, in order (20 R89). -/
def State.unread (s : State) : List Byte := s.input.drop s.inPos.toNat

/-- `MemRead(pos, n)` (00 R14, 20 R90) -/
def State.memRead (s : State) (pos n : Nat) : List Byte := (s.input.drop pos).take n

/-- `IN[pos]` (20 R90); every rule checks `pos < IN_LEN` first (log 8). -/
def State.inByte (s : State) (pos : Nat) : Byte := s.input.getD pos (Config.absent 8 pos)

/-- `LE64(v)`: least significant byte first (00 R14, 20 R81). -/
def le64 (v : Word64) : List Byte :=
  (List.range Config.trailerBytes).map fun i => v.extractLsb' (8 * i) 8

/-- `UnLE64(b)`, the inverse of `LE64` (00 R14). -/
def unLe64 (b : List Byte) : Nat := b.foldr (fun x acc => x.toNat + 256 * acc) 0

/-! ## Table access (00 R13) -/

/-- `T[s]` for a table indexed by symbol. -/
def symAt {α : Type} (t : Vector α 256) (s : Byte) : α := t[s.toNat]'(s.isLt)

/-- `T[s] <- v` for a table indexed by symbol. -/
def symPut {α : Type} (t : Vector α 256) (s : Byte) (v : α) : Vector α 256 := t.set s.toNat v s.isLt

/-- A table with every entry mapped. -/
def symMap {α β : Type} (f : α → β) (t : Vector α 256) : Vector β 256 := ⟨⟨t.toList.map f⟩, by simp⟩

/-- The 256 symbols in ascending order (`for s in 0..255 ascending`). -/
def allSymbols : List Byte := (List.range 256).map (BitVec.ofNat 8)

/-- What an arena entry that does not exist holds (log 8). -/
def absentNode (h : Nat) : Node :=
  ⟨Config.absent 8 h, Config.absent 64 h, Config.absent 9 h, Config.absent 9 (512 + h)⟩

/-- `NODE[h]` in an arena (10 R44). -/
def nodeAt (arena : Vector Node 511) (h : Handle) : Node := arena[h.toNat]?.getD (absentNode h.toNat)

/-- `HEAP[i]` of a heap array (10 R43). -/
def heapAt (heap : Vector Handle 256) (i : Nat) : Handle := heap[i]?.getD (Config.absent 9 i)

/-- Byte `j` of a buffer (10 R45 to R47). -/
def bufAt (buf : List Byte) (j : Nat) : Byte := buf.getD j (Config.absent 8 j)

/-- `isleaf`: both children `NULL` (00 R13, 10 R44). -/
def Node.isLeaf (n : Node) : Bool := n.l == Config.null && n.r == Config.null

/-! ## Unspecified contents: free values (93 V1, V2; log 5) -/

/-- A table of 256 unspecified entries of `w` bits, drawn at `tick`, the first one number `off`. -/
def freeTable (w tick off : Nat) : Vector (BitVec w) 256 :=
  ⟨⟨(List.range 256).map fun i => Config.freeBits w tick (off + i)⟩, by simp⟩

/-- An arena of unspecified entries, drawn at `tick`. -/
def freeArena (tick : Nat) : Vector Node 511 :=
  ⟨⟨(List.range 511).map fun i =>
    ⟨Config.freeBits 8 tick i, Config.freeBits 64 tick i, Config.freeBits 9 tick i,
      Config.freeBits 9 tick (511 + i)⟩⟩, by simp⟩

/-- A buffer of `n` unspecified bytes, drawn at `tick`, the first one number `off`. -/
def freeBuffer (n tick off : Nat) : List Byte := (List.range n).map fun i => Config.freeBits 8 tick (off + i)

/-- Every entry of `HEAP` becomes unspecified (41 R143, 42 R166). -/
def State.forgetHeap (s : State) : State :=
  { s with heap := freeTable 9 s.freeCount 0, freeCount := s.freeCount + 1 }

/-- Every entry of `NODE` becomes unspecified (42 R166). -/
def State.forgetNodes (s : State) : State :=
  { s with node := freeArena s.freeCount, freeCount := s.freeCount + 1 }

/-- Every entry of `FT`, `SFT`, `CT_PAT`, `CT_LEN` becomes unspecified (46 R232). -/
def State.forgetTables (s : State) : State :=
  { s with
    ft := freeTable 64 s.freeCount 0
    sft := freeTable 8 s.freeCount 0
    ctPat := freeTable 64 s.freeCount 256
    ctLen := freeTable 8 s.freeCount 256
    freeCount := s.freeCount + 1 }

/-- Every byte of `WBUF`, `RBUF`, `OBUF` becomes unspecified (46 R232). -/
def State.forgetBuffers (s : State) : State :=
  let n := s.bufBytes.toNat
  { s with
    wbuf := freeBuffer n s.freeCount 0
    rbuf := freeBuffer n s.freeCount n
    obuf := freeBuffer n s.freeCount (2 * n)
    freeCount := s.freeCount + 1 }

/-! ## Returning to the reset state (46 R232, 70 R281) -/

/-- The writes of `CLR` (46 R232): the way back from a fault (60 R243). -/
def State.clear (s : State) : State :=
  { s with
    status := Status.zero, err := 0, errinfo := 0, res := 0
    nsym := 0, divisor := 0, totalBits := 0
    root := Config.null, nalloc := 0, hsize := 0, hmax := 0
    wpos := 0, wtotal := 0
    rpos := 0, rfill := 0, rtotal := 0, rlimit := 0
    olen := 0 }.forgetTables.forgetHeap.forgetNodes.forgetBuffers

/-- Reset applied to a machine: the three writes of 70 R281, then those of `CLR`. -/
def State.resetAgain (s : State) : State :=
  { s with arg0 := 0, inPos := 0, outCap := BitVec.allOnes 64 }.clear

end Sys2Proof.Machine
end

