-- ==== Sys2Proof/Machine/Operands.lean ====
section
/-! DEFINITION. Machine/Operands.lean: the operand forms of spec 30 R113 (the immediate, `ARG0`, the result in `RES`) and
what an illegal word does (30 R112, R115). -/

namespace Sys2Proof.Machine

/-- A command word as `ERRINFO` holds it, zero-extended (60 R245, code 9). -/
def wordInfo (w : Word32) : Word64 := w.setWidth 64

/-- The immediate's range check of 30 R112, last line, for a command not taken from the decoder (log 12). -/
def checkImm (i : Instr) (s : State) : Run Unit := require i.wellFormed .badCmd (wordInfo (encode i)) s

/-- `a` as a capacity (30 R113, `HP_CREATE`). -/
def immCapacity (a : BitVec 12) : BitVec 9 := a.setWidth 9

/-- `a` as a node handle (30 R113, `HP_INSERT`). -/
def immHandle (a : BitVec 12) : Handle := a.setWidth 9

/-- `a` as a symbol (30 R113, `ND_LEAF`). -/
def immSymbol (a : BitVec 12) : Byte := a.setWidth 8

/-- `a` as a bit length (30 R113, `BW_WRITE`). -/
def immLength (a : BitVec 12) : Nat := a.toNat

/-- `RES <- v` (10 R22) -/
def State.setRes (v : Word64) (s : State) : State := { s with res := v }

/-- A word the decoder does not accept: ignored while a fault is recorded unless its low byte is 0x01
(30 R112 first line), else `raise BadCmd(w)` (30 R115), which keeps an earlier fault's code (60 R241). -/
def illegalWord (w : Word32) (s : State) : Host.Outcome State Fault Refusal :=
  if s.status.fault && opField w != 0x01 then .next s else .next (s.raise .badCmd (wordInfo w))

end Sys2Proof.Machine
end

