-- ==== Sys2Proof/Machine/Bitio.lean ====
section
/-! DEFINITION. Machine/Bitio.lean: the bit writer and reader of spec 44: `BW_INIT`, `BW_WRITE`, `BW_FLUSH`, `BR_INIT`,
`BR_READ`. -/

namespace Sys2Proof.Machine

/-! ## Bit writer -/

/-- Every byte of `WBUF` zero (44 R180, R181, R184). -/
def State.zeroWbuf (s : State) : State := { s with wbuf := List.replicate s.bufBytes.toNat 0 }

/-- `BW_INIT` (44 R180) -/
def runBwInit : Proc Unit := fun s => .ok () { s with wpos := 0, wtotal := 0 }.zeroWbuf.setBwValid

/-- The meaning of `BW_INIT`. -/
def execBwInit (s : State) : Host.Outcome State Fault Refusal := command runBwInit s

/-- Bit `b` at stream position `pos` of a buffer, by or-ing (44 R181, 00 R12). -/
def orBit (buf : List Byte) (pos : Nat) (b : Bool) : List Byte :=
  buf.modify (pos / 8) fun x => x ||| ((BitVec.ofBool b).setWidth 8 <<< (7 - pos % 8))

/-- The bit is placed and counted (44 R181, before the full-buffer test). -/
def State.placeBit (b : Bool) (s : State) : State :=
  { s with
    wbuf := orBit s.wbuf s.wpos.toNat b
    wpos := word (s.wpos.toNat + 1)
    wtotal := word (s.wtotal.toNat + 1) }

/-- `WriteBit(b)` (44 R181): a full buffer is written out at once. -/
def writeBit (b : Bool) (s : State) : Run Unit :=
  (require (decide (s.wtotal.toNat < 2 ^ 64 - 1)) .overflow 2 s).bind fun _ s =>
    let s := s.placeBit b
    if s.wpos.toNat = 8 * s.bufBytes.toNat then
      (outAppend (s.wbuf.take s.bufBytes.toNat) s).bind fun _ s => .ok () { s with wpos := 0 }.zeroWbuf
    else .ok () s

/-- `WriteBits(pat, len)`: bit `len - 1` first, bit 0 last (44 R182). -/
def writeBits (pat : Word64) : (len : Nat) → State → Run Unit
  | 0, s => .ok () s
  | k + 1, s => (writeBit (pat.getLsbD k) s).bind fun _ s => writeBits pat k s

/-- `BW_WRITE a` (44 R183): the pattern is `ARG0`. -/
def runBwWrite (a : BitVec 12) : Proc Unit := fun s =>
  (checkImm (.bwWrite a) s).bind fun _ s =>
    (require s.status.bwValid .state (opInfo 0x51) s).bind fun _ s => writeBits s.arg0 (immLength a) s

/-- The meaning of `BW_WRITE`. -/
def execBwWrite (a : BitVec 12) (s : State) : Host.Outcome State Fault Refusal :=
  command (runBwWrite a) s

/-- `BW_FLUSH` (44 R184): `WTOTAL` is unchanged. -/
def runBwFlush : Proc Unit := fun s =>
  (require s.status.bwValid .state (opInfo 0x52) s).bind fun _ s =>
    (outAppend (s.wbuf.take (ceilDiv s.wpos.toNat 8)) s).bind fun _ s => .ok () { s with wpos := 0 }.zeroWbuf

/-- The meaning of `BW_FLUSH`. -/
def execBwFlush (s : State) : Host.Outcome State Fault Refusal := command runBwFlush s

/-! ## Bit reader -/

/-- The reader's registers for a byte limit, `RBUF` with nothing valid in it (44 R189, 45 R217). -/
def State.initReader (limit : Word64) (s : State) : State :=
  { s with rlimit := limit, rfill := 0, rpos := 0, rtotal := 0 }.setBrValid

/-- `BR_INIT` (44 R189): the limit is `ARG0`. -/
def runBrInit : Proc Unit := fun s => .ok () (s.initReader s.arg0)

/-- The meaning of `BR_INIT`. -/
def execBrInit (s : State) : Host.Outcome State Fault Refusal := command runBrInit s

/-- How many bytes a refill takes (44 R190). -/
def State.refillSize (s : State) : Nat := min s.bufBytes.toNat (min s.rlimit.toNat s.inAvail)

/-- The refill of 44 R190: the bytes of `RBUF` beyond the chunk stay. -/
def State.refill (s : State) : State :=
  let n := s.refillSize
  { s with
    rbuf := s.memRead s.inPos.toNat n ++ s.rbuf.drop n
    inPos := word (s.inPos.toNat + n)
    rlimit := word (s.rlimit.toNat - n)
    rfill := word n
    rpos := 0 }

/-- Stream bit `pos` of a buffer (00 R12). -/
def bitAt (buf : List Byte) (pos : Nat) : Bool := (bufAt buf (pos / 8)).getLsbD (7 - pos % 8)

/-- The part of `ReadBit` that returns a bit (44 R190). -/
def takeBit (s : State) : Run (Option Bool) :=
  (require (decide (s.rtotal.toNat < 2 ^ 64 - 1)) .overflow 3 s).bind fun _ s =>
    .ok (some (bitAt s.rbuf s.rpos.toNat))
      { s with rpos := word (s.rpos.toNat + 1), rtotal := word (s.rtotal.toNat + 1) }

/-- `ReadBit()` (44 R190); none is `SENTINEL`, which changes nothing. -/
def readBit (s : State) : Run (Option Bool) :=
  if s.rpos.toNat = 8 * s.rfill.toNat then
    if s.refillSize = 0 then .ok none s else takeBit s.refill
  else takeBit s

/-- What `RES` holds of a `ReadBit` (44 R191). -/
def bitResult : Option Bool → Word64
  | none => Config.sentinel
  | some b => (BitVec.ofBool b).setWidth 64

/-- `BR_READ` (44 R191) -/
def runBrRead : Proc Unit := fun s =>
  (require s.status.brValid .state (opInfo 0x59) s).bind fun _ s =>
    (readBit s).bind fun b s => .ok () (s.setRes (bitResult b))

/-- The meaning of `BR_READ`. -/
def execBrRead (s : State) : Host.Outcome State Fault Refusal := command runBrRead s

end Sys2Proof.Machine
end

