-- ==== Sys2Proof/Machine/Codegen.lean ====
section
/-! DEFINITION. Machine/Codegen.lean: the code generator of spec 43: `CG_RUN`. -/

namespace Sys2Proof.Machine

/-- Store the code of symbol `c` (43 R171). -/
def State.putCode (c : Byte) (pat len : Nat) (s : State) : State :=
  { s with ctPat := symPut s.ctPat c (word pat), ctLen := symPut s.ctLen c (BitVec.ofNat 8 len) }

/-- Every entry of the code table zero (43 R171, 45 R216). -/
def State.zeroCodes (s : State) : State :=
  { s with ctPat := Vector.replicate 256 0, ctLen := Vector.replicate 256 0 }

/-- `Walk(h, pat, d)` with `room` = 64 - d, the bits a code can still grow by (43 R171, R172, R174): left
edge 0, right edge 1, left first. -/
def walk : (room : Nat) → Handle → (pat : Nat) → State → Run Unit
  | room, h, pat, s =>
    let n := nodeAt s.node h
    if n.isLeaf then
      (require (symAt s.ctLen n.sym == 0) .dupSymbol (n.sym.setWidth 64) s).bind fun _ s =>
        .ok () (s.putCode n.sym pat (Config.codeBits - room))
    else
      match room with
      | 0 => fail .codeLen (h.setWidth 64) s
      | room + 1 => (walk room n.l (2 * pat) s).bind fun _ s => walk room n.r (2 * pat + 1) s

/-- `CG_RUN` (43 R171, R173) -/
def runCgRun : Proc Unit := fun s =>
  (require (s.root != Config.null) .state (opInfo 0x40) s).bind fun _ s =>
    let s := s.zeroCodes
    let n := nodeAt s.node s.root
    if n.isLeaf then .ok () ((s.putCode n.sym 0 1).setSingle true).setCtValid
    else (walk Config.codeBits s.root 0 (s.setSingle false)).bind fun _ s => .ok () s.setCtValid

/-- The meaning of `CG_RUN`. -/
def execCgRun (s : State) : Host.Outcome State Fault Refusal := command runCgRun s

end Sys2Proof.Machine
end

