-- ==== Sys2Proof/Machine/Frequency.lean ====
section
/-! DEFINITION. Machine/Frequency.lean: the frequency family of spec 40: `FC_RUN`, `FQ_SCALE`. -/

namespace Sys2Proof.Machine

/-- `FT[c] <- FT[c] + 1` -/
def countByte (ft : Vector Word64 256) (c : Byte) : Vector Word64 256 :=
  symPut ft c (word ((symAt ft c).toNat + 1))

/-- The table the counting pass leaves for the bytes it reads, from all zero (40 R131). -/
def countBytes (bytes : List Byte) : Vector Word64 256 :=
  bytes.foldl countByte (Vector.replicate 256 0)

/-- `FC_RUN` (40 R131) -/
def runFcRun : Proc Unit := fun s =>
  .ok () { s with ft := countBytes s.unread, inPos := 0 }.setFtValid

/-- The meaning of `FC_RUN`. -/
def execFcRun (s : State) : Host.Outcome State Fault Refusal := command runFcRun s

/-- `maxf`, the largest entry (40 R133). -/
def maxFreq (ft : Vector Word64 256) : Nat := ft.toList.foldl (fun m f => max m f.toNat) 0

/-- `D(F) = max(1, ceil(maxf / 255))` (40 R133) -/
def scaleDivisor (ft : Vector Word64 256) : Nat := max 1 (ceilDiv (maxFreq ft) 255)

/-- `Scale(F, s)` of an entry `f` under the divisor `d` (40 R133). -/
def scaleFreq (d f : Nat) : Nat := if f = 0 then 0 else max 1 (f / d)

/-- The scaled table of a count table (40 R134). -/
def scaledTable (ft : Vector Word64 256) : Vector Byte 256 :=
  symMap (fun f => BitVec.ofNat 8 (scaleFreq (scaleDivisor ft) f.toNat)) ft

/-- The number of present symbols, non-zero entries (00 R18, 40 R134). -/
def presentCount {w : Nat} (t : Vector (BitVec w) 256) : Nat := t.toList.countP (fun f => f != 0)

/-- `FQ_SCALE` (40 R134) -/
def runFqScale : Proc Unit := fun s =>
  (require s.status.ftValid .state (opInfo 0x11) s).bind fun _ s =>
    .ok () { s with
      divisor := word (scaleDivisor s.ft)
      sft := scaledTable s.ft
      nsym := BitVec.ofNat 9 (presentCount s.ft) }.setSftValid

/-- The meaning of `FQ_SCALE`. -/
def execFqScale (s : State) : Host.Outcome State Fault Refusal := command runFqScale s

end Sys2Proof.Machine
end

