-- ==== Sys2Proof/Machine/Heap.lean ====
section
/-! DEFINITION. Machine/Heap.lean: the node arena's allocation (spec 42 R160, R166) and the heap family of spec 41:
`HP_CREATE`, `HP_INSERT`, `HP_EXTRACT`, `HP_FILL`. -/

namespace Sys2Proof.Machine

/-! ## The arena: `NewNode`, `TB_FREE` -/

/-- `NewNode(sym, w, l, r)`: the next arena entry and its handle (42 R160). The weight is an exact
natural, checked before it is stored. -/
def newNode (sym : Byte) (w : Nat) (l r : Handle) (s : State) : Run Handle :=
  (require (decide (s.nalloc.toNat < Config.nodeMax)) .alloc (s.nalloc.setWidth 64) s).bind fun _ s =>
    (require (decide (w < 2 ^ 64)) .overflow 1 s).bind fun _ s =>
      .ok (s.nalloc.setWidth 9) { s with
        node := s.node.setIfInBounds s.nalloc.toNat ⟨sym, word w, l, r⟩
        nalloc := BitVec.ofNat 10 (s.nalloc.toNat + 1) }

/-- `TB_FREE` (42 R166): the arena, the tree and the heap released together; `NODE` and `HEAP` unspecified. -/
def runTbFree : Proc Unit := fun s =>
  .ok () ({ s with nalloc := 0, root := Config.null, hsize := 0, hmax := 0 }.setHeapValid
    false).forgetNodes.forgetHeap

/-! ## The order and the two repair loops -/

/-- `key(a) < key(b)`: weight, then symbol, strict (00 R13, 41 R142). -/
def keyLt (a b : Node) : Bool :=
  decide (a.w.toNat < b.w.toNat) || (a.w == b.w && decide (a.sym.toNat < b.sym.toNat))

/-- The order of the nodes two heap positions name. -/
def posLt (arena : Vector Node 511) (heap : Vector Handle 256) (i j : Nat) : Bool :=
  keyLt (nodeAt arena (heapAt heap i)) (nodeAt arena (heapAt heap j))

/-- Swap `HEAP[i]` and `HEAP[j]`. -/
def heapSwap (heap : Vector Handle 256) (i j : Nat) : Vector Handle 256 :=
  (heap.setIfInBounds i (heapAt heap j)).setIfInBounds j (heapAt heap i)

/-- The parent of index i > 0 (41 R141). -/
def parentIdx (i : Nat) : Nat := (i - 1) / 2

/-- The loop of `HeapInsert` (41 R144) from index `i`: the array and the final index. Each round moves to a
smaller index, so `fuel` = `i` is never used up before the root. -/
def siftUp (arena : Vector Node 511) : (fuel : Nat) → Vector Handle 256 → Nat → Vector Handle 256 × Nat
  | 0, heap, i => (heap, i)
  | fuel + 1, heap, i =>
    if 0 < i && posLt arena heap i (parentIdx i) then
      siftUp arena fuel (heapSwap heap i (parentIdx i)) (parentIdx i)
    else (heap, i)

/-- The candidate of one round of `HeapExtract` (41 R147): self, replaced by left when strictly smaller,
then by right when strictly smaller than the candidate. -/
def smallest (arena : Vector Node 511) (heap : Vector Handle 256) (n i : Nat) : Nat :=
  let s := if 2 * i + 1 < n && posLt arena heap (2 * i + 1) i then 2 * i + 1 else i
  if 2 * i + 2 < n && posLt arena heap (2 * i + 2) s then 2 * i + 2 else s

/-- The loop of `HeapExtract` (41 R147) from index `i` in a heap of `n` elements. Each round moves to a
larger index below `n`, so `fuel` = `n` is never used up before the loop ends. -/
def siftDown (arena : Vector Node 511) (n : Nat) : (fuel : Nat) → Vector Handle 256 → Nat → Vector Handle 256
  | 0, heap, _ => heap
  | fuel + 1, heap, i =>
    let s := smallest arena heap n i
    if s = i then heap else siftDown arena n fuel (heapSwap heap i s) s

/-- `HeapInsert(h)`: its final index (41 R144). -/
def heapInsert (h : Handle) (s : State) : Run Nat :=
  (require (decide (s.hsize.toNat < s.hmax.toNat)) .heapFull (s.hmax.setWidth 64) s).bind fun _ s =>
    let i := s.hsize.toNat
    let r := siftUp s.node i (s.heap.setIfInBounds i h) i
    .ok r.2 { s with heap := r.1, hsize := BitVec.ofNat 9 (i + 1) }

/-- `HeapExtract()`: the handle that was at index 0 (41 R147). -/
def heapExtract (s : State) : Run Handle :=
  (require (decide (0 < s.hsize.toNat)) .heapEmpty 0 s).bind fun _ s =>
    let n := s.hsize.toNat - 1
    .ok (heapAt s.heap 0) { s with
      heap := siftDown s.node n n (s.heap.setIfInBounds 0 (heapAt s.heap n)) 0
      hsize := BitVec.ofNat 9 n }

/-! ## The commands -/

/-- `HP_CREATE a` (41 R143); the entries of `HEAP` become unspecified. -/
def runHpCreate (a : BitVec 12) : Proc Unit := fun s =>
  (checkImm (.hpCreate a) s).bind fun _ s =>
    .ok () ({ s with hsize := 0, hmax := immCapacity a }.setHeapValid true).forgetHeap

/-- The meaning of `HP_CREATE`. -/
def execHpCreate (a : BitVec 12) (s : State) : Host.Outcome State Fault Refusal :=
  command (runHpCreate a) s

/-- `HP_INSERT a` (41 R145): the final index goes to `RES`. -/
def runHpInsert (a : BitVec 12) : Proc Unit := fun s =>
  (checkImm (.hpInsert a) s).bind fun _ s =>
    (require s.status.heapValid .state (opInfo 0x21) s).bind fun _ s =>
      (require (decide (a.toNat < s.nalloc.toNat)) .state (opInfo 0x21) s).bind fun _ s =>
        (heapInsert (immHandle a) s).bind fun i s => .ok () (s.setRes (word i))

/-- The meaning of `HP_INSERT`. -/
def execHpInsert (a : BitVec 12) (s : State) : Host.Outcome State Fault Refusal :=
  command (runHpInsert a) s

/-- `HP_EXTRACT` (41 R148): the handle goes to `RES`, zero-extended. -/
def runHpExtract : Proc Unit := fun s =>
  (require s.status.heapValid .state (opInfo 0x22) s).bind fun _ s =>
    (heapExtract s).bind fun h s => .ok () (s.setRes (h.setWidth 64))

/-- The meaning of `HP_EXTRACT`. -/
def execHpExtract (s : State) : Host.Outcome State Fault Refusal := command runHpExtract s

/-- The leaf loop of `HP_FILL` (41 R150) over the symbols still to come. -/
def fillLeaves : List Byte → State → Run Unit
  | [], s => .ok () s
  | c :: cs, s =>
    if symAt s.sft c = 0 then fillLeaves cs s
    else
      (newNode c (symAt s.sft c).toNat Config.null Config.null s).bind fun h s =>
        (heapInsert h s).bind fun _ s => fillLeaves cs s

/-- `HP_FILL` (41 R150): the capacity is `NSYM`. -/
def runHpFill : Proc Unit := fun s =>
  (require s.status.sftValid .state (opInfo 0x23) s).bind fun _ s =>
    (runTbFree s).bind fun _ s =>
      fillLeaves allSymbols ({ s with hsize := 0, hmax := s.nsym }.setHeapValid true)

/-- The meaning of `HP_FILL`. -/
def execHpFill (s : State) : Host.Outcome State Fault Refusal := command runHpFill s

end Sys2Proof.Machine
end

