-- ==== Sys2Proof/Machine/Tree.lean ====
section
/-! DEFINITION. Machine/Tree.lean: the tree family of spec 42: `ND_LEAF`, `TB_BUILD`, `TB_FREE`. -/

namespace Sys2Proof.Machine

/-- `ND_LEAF a` (42 R161): the weight is `ARG0`, the handle goes to `RES`. -/
def runNdLeaf (a : BitVec 12) : Proc Unit := fun s =>
  (checkImm (.ndLeaf a) s).bind fun _ s =>
    (newNode (immSymbol a) s.arg0.toNat Config.null Config.null s).bind fun h s =>
      .ok () (s.setRes (h.setWidth 64))

/-- The meaning of `ND_LEAF`. -/
def execNdLeaf (a : BitVec 12) (s : State) : Host.Outcome State Fault Refusal := command (runNdLeaf a) s

/-- One round of the merge loop (42 R162, R163): first extracted = left, second = right. -/
def mergeRound : Proc Unit := fun s =>
  (heapExtract s).bind fun a s =>
    (heapExtract s).bind fun b s =>
      (newNode Config.internalSym ((nodeAt s.node a).w.toNat + (nodeAt s.node b).w.toNat) a b s).bind
        fun n s => (heapInsert n s).bind fun _ s => .ok () s

/-- `while HSIZE >= 2` of 42 R162. A round takes one from `HSIZE`, so `rounds` = `HSIZE - 1` at entry is
the exact count. -/
def mergeLoop : Nat → State → Run Unit
  | 0, s => .ok () s
  | rounds + 1, s => (mergeRound s).bind fun _ s => mergeLoop rounds s

/-- `TB_BUILD` (42 R162) -/
def runTbBuild : Proc Unit := fun s =>
  (require s.status.heapValid .state (opInfo 0x31) s).bind fun _ s =>
    (require (decide (1 ≤ s.hsize.toNat)) .state (opInfo 0x31) s).bind fun _ s =>
      (mergeLoop (s.hsize.toNat - 1) s).bind fun _ s =>
        (heapExtract s).bind fun h s => .ok () { s with root := h }

/-- The meaning of `TB_BUILD`. -/
def execTbBuild (s : State) : Host.Outcome State Fault Refusal := command runTbBuild s

/-- The meaning of `TB_FREE`. -/
def execTbFree (s : State) : Host.Outcome State Fault Refusal := command runTbFree s

end Sys2Proof.Machine
end

