-- ==== Sys2Proof/Machine/Container.lean ====
section
/-! DEFINITION. Machine/Container.lean: the container family of spec 45: `HDR_WRITE`, `HDR_READ`, `ENC_STREAM`, `TRL_WRITE`,
`DEC_STREAM`, `COMPRESS`, `DECOMPRESS`. -/

namespace Sys2Proof.Machine

/-! ## Header -/

/-- The pair loop of `HDR_WRITE` (45 R203) over the symbols still to come. -/
def writePairs : List Byte → State → Run Unit
  | [], s => .ok () s
  | c :: cs, s =>
    if symAt s.sft c = 0 then writePairs cs s
    else (outAppend [c, symAt s.sft c] s).bind fun _ s => writePairs cs s

/-- `HDR_WRITE` (45 R203) -/
def runHdrWrite : Proc Unit := fun s =>
  (require s.status.sftValid .state (opInfo 0x60) s).bind fun _ s =>
    (require (decide (s.nsym.toNat ≤ 255)) .alphabet256 (s.nsym.setWidth 64) s).bind fun _ s =>
      (outAppend [s.nsym.setWidth 8] s).bind fun _ s => writePairs allSymbols s

/-- The meaning of `HDR_WRITE`. -/
def execHdrWrite (s : State) : Host.Outcome State Fault Refusal := command runHdrWrite s

/-- The pair loop of `HDR_READ` (45 R205): `n` pairs to come, the next one number `i`. -/
def readPairs : (n i : Nat) → State → Run Unit
  | 0, _, s => .ok () s
  | n + 1, i, s =>
    let c := s.inByte (1 + 2 * i)
    let f := s.inByte (2 + 2 * i)
    (require (f != 0) .corruptHeader 3 s).bind fun _ s =>
      (require (symAt s.sft c == 0) .corruptHeader 4 s).bind fun _ s =>
        readPairs n (i + 1) { s with sft := symPut s.sft c f }

/-- The trailer's value (45 R205, 20 R81). -/
def State.trailer (s : State) : Nat :=
  unLe64 (s.memRead (s.inLen - Config.trailerBytes) Config.trailerBytes)

/-- `HDR_READ` (45 R205); the reasons are those of 60 R247. -/
def runHdrRead : Proc Unit := fun s =>
  let len := s.inLen
  (require (decide (1 ≤ len)) .corruptHeader 1 s).bind fun _ s =>
    let n := (s.inByte 0).toNat
    (require (decide (1 + 2 * n + 8 ≤ len)) .corruptHeader 2 s).bind fun _ s =>
      (readPairs n 0 { s with sft := Vector.replicate 256 0 }).bind fun _ s =>
        let t := s.trailer
        (require (decide (ceilDiv t 8 ≤ len - 9 - 2 * n)) .corruptHeader 5 s).bind fun _ s =>
          (require (decide (n ≠ 0 ∨ t = 0)) .corruptHeader 6 s).bind fun _ s =>
            .ok () { s with
              nsym := BitVec.ofNat 9 n
              totalBits := word t
              inPos := word (1 + 2 * n) }.setSftValid.setHdrValid

/-- The meaning of `HDR_READ`. -/
def execHdrRead (s : State) : Host.Outcome State Fault Refusal := command runHdrRead s

/-! ## Encode -/

/-- The byte loop of `ENC_STREAM` (45 R210) over the bytes still to come. -/
def encodeBytes : List Byte → State → Run Unit
  | [], s => .ok () s
  | c :: cs, s =>
    (require (symAt s.ctLen c != 0) .noCode (c.setWidth 64) s).bind fun _ s =>
      (writeBits (symAt s.ctPat c) (symAt s.ctLen c).toNat
        { s with inPos := word (s.inPos.toNat + 1) }).bind fun _ s => encodeBytes cs s

/-- `ENC_STREAM` (45 R210) -/
def runEncStream : Proc Unit := fun s =>
  (require (s.status.ctValid && s.status.bwValid) .state (opInfo 0x62) s).bind fun _ s =>
    encodeBytes s.unread s

/-- The meaning of `ENC_STREAM`. -/
def execEncStream (s : State) : Host.Outcome State Fault Refusal := command runEncStream s

/-- `TRL_WRITE` (45 R211) -/
def runTrlWrite : Proc Unit := fun s =>
  (require s.status.bwValid .state (opInfo 0x63) s).bind fun _ s => outAppend (le64 s.wtotal) s

/-- The meaning of `TRL_WRITE`. -/
def execTrlWrite (s : State) : Host.Outcome State Fault Refusal := command runTrlWrite s

/-! ## Decode -/

/-- `Emit(c)` (45 R213) -/
def emit (c : Byte) (s : State) : Run Unit :=
  let s := { s with obuf := s.obuf.set s.olen.toNat c, olen := word (s.olen.toNat + 1) }
  if s.olen.toNat = s.bufBytes.toNat then
    (outAppend (s.obuf.take s.bufBytes.toNat) s).bind fun _ s => .ok () { s with olen := 0 }
  else .ok () s

/-- What one bit does to the walk of 45 R214 at `cur`: 1 = right, 0 = left; a leaf emits and the walk is
back at the root; a one-symbol tree emits whatever the bit is (43 R173). -/
def decodeBit (b : Bool) (cur : Handle) (s : State) : Run Handle :=
  if (nodeAt s.node s.root).isLeaf then
    (emit (nodeAt s.node s.root).sym s).bind fun _ s => .ok cur s
  else
    let next := if b then (nodeAt s.node cur).r else (nodeAt s.node cur).l
    if (nodeAt s.node next).isLeaf then
      (emit (nodeAt s.node next).sym s).bind fun _ s => .ok s.root s
    else .ok next s

/-- The bit loop of 45 R214. `RTOTAL` grows by one a round, so `n` = `TOTAL_BITS - RTOTAL` at entry is the
exact count. -/
def decodeLoop : (n : Nat) → Handle → State → Run Handle
  | 0, cur, s => .ok cur s
  | n + 1, cur, s =>
    (readBit s).bind fun b s =>
      match b with
      | none => fail .corruptStream 1 s
      | some b => (decodeBit b cur s).bind fun cur s => decodeLoop n cur s

/-- `DEC_STREAM` (45 R214) -/
def runDecStream : Proc Unit := fun s =>
  (require (s.status.hdrValid && s.status.brValid) .state (opInfo 0x64) s).bind fun _ s =>
    (require (s.totalBits == 0 || s.root != Config.null) .state (opInfo 0x64) s).bind fun _ s =>
      (decodeLoop (s.totalBits.toNat - s.rtotal.toNat) s.root { s with olen := 0 }).bind fun cur s =>
        (require (cur == s.root) .corruptStream 2 s).bind fun _ s =>
          (outAppend (s.obuf.take s.olen.toNat) s).bind fun _ s => .ok () { s with olen := 0 }

/-- The meaning of `DEC_STREAM`. -/
def execDecStream (s : State) : Host.Outcome State Fault Refusal := command runDecStream s

/-! ## Whole operations -/

/-- The heap, tree and code part of `COMPRESS` (45 R216), or its empty-input part. -/
def buildCodes : Proc Unit := fun s =>
  if 1 ≤ s.nsym.toNat then
    (runHpFill s).bind fun _ s =>
      (runTbBuild s).bind fun _ s => (runCgRun s).bind fun _ s => runTbFree s
  else
    (runTbFree s).bind fun _ s => .ok () (s.zeroCodes.setSingle false).setCtValid

/-- The output part of `COMPRESS` (45 R216). -/
def writeFile : Proc Unit := fun s =>
  (runHdrWrite s).bind fun _ s =>
    (runBwInit s).bind fun _ s =>
      (runEncStream s).bind fun _ s => (runBwFlush s).bind fun _ s => runTrlWrite s

/-- `COMPRESS` (45 R216) -/
def runCompress : Proc Unit := fun s =>
  (runFcRun { s with inPos := 0 }).bind fun _ s =>
    (runFqScale s).bind fun _ s =>
      (require (decide (s.nsym.toNat ≤ 255)) .alphabet256 (s.nsym.setWidth 64) s).bind fun _ s =>
        (buildCodes s).bind fun _ s => writeFile s

/-- The meaning of `COMPRESS`. -/
def execCompress (s : State) : Host.Outcome State Fault Refusal := command runCompress s

/-- The tree part of `DECOMPRESS` (45 R217). -/
def rebuildTree : Proc Unit := fun s =>
  if 1 ≤ s.nsym.toNat then (runHpFill s).bind fun _ s => runTbBuild s else runTbFree s

/-- `DECOMPRESS` (45 R217): the reader's limit is the size of the bitstream region. -/
def runDecompress : Proc Unit := fun s =>
  (runHdrRead s).bind fun _ s =>
    (rebuildTree s).bind fun _ s =>
      (runDecStream (s.initReader (word (s.inLen - 8 - s.inPos.toNat)))).bind fun _ s => runTbFree s

/-- The meaning of `DECOMPRESS`. -/
def execDecompress (s : State) : Host.Outcome State Fault Refusal := command runDecompress s

end Sys2Proof.Machine
end

