-- ==== Sys2Proof/Machine/System.lean ====
section
/-! DEFINITION. Machine/System.lean: the system family of spec 46: `NOP`, `CLR`. -/

namespace Sys2Proof.Machine

/-- `NOP` (46 R231): no state change. -/
def runNop : Proc Unit := fun s => .ok () s

/-- The meaning of `NOP`. -/
def execNop (s : State) : Host.Outcome State Fault Refusal := command runNop s

/-- The meaning of `CLR` (46 R232): accepted whether or not a fault is recorded (60 R243). -/
def execClr (s : State) : Host.Outcome State Fault Refusal := .next s.clear

end Sys2Proof.Machine
end

