-- ==== Sys2Proof/Machine/Dispatch.lean ====
section
/-! DEFINITION. Machine/Dispatch.lean: one arm per command (spec 30 R114), each one call of its meaning. -/

namespace Sys2Proof.Machine

def exec (i : Instr) (s : State) : Host.Outcome State Fault Refusal :=
  match i with
  | .nop => Sys2Proof.Machine.execNop s
  | .clr => Sys2Proof.Machine.execClr s
  | .fcRun => Sys2Proof.Machine.execFcRun s
  | .fqScale => Sys2Proof.Machine.execFqScale s
  | .hpCreate a => Sys2Proof.Machine.execHpCreate a s
  | .hpInsert a => Sys2Proof.Machine.execHpInsert a s
  | .hpExtract => Sys2Proof.Machine.execHpExtract s
  | .hpFill => Sys2Proof.Machine.execHpFill s
  | .ndLeaf a => Sys2Proof.Machine.execNdLeaf a s
  | .tbBuild => Sys2Proof.Machine.execTbBuild s
  | .tbFree => Sys2Proof.Machine.execTbFree s
  | .cgRun => Sys2Proof.Machine.execCgRun s
  | .bwInit => Sys2Proof.Machine.execBwInit s
  | .bwWrite a => Sys2Proof.Machine.execBwWrite a s
  | .bwFlush => Sys2Proof.Machine.execBwFlush s
  | .brInit => Sys2Proof.Machine.execBrInit s
  | .brRead => Sys2Proof.Machine.execBrRead s
  | .hdrWrite => Sys2Proof.Machine.execHdrWrite s
  | .hdrRead => Sys2Proof.Machine.execHdrRead s
  | .encStream => Sys2Proof.Machine.execEncStream s
  | .trlWrite => Sys2Proof.Machine.execTrlWrite s
  | .decStream => Sys2Proof.Machine.execDecStream s
  | .compress => Sys2Proof.Machine.execCompress s
  | .decompress => Sys2Proof.Machine.execDecompress s

end Sys2Proof.Machine
end

