-- ==== Sys2Proof/Machine/Port.lean ====
section
/-! DEFINITION. Machine/Port.lean: the host's register port (spec 10 R21, R50 to R52), the host's other actions (20 R96),
and the assembler directives of 30 R118 that stand for them. -/

namespace Sys2Proof.Machine

/-- A register of the map of 10 R50, or a number the map does not list. -/
inductive PortReg where
  | cmd
  | status
  | err
  | errinfo
  | arg0
  | res
  | nsym
  | divisor
  | totalBits
  | root
  | nalloc
  | hsize
  | hmax
  | wpos
  | wtotal
  | rpos
  | rfill
  | rtotal
  | rlimit
  | olen
  | inPos
  | inLen
  | outLen
  | outCap
  | bufBytes
  | ft (c : Byte)
  | sft (c : Byte)
  | ctPat (c : Byte)
  | ctLen (c : Byte)
  | heap (i : Byte)
  /-- `NODE[h].w` -/
  | nodeW (h : Handle)
  /-- `NODE[h].sym :: r :: l` -/
  | nodeLinks (h : Handle)
  | unmapped
  deriving DecidableEq, Repr

/-- The scalar registers of 10 R50 by number. -/
def scalarReg : Nat → PortReg
  | 0x0000 => .cmd
  | 0x0001 => .status
  | 0x0002 => .err
  | 0x0003 => .errinfo
  | 0x0004 => .arg0
  | 0x0005 => .res
  | 0x0008 => .nsym
  | 0x0009 => .divisor
  | 0x000A => .totalBits
  | 0x000B => .root
  | 0x000C => .nalloc
  | 0x000D => .hsize
  | 0x000E => .hmax
  | 0x0010 => .wpos
  | 0x0011 => .wtotal
  | 0x0012 => .rpos
  | 0x0013 => .rfill
  | 0x0014 => .rtotal
  | 0x0015 => .rlimit
  | 0x0016 => .olen
  | 0x0018 => .inPos
  | 0x0019 => .inLen
  | 0x001A => .outLen
  | 0x001B => .outCap
  | 0x001C => .bufBytes
  | _ => .unmapped

/-- The table registers of 10 R50: `base + entry`. -/
def tableReg (n : Nat) : PortReg :=
  let c := BitVec.ofNat 8 (n % 256)
  if n < 0x0100 then .unmapped
  else if n < 0x0200 then .ft c
  else if n < 0x0300 then .sft c
  else if n < 0x0400 then .ctPat c
  else if n < 0x0500 then .ctLen c
  else if n < 0x0600 then .heap c
  else if n < 0x0800 then .unmapped
  else if n < 0x0800 + Config.nodeMax then .nodeW (BitVec.ofNat 9 (n - 0x0800))
  else if n < 0x0A00 then .unmapped
  else if n < 0x0A00 + Config.nodeMax then .nodeLinks (BitVec.ofNat 9 (n - 0x0A00))
  else .unmapped

/-- The register map of 10 R50. -/
def portReg (n : RegNum) : PortReg := if n.toNat < 0x0100 then scalarReg n.toNat else tableReg n.toNat

/-- What a `RegRead` returns: `known`, with the bits of `drawn` replaced by a draw (10 R52). -/
structure PortView where
  known : Word64
  drawn : Word64
  deriving DecidableEq, Repr

/-- A value read exactly. -/
def exactView (v : Word64) : PortView := ⟨v, 0⟩

/-- A draw of `w` bits (10 R52): any value of the entry's width. -/
def drawView (w : Nat) : PortView := ⟨0, (BitVec.allOnes w).setWidth 64⟩

/-- `v` when the condition holds, else a draw of its width. -/
def viewIf {w : Nat} (valid : Bool) (v : BitVec w) : PortView :=
  if valid then exactView (v.setWidth 64) else drawView w

/-- `NODE[h].sym :: NODE[h].r :: NODE[h].l`: l in bits 8:0, r in 17:9, sym in 25:18 (10 R44). -/
def nodeLinksWord (n : Node) : BitVec 26 := n.sym ++ n.r ++ n.l

/-- `HEAP[i]` may be read: `HEAP_VALID` and `i < HSIZE` (10 R52). -/
def State.heapEntryValid (s : State) (i : Byte) : Bool :=
  s.status.heapValid && decide (i.toNat < s.hsize.toNat)

/-- `NODE[h]` may be read: `h < NALLOC` (10 R52). -/
def State.nodeEntryValid (s : State) (h : Handle) : Bool := decide (h.toNat < s.nalloc.toNat)

/-- `RegRead` while no fault is recorded (10 R21, R50 to R52): zero-extended; an entry that is not valid is
a draw; `CMD` and an unmapped number read 0. -/
def State.viewNormal (s : State) : PortReg → PortView
  | .cmd => exactView 0
  | .status => exactView s.status.toWord
  | .err => exactView (s.err.setWidth 64)
  | .errinfo => exactView s.errinfo
  | .arg0 => exactView s.arg0
  | .res => exactView s.res
  | .nsym => exactView (s.nsym.setWidth 64)
  | .divisor => exactView s.divisor
  | .totalBits => exactView s.totalBits
  | .root => exactView (s.root.setWidth 64)
  | .nalloc => exactView (s.nalloc.setWidth 64)
  | .hsize => exactView (s.hsize.setWidth 64)
  | .hmax => exactView (s.hmax.setWidth 64)
  | .wpos => exactView s.wpos
  | .wtotal => exactView s.wtotal
  | .rpos => exactView s.rpos
  | .rfill => exactView s.rfill
  | .rtotal => exactView s.rtotal
  | .rlimit => exactView s.rlimit
  | .olen => exactView s.olen
  | .inPos => exactView s.inPos
  | .inLen => exactView (word s.inLen)
  | .outLen => exactView (word s.outLen)
  | .outCap => exactView s.outCap
  | .bufBytes => exactView s.bufBytes
  | .ft c => viewIf s.status.ftValid (symAt s.ft c)
  | .sft c => viewIf s.status.sftValid (symAt s.sft c)
  | .ctPat c => viewIf s.status.ctValid (symAt s.ctPat c)
  | .ctLen c => viewIf s.status.ctValid (symAt s.ctLen c)
  | .heap i => viewIf (s.heapEntryValid i) (heapAt s.heap i.toNat)
  | .nodeW h => viewIf (s.nodeEntryValid h) (nodeAt s.node h).w
  | .nodeLinks h => viewIf (s.nodeEntryValid h) (nodeLinksWord (nodeAt s.node h))
  | .unmapped => exactView 0

/-- `RegRead` while a fault is recorded (60 R242, 10 R52): the listed registers exactly, bit 0 of `STATUS`
reads 1 and its other bits are a draw (log 14), everything else a draw of its width. -/
def State.viewFaulted (s : State) : PortReg → PortView
  | .cmd => s.viewNormal .cmd
  | .status => ⟨1, 0x7FFE⟩
  | .err => s.viewNormal .err
  | .errinfo => s.viewNormal .errinfo
  | .arg0 => s.viewNormal .arg0
  | .res => drawView 64
  | .nsym => drawView 9
  | .divisor => drawView 64
  | .totalBits => drawView 64
  | .root => drawView 9
  | .nalloc => drawView 10
  | .hsize => drawView 9
  | .hmax => drawView 9
  | .wpos => drawView 64
  | .wtotal => drawView 64
  | .rpos => drawView 64
  | .rfill => drawView 64
  | .rtotal => drawView 64
  | .rlimit => drawView 64
  | .olen => drawView 64
  | .inPos => s.viewNormal .inPos
  | .inLen => s.viewNormal .inLen
  | .outLen => s.viewNormal .outLen
  | .outCap => s.viewNormal .outCap
  | .bufBytes => s.viewNormal .bufBytes
  | .ft _ => drawView 64
  | .sft _ => drawView 8
  | .ctPat _ => drawView 64
  | .ctLen _ => drawView 8
  | .heap _ => drawView 9
  | .nodeW _ => drawView 64
  | .nodeLinks _ => drawView 26
  | .unmapped => s.viewNormal .unmapped

/-- What a `RegRead` of register number `n` may return. -/
def State.view (s : State) (n : RegNum) : PortView :=
  if s.status.fault then s.viewFaulted (portReg n) else s.viewNormal (portReg n)

/-- The value of a view at draw number `tick` (log 6). -/
def PortView.value (v : PortView) (tick : Nat) : Word64 :=
  v.known ||| (Config.freeBits 64 tick 0 &&& v.drawn)

/-- `RegRead(n)`: the host gets the value; the machine changes in nothing but the draw (20 R87). -/
def State.regRead (n : RegNum) (s : State) : State :=
  let v := s.view n
  if v.drawn = 0 then { s with portOut := some v.known }
  else { s with portOut := some (v.value s.freeCount), freeCount := s.freeCount + 1 }

/-- `RegWrite(n, v)` to a register other than `CMD` (10 R51): `ARG0`, `IN_POS`, `OUT_CAP` take the value,
even while a fault is recorded; anything else changes nothing. -/
def State.regWrite (n : RegNum) (v : Word64) (s : State) : State :=
  match portReg n with
  | .arg0 => { s with arg0 := v }
  | .inPos => { s with inPos := v }
  | .outCap => { s with outCap := v }
  | _ => s

/-- The command word of a `RegWrite` to `CMD`: its low 32 bits (10 R24). -/
def cmdWord (v : Word64) : Word32 := v.setWidth 32

/-- Replace `IN` (20 R96); a stream whose length no `IN_LEN` can hold stops the model (log 9). -/
def replaceInput (bytes : List Byte) (s : State) : Host.Outcome State Fault Refusal :=
  if bytes.length < 2 ^ 64 then .next { s with input := bytes } else .fault .inputTooLong

/-- Discard `OUT` (20 R96). -/
def State.discardOutput (s : State) : State := { s with output := [] }

/-! ## The directives of 30 R118 -/

/-- A command in a listing (30 R117): the host's write of its word to `CMD`. -/
def listCommand (i : Instr) : HostAction := .regWrite 0x0000 ((encode i).setWidth 64)

/-- `SET ARG0, v` -/
def listSetArg0 (v : Word64) : HostAction := .regWrite 0x0004 v

/-- `SEEK v` -/
def listSeek (v : Word64) : HostAction := .regWrite 0x0018 v

/-- `CAP v` -/
def listCap (v : Word64) : HostAction := .regWrite 0x001B v

/-- `INPUT b0 b1 ...` -/
def listInput (bytes : List Byte) : HostAction := .replaceIn bytes

/-- `DISCARD` -/
def listDiscard : HostAction := .discardOut

/-- `EXPECT reg = v`: the `RegRead` whose value the listing states. -/
def listExpect (n : RegNum) : HostAction := .regRead n

/-- The word the host writes to `CMD` for the table's `nbits` bits `w`, the bits above them zero (30 R110). -/
def fetchWrite (nbits w : Nat) : HostAction := .regWrite 0x0000 (word (w % 2 ^ nbits))

end Sys2Proof.Machine
end

