-- ==== Sys2Proof/Machine/Step.lean ====
section
/-! DEFINITION. Machine/Step.lean: one step: the host's next action (spec 00 R6, 20 R96). -/

namespace Sys2Proof.Machine

/-- A command word written to `CMD` (30 R112): the command it encodes, or an illegal word. -/
def runWord (w : Word32) (s : State) : Host.Outcome State Fault Refusal :=
  match decode w with
  | .ok i => exec i s
  | .error _ => illegalWord w s

/-- One host action (20 R96, log 1). -/
def perform (a : HostAction) (s : State) : Host.Outcome State Fault Refusal :=
  match a with
  | .regRead n => .next (s.regRead n)
  | .regWrite n v => if portReg n = .cmd then runWord (cmdWord v) s else .next (s.regWrite n v)
  | .replaceIn bytes => replaceInput bytes s
  | .discardOut => .next s.discardOutput
  | .reset => .next s.resetAgain

/-- One step: the host's next action; with none to come the block is idle and nothing changes (70 R280,
46 R234). -/
def step (s : State) : Host.Outcome State Fault Refusal :=
  match s.pending with
  | [] => .next s
  | a :: rest => perform a { s with pending := rest }

/-- `s` with the host about to write the command word to `CMD` (log 1): the next step runs it. -/
def State.withFetchWord (s : State) (nbits w : Nat) : State :=
  { s with pending := fetchWrite nbits w :: s.pending }

end Sys2Proof.Machine
end

