-- ==== Sys2Proof/Safety.lean ====
section
/-! DEFINITION. Safety.lean: the terms the statements use: a run without a recorded fault, the invariants of spec 10
(R33 to R45, R54), the bits a buffer and a code stand for (00 R12, 20 R82), and the tree an arena holds (10 R44). -/

namespace Sys2Proof.Machine

/-- No fault is recorded (60 R240). -/
abbrev State.NoFault (s : State) : Prop := s.status.fault = false

/-- The step stops the model (log 9: the host would place a stream no `IN_LEN` can hold). -/
abbrev State.Stops (s : State) : Prop := ∃ bytes rest, s.pending = .replaceIn bytes :: rest ∧ 2 ^ 64 ≤ bytes.length

/-- The record a first `raise` leaves (60 R241): the code, the detail, `STATUS.FAULT`; nothing else moves. -/
def State.faulted (s : State) (code info : Nat) : State :=
  { s with
    err := BitVec.ofNat 8 code
    errinfo := BitVec.ofNat 64 info
    status := { s.status with fault := true } }

/-- What a `RegRead` that is a draw of `w` bits leaves (10 R52): nothing is known of the value but its width. -/
def State.drawn (s : State) (w : Nat) : State :=
  { s with
    portOut := some (Config.freeBits 64 s.freeCount 0 &&& BitVec.ofNat 64 (2 ^ w - 1))
    freeCount := s.freeCount + 1 }

/-- The host's actions one after another (20 R92, R96). -/
def performAll : List HostAction → State → Host.Outcome State Fault Refusal
  | [], s => .next s
  | a :: rest, s =>
    match perform a s with
    | .next t => performAll rest t
    | .fault r => .fault r
    | .refused r => .refused r

/-- Commands one after another (20 R92). -/
def execAll : List Instr → State → Host.Outcome State Fault Refusal
  | [], s => .next s
  | i :: rest, s =>
    match exec i s with
    | .next t => execAll rest t
    | .fault r => .fault r
    | .refused r => .refused r

/-! ## Words and register numbers -/

/-- The words of the 20 Z-format commands (30 R114). -/
def zWords : List Word32 :=
  [0x00, 0x01, 0x10, 0x11, 0x22, 0x23, 0x31, 0x32, 0x40, 0x50, 0x52, 0x58, 0x59, 0x60, 0x61, 0x62, 0x63, 0x64,
    0x68, 0x69]

/-- An A-format word in the match and mask form of 30 R114. -/
abbrev AWord (w : Word32) (op : Word32) (amax : Nat) : Prop :=
  w &&& 0xFFF000FF#32 = op ∧ ((w >>> 8) &&& 0xFFF#32).toNat ≤ amax

/-- The words of the 24 commands (30 R112, R114). -/
abbrev LegalWord (w : Word32) : Prop :=
  w ∈ zWords ∨ AWord w 0x20 256 ∨ AWord w 0x21 510 ∨ AWord w 0x30 255 ∨ AWord w 0x51 64

/-- A number the register map of 10 R50 does not list. -/
abbrev UnmappedReg (n : Nat) : Prop :=
  n = 0x0006 ∨ n = 0x0007 ∨ n = 0x000F ∨ n = 0x0017 ∨ (0x001D ≤ n ∧ n < 0x0100) ∨ (0x0600 ≤ n ∧ n < 0x0800) ∨
  n = 0x09FF ∨ 0x0BFF ≤ n

/-- The preconditions of 60 R250: what each command requires before it does anything. -/
abbrev State.Precondition (s : State) : Instr → Prop
  | .fqScale => s.status.ftValid = true
  | .hpInsert a => s.status.heapValid = true ∧ a.toNat < s.nalloc.toNat
  | .hpExtract => s.status.heapValid = true
  | .hpFill => s.status.sftValid = true
  | .tbBuild => s.status.heapValid = true ∧ 1 ≤ s.hsize.toNat
  | .cgRun => s.root ≠ 0x1FF
  | .bwWrite _ => s.status.bwValid = true
  | .bwFlush => s.status.bwValid = true
  | .brRead => s.status.brValid = true
  | .hdrWrite => s.status.sftValid = true
  | .encStream => s.status.ctValid = true ∧ s.status.bwValid = true
  | .trlWrite => s.status.bwValid = true
  | .decStream =>
    (s.status.hdrValid = true ∧ s.status.brValid = true) ∧ (s.totalBits = 0 ∨ s.root ≠ 0x1FF)
  | .nop => True
  | .clr => True
  | .fcRun => True
  | .hpCreate _ => True
  | .ndLeaf _ => True
  | .tbFree => True
  | .bwInit => True
  | .brInit => True
  | .hdrRead => True
  | .compress => True
  | .decompress => True

/-! ## The heap and the arena -/

/-- `HEAP[0 .. HSIZE-1]` (10 R43). -/
def State.heapList (s : State) : List Handle := (List.range s.hsize.toNat).map (heapAt s.heap)

/-- Index `j` is index `i` or above it on the way to the root (41 R141): the parent of `i` is `(i + 1) / 2 - 1`. -/
abbrev OnPath (j i : Nat) : Prop := ∃ k, (i + 1) / 2 ^ k = j + 1

/-- `NODE[h].w` as a natural. -/
def State.weight (s : State) (h : Handle) : Nat := (nodeAt s.node h).w.toNat

/-- The heap invariant (10 R43, R54 c): no existing child is strictly smaller than its parent. -/
abbrev State.HeapOrdered (s : State) : Prop :=
  ∀ i < s.hsize.toNat,
    (2 * i + 1 < s.hsize.toNat → posLt s.node s.heap (2 * i + 1) i = false) ∧
    (2 * i + 2 < s.hsize.toNat → posLt s.node s.heap (2 * i + 2) i = false)

/-- A valid arena entry (10 R44, R54 b and d): a leaf, or two children of smaller handles whose weights add
up to its own, with the sentinel symbol. -/
abbrev State.NodeOk (s : State) (h : Nat) : Prop :=
  let n := nodeAt s.node (BitVec.ofNat 9 h)
  (n.l = Config.null ∧ n.r = Config.null) ∨
  (n.l.toNat < h ∧ n.r.toNat < h ∧ n.sym = Config.internalSym ∧ n.w.toNat = s.weight n.l + s.weight n.r)

/-! ## Bits -/

/-- The bits of a byte in stream order (00 R12). -/
def byteBits (x : Byte) : List Bool := (List.range 8).map fun k => x.getLsbD (7 - k)

/-- The bits of a byte sequence in stream order (00 R12). -/
def streamBits (bytes : List Byte) : List Bool := bytes.flatMap byteBits

/-- The low `len` bits of a pattern, most significant first (20 R82 a). -/
def codeBits (pat : Word64) (len : Nat) : List Bool := (List.range len).reverse.map fun k => pat.getLsbD k

/-- The code of a symbol in the code table (10 R42, 43 R175 b). -/
def State.codeOf (s : State) (c : Byte) : List Bool := codeBits (symAt s.ctPat c) (symAt s.ctLen c).toNat

/-- The bits accepted but not yet in `OUT` (10 R45). -/
def State.writerBits (s : State) : List Bool := (streamBits s.wbuf).take s.wpos.toNat

/-- Every bit of `WBUF` at a position `WPOS` or above is 0 (10 R45). -/
abbrev State.WriterClean (s : State) : Prop := ∀ b ∈ (streamBits s.wbuf).drop s.wpos.toNat, b = false

/-- The bit writer is in order between commands (10 R34, R45). -/
abbrev State.WriterOk (s : State) : Prop :=
  s.bufBytes ≠ 0 ∧ s.wbuf.length = s.bufBytes.toNat ∧ s.wpos.toNat < 8 * s.bufBytes.toNat ∧
  s.wpos.toNat ≤ s.wtotal.toNat ∧ s.WriterClean

/-- The bit reader is in order (10 R35, R46), its stream one an `IN_LEN` can describe. -/
abbrev State.ReaderOk (s : State) : Prop :=
  s.bufBytes ≠ 0 ∧ s.rbuf.length = s.bufBytes.toNat ∧ s.rfill.toNat ≤ s.bufBytes.toNat ∧
  s.rpos.toNat ≤ 8 * s.rfill.toNat ∧ s.rpos.toNat ≤ s.rtotal.toNat ∧ s.input.length < 2 ^ 64

/-- The bits the reader has yet to return (44 R192). -/
def State.readerBits (s : State) : List Bool :=
  ((streamBits s.rbuf).take (8 * s.rfill.toNat)).drop s.rpos.toNat ++
    streamBits (s.unread.take s.rlimit.toNat)

/-- `bytes` are `bits` packed first bit first, the last byte padded with zeros (44 R185). -/
abbrev Packs (bytes : List Byte) (bits : List Bool) : Prop :=
  bytes.length = ceilDiv bits.length 8 ∧
  streamBits bytes = bits ++ List.replicate (8 * bytes.length - bits.length) false

/-! ## Invariants -/

/-- The ranges spec 10 gives the registers, the buffers' sizes, and `ERR` beside `STATUS.FAULT`: R25, R26, R28,
R32 to R35, R37 to R39, R45 to R47, 60 R245 (codes 4 and 15 up are never produced). They hold with or without a
recorded fault. -/
abbrev State.Bounds (s : State) : Prop :=
  s.bufBytes ≠ 0 ∧
  s.wbuf.length = s.bufBytes.toNat ∧ s.rbuf.length = s.bufBytes.toNat ∧ s.obuf.length = s.bufBytes.toNat ∧
  s.input.length < 2 ^ 64 ∧ s.output.length < 2 ^ 64 ∧
  (s.status.fault = true ↔ s.err ≠ 0) ∧ s.err.toNat ≤ 14 ∧ s.err ≠ Err.ioRead.code ∧
  s.nsym.toNat ≤ 256 ∧ s.nalloc.toNat ≤ 511 ∧ s.hsize.toNat ≤ s.hmax.toNat ∧ s.hmax.toNat ≤ 256 ∧
  s.wpos.toNat ≤ 8 * s.bufBytes.toNat ∧ s.wpos.toNat ≤ s.wtotal.toNat ∧
  s.rfill.toNat ≤ s.bufBytes.toNat ∧ s.rpos.toNat ≤ 8 * s.rfill.toNat ∧ s.rpos.toNat ≤ s.rtotal.toNat

/-- The arena, the heap and the root fit together: 10 R31, R43, R44, R54 b, c, d. They hold with or without a
recorded fault. -/
abbrev State.ArenaOk (s : State) : Prop :=
  (s.root = Config.null ∨ s.root.toNat < s.nalloc.toNat) ∧
  (∀ h ∈ s.heapList, h.toNat < s.nalloc.toNat) ∧
  (∀ h < s.nalloc.toNat, s.NodeOk h) ∧
  s.HeapOrdered

/-- What spec 10 says of valid tables and idle units while no fault is recorded: R28, R34, R36, R42, R45. -/
abbrev State.Settled (s : State) : Prop :=
  s.NoFault →
    s.wpos.toNat < 8 * s.bufBytes.toNat ∧ s.olen = 0 ∧
    (s.status.sftValid = true → s.nsym.toNat = presentCount s.sft) ∧
    (s.status.ctValid = true →
      ∀ c : Byte, (symAt s.ctLen c).toNat ≤ 64 ∧ (symAt s.ctPat c).toNat < 2 ^ (symAt s.ctLen c).toNat) ∧
    (s.status.bwValid = true → s.WriterClean)

/-! ## Trees and codes -/

/-- A strict binary tree: what an arena holds under a handle (10 R44). -/
inductive HTree where
  | leaf (sym : Byte)
  | node (l r : HTree)
  deriving DecidableEq, Repr

/-- The arena holds the tree under the handle. -/
def HTree.At (arena : Vector Node 511) : HTree → Handle → Prop
  | .leaf c, h => (nodeAt arena h).isLeaf = true ∧ (nodeAt arena h).sym = c
  | .node l r, h =>
    (nodeAt arena h).isLeaf = false ∧ HTree.At arena l (nodeAt arena h).l ∧ HTree.At arena r (nodeAt arena h).r

/-- Each leaf's symbol with its path from the root, left = 0, right = 1 (43 R170, R175 e), left first. -/
def HTree.codes : HTree → List (Byte × List Bool)
  | .leaf c => [(c, [])]
  | .node l r =>
    (l.codes.map fun p => (p.1, false :: p.2)) ++ (r.codes.map fun p => (p.1, true :: p.2))

/-- The depth of the deepest leaf. -/
def HTree.depth : HTree → Nat
  | .leaf _ => 0
  | .node l r => max l.depth r.depth + 1

/-- What a left-first walk that stops below depth `k` visits, in order, each with its path: the leaves, with
their symbols, and the internal nodes at depth `k`, with none (43 R171, R172). -/
def HTree.visits : (k : Nat) → HTree → List (Option Byte × List Bool)
  | _, .leaf c => [(some c, [])]
  | 0, .node _ _ => [(none, [])]
  | k + 1, .node l r =>
    ((HTree.visits k l).map fun v => (v.1, false :: v.2)) ++ ((HTree.visits k r).map fun v => (v.1, true :: v.2))

/-- The handle a path leads to, left = 0, right = 1 (43 R170). -/
def handleAt (arena : Vector Node 511) : Handle → List Bool → Handle
  | h, [] => h
  | h, b :: p => handleAt arena (if b then (nodeAt arena h).r else (nodeAt arena h).l) p

/-- The bits that lead from the root to the leaves of these symbols, one after another; none when a symbol
has no leaf. -/
def HTree.encode (t : HTree) : List Byte → Option (List Bool)
  | [] => some []
  | c :: cs =>
    match t.codes.lookup c, t.encode cs with
    | some p, some bs => some (p ++ bs)
    | none, _ => none
    | _, none => none

/-! ## The container (45 R200) -/

/-- The present symbols of a scaled table in ascending order. -/
def presentSymbols (sft : Vector Byte 256) : List Byte := allSymbols.filter fun c => symAt sft c != 0

/-- The count byte and the pairs of a scaled table (45 R203). -/
def headerBytes (n : Nat) (sft : Vector Byte 256) : List Byte :=
  BitVec.ofNat 8 n :: (presentSymbols sft).flatMap fun c => [c, symAt sft c]

/-- Symbol and frequency of pair `i` of a container (20 R83, 45 R200). -/
def pairSym (file : List Byte) (i : Nat) : Byte := file.getD (1 + 2 * i) 0

/-- See `pairSym`. -/
def pairFreq (file : List Byte) (i : Nat) : Byte := file.getD (2 + 2 * i) 0

/-- The count byte of a container. -/
def countField (file : List Byte) : Nat := (file.getD 0 0).toNat

/-- The trailer of a container, little-endian (20 R81). -/
def trailerField (file : List Byte) : Nat := unLe64 (file.drop (file.length - 8))

/-- The pairs' conditions of 60 R247, reasons 3 and 4, up to pair `n`. -/
abbrev PairsOk (file : List Byte) (n : Nat) : Prop :=
  (∀ i < n, pairFreq file i ≠ 0) ∧ (∀ i < n, ∀ j < i, pairSym file j ≠ pairSym file i)

/-- A container `HDR_READ` accepts (45 R205, 60 R247: none of the six reasons). -/
abbrev ContainerOk (file : List Byte) : Prop :=
  1 + 2 * countField file + 8 ≤ file.length ∧ PairsOk file (countField file) ∧
  ceilDiv (trailerField file) 8 ≤ file.length - 9 - 2 * countField file ∧
  (countField file ≠ 0 ∨ trailerField file = 0)

/-! ## Who may set and clear a flag -/

/-- Across the step from `s` to `t` by a command with this mnemonic the flag goes from 0 to 1 only if the
command is one of `setters` and from 1 to 0 only if it is one of `clearers` (10 R25). -/
abbrev FlagMoves (mnemonic : String) (s t : State) (flag : Status → Bool) (setters clearers : List String) : Prop :=
  (mnemonic ∉ setters → flag s.status = false → flag t.status = false) ∧
  (mnemonic ∉ clearers → flag s.status = true → flag t.status = true)

/-! ## The fault matrix -/

/-- The codes a command can record (60 R246). -/
def mayRaise : Instr → List Err
  | .nop => []
  | .clr => []
  | .fcRun => []
  | .hpCreate _ => []
  | .tbFree => []
  | .bwInit => []
  | .brInit => []
  | .fqScale => [.state]
  | .hpInsert _ => [.state, .heapFull]
  | .hpExtract => [.state, .heapEmpty]
  | .hpFill => [.state]
  | .ndLeaf _ => [.alloc]
  | .tbBuild => [.state, .alloc, .overflow]
  | .cgRun => [.state, .dupSymbol, .codeLen]
  | .bwWrite _ => [.state, .ioWrite, .overflow]
  | .bwFlush => [.state, .ioWrite]
  | .brRead => [.state, .overflow]
  | .hdrWrite => [.state, .alphabet256, .ioWrite]
  | .hdrRead => [.corruptHeader]
  | .encStream => [.state, .noCode, .ioWrite, .overflow]
  | .trlWrite => [.state, .ioWrite]
  | .decStream => [.state, .corruptStream, .ioWrite]
  | .compress => [.alphabet256, .ioWrite, .overflow]
  | .decompress => [.corruptHeader, .corruptStream, .ioWrite]

end Sys2Proof.Machine
end

