-- ==== Sys2Proof/Certificates/Slice0/Obligations.lean ====
section
/-! DEFINITION. Certificates/Slice0/Obligations.lean: the statements for the provers, in the order of the spec's files. -/

open Sys2Proof Sys2Proof.Machine

/-! ## Encoding (spec 30) -/

/-- 30 R111, R112, R114: every well-formed command is what the decoder reads from its word. -/
def Obligations.DecodeOfEncode : Prop := ∀ i : Instr, i.wellFormed = true → decode (encode i) = .ok i

/-- 30 R111, R112, R114: a word the decoder accepts is the word of its command, which is well-formed. -/
def Obligations.EncodeOfDecode : Prop :=
  ∀ (w : Word32) (i : Instr), decode w = .ok i → encode i = w ∧ i.wellFormed = true

/-- 30 R119: the worked encodings and the worked illegal words. -/
def Obligations.WorkedEncodings : Prop :=
  decode 0x00000000 = .ok .nop ∧ decode 0x00000001 = .ok .clr ∧ decode 0x00000010 = .ok .fcRun ∧
  decode 0x00000620 = .ok (.hpCreate 6) ∧ decode 0x00010020 = .ok (.hpCreate 256) ∧
  decode 0x00000321 = .ok (.hpInsert 3) ∧ decode 0x0001FE21 = .ok (.hpInsert 510) ∧
  decode 0x00006130 = .ok (.ndLeaf 0x61) ∧ decode 0x00000951 = .ok (.bwWrite 9) ∧
  decode 0x00004051 = .ok (.bwWrite 64) ∧ decode 0x00000068 = .ok .compress ∧
  decode 0x00000069 = .ok .decompress ∧
  decode 0x00000002 = .error .unlistedOpcode ∧ decode 0x00100000 = .error .topBitsSet ∧
  decode 0x00000110 = .error .operandOnZ ∧ decode 0x00010120 = .error .immediateTooLarge ∧
  decode 0x0001FF21 = .error .immediateTooLarge ∧ decode 0x00010030 = .error .immediateTooLarge ∧
  decode 0x00004151 = .error .immediateTooLarge

/-- 30 R115, R112, R114: the words of the 24 commands are the only ones accepted; any other, while no fault is
recorded, does nothing but raise `BadCmd` with the word as detail. (That the registers 60 R242 leaves unspecified after
the fault keep their values is the model's record, log 7.) -/
def Obligations.IllegalWords : Prop :=
  ∀ w : Word32,
    (LegalWord w → ∃ i, decode w = .ok i) ∧
    (¬ LegalWord w →
      (∀ i, decode w ≠ .ok i) ∧ ∀ s : State, s.NoFault → runWord w s = .next (s.faulted 9 w.toNat))

/-! ## The port and the gate (spec 10, 20 R96, 60 R243) -/

/-- 10 R24: a write to `CMD` executes the command its low 32 bits encode; `CMD` reads 0, whether or not a fault
is recorded. (That a step takes the host's next action from `pending` is the model's choice, log 1. That `CMD` reads 0
also while a fault is recorded is a deduction, log 6: 10 R24 has no condition, but the list of exact reads in 10 R52 does
not name `CMD`. What else a read leaves, `portOut`, is log 6 too.) -/
def Obligations.CommandWrite : Prop :=
  ∀ (s : State) (v : Word64) (rest : List HostAction),
    s.pending = .regWrite 0x0000 v :: rest →
      (∀ i, decode (v.setWidth 32) = .ok i → step s = exec i { s with pending := rest }) ∧
      (∀ e, decode (v.setWidth 32) = .error e →
        step s = illegalWord (v.setWidth 32) { s with pending := rest }) ∧
      s.regRead 0x0000 = { s with portOut := some 0 }

/-- 60 R243, R241, 10 R26: while a fault is recorded only the word 0x00000001 changes the machine, the three
registers the host owns can be written, and only `CLR` or reset removes the fault. -/
def Obligations.FaultGate : Prop :=
  ∀ s : State, s.status.fault = true →
    (∀ w : Word32, w ≠ 0x00000001 → runWord w s = .next s) ∧
    (∃ t, runWord 0x00000001 s = .next t ∧ t.NoFault ∧ t.err = 0) ∧
    (∀ v, perform (.regWrite 0x0004 v) s = .next { s with arg0 := v }) ∧
    (∀ v, perform (.regWrite 0x0018 v) s = .next { s with inPos := v }) ∧
    (∀ v, perform (.regWrite 0x001B v) s = .next { s with outCap := v }) ∧
    (∀ a t, perform a s = .next t → t.NoFault →
      a = .reset ∨ ∃ v : Word64, a = .regWrite 0x0000 v ∧ v.setWidth 32 = 0x00000001#32)

/-- 10 R51: an unmapped number reads 0; a write to a number other than `CMD` takes effect on `ARG0`, `IN_POS`,
`OUT_CAP` alone and raises nothing, with or without a recorded fault. (That an unmapped number reads 0 also while a
fault is recorded is a deduction, log 6.) -/
def Obligations.PortWrite : Prop :=
  ∀ (s : State) (n : RegNum) (v : Word64),
    (UnmappedReg n.toNat → s.regRead n = { s with portOut := some 0 }) ∧
    (n ≠ 0x0000 → perform (.regWrite n v) s =
      .next (if n = 0x0004 then { s with arg0 := v }
        else if n = 0x0018 then { s with inPos := v }
        else if n = 0x001B then { s with outCap := v }
        else s))

/-- 10 R21, R22 to R39, R50: without a recorded fault every scalar register reads its value, zero-extended, and the
read changes nothing else; bit by bit for `STATUS` (10 R25). -/
def Obligations.PortReadScalars : Prop :=
  ∀ s : State, s.NoFault →
    (∀ p ∈ ([(0x0001, s.status.toWord), (0x0002, s.err.setWidth 64), (0x0003, s.errinfo), (0x0004, s.arg0),
        (0x0005, s.res), (0x0008, s.nsym.setWidth 64), (0x0009, s.divisor), (0x000A, s.totalBits),
        (0x000B, s.root.setWidth 64), (0x000C, s.nalloc.setWidth 64), (0x000D, s.hsize.setWidth 64),
        (0x000E, s.hmax.setWidth 64), (0x0010, s.wpos), (0x0011, s.wtotal), (0x0012, s.rpos),
        (0x0013, s.rfill), (0x0014, s.rtotal), (0x0015, s.rlimit), (0x0016, s.olen), (0x0018, s.inPos),
        (0x0019, BitVec.ofNat 64 s.input.length), (0x001A, BitVec.ofNat 64 s.output.length),
        (0x001B, s.outCap), (0x001C, s.bufBytes)] : List (RegNum × Word64)),
      s.regRead p.1 = { s with portOut := some p.2 }) ∧
    ∀ k, s.status.toWord.getLsbD k =
      if k = 0 then s.status.fault else if k = 1 then s.status.single else if k = 8 then s.status.ftValid
      else if k = 9 then s.status.sftValid else if k = 10 then s.status.heapValid
      else if k = 11 then s.status.ctValid else if k = 12 then s.status.hdrValid
      else if k = 13 then s.status.bwValid else if k = 14 then s.status.brValid else false

/-- 10 R40 to R44, R50, R52: without a recorded fault a table entry reads its value when it is valid and a draw of its
width when it is not. -/
def Obligations.PortReadTables : Prop :=
  ∀ s : State, s.NoFault →
    (∀ c : Byte,
      s.regRead (0x0100 + c.setWidth 16) =
        (if s.status.ftValid then { s with portOut := some (symAt s.ft c) } else s.drawn 64) ∧
      s.regRead (0x0200 + c.setWidth 16) =
        (if s.status.sftValid then { s with portOut := some ((symAt s.sft c).setWidth 64) } else s.drawn 8) ∧
      s.regRead (0x0300 + c.setWidth 16) =
        (if s.status.ctValid then { s with portOut := some (symAt s.ctPat c) } else s.drawn 64) ∧
      s.regRead (0x0400 + c.setWidth 16) =
        (if s.status.ctValid then { s with portOut := some ((symAt s.ctLen c).setWidth 64) } else s.drawn 8) ∧
      s.regRead (0x0500 + c.setWidth 16) =
        (if s.status.heapValid = true ∧ c.toNat < s.hsize.toNat then
          { s with portOut := some ((heapAt s.heap c.toNat).setWidth 64) } else s.drawn 9)) ∧
    ∀ h : Handle, h.toNat ≤ 510 →
      s.regRead (0x0800 + h.setWidth 16) =
        (if h.toNat < s.nalloc.toNat then { s with portOut := some (nodeAt s.node h).w } else s.drawn 64) ∧
      s.regRead (0x0A00 + h.setWidth 16) =
        (if h.toNat < s.nalloc.toNat then
          { s with portOut := some (BitVec.ofNat 64 ((nodeAt s.node h).sym.toNat * 2 ^ 18 +
            (nodeAt s.node h).r.toNat * 2 ^ 9 + (nodeAt s.node h).l.toNat)) }
        else s.drawn 26)

/-- 60 R242, 10 R52: while a fault is recorded the listed registers read exactly, `STATUS` reads 1 in bit 0, and
every other register or table entry reads as a draw of its width. 10 R52, 20 R87: a read, with or without a fault,
changes nothing but what it returns and the draw. -/
def Obligations.PortReadFaulted : Prop :=
  ∀ s : State,
    (∀ n : RegNum, ∃ v k, k ≤ 1 ∧ s.regRead n = { s with portOut := some v, freeCount := s.freeCount + k }) ∧
    (s.status.fault = true →
      (∀ p ∈ ([(0x0002, s.err.setWidth 64), (0x0003, s.errinfo), (0x0004, s.arg0), (0x0018, s.inPos),
          (0x0019, BitVec.ofNat 64 s.input.length), (0x001A, BitVec.ofNat 64 s.output.length),
          (0x001B, s.outCap), (0x001C, s.bufBytes)] : List (RegNum × Word64)),
        s.regRead p.1 = { s with portOut := some p.2 }) ∧
      (∃ v : Word64, (s.regRead 0x0001).portOut = some v ∧ v.getLsbD 0 = true) ∧
      (∀ p ∈ ([(0x0005, 64), (0x0008, 9), (0x0009, 64), (0x000A, 64), (0x000B, 9), (0x000C, 10), (0x000D, 9),
          (0x000E, 9), (0x0010, 64), (0x0011, 64), (0x0012, 64), (0x0013, 64), (0x0014, 64), (0x0015, 64),
          (0x0016, 64)] : List (RegNum × Nat)), s.regRead p.1 = s.drawn p.2) ∧
      (∀ c : Byte, ∀ p ∈ ([(0x0100, 64), (0x0200, 8), (0x0300, 64), (0x0400, 8), (0x0500, 9)] :
          List (RegNum × Nat)), s.regRead (p.1 + c.setWidth 16) = s.drawn p.2) ∧
      ∀ h : Handle, h.toNat ≤ 510 →
        s.regRead (0x0800 + h.setWidth 16) = s.drawn 64 ∧ s.regRead (0x0A00 + h.setWidth 16) = s.drawn 26)

/-! ## Reset and the system family (spec 10 R53, 70, 46) -/

/-- 10 R53, 70 R280, R281: the values the spec gives for reset, and that every table entry then reads as a draw; a reset
of a running machine is the three writes to `ARG0`, `IN_POS`, `OUT_CAP` followed by `CLR`. (The
contents of the tables and buffers, of `IN` and `OUT`, and `BUF_BYTES` are the model's choices, log 2, 3, 4, and no part
of this.) -/
def Obligations.ResetValues : Prop :=
  State.reset.status = ⟨false, false, false, false, false, false, false, false, false⟩ ∧
  State.reset.err = 0 ∧ State.reset.errinfo = 0 ∧ State.reset.arg0 = 0 ∧ State.reset.res = 0 ∧
  State.reset.nsym = 0 ∧ State.reset.divisor = 0 ∧ State.reset.totalBits = 0 ∧ State.reset.root = 0x1FF ∧
  State.reset.nalloc = 0 ∧ State.reset.hsize = 0 ∧ State.reset.hmax = 0 ∧ State.reset.wpos = 0 ∧
  State.reset.wtotal = 0 ∧ State.reset.rpos = 0 ∧ State.reset.rfill = 0 ∧ State.reset.rtotal = 0 ∧
  State.reset.rlimit = 0 ∧ State.reset.olen = 0 ∧ State.reset.inPos = 0 ∧
  State.reset.outCap.toNat = 2 ^ 64 - 1 ∧
  (∀ c : Byte, ∀ p ∈ ([(0x0100, 64), (0x0200, 8), (0x0300, 64), (0x0400, 8), (0x0500, 9)] :
    List (RegNum × Nat)), State.reset.regRead (p.1 + c.setWidth 16) = State.reset.drawn p.2) ∧
  (∀ h : Handle, h.toNat ≤ 510 →
    State.reset.regRead (0x0800 + h.setWidth 16) = State.reset.drawn 64 ∧
    State.reset.regRead (0x0A00 + h.setWidth 16) = State.reset.drawn 26) ∧
  ∀ s : State, perform .reset s =
    exec .clr { s with arg0 := 0, inPos := 0, outCap := BitVec.ofNat 64 (2 ^ 64 - 1) }

/-- 46 R232: `CLR`, in any state, gives every register of the block its reset value, makes every table entry read as
a draw, leaves the host's registers and streams, and its outcome depends on nothing else (but the model's own
fields). -/
def Obligations.ClrResult : Prop :=
  decode 0x00000001 = .ok .clr ∧
  ∀ s : State, ∃ t, exec .clr s = .next t ∧
    t.status = ⟨false, false, false, false, false, false, false, false, false⟩ ∧
    (t.err = 0 ∧ t.errinfo = 0 ∧ t.res = 0 ∧ t.nsym = 0 ∧ t.divisor = 0 ∧ t.totalBits = 0) ∧
    (t.root = 0x1FF ∧ t.nalloc = 0 ∧ t.hsize = 0 ∧ t.hmax = 0) ∧
    (t.wpos = 0 ∧ t.wtotal = 0 ∧ t.rpos = 0 ∧ t.rfill = 0 ∧ t.rtotal = 0 ∧ t.rlimit = 0 ∧ t.olen = 0) ∧
    (t.arg0 = s.arg0 ∧ t.inPos = s.inPos ∧ t.outCap = s.outCap ∧ t.input = s.input ∧ t.output = s.output ∧
      t.bufBytes = s.bufBytes) ∧
    (∀ c : Byte, ∀ p ∈ ([(0x0100, 64), (0x0200, 8), (0x0300, 64), (0x0400, 8), (0x0500, 9)] :
      List (RegNum × Nat)), t.regRead (p.1 + c.setWidth 16) = t.drawn p.2) ∧
    (∀ h : Handle, h.toNat ≤ 510 →
      t.regRead (0x0800 + h.setWidth 16) = t.drawn 64 ∧ t.regRead (0x0A00 + h.setWidth 16) = t.drawn 26) ∧
    ∀ s' : State, s'.arg0 = s.arg0 → s'.inPos = s.inPos → s'.outCap = s.outCap → s'.input = s.input →
      s'.output = s.output → s'.bufBytes = s.bufBytes → s'.pending = s.pending → s'.portOut = s.portOut →
      s'.freeCount = s.freeCount → exec .clr s' = .next t

/-- 46 R231: `NOP` is the word 0x00000000 and changes nothing, with or without a recorded fault. -/
def Obligations.NopResult : Prop := decode 0x00000000 = .ok .nop ∧ ∀ s : State, exec .nop s = .next s

/-! ## Frequency (spec 40) -/

/-- 40 R131, R132: `FC_RUN` counts the bytes of `IN` from `IN_POS` on, sets `IN_POS` to 0, and the counts add up
to the bytes read. Nothing else changes. -/
def Obligations.FcRunResult : Prop :=
  decode 0x00000010 = .ok .fcRun ∧
  ∀ s : State, s.NoFault → s.input.length < 2 ^ 64 →
    ∃ t, exec .fcRun s = .next t ∧
      t = { s with ft := t.ft, inPos := 0, status := { s.status with ftValid := true } } ∧
      (∀ c : Byte, (symAt t.ft c).toNat = (s.input.drop s.inPos.toNat).count c) ∧
      (allSymbols.map fun c => (symAt t.ft c).toNat).sum =
        (if s.inPos.toNat < s.input.length then s.input.length - s.inPos.toNat else 0)

/-- 40 R134: `FQ_SCALE` with `m` the largest count: the divisor, the scaled table, the number of present symbols;
without a valid count it raises `State`. Nothing else changes. (That the registers 60 R242 leaves unspecified after the
fault keep their values is the model's record, log 7.) -/
def Obligations.FqScaleResult : Prop :=
  decode 0x00000011 = .ok .fqScale ∧
  ∀ (s : State) (m : Nat), s.NoFault →
    (s.status.ftValid = false → exec .fqScale s = .next (s.faulted 10 0x11)) ∧
    (s.status.ftValid = true → (∀ c, (symAt s.ft c).toNat ≤ m) → (∃ c, (symAt s.ft c).toNat = m) →
      ∃ t, exec .fqScale s = .next t ∧
        t = { s with
          divisor := t.divisor, sft := t.sft, nsym := t.nsym, status := { s.status with sftValid := true } } ∧
        t.divisor.toNat = max 1 ((m + 254) / 255) ∧
        (∀ c, (symAt t.sft c).toNat =
          if symAt s.ft c = 0 then 0 else max 1 ((symAt s.ft c).toNat / t.divisor.toNat)) ∧
        t.nsym.toNat = (allSymbols.filter fun c => symAt s.ft c != 0).length)

/-- 40 R133, R135: what scaling guarantees: present symbols stay present and fit a byte, small tables are copied, the
largest count scales to `maxf / D` and at least to 128, and the order is kept. -/
def Obligations.ScaleProperties : Prop :=
  ∀ s t : State, s.NoFault → s.status.ftValid = true → exec .fqScale s = .next t →
    (∀ c, symAt t.sft c = 0 ↔ symAt s.ft c = 0) ∧
    t.nsym.toNat = (allSymbols.filter fun c => symAt t.sft c != 0).length ∧
    ((∀ c, (symAt s.ft c).toNat ≤ 255) →
      t.divisor = 1 ∧ ∀ c, (symAt t.sft c).toNat = (symAt s.ft c).toNat) ∧
    (∀ c, (∀ d, (symAt s.ft d).toNat ≤ (symAt s.ft c).toNat) →
      (symAt t.sft c).toNat = (symAt s.ft c).toNat / t.divisor.toNat ∧
      (255 ≤ (symAt s.ft c).toNat → 128 ≤ (symAt t.sft c).toNat)) ∧
    (∀ a b, (symAt s.ft a).toNat ≤ (symAt s.ft b).toNat → (symAt t.sft a).toNat ≤ (symAt t.sft b).toNat)

/-! ## Heap (spec 41) -/

/-- 41 R143: `HP_CREATE a` makes an empty heap of capacity `a`; only `HEAP`'s entries, then unspecified, change
besides. -/
def Obligations.HpCreateResult : Prop :=
  ∀ (s : State) (a : BitVec 12), s.NoFault → a.toNat ≤ 256 →
    decode (0x20#32 ||| a.setWidth 32 <<< 8) = .ok (.hpCreate a) ∧
    ∃ t, exec (.hpCreate a) s = .next t ∧
      t = { s with
        hsize := 0, hmax := t.hmax, heap := t.heap, status := { s.status with heapValid := true }
        freeCount := s.freeCount + 1 } ∧
      t.hmax.toNat = a.toNat

/-- 41 R144, R145: `HP_INSERT a`. `RES` is the index where the handle comes to rest on the path from index
`HSIZE` to the root: every smaller-keyed place above it is passed, what stood there moves one place down, nothing else
moves. A full heap raises `HeapFull` and changes nothing. (That the registers 60 R242 leaves unspecified after the fault
keep their values is the model's record, log 7.) -/
def Obligations.HpInsertResult : Prop :=
  ∀ (s : State) (a : BitVec 12), s.NoFault → s.status.heapValid = true → a.toNat < s.nalloc.toNat →
    s.nalloc.toNat ≤ 511 → s.hmax.toNat ≤ 256 →
    (s.hmax.toNat ≤ s.hsize.toNat → exec (.hpInsert a) s = .next (s.faulted 2 s.hmax.toNat)) ∧
    (s.hsize.toNat < s.hmax.toNat →
      ∃ t, exec (.hpInsert a) s = .next t ∧
        t = { s with heap := t.heap, hsize := t.hsize, res := t.res } ∧
        t.hsize.toNat = s.hsize.toNat + 1 ∧
        OnPath t.res.toNat s.hsize.toNat ∧
        heapAt t.heap t.res.toNat = a.setWidth 9 ∧
        (∀ j, OnPath j s.hsize.toNat → t.res.toNat < j →
          heapAt t.heap j = heapAt s.heap ((j - 1) / 2) ∧
          keyLt (nodeAt s.node (a.setWidth 9)) (nodeAt s.node (heapAt s.heap ((j - 1) / 2))) = true) ∧
        (0 < t.res.toNat →
          keyLt (nodeAt s.node (a.setWidth 9)) (nodeAt s.node (heapAt s.heap ((t.res.toNat - 1) / 2))) = false) ∧
        (∀ j < s.hsize.toNat, ¬ (OnPath j s.hsize.toNat ∧ t.res.toNat ≤ j) → heapAt t.heap j = heapAt s.heap j))

/-- 41 R147, R148: `HP_EXTRACT`. `RES` is the handle that was at index 0; the last handle sinks from the root along
the path of the smaller children (the left one on a tie) to the first place none of whose children is strictly smaller.
Nothing else moves. An empty heap raises `HeapEmpty` and changes nothing. (That the registers 60 R242 leaves unspecified after the fault
keep their values is the model's record, log 7.) -/
def Obligations.HpExtractResult : Prop :=
  ∀ s : State, s.NoFault → s.status.heapValid = true → s.hsize.toNat ≤ 256 →
    let n := s.hsize.toNat - 1
    let less := fun i j : Nat => keyLt (nodeAt s.node (heapAt s.heap i)) (nodeAt s.node (heapAt s.heap j))
    (s.hsize = 0 → exec .hpExtract s = .next (s.faulted 3 0)) ∧
    (s.hsize ≠ 0 →
      ∃ t, exec .hpExtract s = .next t ∧
        t = { s with heap := t.heap, hsize := t.hsize, res := (heapAt s.heap 0).setWidth 64 } ∧
        t.hsize.toNat = n ∧
        (0 < n → ∃ r < n,
          heapAt t.heap r = heapAt s.heap n ∧
          (∀ j, OnPath j r → 0 < j →
            heapAt t.heap ((j - 1) / 2) = heapAt s.heap j ∧ less j n = true ∧
            ∀ k < n, 0 < k → (k - 1) / 2 = (j - 1) / 2 → (less k j = false ∧ (k < j → less j k = true))) ∧
          (∀ k < n, 0 < k → (k - 1) / 2 = r → less k n = false) ∧
          (∀ j < n, ¬ OnPath j r → heapAt t.heap j = heapAt s.heap j)))

/-- 41 R149 (a), (b): insert and extract keep the elements and the heap order, and extract returns an element no
remaining one is strictly smaller than. -/
def Obligations.HeapOrderKept : Prop :=
  ∀ s t : State, s.NoFault → t.NoFault → s.hmax.toNat ≤ 256 → s.nalloc.toNat ≤ 511 →
    (∀ a, exec (.hpInsert a) s = .next t →
      t.heapList.Perm (a.setWidth 9 :: s.heapList) ∧ (s.HeapOrdered → t.HeapOrdered)) ∧
    (exec .hpExtract s = .next t → s.hsize.toNat ≤ 256 →
      s.heapList.Perm (t.res.setWidth 9 :: t.heapList) ∧
      (s.HeapOrdered → t.HeapOrdered ∧
        ∀ h ∈ t.heapList, keyLt (nodeAt s.node h) (nodeAt s.node (t.res.setWidth 9)) = false))

/-- 41 R150: `HP_FILL` releases the old tree and makes one leaf per present symbol in ascending order, the k-th with
handle k, in an ordered heap of capacity `NSYM` that is then full. -/
def Obligations.HpFillResult : Prop :=
  ∀ s : State, s.NoFault → s.status.sftValid = true → s.nsym.toNat = presentCount s.sft →
    ∃ t, exec .hpFill s = .next t ∧
      t = { s with
        node := t.node, nalloc := t.nalloc, root := 0x1FF, heap := t.heap, hsize := s.nsym, hmax := s.nsym
        status := { s.status with heapValid := true }, freeCount := s.freeCount + 2 } ∧
      t.nalloc.toNat = s.nsym.toNat ∧
      (∀ k (h : k < (presentSymbols s.sft).length),
        nodeAt t.node (BitVec.ofNat 9 k) =
          ⟨(presentSymbols s.sft)[k], (symAt s.sft (presentSymbols s.sft)[k]).setWidth 64, 0x1FF, 0x1FF⟩) ∧
      t.heapList.Perm ((List.range s.nsym.toNat).map (BitVec.ofNat 9)) ∧
      t.HeapOrdered

/-! ## Tree (spec 42) -/

/-- 42 R160, R161: `ND_LEAF a` makes the leaf with handle `NALLOC`, symbol `a` and weight `ARG0`; with 511
entries allocated it raises `Alloc` and changes nothing. (That the registers 60 R242 leaves unspecified after the fault
keep their values is the model's record, log 7.) -/
def Obligations.NdLeafResult : Prop :=
  ∀ (s : State) (a : BitVec 12), s.NoFault → a.toNat ≤ 255 → s.nalloc.toNat ≤ 511 →
    decode (0x30#32 ||| a.setWidth 32 <<< 8) = .ok (.ndLeaf a) ∧
    (s.nalloc.toNat = 511 → exec (.ndLeaf a) s = .next (s.faulted 1 511)) ∧
    (s.nalloc.toNat < 511 →
      ∃ t, exec (.ndLeaf a) s = .next t ∧
        t = { s with node := t.node, nalloc := t.nalloc, res := s.nalloc.setWidth 64 } ∧
        t.nalloc.toNat = s.nalloc.toNat + 1 ∧
        nodeAt t.node (s.nalloc.setWidth 9) = ⟨a.setWidth 8, s.arg0, 0x1FF, 0x1FF⟩ ∧
        ∀ h : Handle, h ≠ s.nalloc.setWidth 9 → nodeAt t.node h = nodeAt s.node h)

/-- 42 R162, R163, R164: `TB_BUILD` on two elements or more is one merge round (extract a, extract b, a new node over
left a and right b with the sum of their weights, insert it) followed by `TB_BUILD`; on one element it makes that
element the root. `Alloc` and `Overflow` come from the round's new node. (What `HEAP`, `HSIZE`, `RES` and the rest hold
after these faults, beyond what 60 R242 calls exact, is the model's record, log 7.) -/
def Obligations.TbBuildRound : Prop :=
  ∀ s s1 s2 : State, s.NoFault → s.status.heapValid = true → s.hsize.toNat ≤ s.hmax.toNat →
    s.hmax.toNat ≤ 256 → s.nalloc.toNat ≤ 511 → exec .hpExtract s = .next s1 → exec .hpExtract s1 = .next s2 →
    (s.hsize.toNat = 1 → exec .tbBuild s = .next { s1 with res := s.res, root := s1.res.setWidth 9 }) ∧
    (2 ≤ s.hsize.toNat →
      let a : Handle := s1.res.setWidth 9
      let b : Handle := s2.res.setWidth 9
      let sum := s.weight a + s.weight b
      (s.nalloc.toNat = 511 → exec .tbBuild s = .next ({ s2 with res := s.res }.faulted 1 511)) ∧
      (s.nalloc.toNat < 511 → 2 ^ 64 ≤ sum → exec .tbBuild s = .next ({ s2 with res := s.res }.faulted 11 1)) ∧
      (s.nalloc.toNat < 511 → sum < 2 ^ 64 →
        ∃ t, exec (.hpInsert (s.nalloc.setWidth 12))
            { s2 with
              node := s2.node.setIfInBounds s.nalloc.toNat ⟨0xFF, BitVec.ofNat 64 sum, a, b⟩
              nalloc := s.nalloc + 1 } = .next t ∧
          t.NoFault ∧ exec .tbBuild s = exec .tbBuild { t with res := s.res }))

/-- 42 R162, R165: `TB_BUILD` from a heap of leaves, with arena and weights in range, completes: a strict binary tree
over exactly the heap's leaves, n - 1 new internal nodes whose weights are the sums of their children's, the last one the
root, whose weight is the sum of all leaf weights; the heap is left created and empty. -/
def Obligations.TbBuildResult : Prop :=
  ∀ s : State, s.NoFault → s.status.heapValid = true → 1 ≤ s.hsize.toNat → s.hsize.toNat ≤ s.hmax.toNat →
    s.hmax.toNat ≤ 256 → s.nalloc.toNat + s.hsize.toNat ≤ 512 →
    (∀ h ∈ s.heapList, h.toNat < s.nalloc.toNat ∧ (nodeAt s.node h).isLeaf = true) →
    (s.heapList.map s.weight).sum < 2 ^ 64 →
    ∃ t tree, exec .tbBuild s = .next t ∧
      t = { s with node := t.node, nalloc := t.nalloc, heap := t.heap, hsize := 0, root := t.root } ∧
      t.nalloc.toNat = s.nalloc.toNat + (s.hsize.toNat - 1) ∧
      t.root.toNat = (if s.hsize.toNat = 1 then (heapAt s.heap 0).toNat else t.nalloc.toNat - 1) ∧
      (∀ h : Handle, h.toNat < s.nalloc.toNat → nodeAt t.node h = nodeAt s.node h) ∧
      (∀ h, s.nalloc.toNat ≤ h → h < t.nalloc.toNat →
        t.NodeOk h ∧ (nodeAt t.node (BitVec.ofNat 9 h)).isLeaf = false) ∧
      HTree.At t.node tree t.root ∧
      (tree.codes.map Prod.fst).Perm (s.heapList.map fun h => (nodeAt s.node h).sym) ∧
      t.weight t.root = (s.heapList.map s.weight).sum

/-- 00 R9 (a), (b): on the path `HP_FILL`, `TB_BUILD` no fault occurs, no node weighs more than 65280, and no leaf is
deeper than 22. -/
def Obligations.DepthBound : Prop :=
  ∀ s : State, s.NoFault → s.status.sftValid = true → s.nsym.toNat = presentCount s.sft → 1 ≤ s.nsym.toNat →
    ∃ t u, exec .hpFill s = .next t ∧ exec .tbBuild t = .next u ∧ t.NoFault ∧ u.NoFault ∧ u.root ≠ 0x1FF ∧
      (∀ h : Handle, h.toNat < u.nalloc.toNat → u.weight h ≤ 65280) ∧
      ∃ tree, HTree.At u.node tree u.root ∧ tree.depth ≤ 22

/-- 42 R166: `TB_FREE` releases arena, tree and heap; only their entries, then unspecified, change besides. -/
def Obligations.TbFreeResult : Prop :=
  decode 0x00000032 = .ok .tbFree ∧
  ∀ s : State, s.NoFault →
    ∃ t, exec .tbFree s = .next t ∧
      t = { s with
        nalloc := 0, root := 0x1FF, hsize := 0, hmax := 0, status := { s.status with heapValid := false }
        node := t.node, heap := t.heap, freeCount := s.freeCount + 2 }

/-! ## Code generator (spec 43) -/

/-- 43 R171, R173: `CG_RUN` with a leaf for its root gives that symbol the one-bit code 0 and reports `SINGLE`. -/
def Obligations.CgRunLeaf : Prop :=
  ∀ s : State, s.NoFault → s.root ≠ 0x1FF → (nodeAt s.node s.root).isLeaf = true →
    ∃ t, exec .cgRun s = .next t ∧
      t = { s with
        ctPat := t.ctPat, ctLen := t.ctLen, status := { s.status with single := true, ctValid := true } } ∧
      ∀ c, symAt t.ctPat c = 0 ∧ symAt t.ctLen c = if c = (nodeAt s.node s.root).sym then 1 else 0

/-- 43 R171: `CG_RUN` over a tree of distinct symbols no deeper than 64 gives every leaf's symbol its path from the
root, left 0 and right 1, and every other symbol length 0. -/
def Obligations.CgRunTree : Prop :=
  ∀ (s : State) (tree : HTree), s.NoFault → s.root ≠ 0x1FF → (nodeAt s.node s.root).isLeaf = false →
    HTree.At s.node tree s.root → tree.depth ≤ 64 → (tree.codes.map Prod.fst).Nodup →
    ∃ t, exec .cgRun s = .next t ∧
      t = { s with
        ctPat := t.ctPat, ctLen := t.ctLen, status := { s.status with single := false, ctValid := true } } ∧
      (∀ p ∈ tree.codes, t.codeOf p.1 = p.2 ∧ (symAt t.ctLen p.1).toNat = p.2.length ∧
        (symAt t.ctPat p.1).toNat < 2 ^ p.2.length) ∧
      ∀ c, c ∉ tree.codes.map Prod.fst → symAt t.ctLen c = 0 ∧ symAt t.ctPat c = 0

/-- 43 R175: the code table `CG_RUN` leaves when it does not fault: one code per leaf, prefix-free, complete, patterns
within their lengths, each code the path to its symbol's leaf; for a leaf root (a) and (d) and the one-bit code 0. -/
def Obligations.CodeTableProperties : Prop :=
  ∀ s t : State, s.NoFault → exec .cgRun s = .next t → t.NoFault →
    let present := allSymbols.filter fun c => symAt t.ctLen c != 0
    ∃ tree, HTree.At s.node tree s.root ∧
      present.length = tree.codes.length ∧
      (∀ c, (symAt t.ctLen c).toNat ≤ 64 ∧ (symAt t.ctPat c).toNat < 2 ^ (symAt t.ctLen c).toNat) ∧
      ((nodeAt s.node s.root).isLeaf = true → present.map t.codeOf = [[false]]) ∧
      ((nodeAt s.node s.root).isLeaf = false →
        (∀ a ∈ present, ∀ b ∈ present, a ≠ b → ¬ t.codeOf a <+: t.codeOf b) ∧
        (present.map fun c => 2 ^ (64 - (symAt t.ctLen c).toNat)).sum = 2 ^ 64 ∧
        ∀ c ∈ present, (c, t.codeOf c) ∈ tree.codes)

/-- 43 R171, R172, R174: over a tree that is deeper than 64 or has a symbol at two leaves, or both, `CG_RUN` stops at the
first visit of its left-first walk that is an internal node at depth 64 or a leaf whose symbol an earlier leaf had: the
first raises `CodeLen` with that node's handle, the second `DupSymbol` with the symbol. (`SINGLE`, and that nothing else
changes but the code table and the fault record, is the model's record of what 60 R242 leaves unspecified, log 7.) -/
def Obligations.CgRunFaults : Prop :=
  ∀ (s : State) (tree : HTree), s.NoFault → s.root ≠ 0x1FF → (nodeAt s.node s.root).isLeaf = false →
    HTree.At s.node tree s.root →
    (64 < tree.depth ∨ ¬ (tree.codes.map Prod.fst).Nodup) →
    ∃ t pre sym path post, exec .cgRun s = .next t ∧
      t = { s with
        ctPat := t.ctPat, ctLen := t.ctLen, status := { s.status with single := false, fault := true }
        err := t.err, errinfo := t.errinfo } ∧
      HTree.visits 64 tree = pre ++ (sym, path) :: post ∧
      (∀ v ∈ pre, v.1 ≠ none) ∧ (pre.map Prod.fst).Nodup ∧
      ((sym = none ∧ path.length = 64 ∧ (nodeAt s.node (handleAt s.node s.root path)).isLeaf = false ∧
          t.err = 12 ∧ t.errinfo = (handleAt s.node s.root path).setWidth 64) ∨
        (∃ c, sym = some c ∧ sym ∈ pre.map Prod.fst ∧ t.err = 14 ∧ t.errinfo = c.setWidth 64))

/-! ## Bit writer and reader (spec 44) -/

/-- 44 R180: `BW_INIT` zeroes the buffer and both counters; pending bits are dropped. -/
def Obligations.BwInitResult : Prop :=
  decode 0x00000050 = .ok .bwInit ∧
  ∀ s : State, s.NoFault → exec .bwInit s = .next { s with
    wbuf := List.replicate s.bufBytes.toNat 0, wpos := 0, wtotal := 0
    status := { s.status with bwValid := true } }

/-- 44 R181, R182, R183: `BW_WRITE a` appends the low `a` bits of `ARG0`, most significant first, to the bits the
writer holds; each time the buffer fills it goes to `OUT` whole. `q` buffers fill; `OUT` has room for them. Where
`WTOTAL` would pass 2^64 - 1 the bits up to there are written and `Overflow(2)` is raised at the next one. -/
def Obligations.BwWriteResult : Prop :=
  ∀ (s : State) (a : BitVec 12), s.NoFault → s.status.bwValid = true → s.WriterOk → a.toNat ≤ 64 →
    (s.wtotal.toNat + a.toNat ≤ 2 ^ 64 - 1 →
      let q := (s.wpos.toNat + a.toNat) / (8 * s.bufBytes.toNat)
      (q ≠ 0 → s.output.length + q * s.bufBytes.toNat ≤ s.outCap.toNat) →
      ∃ t v, exec (.bwWrite a) s = .next t ∧
        t = { s with wbuf := t.wbuf, wpos := t.wpos, wtotal := t.wtotal, output := s.output ++ v } ∧
        t.WriterOk ∧ v.length = q * s.bufBytes.toNat ∧
        t.wtotal.toNat = s.wtotal.toNat + a.toNat ∧
        streamBits v ++ t.writerBits = s.writerBits ++ codeBits s.arg0 a.toNat) ∧
    (2 ^ 64 - 1 < s.wtotal.toNat + a.toNat →
      let q := (s.wpos.toNat + (2 ^ 64 - 1 - s.wtotal.toNat)) / (8 * s.bufBytes.toNat)
      (q ≠ 0 → s.output.length + q * s.bufBytes.toNat ≤ s.outCap.toNat) →
      ∃ t v, exec (.bwWrite a) s = .next t ∧ t.status.fault = true ∧ t.err = 11 ∧ t.errinfo = 2 ∧
        t.output = s.output ++ v ∧ v.length = q * s.bufBytes.toNat ∧ t.inPos = s.inPos ∧
        streamBits v <+: s.writerBits ++ codeBits s.arg0 a.toNat)

/-- 44 R184: `BW_FLUSH` appends the pending bits, padded with zeros to whole bytes, and empties the buffer; `WTOTAL`
is unchanged. A second flush, or any with nothing pending, appends nothing. -/
def Obligations.BwFlushResult : Prop :=
  ∀ s : State, s.NoFault → s.status.bwValid = true → s.WriterClean → s.wbuf.length = s.bufBytes.toNat →
    s.wpos.toNat ≤ 8 * s.bufBytes.toNat →
    (s.wpos ≠ 0 → s.output.length + (s.wpos.toNat + 7) / 8 ≤ s.outCap.toNat) →
    ∃ v, exec .bwFlush s = .next { s with
        output := s.output ++ v, wbuf := List.replicate s.bufBytes.toNat 0, wpos := 0 } ∧
      Packs v s.writerBits

/-- 44 R185: the bits of any sequence of `BW_WRITE`s between `BW_INIT` and one `BW_FLUSH` reach `OUT` in order,
first bit first, zero-padded to `ceil(|B| / 8)` bytes, whatever `BUF_BYTES` is, and `WTOTAL` is their number. -/
def Obligations.WriterGuarantee : Prop :=
  ∀ (s : State) (ws : List (Word64 × BitVec 12)), s.NoFault → s.bufBytes ≠ 0 → (∀ w ∈ ws, w.2.toNat ≤ 64) →
    let bits := ws.flatMap fun w => codeBits w.1 w.2.toNat
    bits.length ≤ 2 ^ 64 - 1 → s.output.length + (bits.length + 7) / 8 ≤ s.outCap.toNat →
    ∃ t v, performAll (listCommand .bwInit ::
        (ws.flatMap (fun w => [listSetArg0 w.1, listCommand (.bwWrite w.2)]) ++ [listCommand .bwFlush])) s
          = .next t ∧
      t.NoFault ∧ t.output = s.output ++ v ∧ Packs v bits ∧ t.wtotal.toNat = bits.length

/-- 44 R189: `BR_INIT` takes the limit from `ARG0` and starts with an empty buffer; `IN_POS` and `RBUF` keep. -/
def Obligations.BrInitResult : Prop :=
  decode 0x00000058 = .ok .brInit ∧
  ∀ s : State, s.NoFault → exec .brInit s = .next { s with
    rlimit := s.arg0, rfill := 0, rpos := 0, rtotal := 0, status := { s.status with brValid := true } }

/-- 44 R190, R191: `BR_READ` returns the next bit the reader holds or can fetch, refilling with the largest chunk
allowed only when its buffer is used up; with none left `RES` is -1 and nothing else changes. With a bit left and
`RTOTAL` at 2^64 - 1 it raises `Overflow(3)`, after the refill where one is due. -/
def Obligations.BrReadResult : Prop :=
  ∀ s : State, s.NoFault → s.status.brValid = true → s.ReaderOk →
    let n := min s.bufBytes.toNat (min s.rlimit.toNat (s.input.length - s.inPos.toNat))
    (s.readerBits = [] → exec .brRead s = .next { s with res := BitVec.allOnes 64 }) ∧
    (s.readerBits ≠ [] → s.rtotal.toNat = 2 ^ 64 - 1 →
      ∃ t, exec .brRead s = .next t ∧ t.status.fault = true ∧ t.err = 11 ∧ t.errinfo = 3 ∧ t.output = s.output ∧
        t.inPos.toNat = s.inPos.toNat + if s.rpos.toNat = 8 * s.rfill.toNat then n else 0) ∧
    ∀ b rest, s.readerBits = b :: rest → s.rtotal.toNat < 2 ^ 64 - 1 →
      ∃ t, exec .brRead s = .next t ∧
        t = { s with
          res := if b then 1 else 0, rpos := t.rpos, rtotal := t.rtotal, rbuf := t.rbuf, rfill := t.rfill
          rlimit := t.rlimit, inPos := t.inPos } ∧
        t.ReaderOk ∧ t.rtotal.toNat = s.rtotal.toNat + 1 ∧ t.readerBits = rest ∧
        (s.rpos.toNat ≠ 8 * s.rfill.toNat →
          t.rpos.toNat = s.rpos.toNat + 1 ∧ t.rbuf = s.rbuf ∧ t.rfill = s.rfill ∧ t.rlimit = s.rlimit ∧
          t.inPos = s.inPos) ∧
        (s.rpos.toNat = 8 * s.rfill.toNat →
          t.rpos = 1 ∧ t.rfill.toNat = n ∧ t.rlimit.toNat + n = s.rlimit.toNat ∧
          t.inPos.toNat = s.inPos.toNat + n ∧ t.rbuf.take n = (s.input.drop s.inPos.toNat).take n)

/-- 44 R192: after `BR_INIT`, the read number i returns stream bit i of the at most `ARG0` bytes of `IN` from
`IN_POS` on, and `SENTINEL` beyond them; `RTOTAL` counts the bits returned. -/
def Obligations.ReaderGuarantee : Prop :=
  ∀ (s : State) (i : Nat), s.NoFault → s.bufBytes ≠ 0 → s.rbuf.length = s.bufBytes.toNat →
    s.input.length < 2 ^ 64 → i + 1 < 2 ^ 64 →
    let bits := streamBits ((s.input.drop s.inPos.toNat).take s.arg0.toNat)
    ∃ t, performAll (listCommand .brInit :: List.replicate (i + 1) (listCommand .brRead)) s = .next t ∧
      t.NoFault ∧ t.rtotal.toNat = min (i + 1) bits.length ∧
      t.res = match bits[i]? with
        | some b => if b then 1 else 0
        | none => BitVec.allOnes 64

/-! ## Container (spec 45) -/

/-- 45 R203: `HDR_WRITE` appends the count byte and the pairs in ascending symbol order, and changes nothing else;
more than 255 symbols raise `Alphabet256` before any byte; where `OUT` has no room for all of it, what fits is appended
and `IoWrite` tells how many bytes of the refused append (the count byte, or a pair) did not fit. (That the registers 60
R242 leaves unspecified after `Alphabet256` keep their values is the model's record, log 7.) -/
def Obligations.HdrWriteResult : Prop :=
  ∀ s : State, s.NoFault → s.status.sftValid = true →
    (255 < s.nsym.toNat → exec .hdrWrite s = .next (s.faulted 7 s.nsym.toNat)) ∧
    (s.nsym.toNat ≤ 255 →
      let file := BitVec.ofNat 8 s.nsym.toNat :: (presentSymbols s.sft).flatMap fun c => [c, symAt s.sft c]
      let room := s.outCap.toNat - s.output.length
      (s.output.length + (1 + 2 * (presentSymbols s.sft).length) ≤ s.outCap.toNat →
        exec .hdrWrite s = .next { s with output := s.output ++ file }) ∧
      (s.outCap.toNat < s.output.length + (1 + 2 * (presentSymbols s.sft).length) →
        ∃ t, exec .hdrWrite s = .next t ∧ t.status.fault = true ∧ t.err = 5 ∧
          t.errinfo = (if room = 0 then 1 else BitVec.ofNat 64 (2 - (room - 1) % 2)) ∧
          t.output = s.output ++ file.take room ∧ t.inPos = s.inPos))

/-- 45 R205: `HDR_READ` on a container none of the six reasons rejects: the scaled table is the pairs and zero
elsewhere, `NSYM` the count byte, `TOTAL_BITS` the little-endian trailer, `IN_POS` just after the pairs. -/
def Obligations.HdrReadResult : Prop :=
  ∀ s : State, s.NoFault → ContainerOk s.input →
    ∃ t, exec .hdrRead s = .next t ∧
      t = { s with
        sft := t.sft, nsym := t.nsym, totalBits := t.totalBits, inPos := t.inPos
        status := { s.status with sftValid := true, hdrValid := true } } ∧
      t.nsym.toNat = countField s.input ∧ t.totalBits.toNat = trailerField s.input ∧
      t.inPos.toNat = 1 + 2 * countField s.input ∧
      (∀ i < countField s.input, symAt t.sft (pairSym s.input i) = pairFreq s.input i) ∧
      ∀ c, (∀ i < countField s.input, pairSym s.input i ≠ c) → symAt t.sft c = 0

/-- 60 R247: the six reasons of `CorruptHeader` in the order they are checked; nothing but the scaled table and the
fault record changes. (That the registers 60 R242 leaves unspecified after the fault keep their values is the model's
record, log 7.) -/
def Obligations.HdrReadRejects : Prop :=
  ∀ s : State, s.NoFault →
    let file := s.input
    let n := countField file
    let fails := fun reason : Nat => ∃ t, exec .hdrRead s = .next t ∧ t = { s.faulted 6 reason with sft := t.sft }
    (file = [] → fails 1) ∧
    (file ≠ [] → file.length < 1 + 2 * n + 8 → fails 2) ∧
    (1 + 2 * n + 8 ≤ file.length →
      (∀ i < n, PairsOk file i → pairFreq file i = 0 → fails 3) ∧
      (∀ i < n, PairsOk file i → pairFreq file i ≠ 0 → (∃ j < i, pairSym file j = pairSym file i) → fails 4) ∧
      (PairsOk file n → file.length - 9 - 2 * n < (trailerField file + 7) / 8 → fails 5) ∧
      (PairsOk file n → (trailerField file + 7) / 8 ≤ file.length - 9 - 2 * n → n = 0 → trailerField file ≠ 0 →
        fails 6))

/-- 45 R207: what `HDR_WRITE`, a bit stream, `BW_FLUSH` and `TRL_WRITE` put into an empty `OUT` is a container from
which `HDR_READ` reads back the same scaled table, the same count and the same total. (With no present symbol the
bit stream must be empty: a container without symbols cannot declare bits, 60 R247 reason 6.) -/
def Obligations.HeaderRoundTrip : Prop :=
  ∀ (s t u : State) (ws : List (Word64 × BitVec 12)), s.NoFault → s.bufBytes ≠ 0 → s.status.sftValid = true →
    s.output = [] → s.nsym.toNat = presentCount s.sft → (∀ w ∈ ws, w.2.toNat ≤ 64) →
    (s.nsym = 0 → ∀ w ∈ ws, w.2 = 0) →
    performAll (listCommand .hdrWrite :: listCommand .bwInit ::
      (ws.flatMap (fun w => [listSetArg0 w.1, listCommand (.bwWrite w.2)]) ++
        [listCommand .bwFlush, listCommand .trlWrite])) s = .next t →
    t.NoFault → u.NoFault → u.input = t.output →
    ∃ v, exec .hdrRead u = .next v ∧ v.NoFault ∧ v.sft = s.sft ∧ v.nsym = s.nsym ∧ v.totalBits = t.wtotal

/-- 45 R210: `ENC_STREAM` appends the code of every byte of `IN` from `IN_POS` on to the bits the writer holds and
moves `IN_POS` to the end; it does not flush. A byte without a code raises `NoCode` there. -/
def Obligations.EncStreamResult : Prop :=
  ∀ (s : State) (msg : List Byte), s.NoFault → s.status.ctValid = true → s.status.bwValid = true → s.WriterOk →
    s.input.length < 2 ^ 64 → (∀ c ∈ msg, symAt s.ctLen c ≠ 0) →
    let bits := msg.flatMap s.codeOf
    let q := (s.wpos.toNat + bits.length) / (8 * s.bufBytes.toNat)
    s.wtotal.toNat + bits.length ≤ 2 ^ 64 - 1 → (q ≠ 0 → s.output.length + q * s.bufBytes.toNat ≤ s.outCap.toNat) →
    (s.input.drop s.inPos.toNat = msg →
      ∃ t v, exec .encStream s = .next t ∧
        t = { s with
          inPos := t.inPos, wbuf := t.wbuf, wpos := t.wpos, wtotal := t.wtotal, output := s.output ++ v } ∧
        t.WriterOk ∧ t.inPos.toNat = s.inPos.toNat + msg.length ∧ v.length = q * s.bufBytes.toNat ∧
        t.wtotal.toNat = s.wtotal.toNat + bits.length ∧ streamBits v ++ t.writerBits = s.writerBits ++ bits) ∧
    (∀ c rest, s.input.drop s.inPos.toNat = msg ++ c :: rest → symAt s.ctLen c = 0 →
      ∃ t, exec .encStream s = .next t ∧ t.status.fault = true ∧ t.err = 13 ∧ t.errinfo = c.setWidth 64 ∧
        t.inPos.toNat = s.inPos.toNat + msg.length)

/-- 45 R211, 20 R81: `TRL_WRITE` appends `WTOTAL` as eight bytes, the least significant first, and changes nothing
else. -/
def Obligations.TrlWriteResult : Prop :=
  ∀ s : State, s.NoFault → s.status.bwValid = true → s.output.length + 8 ≤ s.outCap.toNat →
    ∃ v, exec .trlWrite s = .next { s with output := s.output ++ v } ∧ v.length = 8 ∧
      ∀ i (h : i < v.length), (v[i]).toNat = s.wtotal.toNat / 256 ^ i % 256

/-- 45 R214, 43 R173: `DEC_STREAM` over a tree emits the message whose codes the declared bits are; over a one-leaf tree
it emits that symbol once per bit; with no bit left to read it emits nothing. -/
def Obligations.DecStreamResult : Prop :=
  ∀ (s : State) (tree : HTree), s.NoFault → s.status.hdrValid = true → s.status.brValid = true → s.ReaderOk →
    s.obuf.length = s.bufBytes.toNat →
    (s.totalBits.toNat ≤ s.rtotal.toNat → s.totalBits = 0 ∨ s.root ≠ 0x1FF →
      exec .decStream s = .next { s with olen := 0 }) ∧
    (s.root ≠ 0x1FF → HTree.At s.node tree s.root →
      let writes := fun msg : List Byte =>
        ∃ t, exec .decStream s = .next t ∧
          t = { s with
            output := s.output ++ msg, obuf := t.obuf, olen := 0, rbuf := t.rbuf, rfill := t.rfill
            rpos := t.rpos, rlimit := t.rlimit, inPos := t.inPos, rtotal := s.totalBits } ∧
          t.ReaderOk ∧ t.readerBits = s.readerBits.drop (s.totalBits.toNat - s.rtotal.toNat)
      (∀ c n, tree = .leaf c → s.totalBits.toNat = s.rtotal.toNat + n → n ≤ s.readerBits.length →
        s.output.length + n ≤ s.outCap.toNat → writes (List.replicate n c)) ∧
      (∀ l r msg bits, tree = .node l r → tree.encode msg = some bits →
        s.totalBits.toNat = s.rtotal.toNat + bits.length → bits <+: s.readerBits →
        s.output.length + msg.length ≤ s.outCap.toNat → writes msg))

/-- 45 R214: `DEC_STREAM` raises `CorruptStream(1)` when the reader runs out before the declared count, and
`CorruptStream(2)` when the count ends inside a code; then only whole buffers have reached `OUT`. (The value of `RTOTAL`
after the fault, which 60 R242 leaves unspecified, is the model's record, log 7.) -/
def Obligations.DecStreamFaults : Prop :=
  ∀ (s : State) (tree : HTree), s.NoFault → s.status.hdrValid = true → s.status.brValid = true → s.ReaderOk →
    s.obuf.length = s.bufBytes.toNat → s.root ≠ 0x1FF → HTree.At s.node tree s.root →
    s.output.length + s.readerBits.length ≤ s.outCap.toNat →
    (s.rtotal.toNat + s.readerBits.length < s.totalBits.toNat →
      ∃ t, exec .decStream s = .next t ∧ t.status.fault = true ∧ t.err = 8 ∧ t.errinfo = 1 ∧
        t.rtotal.toNat = s.rtotal.toNat + s.readerBits.length) ∧
    (∀ msg bits c code tail, tree.encode msg = some bits → (c, code) ∈ tree.codes → tail <+: code → tail ≠ [] →
      tail ≠ code → (bits ++ tail) <+: s.readerBits →
      s.totalBits.toNat = s.rtotal.toNat + (bits ++ tail).length →
      ∃ t, exec .decStream s = .next t ∧ t.status.fault = true ∧ t.err = 8 ∧ t.errinfo = 2 ∧
        t.output = s.output ++ msg.take (s.bufBytes.toNat * (msg.length / s.bufBytes.toNat)))

/-- 45 R216, R200, R201: `COMPRESS` of an input that lacks some byte value, with room in `OUT`: it completes, appends
the container (count and pairs, the packed codes of all input bytes, the little-endian total), and leaves the end state
the rule gives; nothing outside the named fields changes. -/
def Obligations.CompressResult : Prop :=
  ∀ s : State, s.NoFault → s.bufBytes ≠ 0 → (∃ c, c ∉ s.input) → 22 * s.input.length < 2 ^ 64 →
    s.output.length + (519 + 3 * s.input.length) ≤ s.outCap.toNat →
    ∃ t body, exec .compress s = .next t ∧
      t = { s with
        ft := t.ft, sft := t.sft, ctPat := t.ctPat, ctLen := t.ctLen, nsym := t.nsym, divisor := t.divisor
        root := 0x1FF, nalloc := 0, hsize := 0, hmax := 0, node := t.node, heap := t.heap, wpos := 0
        wbuf := t.wbuf, wtotal := t.wtotal, inPos := BitVec.ofNat 64 s.input.length
        output := s.output ++ (headerBytes t.nsym.toNat t.sft ++ body ++ le64 t.wtotal)
        freeCount := t.freeCount
        status := { s.status with
          ftValid := true, sftValid := true, ctValid := true, heapValid := false, bwValid := true
          single := t.status.single } } ∧
      Packs body (s.input.flatMap t.codeOf) ∧
      t.wtotal.toNat = (s.input.flatMap t.codeOf).length ∧
      t.wtotal.toNat = (allSymbols.map fun c => s.input.count c * (symAt t.ctLen c).toNat).sum ∧
      (∀ c, (symAt t.ft c).toNat = s.input.count c) ∧
      t.nsym.toNat = presentCount t.sft ∧
      (t.status.single = true ↔ t.nsym = 1)

/-- 45 R216, R217, 00 R16: `COMPRESS` (with 1 to 255 symbols) and `DECOMPRESS` have the effect of their parts issued
one after another; the limit `BR_INIT` would take from `ARG0` is the size of the bitstream region. -/
def Obligations.CompositeSteps : Prop :=
  ∀ s u : State, s.NoFault →
    (execAll [.fcRun, .fqScale] { s with inPos := 0 } = .next u → 1 ≤ u.nsym.toNat → u.nsym.toNat ≤ 255 →
      exec .compress s =
        execAll [.hpFill, .tbBuild, .cgRun, .tbFree, .hdrWrite, .bwInit, .encStream, .bwFlush, .trlWrite] u) ∧
    (execAll [.hdrRead] s = .next u →
      ∃ v w x, execAll (if 1 ≤ u.nsym.toNat then [.hpFill, .tbBuild] else [.tbFree]) u = .next v ∧
        exec .brInit { v with arg0 := BitVec.ofNat 64 (v.input.length - 8 - v.inPos.toNat) } = .next w ∧
        execAll [.decStream, .tbFree] { w with arg0 := s.arg0 } = .next x ∧ exec .decompress s = .next x)

/-- 45 R218: for every input of at most 255 distinct byte values, `COMPRESS` into an empty `OUT` and then `DECOMPRESS`
of the result, each from any state without fault and for any buffer sizes, give the input back; with 256 distinct
values `COMPRESS` faults and appends nothing. -/
def Obligations.RoundTrip : Prop :=
  ∀ s : State, s.NoFault → s.bufBytes ≠ 0 → s.output = [] →
    ((∀ c, c ∈ s.input) → s.input.length < 2 ^ 64 →
      ∃ t, exec .compress s = .next t ∧ t.status.fault = true ∧ t.err = 7 ∧ t.output = []) ∧
    ((∃ c, c ∉ s.input) → 22 * s.input.length < 2 ^ 64 → 519 + 3 * s.input.length ≤ s.outCap.toNat →
      ∃ t, exec .compress s = .next t ∧ t.NoFault ∧
        ∀ u : State, u.NoFault → u.bufBytes ≠ 0 → u.rbuf.length = u.bufBytes.toNat →
          u.obuf.length = u.bufBytes.toNat → u.output = [] → u.input = t.output →
          s.input.length ≤ u.outCap.toNat →
          ∃ v, exec .decompress u = .next v ∧ v.NoFault ∧ v.output = s.input)

/-- 45 R202, R217, 43 R173: the empty input gives the nine zero bytes; a container without symbols decompresses to
nothing; a container of one symbol decompresses to that symbol once per declared bit. -/
def Obligations.SmallContainers : Prop :=
  ∀ s : State, s.NoFault → s.bufBytes ≠ 0 →
    (s.input = [] → s.output.length + 9 ≤ s.outCap.toNat →
      ∃ t, exec .compress s = .next t ∧ t.NoFault ∧ t.output = s.output ++ List.replicate 9 0 ∧ t.nsym = 0) ∧
    (ContainerOk s.input → s.input.length < 2 ^ 64 → s.rbuf.length = s.bufBytes.toNat →
      s.obuf.length = s.bufBytes.toNat →
      (countField s.input = 0 → ∃ t, exec .decompress s = .next t ∧ t.NoFault ∧ t.output = s.output) ∧
      (countField s.input = 1 → s.output.length + trailerField s.input ≤ s.outCap.toNat →
        ∃ t, exec .decompress s = .next t ∧ t.NoFault ∧
          t.output = s.output ++ List.replicate (trailerField s.input) (pairSym s.input 0)))

/-- 45 R216, 93 U1: `COMPRESS` of an input that holds all 256 byte values raises `Alphabet256(256)` with nothing
appended and `IN_POS` 0. (What `FT`, `SFT`, `NSYM`, `DIVISOR`, the two valid flags and the rest hold after the fault,
which 60 R242 leaves unspecified, is the model's record, log 7.) -/
def Obligations.Alphabet256Rejected : Prop :=
  ∀ s : State, s.NoFault → s.input.length < 2 ^ 64 → (∀ c, c ∈ s.input) →
    ∃ t, exec .compress s = .next t ∧
      t = { s with
        ft := t.ft, sft := t.sft, nsym := t.nsym, divisor := t.divisor, inPos := 0, err := 7, errinfo := 256
        status := { s.status with ftValid := true, sftValid := true, fault := true } }

/-! ## The whole machine -/

/-- 10 R53: the state after reset meets the invariants below. -/
def Obligations.ResetMeetsInvariants : Prop :=
  State.reset.Bounds ∧ State.reset.ArenaOk ∧ State.reset.Settled

/-- 10 R25, R26, R28, R32 to R39, R45 to R47, 60 R245: no step takes a register out of the range the spec gives it. (A
writer at rest, `Settled`, is what keeps `WPOS` in its range: 10 R34.) -/
def Obligations.BoundsKept : Prop := ∀ s t : State, s.Bounds → s.Settled → step s = .next t → t.Bounds

/-- 10 R31, R43, R44, R54 (b), (c), (d): no step leaves the arena, the heap and the root in disorder; the three
invariants together are kept by every step. -/
def Obligations.ArenaKept : Prop :=
  ∀ s t : State, s.Bounds → s.ArenaOk → s.Settled → step s = .next t → t.Bounds ∧ t.ArenaOk ∧ t.Settled

/-- 10 R28, R34, R36, R42, R45: between commands without a fault the tables are what their flags say and the writer
and the decoder are at rest. -/
def Obligations.SettledKept : Prop :=
  ∀ s t : State, s.Bounds → s.Settled → step s = .next t → t.Settled

/-- 60 R246: which command can record which fault. -/
def Obligations.FaultMatrix : Prop :=
  ∀ (i : Instr) (s t : State), i.wellFormed = true → s.NoFault → s.Bounds → s.ArenaOk → s.Settled →
    exec i s = .next t → t.NoFault ∨ ∃ e ∈ mayRaise i, t.err = e.code

/-- 60 R250: every command first checks what it consumes: if its precondition fails, `State` with its opcode is all
that happens; if it holds, the command does not raise `State`. (That the registers 60 R242 leaves unspecified after the
fault keep their values is the model's record, log 7.) -/
def Obligations.Preconditions : Prop :=
  ∀ (i : Instr) (s : State), i.wellFormed = true → s.NoFault → s.err = 0 →
    (¬ s.Precondition i → exec i s = .next (s.faulted 10 (opcode i).toNat)) ∧
    (s.Precondition i → ∀ t, exec i s = .next t → t.err ≠ 10)

/-- 10 R22, R25 to R38, R40 to R49, 20 R80, R88, 60 R246: which commands can change what, flag by flag for `STATUS`. No
command touches the host's registers, `IN` or `BUF_BYTES`; `OUT` only grows, never past `OUT_CAP`. (For a command that
faults, what it says of state 60 R242 leaves unspecified is about the model's record, log 7.) -/
def Obligations.WriteLists : Prop :=
  ∀ (i : Instr) (s t : State), exec i s = .next t →
    (t.arg0 = s.arg0 ∧ t.outCap = s.outCap ∧ t.bufBytes = s.bufBytes ∧ t.input = s.input ∧
      t.pending = s.pending ∧ t.portOut = s.portOut) ∧
    (∃ v, t.output = s.output ++ v ∧ (v ≠ [] → t.output.length ≤ s.outCap.toNat)) ∧
    (i.mnemonic ∉ ["BW_WRITE", "BW_FLUSH", "HDR_WRITE", "ENC_STREAM", "TRL_WRITE", "DEC_STREAM", "COMPRESS",
      "DECOMPRESS"] → t.output = s.output) ∧
    (i.mnemonic ∉ ["HP_INSERT", "HP_EXTRACT", "ND_LEAF", "BR_READ", "CLR"] → t.res = s.res) ∧
    (i.mnemonic ∉ ["FQ_SCALE", "HDR_READ", "COMPRESS", "DECOMPRESS", "CLR"] → t.nsym = s.nsym ∧ t.sft = s.sft) ∧
    (i.mnemonic ∉ ["FQ_SCALE", "COMPRESS", "CLR"] → t.divisor = s.divisor) ∧
    (i.mnemonic ∉ ["HDR_READ", "DECOMPRESS", "CLR"] → t.totalBits = s.totalBits) ∧
    (i.mnemonic ∉ ["TB_BUILD", "TB_FREE", "HP_FILL", "COMPRESS", "DECOMPRESS", "CLR"] → t.root = s.root) ∧
    (i.mnemonic ∉ ["ND_LEAF", "TB_BUILD", "TB_FREE", "HP_FILL", "COMPRESS", "DECOMPRESS", "CLR"] →
      t.nalloc = s.nalloc ∧ t.node = s.node) ∧
    (i.mnemonic ∉ ["HP_CREATE", "HP_INSERT", "HP_EXTRACT", "HP_FILL", "TB_BUILD", "TB_FREE", "COMPRESS",
      "DECOMPRESS", "CLR"] → t.hsize = s.hsize ∧ t.heap = s.heap) ∧
    (i.mnemonic ∉ ["HP_CREATE", "HP_FILL", "TB_FREE", "COMPRESS", "DECOMPRESS", "CLR"] → t.hmax = s.hmax) ∧
    (i.mnemonic ∉ ["BW_INIT", "BW_WRITE", "BW_FLUSH", "ENC_STREAM", "COMPRESS", "CLR"] →
      t.wpos = s.wpos ∧ t.wbuf = s.wbuf) ∧
    (i.mnemonic ∉ ["BW_INIT", "BW_WRITE", "ENC_STREAM", "COMPRESS", "CLR"] → t.wtotal = s.wtotal) ∧
    (i.mnemonic ∉ ["BR_INIT", "BR_READ", "DEC_STREAM", "DECOMPRESS", "CLR"] →
      t.rpos = s.rpos ∧ t.rfill = s.rfill ∧ t.rtotal = s.rtotal ∧ t.rlimit = s.rlimit ∧ t.rbuf = s.rbuf) ∧
    (i.mnemonic ∉ ["DEC_STREAM", "DECOMPRESS", "CLR"] → t.olen = s.olen ∧ t.obuf = s.obuf) ∧
    (i.mnemonic ∉ ["FC_RUN", "ENC_STREAM", "HDR_READ", "BR_READ", "DEC_STREAM", "COMPRESS", "DECOMPRESS"] →
      t.inPos = s.inPos) ∧
    (i.mnemonic ∉ ["FC_RUN", "COMPRESS", "CLR"] → t.ft = s.ft) ∧
    (i.mnemonic ∉ ["CG_RUN", "COMPRESS", "CLR"] → t.ctPat = s.ctPat ∧ t.ctLen = s.ctLen) ∧
    (i.mnemonic ≠ "CLR" → t.NoFault → t.err = s.err ∧ t.errinfo = s.errinfo) ∧
    (i.wellFormed = true → mayRaise i = [] → s.NoFault → t.NoFault) ∧
    (i.mnemonic ≠ "CLR" → s.status.fault = true → t = s) ∧
    FlagMoves i.mnemonic s t (·.single) ["CG_RUN", "COMPRESS"] ["CG_RUN", "COMPRESS", "CLR"] ∧
    FlagMoves i.mnemonic s t (·.ftValid) ["FC_RUN", "COMPRESS"] ["CLR"] ∧
    FlagMoves i.mnemonic s t (·.sftValid) ["FQ_SCALE", "HDR_READ", "COMPRESS", "DECOMPRESS"] ["CLR"] ∧
    FlagMoves i.mnemonic s t (·.heapValid) ["HP_CREATE", "HP_FILL", "COMPRESS", "DECOMPRESS"]
      ["TB_FREE", "COMPRESS", "DECOMPRESS", "CLR"] ∧
    FlagMoves i.mnemonic s t (·.ctValid) ["CG_RUN", "COMPRESS"] ["CLR"] ∧
    FlagMoves i.mnemonic s t (·.hdrValid) ["HDR_READ", "DECOMPRESS"] ["CLR"] ∧
    FlagMoves i.mnemonic s t (·.bwValid) ["BW_INIT", "COMPRESS"] ["CLR"] ∧
    FlagMoves i.mnemonic s t (·.brValid) ["BR_INIT", "DECOMPRESS"] ["CLR"]

/-- 20 R88: `OutAppend` appends what fits of its bytes and raises `IoWrite` with the number that did not. -/
def Obligations.OutAppendResult : Prop :=
  ∀ (s : State) (v : List Byte), s.NoFault →
    let room := if s.output.length ≤ s.outCap.toNat then s.outCap.toNat - s.output.length else 0
    (v.length ≤ room → outAppend v s = .ok () { s with output := s.output ++ v }) ∧
    (room < v.length →
      outAppend v s = .stop ({ s with output := s.output ++ v.take room }.faulted 5 (v.length - room)))

/-- 70 R298: `BUF_BYTES` and the buffers' contents decide nothing of what a whole operation that ends without fault
leaves in `OUT`, in the tables and in the counters. -/
def Obligations.BufferSizeHidden : Prop :=
  ∀ (s s' t t' : State), s.NoFault → s.bufBytes ≠ 0 → s'.bufBytes ≠ 0 → s.input.length < 2 ^ 64 →
    s' = { s with bufBytes := s'.bufBytes, wbuf := s'.wbuf, rbuf := s'.rbuf, obuf := s'.obuf } →
    t.NoFault → t'.NoFault →
    (exec .compress s = .next t → exec .compress s' = .next t' →
      t.output = t'.output ∧ t.ft = t'.ft ∧ t.sft = t'.sft ∧ t.ctPat = t'.ctPat ∧ t.ctLen = t'.ctLen ∧
      t.wtotal = t'.wtotal ∧ t.inPos = t'.inPos ∧ t.nsym = t'.nsym) ∧
    (s.rbuf.length = s.bufBytes.toNat → s.obuf.length = s.bufBytes.toNat →
      s'.rbuf.length = s'.bufBytes.toNat → s'.obuf.length = s'.bufBytes.toNat →
      exec .decompress s = .next t → exec .decompress s' = .next t' →
      t.output = t'.output ∧ t.sft = t'.sft ∧ t.rtotal = t'.rtotal ∧ t.totalBits = t'.totalBits)

/-- 70 R296, 20 R96: every command answers a next state in every state; a step is the host's next action (nothing when
there is none) and stops the model in one case alone, a stream whose length no `IN_LEN` can hold (log 9). -/
def Obligations.StepAnswers : Prop :=
  (∀ (i : Instr) (s : State), ∃ t, exec i s = .next t) ∧
  ∀ s : State,
    (s.pending = [] → step s = .next s) ∧
    (¬ s.Stops → ∃ t, step s = .next t) ∧
    (s.Stops → step s = .fault .inputTooLong) ∧
    (∀ bytes rest, s.pending = .replaceIn bytes :: rest → bytes.length < 2 ^ 64 →
      step s = .next { s with pending := rest, input := bytes }) ∧
    (∀ rest, s.pending = .discardOut :: rest → step s = .next { s with pending := rest, output := [] })
end

