-- ==== Sys2Proof/Laws/State.lean ====
section
/-! SUPPORT. Laws/State.lean: what each named update of the state leaves in each field, one lemma per field, by rfl. -/

namespace Sys2Proof.Machine

variable (s : State) (b : Bool) (v : Word64) (c : Byte) (pat len : Nat)

/-! ### `State.setFault` -/

@[simp] theorem State.setFault_arg0 : (s.setFault).arg0 = s.arg0 := rfl
@[simp] theorem State.setFault_res : (s.setFault).res = s.res := rfl
@[simp] theorem State.setFault_status : (s.setFault).status = { s.status with fault := true } := rfl
@[simp] theorem State.setFault_err : (s.setFault).err = s.err := rfl
@[simp] theorem State.setFault_errinfo : (s.setFault).errinfo = s.errinfo := rfl
@[simp] theorem State.setFault_nsym : (s.setFault).nsym = s.nsym := rfl
@[simp] theorem State.setFault_divisor : (s.setFault).divisor = s.divisor := rfl
@[simp] theorem State.setFault_totalBits : (s.setFault).totalBits = s.totalBits := rfl
@[simp] theorem State.setFault_root : (s.setFault).root = s.root := rfl
@[simp] theorem State.setFault_nalloc : (s.setFault).nalloc = s.nalloc := rfl
@[simp] theorem State.setFault_hsize : (s.setFault).hsize = s.hsize := rfl
@[simp] theorem State.setFault_hmax : (s.setFault).hmax = s.hmax := rfl
@[simp] theorem State.setFault_wpos : (s.setFault).wpos = s.wpos := rfl
@[simp] theorem State.setFault_wtotal : (s.setFault).wtotal = s.wtotal := rfl
@[simp] theorem State.setFault_rpos : (s.setFault).rpos = s.rpos := rfl
@[simp] theorem State.setFault_rfill : (s.setFault).rfill = s.rfill := rfl
@[simp] theorem State.setFault_rtotal : (s.setFault).rtotal = s.rtotal := rfl
@[simp] theorem State.setFault_rlimit : (s.setFault).rlimit = s.rlimit := rfl
@[simp] theorem State.setFault_olen : (s.setFault).olen = s.olen := rfl
@[simp] theorem State.setFault_inPos : (s.setFault).inPos = s.inPos := rfl
@[simp] theorem State.setFault_outCap : (s.setFault).outCap = s.outCap := rfl
@[simp] theorem State.setFault_bufBytes : (s.setFault).bufBytes = s.bufBytes := rfl
@[simp] theorem State.setFault_ft : (s.setFault).ft = s.ft := rfl
@[simp] theorem State.setFault_sft : (s.setFault).sft = s.sft := rfl
@[simp] theorem State.setFault_ctPat : (s.setFault).ctPat = s.ctPat := rfl
@[simp] theorem State.setFault_ctLen : (s.setFault).ctLen = s.ctLen := rfl
@[simp] theorem State.setFault_heap : (s.setFault).heap = s.heap := rfl
@[simp] theorem State.setFault_node : (s.setFault).node = s.node := rfl
@[simp] theorem State.setFault_wbuf : (s.setFault).wbuf = s.wbuf := rfl
@[simp] theorem State.setFault_rbuf : (s.setFault).rbuf = s.rbuf := rfl
@[simp] theorem State.setFault_obuf : (s.setFault).obuf = s.obuf := rfl
@[simp] theorem State.setFault_input : (s.setFault).input = s.input := rfl
@[simp] theorem State.setFault_output : (s.setFault).output = s.output := rfl
@[simp] theorem State.setFault_pending : (s.setFault).pending = s.pending := rfl
@[simp] theorem State.setFault_portOut : (s.setFault).portOut = s.portOut := rfl
@[simp] theorem State.setFault_freeCount : (s.setFault).freeCount = s.freeCount := rfl

/-! ### `State.setSingle` -/

@[simp] theorem State.setSingle_arg0 : (s.setSingle b).arg0 = s.arg0 := rfl
@[simp] theorem State.setSingle_res : (s.setSingle b).res = s.res := rfl
@[simp] theorem State.setSingle_status : (s.setSingle b).status = { s.status with single := b } := rfl
@[simp] theorem State.setSingle_err : (s.setSingle b).err = s.err := rfl
@[simp] theorem State.setSingle_errinfo : (s.setSingle b).errinfo = s.errinfo := rfl
@[simp] theorem State.setSingle_nsym : (s.setSingle b).nsym = s.nsym := rfl
@[simp] theorem State.setSingle_divisor : (s.setSingle b).divisor = s.divisor := rfl
@[simp] theorem State.setSingle_totalBits : (s.setSingle b).totalBits = s.totalBits := rfl
@[simp] theorem State.setSingle_root : (s.setSingle b).root = s.root := rfl
@[simp] theorem State.setSingle_nalloc : (s.setSingle b).nalloc = s.nalloc := rfl
@[simp] theorem State.setSingle_hsize : (s.setSingle b).hsize = s.hsize := rfl
@[simp] theorem State.setSingle_hmax : (s.setSingle b).hmax = s.hmax := rfl
@[simp] theorem State.setSingle_wpos : (s.setSingle b).wpos = s.wpos := rfl
@[simp] theorem State.setSingle_wtotal : (s.setSingle b).wtotal = s.wtotal := rfl
@[simp] theorem State.setSingle_rpos : (s.setSingle b).rpos = s.rpos := rfl
@[simp] theorem State.setSingle_rfill : (s.setSingle b).rfill = s.rfill := rfl
@[simp] theorem State.setSingle_rtotal : (s.setSingle b).rtotal = s.rtotal := rfl
@[simp] theorem State.setSingle_rlimit : (s.setSingle b).rlimit = s.rlimit := rfl
@[simp] theorem State.setSingle_olen : (s.setSingle b).olen = s.olen := rfl
@[simp] theorem State.setSingle_inPos : (s.setSingle b).inPos = s.inPos := rfl
@[simp] theorem State.setSingle_outCap : (s.setSingle b).outCap = s.outCap := rfl
@[simp] theorem State.setSingle_bufBytes : (s.setSingle b).bufBytes = s.bufBytes := rfl
@[simp] theorem State.setSingle_ft : (s.setSingle b).ft = s.ft := rfl
@[simp] theorem State.setSingle_sft : (s.setSingle b).sft = s.sft := rfl
@[simp] theorem State.setSingle_ctPat : (s.setSingle b).ctPat = s.ctPat := rfl
@[simp] theorem State.setSingle_ctLen : (s.setSingle b).ctLen = s.ctLen := rfl
@[simp] theorem State.setSingle_heap : (s.setSingle b).heap = s.heap := rfl
@[simp] theorem State.setSingle_node : (s.setSingle b).node = s.node := rfl
@[simp] theorem State.setSingle_wbuf : (s.setSingle b).wbuf = s.wbuf := rfl
@[simp] theorem State.setSingle_rbuf : (s.setSingle b).rbuf = s.rbuf := rfl
@[simp] theorem State.setSingle_obuf : (s.setSingle b).obuf = s.obuf := rfl
@[simp] theorem State.setSingle_input : (s.setSingle b).input = s.input := rfl
@[simp] theorem State.setSingle_output : (s.setSingle b).output = s.output := rfl
@[simp] theorem State.setSingle_pending : (s.setSingle b).pending = s.pending := rfl
@[simp] theorem State.setSingle_portOut : (s.setSingle b).portOut = s.portOut := rfl
@[simp] theorem State.setSingle_freeCount : (s.setSingle b).freeCount = s.freeCount := rfl

/-! ### `State.setFtValid` -/

@[simp] theorem State.setFtValid_arg0 : (s.setFtValid).arg0 = s.arg0 := rfl
@[simp] theorem State.setFtValid_res : (s.setFtValid).res = s.res := rfl
@[simp] theorem State.setFtValid_status : (s.setFtValid).status = { s.status with ftValid := true } := rfl
@[simp] theorem State.setFtValid_err : (s.setFtValid).err = s.err := rfl
@[simp] theorem State.setFtValid_errinfo : (s.setFtValid).errinfo = s.errinfo := rfl
@[simp] theorem State.setFtValid_nsym : (s.setFtValid).nsym = s.nsym := rfl
@[simp] theorem State.setFtValid_divisor : (s.setFtValid).divisor = s.divisor := rfl
@[simp] theorem State.setFtValid_totalBits : (s.setFtValid).totalBits = s.totalBits := rfl
@[simp] theorem State.setFtValid_root : (s.setFtValid).root = s.root := rfl
@[simp] theorem State.setFtValid_nalloc : (s.setFtValid).nalloc = s.nalloc := rfl
@[simp] theorem State.setFtValid_hsize : (s.setFtValid).hsize = s.hsize := rfl
@[simp] theorem State.setFtValid_hmax : (s.setFtValid).hmax = s.hmax := rfl
@[simp] theorem State.setFtValid_wpos : (s.setFtValid).wpos = s.wpos := rfl
@[simp] theorem State.setFtValid_wtotal : (s.setFtValid).wtotal = s.wtotal := rfl
@[simp] theorem State.setFtValid_rpos : (s.setFtValid).rpos = s.rpos := rfl
@[simp] theorem State.setFtValid_rfill : (s.setFtValid).rfill = s.rfill := rfl
@[simp] theorem State.setFtValid_rtotal : (s.setFtValid).rtotal = s.rtotal := rfl
@[simp] theorem State.setFtValid_rlimit : (s.setFtValid).rlimit = s.rlimit := rfl
@[simp] theorem State.setFtValid_olen : (s.setFtValid).olen = s.olen := rfl
@[simp] theorem State.setFtValid_inPos : (s.setFtValid).inPos = s.inPos := rfl
@[simp] theorem State.setFtValid_outCap : (s.setFtValid).outCap = s.outCap := rfl
@[simp] theorem State.setFtValid_bufBytes : (s.setFtValid).bufBytes = s.bufBytes := rfl
@[simp] theorem State.setFtValid_ft : (s.setFtValid).ft = s.ft := rfl
@[simp] theorem State.setFtValid_sft : (s.setFtValid).sft = s.sft := rfl
@[simp] theorem State.setFtValid_ctPat : (s.setFtValid).ctPat = s.ctPat := rfl
@[simp] theorem State.setFtValid_ctLen : (s.setFtValid).ctLen = s.ctLen := rfl
@[simp] theorem State.setFtValid_heap : (s.setFtValid).heap = s.heap := rfl
@[simp] theorem State.setFtValid_node : (s.setFtValid).node = s.node := rfl
@[simp] theorem State.setFtValid_wbuf : (s.setFtValid).wbuf = s.wbuf := rfl
@[simp] theorem State.setFtValid_rbuf : (s.setFtValid).rbuf = s.rbuf := rfl
@[simp] theorem State.setFtValid_obuf : (s.setFtValid).obuf = s.obuf := rfl
@[simp] theorem State.setFtValid_input : (s.setFtValid).input = s.input := rfl
@[simp] theorem State.setFtValid_output : (s.setFtValid).output = s.output := rfl
@[simp] theorem State.setFtValid_pending : (s.setFtValid).pending = s.pending := rfl
@[simp] theorem State.setFtValid_portOut : (s.setFtValid).portOut = s.portOut := rfl
@[simp] theorem State.setFtValid_freeCount : (s.setFtValid).freeCount = s.freeCount := rfl

/-! ### `State.setSftValid` -/

@[simp] theorem State.setSftValid_arg0 : (s.setSftValid).arg0 = s.arg0 := rfl
@[simp] theorem State.setSftValid_res : (s.setSftValid).res = s.res := rfl
@[simp] theorem State.setSftValid_status : (s.setSftValid).status = { s.status with sftValid := true } := rfl
@[simp] theorem State.setSftValid_err : (s.setSftValid).err = s.err := rfl
@[simp] theorem State.setSftValid_errinfo : (s.setSftValid).errinfo = s.errinfo := rfl
@[simp] theorem State.setSftValid_nsym : (s.setSftValid).nsym = s.nsym := rfl
@[simp] theorem State.setSftValid_divisor : (s.setSftValid).divisor = s.divisor := rfl
@[simp] theorem State.setSftValid_totalBits : (s.setSftValid).totalBits = s.totalBits := rfl
@[simp] theorem State.setSftValid_root : (s.setSftValid).root = s.root := rfl
@[simp] theorem State.setSftValid_nalloc : (s.setSftValid).nalloc = s.nalloc := rfl
@[simp] theorem State.setSftValid_hsize : (s.setSftValid).hsize = s.hsize := rfl
@[simp] theorem State.setSftValid_hmax : (s.setSftValid).hmax = s.hmax := rfl
@[simp] theorem State.setSftValid_wpos : (s.setSftValid).wpos = s.wpos := rfl
@[simp] theorem State.setSftValid_wtotal : (s.setSftValid).wtotal = s.wtotal := rfl
@[simp] theorem State.setSftValid_rpos : (s.setSftValid).rpos = s.rpos := rfl
@[simp] theorem State.setSftValid_rfill : (s.setSftValid).rfill = s.rfill := rfl
@[simp] theorem State.setSftValid_rtotal : (s.setSftValid).rtotal = s.rtotal := rfl
@[simp] theorem State.setSftValid_rlimit : (s.setSftValid).rlimit = s.rlimit := rfl
@[simp] theorem State.setSftValid_olen : (s.setSftValid).olen = s.olen := rfl
@[simp] theorem State.setSftValid_inPos : (s.setSftValid).inPos = s.inPos := rfl
@[simp] theorem State.setSftValid_outCap : (s.setSftValid).outCap = s.outCap := rfl
@[simp] theorem State.setSftValid_bufBytes : (s.setSftValid).bufBytes = s.bufBytes := rfl
@[simp] theorem State.setSftValid_ft : (s.setSftValid).ft = s.ft := rfl
@[simp] theorem State.setSftValid_sft : (s.setSftValid).sft = s.sft := rfl
@[simp] theorem State.setSftValid_ctPat : (s.setSftValid).ctPat = s.ctPat := rfl
@[simp] theorem State.setSftValid_ctLen : (s.setSftValid).ctLen = s.ctLen := rfl
@[simp] theorem State.setSftValid_heap : (s.setSftValid).heap = s.heap := rfl
@[simp] theorem State.setSftValid_node : (s.setSftValid).node = s.node := rfl
@[simp] theorem State.setSftValid_wbuf : (s.setSftValid).wbuf = s.wbuf := rfl
@[simp] theorem State.setSftValid_rbuf : (s.setSftValid).rbuf = s.rbuf := rfl
@[simp] theorem State.setSftValid_obuf : (s.setSftValid).obuf = s.obuf := rfl
@[simp] theorem State.setSftValid_input : (s.setSftValid).input = s.input := rfl
@[simp] theorem State.setSftValid_output : (s.setSftValid).output = s.output := rfl
@[simp] theorem State.setSftValid_pending : (s.setSftValid).pending = s.pending := rfl
@[simp] theorem State.setSftValid_portOut : (s.setSftValid).portOut = s.portOut := rfl
@[simp] theorem State.setSftValid_freeCount : (s.setSftValid).freeCount = s.freeCount := rfl

/-! ### `State.setHeapValid` -/

@[simp] theorem State.setHeapValid_arg0 : (s.setHeapValid b).arg0 = s.arg0 := rfl
@[simp] theorem State.setHeapValid_res : (s.setHeapValid b).res = s.res := rfl
@[simp] theorem State.setHeapValid_status : (s.setHeapValid b).status = { s.status with heapValid := b } := rfl
@[simp] theorem State.setHeapValid_err : (s.setHeapValid b).err = s.err := rfl
@[simp] theorem State.setHeapValid_errinfo : (s.setHeapValid b).errinfo = s.errinfo := rfl
@[simp] theorem State.setHeapValid_nsym : (s.setHeapValid b).nsym = s.nsym := rfl
@[simp] theorem State.setHeapValid_divisor : (s.setHeapValid b).divisor = s.divisor := rfl
@[simp] theorem State.setHeapValid_totalBits : (s.setHeapValid b).totalBits = s.totalBits := rfl
@[simp] theorem State.setHeapValid_root : (s.setHeapValid b).root = s.root := rfl
@[simp] theorem State.setHeapValid_nalloc : (s.setHeapValid b).nalloc = s.nalloc := rfl
@[simp] theorem State.setHeapValid_hsize : (s.setHeapValid b).hsize = s.hsize := rfl
@[simp] theorem State.setHeapValid_hmax : (s.setHeapValid b).hmax = s.hmax := rfl
@[simp] theorem State.setHeapValid_wpos : (s.setHeapValid b).wpos = s.wpos := rfl
@[simp] theorem State.setHeapValid_wtotal : (s.setHeapValid b).wtotal = s.wtotal := rfl
@[simp] theorem State.setHeapValid_rpos : (s.setHeapValid b).rpos = s.rpos := rfl
@[simp] theorem State.setHeapValid_rfill : (s.setHeapValid b).rfill = s.rfill := rfl
@[simp] theorem State.setHeapValid_rtotal : (s.setHeapValid b).rtotal = s.rtotal := rfl
@[simp] theorem State.setHeapValid_rlimit : (s.setHeapValid b).rlimit = s.rlimit := rfl
@[simp] theorem State.setHeapValid_olen : (s.setHeapValid b).olen = s.olen := rfl
@[simp] theorem State.setHeapValid_inPos : (s.setHeapValid b).inPos = s.inPos := rfl
@[simp] theorem State.setHeapValid_outCap : (s.setHeapValid b).outCap = s.outCap := rfl
@[simp] theorem State.setHeapValid_bufBytes : (s.setHeapValid b).bufBytes = s.bufBytes := rfl
@[simp] theorem State.setHeapValid_ft : (s.setHeapValid b).ft = s.ft := rfl
@[simp] theorem State.setHeapValid_sft : (s.setHeapValid b).sft = s.sft := rfl
@[simp] theorem State.setHeapValid_ctPat : (s.setHeapValid b).ctPat = s.ctPat := rfl
@[simp] theorem State.setHeapValid_ctLen : (s.setHeapValid b).ctLen = s.ctLen := rfl
@[simp] theorem State.setHeapValid_heap : (s.setHeapValid b).heap = s.heap := rfl
@[simp] theorem State.setHeapValid_node : (s.setHeapValid b).node = s.node := rfl
@[simp] theorem State.setHeapValid_wbuf : (s.setHeapValid b).wbuf = s.wbuf := rfl
@[simp] theorem State.setHeapValid_rbuf : (s.setHeapValid b).rbuf = s.rbuf := rfl
@[simp] theorem State.setHeapValid_obuf : (s.setHeapValid b).obuf = s.obuf := rfl
@[simp] theorem State.setHeapValid_input : (s.setHeapValid b).input = s.input := rfl
@[simp] theorem State.setHeapValid_output : (s.setHeapValid b).output = s.output := rfl
@[simp] theorem State.setHeapValid_pending : (s.setHeapValid b).pending = s.pending := rfl
@[simp] theorem State.setHeapValid_portOut : (s.setHeapValid b).portOut = s.portOut := rfl
@[simp] theorem State.setHeapValid_freeCount : (s.setHeapValid b).freeCount = s.freeCount := rfl

/-! ### `State.setCtValid` -/

@[simp] theorem State.setCtValid_arg0 : (s.setCtValid).arg0 = s.arg0 := rfl
@[simp] theorem State.setCtValid_res : (s.setCtValid).res = s.res := rfl
@[simp] theorem State.setCtValid_status : (s.setCtValid).status = { s.status with ctValid := true } := rfl
@[simp] theorem State.setCtValid_err : (s.setCtValid).err = s.err := rfl
@[simp] theorem State.setCtValid_errinfo : (s.setCtValid).errinfo = s.errinfo := rfl
@[simp] theorem State.setCtValid_nsym : (s.setCtValid).nsym = s.nsym := rfl
@[simp] theorem State.setCtValid_divisor : (s.setCtValid).divisor = s.divisor := rfl
@[simp] theorem State.setCtValid_totalBits : (s.setCtValid).totalBits = s.totalBits := rfl
@[simp] theorem State.setCtValid_root : (s.setCtValid).root = s.root := rfl
@[simp] theorem State.setCtValid_nalloc : (s.setCtValid).nalloc = s.nalloc := rfl
@[simp] theorem State.setCtValid_hsize : (s.setCtValid).hsize = s.hsize := rfl
@[simp] theorem State.setCtValid_hmax : (s.setCtValid).hmax = s.hmax := rfl
@[simp] theorem State.setCtValid_wpos : (s.setCtValid).wpos = s.wpos := rfl
@[simp] theorem State.setCtValid_wtotal : (s.setCtValid).wtotal = s.wtotal := rfl
@[simp] theorem State.setCtValid_rpos : (s.setCtValid).rpos = s.rpos := rfl
@[simp] theorem State.setCtValid_rfill : (s.setCtValid).rfill = s.rfill := rfl
@[simp] theorem State.setCtValid_rtotal : (s.setCtValid).rtotal = s.rtotal := rfl
@[simp] theorem State.setCtValid_rlimit : (s.setCtValid).rlimit = s.rlimit := rfl
@[simp] theorem State.setCtValid_olen : (s.setCtValid).olen = s.olen := rfl
@[simp] theorem State.setCtValid_inPos : (s.setCtValid).inPos = s.inPos := rfl
@[simp] theorem State.setCtValid_outCap : (s.setCtValid).outCap = s.outCap := rfl
@[simp] theorem State.setCtValid_bufBytes : (s.setCtValid).bufBytes = s.bufBytes := rfl
@[simp] theorem State.setCtValid_ft : (s.setCtValid).ft = s.ft := rfl
@[simp] theorem State.setCtValid_sft : (s.setCtValid).sft = s.sft := rfl
@[simp] theorem State.setCtValid_ctPat : (s.setCtValid).ctPat = s.ctPat := rfl
@[simp] theorem State.setCtValid_ctLen : (s.setCtValid).ctLen = s.ctLen := rfl
@[simp] theorem State.setCtValid_heap : (s.setCtValid).heap = s.heap := rfl
@[simp] theorem State.setCtValid_node : (s.setCtValid).node = s.node := rfl
@[simp] theorem State.setCtValid_wbuf : (s.setCtValid).wbuf = s.wbuf := rfl
@[simp] theorem State.setCtValid_rbuf : (s.setCtValid).rbuf = s.rbuf := rfl
@[simp] theorem State.setCtValid_obuf : (s.setCtValid).obuf = s.obuf := rfl
@[simp] theorem State.setCtValid_input : (s.setCtValid).input = s.input := rfl
@[simp] theorem State.setCtValid_output : (s.setCtValid).output = s.output := rfl
@[simp] theorem State.setCtValid_pending : (s.setCtValid).pending = s.pending := rfl
@[simp] theorem State.setCtValid_portOut : (s.setCtValid).portOut = s.portOut := rfl
@[simp] theorem State.setCtValid_freeCount : (s.setCtValid).freeCount = s.freeCount := rfl

/-! ### `State.setHdrValid` -/

@[simp] theorem State.setHdrValid_arg0 : (s.setHdrValid).arg0 = s.arg0 := rfl
@[simp] theorem State.setHdrValid_res : (s.setHdrValid).res = s.res := rfl
@[simp] theorem State.setHdrValid_status : (s.setHdrValid).status = { s.status with hdrValid := true } := rfl
@[simp] theorem State.setHdrValid_err : (s.setHdrValid).err = s.err := rfl
@[simp] theorem State.setHdrValid_errinfo : (s.setHdrValid).errinfo = s.errinfo := rfl
@[simp] theorem State.setHdrValid_nsym : (s.setHdrValid).nsym = s.nsym := rfl
@[simp] theorem State.setHdrValid_divisor : (s.setHdrValid).divisor = s.divisor := rfl
@[simp] theorem State.setHdrValid_totalBits : (s.setHdrValid).totalBits = s.totalBits := rfl
@[simp] theorem State.setHdrValid_root : (s.setHdrValid).root = s.root := rfl
@[simp] theorem State.setHdrValid_nalloc : (s.setHdrValid).nalloc = s.nalloc := rfl
@[simp] theorem State.setHdrValid_hsize : (s.setHdrValid).hsize = s.hsize := rfl
@[simp] theorem State.setHdrValid_hmax : (s.setHdrValid).hmax = s.hmax := rfl
@[simp] theorem State.setHdrValid_wpos : (s.setHdrValid).wpos = s.wpos := rfl
@[simp] theorem State.setHdrValid_wtotal : (s.setHdrValid).wtotal = s.wtotal := rfl
@[simp] theorem State.setHdrValid_rpos : (s.setHdrValid).rpos = s.rpos := rfl
@[simp] theorem State.setHdrValid_rfill : (s.setHdrValid).rfill = s.rfill := rfl
@[simp] theorem State.setHdrValid_rtotal : (s.setHdrValid).rtotal = s.rtotal := rfl
@[simp] theorem State.setHdrValid_rlimit : (s.setHdrValid).rlimit = s.rlimit := rfl
@[simp] theorem State.setHdrValid_olen : (s.setHdrValid).olen = s.olen := rfl
@[simp] theorem State.setHdrValid_inPos : (s.setHdrValid).inPos = s.inPos := rfl
@[simp] theorem State.setHdrValid_outCap : (s.setHdrValid).outCap = s.outCap := rfl
@[simp] theorem State.setHdrValid_bufBytes : (s.setHdrValid).bufBytes = s.bufBytes := rfl
@[simp] theorem State.setHdrValid_ft : (s.setHdrValid).ft = s.ft := rfl
@[simp] theorem State.setHdrValid_sft : (s.setHdrValid).sft = s.sft := rfl
@[simp] theorem State.setHdrValid_ctPat : (s.setHdrValid).ctPat = s.ctPat := rfl
@[simp] theorem State.setHdrValid_ctLen : (s.setHdrValid).ctLen = s.ctLen := rfl
@[simp] theorem State.setHdrValid_heap : (s.setHdrValid).heap = s.heap := rfl
@[simp] theorem State.setHdrValid_node : (s.setHdrValid).node = s.node := rfl
@[simp] theorem State.setHdrValid_wbuf : (s.setHdrValid).wbuf = s.wbuf := rfl
@[simp] theorem State.setHdrValid_rbuf : (s.setHdrValid).rbuf = s.rbuf := rfl
@[simp] theorem State.setHdrValid_obuf : (s.setHdrValid).obuf = s.obuf := rfl
@[simp] theorem State.setHdrValid_input : (s.setHdrValid).input = s.input := rfl
@[simp] theorem State.setHdrValid_output : (s.setHdrValid).output = s.output := rfl
@[simp] theorem State.setHdrValid_pending : (s.setHdrValid).pending = s.pending := rfl
@[simp] theorem State.setHdrValid_portOut : (s.setHdrValid).portOut = s.portOut := rfl
@[simp] theorem State.setHdrValid_freeCount : (s.setHdrValid).freeCount = s.freeCount := rfl

/-! ### `State.setBwValid` -/

@[simp] theorem State.setBwValid_arg0 : (s.setBwValid).arg0 = s.arg0 := rfl
@[simp] theorem State.setBwValid_res : (s.setBwValid).res = s.res := rfl
@[simp] theorem State.setBwValid_status : (s.setBwValid).status = { s.status with bwValid := true } := rfl
@[simp] theorem State.setBwValid_err : (s.setBwValid).err = s.err := rfl
@[simp] theorem State.setBwValid_errinfo : (s.setBwValid).errinfo = s.errinfo := rfl
@[simp] theorem State.setBwValid_nsym : (s.setBwValid).nsym = s.nsym := rfl
@[simp] theorem State.setBwValid_divisor : (s.setBwValid).divisor = s.divisor := rfl
@[simp] theorem State.setBwValid_totalBits : (s.setBwValid).totalBits = s.totalBits := rfl
@[simp] theorem State.setBwValid_root : (s.setBwValid).root = s.root := rfl
@[simp] theorem State.setBwValid_nalloc : (s.setBwValid).nalloc = s.nalloc := rfl
@[simp] theorem State.setBwValid_hsize : (s.setBwValid).hsize = s.hsize := rfl
@[simp] theorem State.setBwValid_hmax : (s.setBwValid).hmax = s.hmax := rfl
@[simp] theorem State.setBwValid_wpos : (s.setBwValid).wpos = s.wpos := rfl
@[simp] theorem State.setBwValid_wtotal : (s.setBwValid).wtotal = s.wtotal := rfl
@[simp] theorem State.setBwValid_rpos : (s.setBwValid).rpos = s.rpos := rfl
@[simp] theorem State.setBwValid_rfill : (s.setBwValid).rfill = s.rfill := rfl
@[simp] theorem State.setBwValid_rtotal : (s.setBwValid).rtotal = s.rtotal := rfl
@[simp] theorem State.setBwValid_rlimit : (s.setBwValid).rlimit = s.rlimit := rfl
@[simp] theorem State.setBwValid_olen : (s.setBwValid).olen = s.olen := rfl
@[simp] theorem State.setBwValid_inPos : (s.setBwValid).inPos = s.inPos := rfl
@[simp] theorem State.setBwValid_outCap : (s.setBwValid).outCap = s.outCap := rfl
@[simp] theorem State.setBwValid_bufBytes : (s.setBwValid).bufBytes = s.bufBytes := rfl
@[simp] theorem State.setBwValid_ft : (s.setBwValid).ft = s.ft := rfl
@[simp] theorem State.setBwValid_sft : (s.setBwValid).sft = s.sft := rfl
@[simp] theorem State.setBwValid_ctPat : (s.setBwValid).ctPat = s.ctPat := rfl
@[simp] theorem State.setBwValid_ctLen : (s.setBwValid).ctLen = s.ctLen := rfl
@[simp] theorem State.setBwValid_heap : (s.setBwValid).heap = s.heap := rfl
@[simp] theorem State.setBwValid_node : (s.setBwValid).node = s.node := rfl
@[simp] theorem State.setBwValid_wbuf : (s.setBwValid).wbuf = s.wbuf := rfl
@[simp] theorem State.setBwValid_rbuf : (s.setBwValid).rbuf = s.rbuf := rfl
@[simp] theorem State.setBwValid_obuf : (s.setBwValid).obuf = s.obuf := rfl
@[simp] theorem State.setBwValid_input : (s.setBwValid).input = s.input := rfl
@[simp] theorem State.setBwValid_output : (s.setBwValid).output = s.output := rfl
@[simp] theorem State.setBwValid_pending : (s.setBwValid).pending = s.pending := rfl
@[simp] theorem State.setBwValid_portOut : (s.setBwValid).portOut = s.portOut := rfl
@[simp] theorem State.setBwValid_freeCount : (s.setBwValid).freeCount = s.freeCount := rfl

/-! ### `State.setBrValid` -/

@[simp] theorem State.setBrValid_arg0 : (s.setBrValid).arg0 = s.arg0 := rfl
@[simp] theorem State.setBrValid_res : (s.setBrValid).res = s.res := rfl
@[simp] theorem State.setBrValid_status : (s.setBrValid).status = { s.status with brValid := true } := rfl
@[simp] theorem State.setBrValid_err : (s.setBrValid).err = s.err := rfl
@[simp] theorem State.setBrValid_errinfo : (s.setBrValid).errinfo = s.errinfo := rfl
@[simp] theorem State.setBrValid_nsym : (s.setBrValid).nsym = s.nsym := rfl
@[simp] theorem State.setBrValid_divisor : (s.setBrValid).divisor = s.divisor := rfl
@[simp] theorem State.setBrValid_totalBits : (s.setBrValid).totalBits = s.totalBits := rfl
@[simp] theorem State.setBrValid_root : (s.setBrValid).root = s.root := rfl
@[simp] theorem State.setBrValid_nalloc : (s.setBrValid).nalloc = s.nalloc := rfl
@[simp] theorem State.setBrValid_hsize : (s.setBrValid).hsize = s.hsize := rfl
@[simp] theorem State.setBrValid_hmax : (s.setBrValid).hmax = s.hmax := rfl
@[simp] theorem State.setBrValid_wpos : (s.setBrValid).wpos = s.wpos := rfl
@[simp] theorem State.setBrValid_wtotal : (s.setBrValid).wtotal = s.wtotal := rfl
@[simp] theorem State.setBrValid_rpos : (s.setBrValid).rpos = s.rpos := rfl
@[simp] theorem State.setBrValid_rfill : (s.setBrValid).rfill = s.rfill := rfl
@[simp] theorem State.setBrValid_rtotal : (s.setBrValid).rtotal = s.rtotal := rfl
@[simp] theorem State.setBrValid_rlimit : (s.setBrValid).rlimit = s.rlimit := rfl
@[simp] theorem State.setBrValid_olen : (s.setBrValid).olen = s.olen := rfl
@[simp] theorem State.setBrValid_inPos : (s.setBrValid).inPos = s.inPos := rfl
@[simp] theorem State.setBrValid_outCap : (s.setBrValid).outCap = s.outCap := rfl
@[simp] theorem State.setBrValid_bufBytes : (s.setBrValid).bufBytes = s.bufBytes := rfl
@[simp] theorem State.setBrValid_ft : (s.setBrValid).ft = s.ft := rfl
@[simp] theorem State.setBrValid_sft : (s.setBrValid).sft = s.sft := rfl
@[simp] theorem State.setBrValid_ctPat : (s.setBrValid).ctPat = s.ctPat := rfl
@[simp] theorem State.setBrValid_ctLen : (s.setBrValid).ctLen = s.ctLen := rfl
@[simp] theorem State.setBrValid_heap : (s.setBrValid).heap = s.heap := rfl
@[simp] theorem State.setBrValid_node : (s.setBrValid).node = s.node := rfl
@[simp] theorem State.setBrValid_wbuf : (s.setBrValid).wbuf = s.wbuf := rfl
@[simp] theorem State.setBrValid_rbuf : (s.setBrValid).rbuf = s.rbuf := rfl
@[simp] theorem State.setBrValid_obuf : (s.setBrValid).obuf = s.obuf := rfl
@[simp] theorem State.setBrValid_input : (s.setBrValid).input = s.input := rfl
@[simp] theorem State.setBrValid_output : (s.setBrValid).output = s.output := rfl
@[simp] theorem State.setBrValid_pending : (s.setBrValid).pending = s.pending := rfl
@[simp] theorem State.setBrValid_portOut : (s.setBrValid).portOut = s.portOut := rfl
@[simp] theorem State.setBrValid_freeCount : (s.setBrValid).freeCount = s.freeCount := rfl

/-! ### `State.setRes` -/

@[simp] theorem State.setRes_arg0 : (s.setRes v).arg0 = s.arg0 := rfl
@[simp] theorem State.setRes_res : (s.setRes v).res = v := rfl
@[simp] theorem State.setRes_status : (s.setRes v).status = s.status := rfl
@[simp] theorem State.setRes_err : (s.setRes v).err = s.err := rfl
@[simp] theorem State.setRes_errinfo : (s.setRes v).errinfo = s.errinfo := rfl
@[simp] theorem State.setRes_nsym : (s.setRes v).nsym = s.nsym := rfl
@[simp] theorem State.setRes_divisor : (s.setRes v).divisor = s.divisor := rfl
@[simp] theorem State.setRes_totalBits : (s.setRes v).totalBits = s.totalBits := rfl
@[simp] theorem State.setRes_root : (s.setRes v).root = s.root := rfl
@[simp] theorem State.setRes_nalloc : (s.setRes v).nalloc = s.nalloc := rfl
@[simp] theorem State.setRes_hsize : (s.setRes v).hsize = s.hsize := rfl
@[simp] theorem State.setRes_hmax : (s.setRes v).hmax = s.hmax := rfl
@[simp] theorem State.setRes_wpos : (s.setRes v).wpos = s.wpos := rfl
@[simp] theorem State.setRes_wtotal : (s.setRes v).wtotal = s.wtotal := rfl
@[simp] theorem State.setRes_rpos : (s.setRes v).rpos = s.rpos := rfl
@[simp] theorem State.setRes_rfill : (s.setRes v).rfill = s.rfill := rfl
@[simp] theorem State.setRes_rtotal : (s.setRes v).rtotal = s.rtotal := rfl
@[simp] theorem State.setRes_rlimit : (s.setRes v).rlimit = s.rlimit := rfl
@[simp] theorem State.setRes_olen : (s.setRes v).olen = s.olen := rfl
@[simp] theorem State.setRes_inPos : (s.setRes v).inPos = s.inPos := rfl
@[simp] theorem State.setRes_outCap : (s.setRes v).outCap = s.outCap := rfl
@[simp] theorem State.setRes_bufBytes : (s.setRes v).bufBytes = s.bufBytes := rfl
@[simp] theorem State.setRes_ft : (s.setRes v).ft = s.ft := rfl
@[simp] theorem State.setRes_sft : (s.setRes v).sft = s.sft := rfl
@[simp] theorem State.setRes_ctPat : (s.setRes v).ctPat = s.ctPat := rfl
@[simp] theorem State.setRes_ctLen : (s.setRes v).ctLen = s.ctLen := rfl
@[simp] theorem State.setRes_heap : (s.setRes v).heap = s.heap := rfl
@[simp] theorem State.setRes_node : (s.setRes v).node = s.node := rfl
@[simp] theorem State.setRes_wbuf : (s.setRes v).wbuf = s.wbuf := rfl
@[simp] theorem State.setRes_rbuf : (s.setRes v).rbuf = s.rbuf := rfl
@[simp] theorem State.setRes_obuf : (s.setRes v).obuf = s.obuf := rfl
@[simp] theorem State.setRes_input : (s.setRes v).input = s.input := rfl
@[simp] theorem State.setRes_output : (s.setRes v).output = s.output := rfl
@[simp] theorem State.setRes_pending : (s.setRes v).pending = s.pending := rfl
@[simp] theorem State.setRes_portOut : (s.setRes v).portOut = s.portOut := rfl
@[simp] theorem State.setRes_freeCount : (s.setRes v).freeCount = s.freeCount := rfl

/-! ### `State.forgetHeap` -/

@[simp] theorem State.forgetHeap_arg0 : (s.forgetHeap).arg0 = s.arg0 := rfl
@[simp] theorem State.forgetHeap_res : (s.forgetHeap).res = s.res := rfl
@[simp] theorem State.forgetHeap_status : (s.forgetHeap).status = s.status := rfl
@[simp] theorem State.forgetHeap_err : (s.forgetHeap).err = s.err := rfl
@[simp] theorem State.forgetHeap_errinfo : (s.forgetHeap).errinfo = s.errinfo := rfl
@[simp] theorem State.forgetHeap_nsym : (s.forgetHeap).nsym = s.nsym := rfl
@[simp] theorem State.forgetHeap_divisor : (s.forgetHeap).divisor = s.divisor := rfl
@[simp] theorem State.forgetHeap_totalBits : (s.forgetHeap).totalBits = s.totalBits := rfl
@[simp] theorem State.forgetHeap_root : (s.forgetHeap).root = s.root := rfl
@[simp] theorem State.forgetHeap_nalloc : (s.forgetHeap).nalloc = s.nalloc := rfl
@[simp] theorem State.forgetHeap_hsize : (s.forgetHeap).hsize = s.hsize := rfl
@[simp] theorem State.forgetHeap_hmax : (s.forgetHeap).hmax = s.hmax := rfl
@[simp] theorem State.forgetHeap_wpos : (s.forgetHeap).wpos = s.wpos := rfl
@[simp] theorem State.forgetHeap_wtotal : (s.forgetHeap).wtotal = s.wtotal := rfl
@[simp] theorem State.forgetHeap_rpos : (s.forgetHeap).rpos = s.rpos := rfl
@[simp] theorem State.forgetHeap_rfill : (s.forgetHeap).rfill = s.rfill := rfl
@[simp] theorem State.forgetHeap_rtotal : (s.forgetHeap).rtotal = s.rtotal := rfl
@[simp] theorem State.forgetHeap_rlimit : (s.forgetHeap).rlimit = s.rlimit := rfl
@[simp] theorem State.forgetHeap_olen : (s.forgetHeap).olen = s.olen := rfl
@[simp] theorem State.forgetHeap_inPos : (s.forgetHeap).inPos = s.inPos := rfl
@[simp] theorem State.forgetHeap_outCap : (s.forgetHeap).outCap = s.outCap := rfl
@[simp] theorem State.forgetHeap_bufBytes : (s.forgetHeap).bufBytes = s.bufBytes := rfl
@[simp] theorem State.forgetHeap_ft : (s.forgetHeap).ft = s.ft := rfl
@[simp] theorem State.forgetHeap_sft : (s.forgetHeap).sft = s.sft := rfl
@[simp] theorem State.forgetHeap_ctPat : (s.forgetHeap).ctPat = s.ctPat := rfl
@[simp] theorem State.forgetHeap_ctLen : (s.forgetHeap).ctLen = s.ctLen := rfl
@[simp] theorem State.forgetHeap_heap : (s.forgetHeap).heap = freeTable 9 s.freeCount 0 := rfl
@[simp] theorem State.forgetHeap_node : (s.forgetHeap).node = s.node := rfl
@[simp] theorem State.forgetHeap_wbuf : (s.forgetHeap).wbuf = s.wbuf := rfl
@[simp] theorem State.forgetHeap_rbuf : (s.forgetHeap).rbuf = s.rbuf := rfl
@[simp] theorem State.forgetHeap_obuf : (s.forgetHeap).obuf = s.obuf := rfl
@[simp] theorem State.forgetHeap_input : (s.forgetHeap).input = s.input := rfl
@[simp] theorem State.forgetHeap_output : (s.forgetHeap).output = s.output := rfl
@[simp] theorem State.forgetHeap_pending : (s.forgetHeap).pending = s.pending := rfl
@[simp] theorem State.forgetHeap_portOut : (s.forgetHeap).portOut = s.portOut := rfl
@[simp] theorem State.forgetHeap_freeCount : (s.forgetHeap).freeCount = s.freeCount + 1 := rfl

/-! ### `State.forgetNodes` -/

@[simp] theorem State.forgetNodes_arg0 : (s.forgetNodes).arg0 = s.arg0 := by simp only [State.forgetNodes]
@[simp] theorem State.forgetNodes_res : (s.forgetNodes).res = s.res := by simp only [State.forgetNodes]
@[simp] theorem State.forgetNodes_status : (s.forgetNodes).status = s.status := by simp only [State.forgetNodes]
@[simp] theorem State.forgetNodes_err : (s.forgetNodes).err = s.err := by simp only [State.forgetNodes]
@[simp] theorem State.forgetNodes_errinfo : (s.forgetNodes).errinfo = s.errinfo := by simp only [State.forgetNodes]
@[simp] theorem State.forgetNodes_nsym : (s.forgetNodes).nsym = s.nsym := by simp only [State.forgetNodes]
@[simp] theorem State.forgetNodes_divisor : (s.forgetNodes).divisor = s.divisor := by simp only [State.forgetNodes]
@[simp] theorem State.forgetNodes_totalBits : (s.forgetNodes).totalBits = s.totalBits :=
  by simp only [State.forgetNodes]
@[simp] theorem State.forgetNodes_root : (s.forgetNodes).root = s.root := by simp only [State.forgetNodes]
@[simp] theorem State.forgetNodes_nalloc : (s.forgetNodes).nalloc = s.nalloc := by simp only [State.forgetNodes]
@[simp] theorem State.forgetNodes_hsize : (s.forgetNodes).hsize = s.hsize := by simp only [State.forgetNodes]
@[simp] theorem State.forgetNodes_hmax : (s.forgetNodes).hmax = s.hmax := by simp only [State.forgetNodes]
@[simp] theorem State.forgetNodes_wpos : (s.forgetNodes).wpos = s.wpos := by simp only [State.forgetNodes]
@[simp] theorem State.forgetNodes_wtotal : (s.forgetNodes).wtotal = s.wtotal := by simp only [State.forgetNodes]
@[simp] theorem State.forgetNodes_rpos : (s.forgetNodes).rpos = s.rpos := by simp only [State.forgetNodes]
@[simp] theorem State.forgetNodes_rfill : (s.forgetNodes).rfill = s.rfill := by simp only [State.forgetNodes]
@[simp] theorem State.forgetNodes_rtotal : (s.forgetNodes).rtotal = s.rtotal := by simp only [State.forgetNodes]
@[simp] theorem State.forgetNodes_rlimit : (s.forgetNodes).rlimit = s.rlimit := by simp only [State.forgetNodes]
@[simp] theorem State.forgetNodes_olen : (s.forgetNodes).olen = s.olen := by simp only [State.forgetNodes]
@[simp] theorem State.forgetNodes_inPos : (s.forgetNodes).inPos = s.inPos := by simp only [State.forgetNodes]
@[simp] theorem State.forgetNodes_outCap : (s.forgetNodes).outCap = s.outCap := by simp only [State.forgetNodes]
@[simp] theorem State.forgetNodes_bufBytes : (s.forgetNodes).bufBytes = s.bufBytes := by simp only [State.forgetNodes]
@[simp] theorem State.forgetNodes_ft : (s.forgetNodes).ft = s.ft := by simp only [State.forgetNodes]
@[simp] theorem State.forgetNodes_sft : (s.forgetNodes).sft = s.sft := by simp only [State.forgetNodes]
@[simp] theorem State.forgetNodes_ctPat : (s.forgetNodes).ctPat = s.ctPat := by simp only [State.forgetNodes]
@[simp] theorem State.forgetNodes_ctLen : (s.forgetNodes).ctLen = s.ctLen := by simp only [State.forgetNodes]
@[simp] theorem State.forgetNodes_heap : (s.forgetNodes).heap = s.heap := by simp only [State.forgetNodes]
@[simp] theorem State.forgetNodes_node : (s.forgetNodes).node = freeArena s.freeCount :=
  by simp only [State.forgetNodes]
@[simp] theorem State.forgetNodes_wbuf : (s.forgetNodes).wbuf = s.wbuf := by simp only [State.forgetNodes]
@[simp] theorem State.forgetNodes_rbuf : (s.forgetNodes).rbuf = s.rbuf := by simp only [State.forgetNodes]
@[simp] theorem State.forgetNodes_obuf : (s.forgetNodes).obuf = s.obuf := by simp only [State.forgetNodes]
@[simp] theorem State.forgetNodes_input : (s.forgetNodes).input = s.input := by simp only [State.forgetNodes]
@[simp] theorem State.forgetNodes_output : (s.forgetNodes).output = s.output := by simp only [State.forgetNodes]
@[simp] theorem State.forgetNodes_pending : (s.forgetNodes).pending = s.pending := by simp only [State.forgetNodes]
@[simp] theorem State.forgetNodes_portOut : (s.forgetNodes).portOut = s.portOut := by simp only [State.forgetNodes]
@[simp] theorem State.forgetNodes_freeCount : (s.forgetNodes).freeCount = s.freeCount + 1 :=
  by simp only [State.forgetNodes]

/-! ### `State.forgetTables` -/

@[simp] theorem State.forgetTables_arg0 : (s.forgetTables).arg0 = s.arg0 := rfl
@[simp] theorem State.forgetTables_res : (s.forgetTables).res = s.res := rfl
@[simp] theorem State.forgetTables_status : (s.forgetTables).status = s.status := rfl
@[simp] theorem State.forgetTables_err : (s.forgetTables).err = s.err := rfl
@[simp] theorem State.forgetTables_errinfo : (s.forgetTables).errinfo = s.errinfo := rfl
@[simp] theorem State.forgetTables_nsym : (s.forgetTables).nsym = s.nsym := rfl
@[simp] theorem State.forgetTables_divisor : (s.forgetTables).divisor = s.divisor := rfl
@[simp] theorem State.forgetTables_totalBits : (s.forgetTables).totalBits = s.totalBits := rfl
@[simp] theorem State.forgetTables_root : (s.forgetTables).root = s.root := rfl
@[simp] theorem State.forgetTables_nalloc : (s.forgetTables).nalloc = s.nalloc := rfl
@[simp] theorem State.forgetTables_hsize : (s.forgetTables).hsize = s.hsize := rfl
@[simp] theorem State.forgetTables_hmax : (s.forgetTables).hmax = s.hmax := rfl
@[simp] theorem State.forgetTables_wpos : (s.forgetTables).wpos = s.wpos := rfl
@[simp] theorem State.forgetTables_wtotal : (s.forgetTables).wtotal = s.wtotal := rfl
@[simp] theorem State.forgetTables_rpos : (s.forgetTables).rpos = s.rpos := rfl
@[simp] theorem State.forgetTables_rfill : (s.forgetTables).rfill = s.rfill := rfl
@[simp] theorem State.forgetTables_rtotal : (s.forgetTables).rtotal = s.rtotal := rfl
@[simp] theorem State.forgetTables_rlimit : (s.forgetTables).rlimit = s.rlimit := rfl
@[simp] theorem State.forgetTables_olen : (s.forgetTables).olen = s.olen := rfl
@[simp] theorem State.forgetTables_inPos : (s.forgetTables).inPos = s.inPos := rfl
@[simp] theorem State.forgetTables_outCap : (s.forgetTables).outCap = s.outCap := rfl
@[simp] theorem State.forgetTables_bufBytes : (s.forgetTables).bufBytes = s.bufBytes := rfl
@[simp] theorem State.forgetTables_ft : (s.forgetTables).ft = freeTable 64 s.freeCount 0 := rfl
@[simp] theorem State.forgetTables_sft : (s.forgetTables).sft = freeTable 8 s.freeCount 0 := rfl
@[simp] theorem State.forgetTables_ctPat : (s.forgetTables).ctPat = freeTable 64 s.freeCount 256 := rfl
@[simp] theorem State.forgetTables_ctLen : (s.forgetTables).ctLen = freeTable 8 s.freeCount 256 := rfl
@[simp] theorem State.forgetTables_heap : (s.forgetTables).heap = s.heap := rfl
@[simp] theorem State.forgetTables_node : (s.forgetTables).node = s.node := rfl
@[simp] theorem State.forgetTables_wbuf : (s.forgetTables).wbuf = s.wbuf := rfl
@[simp] theorem State.forgetTables_rbuf : (s.forgetTables).rbuf = s.rbuf := rfl
@[simp] theorem State.forgetTables_obuf : (s.forgetTables).obuf = s.obuf := rfl
@[simp] theorem State.forgetTables_input : (s.forgetTables).input = s.input := rfl
@[simp] theorem State.forgetTables_output : (s.forgetTables).output = s.output := rfl
@[simp] theorem State.forgetTables_pending : (s.forgetTables).pending = s.pending := rfl
@[simp] theorem State.forgetTables_portOut : (s.forgetTables).portOut = s.portOut := rfl
@[simp] theorem State.forgetTables_freeCount : (s.forgetTables).freeCount = s.freeCount + 1 := rfl

/-! ### `State.forgetBuffers` -/

@[simp] theorem State.forgetBuffers_arg0 : (s.forgetBuffers).arg0 = s.arg0 := rfl
@[simp] theorem State.forgetBuffers_res : (s.forgetBuffers).res = s.res := rfl
@[simp] theorem State.forgetBuffers_status : (s.forgetBuffers).status = s.status := rfl
@[simp] theorem State.forgetBuffers_err : (s.forgetBuffers).err = s.err := rfl
@[simp] theorem State.forgetBuffers_errinfo : (s.forgetBuffers).errinfo = s.errinfo := rfl
@[simp] theorem State.forgetBuffers_nsym : (s.forgetBuffers).nsym = s.nsym := rfl
@[simp] theorem State.forgetBuffers_divisor : (s.forgetBuffers).divisor = s.divisor := rfl
@[simp] theorem State.forgetBuffers_totalBits : (s.forgetBuffers).totalBits = s.totalBits := rfl
@[simp] theorem State.forgetBuffers_root : (s.forgetBuffers).root = s.root := rfl
@[simp] theorem State.forgetBuffers_nalloc : (s.forgetBuffers).nalloc = s.nalloc := rfl
@[simp] theorem State.forgetBuffers_hsize : (s.forgetBuffers).hsize = s.hsize := rfl
@[simp] theorem State.forgetBuffers_hmax : (s.forgetBuffers).hmax = s.hmax := rfl
@[simp] theorem State.forgetBuffers_wpos : (s.forgetBuffers).wpos = s.wpos := rfl
@[simp] theorem State.forgetBuffers_wtotal : (s.forgetBuffers).wtotal = s.wtotal := rfl
@[simp] theorem State.forgetBuffers_rpos : (s.forgetBuffers).rpos = s.rpos := rfl
@[simp] theorem State.forgetBuffers_rfill : (s.forgetBuffers).rfill = s.rfill := rfl
@[simp] theorem State.forgetBuffers_rtotal : (s.forgetBuffers).rtotal = s.rtotal := rfl
@[simp] theorem State.forgetBuffers_rlimit : (s.forgetBuffers).rlimit = s.rlimit := rfl
@[simp] theorem State.forgetBuffers_olen : (s.forgetBuffers).olen = s.olen := rfl
@[simp] theorem State.forgetBuffers_inPos : (s.forgetBuffers).inPos = s.inPos := rfl
@[simp] theorem State.forgetBuffers_outCap : (s.forgetBuffers).outCap = s.outCap := rfl
@[simp] theorem State.forgetBuffers_bufBytes : (s.forgetBuffers).bufBytes = s.bufBytes := rfl
@[simp] theorem State.forgetBuffers_ft : (s.forgetBuffers).ft = s.ft := rfl
@[simp] theorem State.forgetBuffers_sft : (s.forgetBuffers).sft = s.sft := rfl
@[simp] theorem State.forgetBuffers_ctPat : (s.forgetBuffers).ctPat = s.ctPat := rfl
@[simp] theorem State.forgetBuffers_ctLen : (s.forgetBuffers).ctLen = s.ctLen := rfl
@[simp] theorem State.forgetBuffers_heap : (s.forgetBuffers).heap = s.heap := rfl
@[simp] theorem State.forgetBuffers_node : (s.forgetBuffers).node = s.node := rfl
@[simp] theorem State.forgetBuffers_wbuf : (s.forgetBuffers).wbuf = freeBuffer s.bufBytes.toNat s.freeCount 0 := rfl
@[simp] theorem State.forgetBuffers_rbuf : (s.forgetBuffers).rbuf =
    freeBuffer s.bufBytes.toNat s.freeCount s.bufBytes.toNat := rfl
@[simp] theorem State.forgetBuffers_obuf : (s.forgetBuffers).obuf =
    freeBuffer s.bufBytes.toNat s.freeCount (2 * s.bufBytes.toNat) := rfl
@[simp] theorem State.forgetBuffers_input : (s.forgetBuffers).input = s.input := rfl
@[simp] theorem State.forgetBuffers_output : (s.forgetBuffers).output = s.output := rfl
@[simp] theorem State.forgetBuffers_pending : (s.forgetBuffers).pending = s.pending := rfl
@[simp] theorem State.forgetBuffers_portOut : (s.forgetBuffers).portOut = s.portOut := rfl
@[simp] theorem State.forgetBuffers_freeCount : (s.forgetBuffers).freeCount = s.freeCount + 1 := rfl

/-! ### `State.clear` -/

@[simp] theorem State.clear_arg0 : (s.clear).arg0 = s.arg0 := rfl
@[simp] theorem State.clear_res : (s.clear).res = 0 := rfl
@[simp] theorem State.clear_status : (s.clear).status = Status.zero := rfl
@[simp] theorem State.clear_err : (s.clear).err = 0 := rfl
@[simp] theorem State.clear_errinfo : (s.clear).errinfo = 0 := rfl
@[simp] theorem State.clear_nsym : (s.clear).nsym = 0 := rfl
@[simp] theorem State.clear_divisor : (s.clear).divisor = 0 := rfl
@[simp] theorem State.clear_totalBits : (s.clear).totalBits = 0 := rfl
@[simp] theorem State.clear_root : (s.clear).root = Config.null := rfl
@[simp] theorem State.clear_nalloc : (s.clear).nalloc = 0 := rfl
@[simp] theorem State.clear_hsize : (s.clear).hsize = 0 := rfl
@[simp] theorem State.clear_hmax : (s.clear).hmax = 0 := rfl
@[simp] theorem State.clear_wpos : (s.clear).wpos = 0 := rfl
@[simp] theorem State.clear_wtotal : (s.clear).wtotal = 0 := rfl
@[simp] theorem State.clear_rpos : (s.clear).rpos = 0 := rfl
@[simp] theorem State.clear_rfill : (s.clear).rfill = 0 := rfl
@[simp] theorem State.clear_rtotal : (s.clear).rtotal = 0 := rfl
@[simp] theorem State.clear_rlimit : (s.clear).rlimit = 0 := rfl
@[simp] theorem State.clear_olen : (s.clear).olen = 0 := rfl
@[simp] theorem State.clear_inPos : (s.clear).inPos = s.inPos := rfl
@[simp] theorem State.clear_outCap : (s.clear).outCap = s.outCap := rfl
@[simp] theorem State.clear_bufBytes : (s.clear).bufBytes = s.bufBytes := rfl
@[simp] theorem State.clear_ft : (s.clear).ft = freeTable 64 s.freeCount 0 := rfl
@[simp] theorem State.clear_sft : (s.clear).sft = freeTable 8 s.freeCount 0 := rfl
@[simp] theorem State.clear_ctPat : (s.clear).ctPat = freeTable 64 s.freeCount 256 := rfl
@[simp] theorem State.clear_ctLen : (s.clear).ctLen = freeTable 8 s.freeCount 256 := rfl
@[simp] theorem State.clear_heap : (s.clear).heap = freeTable 9 (s.freeCount + 1) 0 := rfl
@[simp] theorem State.clear_node : (s.clear).node = freeArena (s.freeCount + 2) := rfl
@[simp] theorem State.clear_wbuf : (s.clear).wbuf = freeBuffer s.bufBytes.toNat (s.freeCount + 3) 0 := rfl
@[simp] theorem State.clear_rbuf : (s.clear).rbuf =
    freeBuffer s.bufBytes.toNat (s.freeCount + 3) s.bufBytes.toNat := rfl
@[simp] theorem State.clear_obuf : (s.clear).obuf =
    freeBuffer s.bufBytes.toNat (s.freeCount + 3) (2 * s.bufBytes.toNat) := rfl
@[simp] theorem State.clear_input : (s.clear).input = s.input := rfl
@[simp] theorem State.clear_output : (s.clear).output = s.output := rfl
@[simp] theorem State.clear_pending : (s.clear).pending = s.pending := rfl
@[simp] theorem State.clear_portOut : (s.clear).portOut = s.portOut := rfl
@[simp] theorem State.clear_freeCount : (s.clear).freeCount = s.freeCount + 4 := rfl

/-! ### `State.putCode` -/

@[simp] theorem State.putCode_arg0 : (s.putCode c pat len).arg0 = s.arg0 := rfl
@[simp] theorem State.putCode_res : (s.putCode c pat len).res = s.res := rfl
@[simp] theorem State.putCode_status : (s.putCode c pat len).status = s.status := rfl
@[simp] theorem State.putCode_err : (s.putCode c pat len).err = s.err := rfl
@[simp] theorem State.putCode_errinfo : (s.putCode c pat len).errinfo = s.errinfo := rfl
@[simp] theorem State.putCode_nsym : (s.putCode c pat len).nsym = s.nsym := rfl
@[simp] theorem State.putCode_divisor : (s.putCode c pat len).divisor = s.divisor := rfl
@[simp] theorem State.putCode_totalBits : (s.putCode c pat len).totalBits = s.totalBits := rfl
@[simp] theorem State.putCode_root : (s.putCode c pat len).root = s.root := rfl
@[simp] theorem State.putCode_nalloc : (s.putCode c pat len).nalloc = s.nalloc := rfl
@[simp] theorem State.putCode_hsize : (s.putCode c pat len).hsize = s.hsize := rfl
@[simp] theorem State.putCode_hmax : (s.putCode c pat len).hmax = s.hmax := rfl
@[simp] theorem State.putCode_wpos : (s.putCode c pat len).wpos = s.wpos := rfl
@[simp] theorem State.putCode_wtotal : (s.putCode c pat len).wtotal = s.wtotal := rfl
@[simp] theorem State.putCode_rpos : (s.putCode c pat len).rpos = s.rpos := rfl
@[simp] theorem State.putCode_rfill : (s.putCode c pat len).rfill = s.rfill := rfl
@[simp] theorem State.putCode_rtotal : (s.putCode c pat len).rtotal = s.rtotal := rfl
@[simp] theorem State.putCode_rlimit : (s.putCode c pat len).rlimit = s.rlimit := rfl
@[simp] theorem State.putCode_olen : (s.putCode c pat len).olen = s.olen := rfl
@[simp] theorem State.putCode_inPos : (s.putCode c pat len).inPos = s.inPos := rfl
@[simp] theorem State.putCode_outCap : (s.putCode c pat len).outCap = s.outCap := rfl
@[simp] theorem State.putCode_bufBytes : (s.putCode c pat len).bufBytes = s.bufBytes := rfl
@[simp] theorem State.putCode_ft : (s.putCode c pat len).ft = s.ft := rfl
@[simp] theorem State.putCode_sft : (s.putCode c pat len).sft = s.sft := rfl
@[simp] theorem State.putCode_ctPat : (s.putCode c pat len).ctPat = symPut s.ctPat c (word pat) := rfl
@[simp] theorem State.putCode_ctLen : (s.putCode c pat len).ctLen = symPut s.ctLen c (BitVec.ofNat 8 len) := rfl
@[simp] theorem State.putCode_heap : (s.putCode c pat len).heap = s.heap := rfl
@[simp] theorem State.putCode_node : (s.putCode c pat len).node = s.node := rfl
@[simp] theorem State.putCode_wbuf : (s.putCode c pat len).wbuf = s.wbuf := rfl
@[simp] theorem State.putCode_rbuf : (s.putCode c pat len).rbuf = s.rbuf := rfl
@[simp] theorem State.putCode_obuf : (s.putCode c pat len).obuf = s.obuf := rfl
@[simp] theorem State.putCode_input : (s.putCode c pat len).input = s.input := rfl
@[simp] theorem State.putCode_output : (s.putCode c pat len).output = s.output := rfl
@[simp] theorem State.putCode_pending : (s.putCode c pat len).pending = s.pending := rfl
@[simp] theorem State.putCode_portOut : (s.putCode c pat len).portOut = s.portOut := rfl
@[simp] theorem State.putCode_freeCount : (s.putCode c pat len).freeCount = s.freeCount := rfl

/-! ### `State.zeroCodes` -/

@[simp] theorem State.zeroCodes_arg0 : (s.zeroCodes).arg0 = s.arg0 := rfl
@[simp] theorem State.zeroCodes_res : (s.zeroCodes).res = s.res := rfl
@[simp] theorem State.zeroCodes_status : (s.zeroCodes).status = s.status := rfl
@[simp] theorem State.zeroCodes_err : (s.zeroCodes).err = s.err := rfl
@[simp] theorem State.zeroCodes_errinfo : (s.zeroCodes).errinfo = s.errinfo := rfl
@[simp] theorem State.zeroCodes_nsym : (s.zeroCodes).nsym = s.nsym := rfl
@[simp] theorem State.zeroCodes_divisor : (s.zeroCodes).divisor = s.divisor := rfl
@[simp] theorem State.zeroCodes_totalBits : (s.zeroCodes).totalBits = s.totalBits := rfl
@[simp] theorem State.zeroCodes_root : (s.zeroCodes).root = s.root := rfl
@[simp] theorem State.zeroCodes_nalloc : (s.zeroCodes).nalloc = s.nalloc := rfl
@[simp] theorem State.zeroCodes_hsize : (s.zeroCodes).hsize = s.hsize := rfl
@[simp] theorem State.zeroCodes_hmax : (s.zeroCodes).hmax = s.hmax := rfl
@[simp] theorem State.zeroCodes_wpos : (s.zeroCodes).wpos = s.wpos := rfl
@[simp] theorem State.zeroCodes_wtotal : (s.zeroCodes).wtotal = s.wtotal := rfl
@[simp] theorem State.zeroCodes_rpos : (s.zeroCodes).rpos = s.rpos := rfl
@[simp] theorem State.zeroCodes_rfill : (s.zeroCodes).rfill = s.rfill := rfl
@[simp] theorem State.zeroCodes_rtotal : (s.zeroCodes).rtotal = s.rtotal := rfl
@[simp] theorem State.zeroCodes_rlimit : (s.zeroCodes).rlimit = s.rlimit := rfl
@[simp] theorem State.zeroCodes_olen : (s.zeroCodes).olen = s.olen := rfl
@[simp] theorem State.zeroCodes_inPos : (s.zeroCodes).inPos = s.inPos := rfl
@[simp] theorem State.zeroCodes_outCap : (s.zeroCodes).outCap = s.outCap := rfl
@[simp] theorem State.zeroCodes_bufBytes : (s.zeroCodes).bufBytes = s.bufBytes := rfl
@[simp] theorem State.zeroCodes_ft : (s.zeroCodes).ft = s.ft := rfl
@[simp] theorem State.zeroCodes_sft : (s.zeroCodes).sft = s.sft := rfl
@[simp] theorem State.zeroCodes_ctPat : (s.zeroCodes).ctPat = Vector.replicate 256 0 := rfl
@[simp] theorem State.zeroCodes_ctLen : (s.zeroCodes).ctLen = Vector.replicate 256 0 := rfl
@[simp] theorem State.zeroCodes_heap : (s.zeroCodes).heap = s.heap := rfl
@[simp] theorem State.zeroCodes_node : (s.zeroCodes).node = s.node := rfl
@[simp] theorem State.zeroCodes_wbuf : (s.zeroCodes).wbuf = s.wbuf := rfl
@[simp] theorem State.zeroCodes_rbuf : (s.zeroCodes).rbuf = s.rbuf := rfl
@[simp] theorem State.zeroCodes_obuf : (s.zeroCodes).obuf = s.obuf := rfl
@[simp] theorem State.zeroCodes_input : (s.zeroCodes).input = s.input := rfl
@[simp] theorem State.zeroCodes_output : (s.zeroCodes).output = s.output := rfl
@[simp] theorem State.zeroCodes_pending : (s.zeroCodes).pending = s.pending := rfl
@[simp] theorem State.zeroCodes_portOut : (s.zeroCodes).portOut = s.portOut := rfl
@[simp] theorem State.zeroCodes_freeCount : (s.zeroCodes).freeCount = s.freeCount := rfl

/-! ### `State.zeroWbuf` -/

@[simp] theorem State.zeroWbuf_arg0 : (s.zeroWbuf).arg0 = s.arg0 := rfl
@[simp] theorem State.zeroWbuf_res : (s.zeroWbuf).res = s.res := rfl
@[simp] theorem State.zeroWbuf_status : (s.zeroWbuf).status = s.status := rfl
@[simp] theorem State.zeroWbuf_err : (s.zeroWbuf).err = s.err := rfl
@[simp] theorem State.zeroWbuf_errinfo : (s.zeroWbuf).errinfo = s.errinfo := rfl
@[simp] theorem State.zeroWbuf_nsym : (s.zeroWbuf).nsym = s.nsym := rfl
@[simp] theorem State.zeroWbuf_divisor : (s.zeroWbuf).divisor = s.divisor := rfl
@[simp] theorem State.zeroWbuf_totalBits : (s.zeroWbuf).totalBits = s.totalBits := rfl
@[simp] theorem State.zeroWbuf_root : (s.zeroWbuf).root = s.root := rfl
@[simp] theorem State.zeroWbuf_nalloc : (s.zeroWbuf).nalloc = s.nalloc := rfl
@[simp] theorem State.zeroWbuf_hsize : (s.zeroWbuf).hsize = s.hsize := rfl
@[simp] theorem State.zeroWbuf_hmax : (s.zeroWbuf).hmax = s.hmax := rfl
@[simp] theorem State.zeroWbuf_wpos : (s.zeroWbuf).wpos = s.wpos := rfl
@[simp] theorem State.zeroWbuf_wtotal : (s.zeroWbuf).wtotal = s.wtotal := rfl
@[simp] theorem State.zeroWbuf_rpos : (s.zeroWbuf).rpos = s.rpos := rfl
@[simp] theorem State.zeroWbuf_rfill : (s.zeroWbuf).rfill = s.rfill := rfl
@[simp] theorem State.zeroWbuf_rtotal : (s.zeroWbuf).rtotal = s.rtotal := rfl
@[simp] theorem State.zeroWbuf_rlimit : (s.zeroWbuf).rlimit = s.rlimit := rfl
@[simp] theorem State.zeroWbuf_olen : (s.zeroWbuf).olen = s.olen := rfl
@[simp] theorem State.zeroWbuf_inPos : (s.zeroWbuf).inPos = s.inPos := rfl
@[simp] theorem State.zeroWbuf_outCap : (s.zeroWbuf).outCap = s.outCap := rfl
@[simp] theorem State.zeroWbuf_bufBytes : (s.zeroWbuf).bufBytes = s.bufBytes := rfl
@[simp] theorem State.zeroWbuf_ft : (s.zeroWbuf).ft = s.ft := rfl
@[simp] theorem State.zeroWbuf_sft : (s.zeroWbuf).sft = s.sft := rfl
@[simp] theorem State.zeroWbuf_ctPat : (s.zeroWbuf).ctPat = s.ctPat := rfl
@[simp] theorem State.zeroWbuf_ctLen : (s.zeroWbuf).ctLen = s.ctLen := rfl
@[simp] theorem State.zeroWbuf_heap : (s.zeroWbuf).heap = s.heap := rfl
@[simp] theorem State.zeroWbuf_node : (s.zeroWbuf).node = s.node := rfl
@[simp] theorem State.zeroWbuf_wbuf : (s.zeroWbuf).wbuf = List.replicate s.bufBytes.toNat 0 := rfl
@[simp] theorem State.zeroWbuf_rbuf : (s.zeroWbuf).rbuf = s.rbuf := rfl
@[simp] theorem State.zeroWbuf_obuf : (s.zeroWbuf).obuf = s.obuf := rfl
@[simp] theorem State.zeroWbuf_input : (s.zeroWbuf).input = s.input := rfl
@[simp] theorem State.zeroWbuf_output : (s.zeroWbuf).output = s.output := rfl
@[simp] theorem State.zeroWbuf_pending : (s.zeroWbuf).pending = s.pending := rfl
@[simp] theorem State.zeroWbuf_portOut : (s.zeroWbuf).portOut = s.portOut := rfl
@[simp] theorem State.zeroWbuf_freeCount : (s.zeroWbuf).freeCount = s.freeCount := rfl

/-! ### `State.placeBit` -/

@[simp] theorem State.placeBit_arg0 : (s.placeBit b).arg0 = s.arg0 := rfl
@[simp] theorem State.placeBit_res : (s.placeBit b).res = s.res := rfl
@[simp] theorem State.placeBit_status : (s.placeBit b).status = s.status := rfl
@[simp] theorem State.placeBit_err : (s.placeBit b).err = s.err := rfl
@[simp] theorem State.placeBit_errinfo : (s.placeBit b).errinfo = s.errinfo := rfl
@[simp] theorem State.placeBit_nsym : (s.placeBit b).nsym = s.nsym := rfl
@[simp] theorem State.placeBit_divisor : (s.placeBit b).divisor = s.divisor := rfl
@[simp] theorem State.placeBit_totalBits : (s.placeBit b).totalBits = s.totalBits := rfl
@[simp] theorem State.placeBit_root : (s.placeBit b).root = s.root := rfl
@[simp] theorem State.placeBit_nalloc : (s.placeBit b).nalloc = s.nalloc := rfl
@[simp] theorem State.placeBit_hsize : (s.placeBit b).hsize = s.hsize := rfl
@[simp] theorem State.placeBit_hmax : (s.placeBit b).hmax = s.hmax := rfl
@[simp] theorem State.placeBit_wpos : (s.placeBit b).wpos = word (s.wpos.toNat + 1) := rfl
@[simp] theorem State.placeBit_wtotal : (s.placeBit b).wtotal = word (s.wtotal.toNat + 1) := rfl
@[simp] theorem State.placeBit_rpos : (s.placeBit b).rpos = s.rpos := rfl
@[simp] theorem State.placeBit_rfill : (s.placeBit b).rfill = s.rfill := rfl
@[simp] theorem State.placeBit_rtotal : (s.placeBit b).rtotal = s.rtotal := rfl
@[simp] theorem State.placeBit_rlimit : (s.placeBit b).rlimit = s.rlimit := rfl
@[simp] theorem State.placeBit_olen : (s.placeBit b).olen = s.olen := rfl
@[simp] theorem State.placeBit_inPos : (s.placeBit b).inPos = s.inPos := rfl
@[simp] theorem State.placeBit_outCap : (s.placeBit b).outCap = s.outCap := rfl
@[simp] theorem State.placeBit_bufBytes : (s.placeBit b).bufBytes = s.bufBytes := rfl
@[simp] theorem State.placeBit_ft : (s.placeBit b).ft = s.ft := rfl
@[simp] theorem State.placeBit_sft : (s.placeBit b).sft = s.sft := rfl
@[simp] theorem State.placeBit_ctPat : (s.placeBit b).ctPat = s.ctPat := rfl
@[simp] theorem State.placeBit_ctLen : (s.placeBit b).ctLen = s.ctLen := rfl
@[simp] theorem State.placeBit_heap : (s.placeBit b).heap = s.heap := rfl
@[simp] theorem State.placeBit_node : (s.placeBit b).node = s.node := rfl
@[simp] theorem State.placeBit_wbuf : (s.placeBit b).wbuf = orBit s.wbuf s.wpos.toNat b := rfl
@[simp] theorem State.placeBit_rbuf : (s.placeBit b).rbuf = s.rbuf := rfl
@[simp] theorem State.placeBit_obuf : (s.placeBit b).obuf = s.obuf := rfl
@[simp] theorem State.placeBit_input : (s.placeBit b).input = s.input := rfl
@[simp] theorem State.placeBit_output : (s.placeBit b).output = s.output := rfl
@[simp] theorem State.placeBit_pending : (s.placeBit b).pending = s.pending := rfl
@[simp] theorem State.placeBit_portOut : (s.placeBit b).portOut = s.portOut := rfl
@[simp] theorem State.placeBit_freeCount : (s.placeBit b).freeCount = s.freeCount := rfl

/-! ### `State.initReader` -/

@[simp] theorem State.initReader_arg0 : (s.initReader v).arg0 = s.arg0 := rfl
@[simp] theorem State.initReader_res : (s.initReader v).res = s.res := rfl
@[simp] theorem State.initReader_status : (s.initReader v).status = { s.status with brValid := true } := rfl
@[simp] theorem State.initReader_err : (s.initReader v).err = s.err := rfl
@[simp] theorem State.initReader_errinfo : (s.initReader v).errinfo = s.errinfo := rfl
@[simp] theorem State.initReader_nsym : (s.initReader v).nsym = s.nsym := rfl
@[simp] theorem State.initReader_divisor : (s.initReader v).divisor = s.divisor := rfl
@[simp] theorem State.initReader_totalBits : (s.initReader v).totalBits = s.totalBits := rfl
@[simp] theorem State.initReader_root : (s.initReader v).root = s.root := rfl
@[simp] theorem State.initReader_nalloc : (s.initReader v).nalloc = s.nalloc := rfl
@[simp] theorem State.initReader_hsize : (s.initReader v).hsize = s.hsize := rfl
@[simp] theorem State.initReader_hmax : (s.initReader v).hmax = s.hmax := rfl
@[simp] theorem State.initReader_wpos : (s.initReader v).wpos = s.wpos := rfl
@[simp] theorem State.initReader_wtotal : (s.initReader v).wtotal = s.wtotal := rfl
@[simp] theorem State.initReader_rpos : (s.initReader v).rpos = 0 := rfl
@[simp] theorem State.initReader_rfill : (s.initReader v).rfill = 0 := rfl
@[simp] theorem State.initReader_rtotal : (s.initReader v).rtotal = 0 := rfl
@[simp] theorem State.initReader_rlimit : (s.initReader v).rlimit = v := rfl
@[simp] theorem State.initReader_olen : (s.initReader v).olen = s.olen := rfl
@[simp] theorem State.initReader_inPos : (s.initReader v).inPos = s.inPos := rfl
@[simp] theorem State.initReader_outCap : (s.initReader v).outCap = s.outCap := rfl
@[simp] theorem State.initReader_bufBytes : (s.initReader v).bufBytes = s.bufBytes := rfl
@[simp] theorem State.initReader_ft : (s.initReader v).ft = s.ft := rfl
@[simp] theorem State.initReader_sft : (s.initReader v).sft = s.sft := rfl
@[simp] theorem State.initReader_ctPat : (s.initReader v).ctPat = s.ctPat := rfl
@[simp] theorem State.initReader_ctLen : (s.initReader v).ctLen = s.ctLen := rfl
@[simp] theorem State.initReader_heap : (s.initReader v).heap = s.heap := rfl
@[simp] theorem State.initReader_node : (s.initReader v).node = s.node := rfl
@[simp] theorem State.initReader_wbuf : (s.initReader v).wbuf = s.wbuf := rfl
@[simp] theorem State.initReader_rbuf : (s.initReader v).rbuf = s.rbuf := rfl
@[simp] theorem State.initReader_obuf : (s.initReader v).obuf = s.obuf := rfl
@[simp] theorem State.initReader_input : (s.initReader v).input = s.input := rfl
@[simp] theorem State.initReader_output : (s.initReader v).output = s.output := rfl
@[simp] theorem State.initReader_pending : (s.initReader v).pending = s.pending := rfl
@[simp] theorem State.initReader_portOut : (s.initReader v).portOut = s.portOut := rfl
@[simp] theorem State.initReader_freeCount : (s.initReader v).freeCount = s.freeCount := rfl

/-! ### `State.refill` -/

@[simp] theorem State.refill_arg0 : (s.refill).arg0 = s.arg0 := rfl
@[simp] theorem State.refill_res : (s.refill).res = s.res := rfl
@[simp] theorem State.refill_status : (s.refill).status = s.status := rfl
@[simp] theorem State.refill_err : (s.refill).err = s.err := rfl
@[simp] theorem State.refill_errinfo : (s.refill).errinfo = s.errinfo := rfl
@[simp] theorem State.refill_nsym : (s.refill).nsym = s.nsym := rfl
@[simp] theorem State.refill_divisor : (s.refill).divisor = s.divisor := rfl
@[simp] theorem State.refill_totalBits : (s.refill).totalBits = s.totalBits := rfl
@[simp] theorem State.refill_root : (s.refill).root = s.root := rfl
@[simp] theorem State.refill_nalloc : (s.refill).nalloc = s.nalloc := rfl
@[simp] theorem State.refill_hsize : (s.refill).hsize = s.hsize := rfl
@[simp] theorem State.refill_hmax : (s.refill).hmax = s.hmax := rfl
@[simp] theorem State.refill_wpos : (s.refill).wpos = s.wpos := rfl
@[simp] theorem State.refill_wtotal : (s.refill).wtotal = s.wtotal := rfl
@[simp] theorem State.refill_rpos : (s.refill).rpos = 0 := rfl
@[simp] theorem State.refill_rfill : (s.refill).rfill = word s.refillSize := rfl
@[simp] theorem State.refill_rtotal : (s.refill).rtotal = s.rtotal := rfl
@[simp] theorem State.refill_rlimit : (s.refill).rlimit = word (s.rlimit.toNat - s.refillSize) := rfl
@[simp] theorem State.refill_olen : (s.refill).olen = s.olen := rfl
@[simp] theorem State.refill_inPos : (s.refill).inPos = word (s.inPos.toNat + s.refillSize) := rfl
@[simp] theorem State.refill_outCap : (s.refill).outCap = s.outCap := rfl
@[simp] theorem State.refill_bufBytes : (s.refill).bufBytes = s.bufBytes := rfl
@[simp] theorem State.refill_ft : (s.refill).ft = s.ft := rfl
@[simp] theorem State.refill_sft : (s.refill).sft = s.sft := rfl
@[simp] theorem State.refill_ctPat : (s.refill).ctPat = s.ctPat := rfl
@[simp] theorem State.refill_ctLen : (s.refill).ctLen = s.ctLen := rfl
@[simp] theorem State.refill_heap : (s.refill).heap = s.heap := rfl
@[simp] theorem State.refill_node : (s.refill).node = s.node := rfl
@[simp] theorem State.refill_wbuf : (s.refill).wbuf = s.wbuf := rfl
@[simp] theorem State.refill_rbuf : (s.refill).rbuf =
    s.memRead s.inPos.toNat s.refillSize ++ s.rbuf.drop s.refillSize := rfl
@[simp] theorem State.refill_obuf : (s.refill).obuf = s.obuf := rfl
@[simp] theorem State.refill_input : (s.refill).input = s.input := rfl
@[simp] theorem State.refill_output : (s.refill).output = s.output := rfl
@[simp] theorem State.refill_pending : (s.refill).pending = s.pending := rfl
@[simp] theorem State.refill_portOut : (s.refill).portOut = s.portOut := rfl
@[simp] theorem State.refill_freeCount : (s.refill).freeCount = s.freeCount := rfl

/-! ### `State.discardOutput` -/

@[simp] theorem State.discardOutput_arg0 : (s.discardOutput).arg0 = s.arg0 := rfl
@[simp] theorem State.discardOutput_res : (s.discardOutput).res = s.res := rfl
@[simp] theorem State.discardOutput_status : (s.discardOutput).status = s.status := rfl
@[simp] theorem State.discardOutput_err : (s.discardOutput).err = s.err := rfl
@[simp] theorem State.discardOutput_errinfo : (s.discardOutput).errinfo = s.errinfo := rfl
@[simp] theorem State.discardOutput_nsym : (s.discardOutput).nsym = s.nsym := rfl
@[simp] theorem State.discardOutput_divisor : (s.discardOutput).divisor = s.divisor := rfl
@[simp] theorem State.discardOutput_totalBits : (s.discardOutput).totalBits = s.totalBits := rfl
@[simp] theorem State.discardOutput_root : (s.discardOutput).root = s.root := rfl
@[simp] theorem State.discardOutput_nalloc : (s.discardOutput).nalloc = s.nalloc := rfl
@[simp] theorem State.discardOutput_hsize : (s.discardOutput).hsize = s.hsize := rfl
@[simp] theorem State.discardOutput_hmax : (s.discardOutput).hmax = s.hmax := rfl
@[simp] theorem State.discardOutput_wpos : (s.discardOutput).wpos = s.wpos := rfl
@[simp] theorem State.discardOutput_wtotal : (s.discardOutput).wtotal = s.wtotal := rfl
@[simp] theorem State.discardOutput_rpos : (s.discardOutput).rpos = s.rpos := rfl
@[simp] theorem State.discardOutput_rfill : (s.discardOutput).rfill = s.rfill := rfl
@[simp] theorem State.discardOutput_rtotal : (s.discardOutput).rtotal = s.rtotal := rfl
@[simp] theorem State.discardOutput_rlimit : (s.discardOutput).rlimit = s.rlimit := rfl
@[simp] theorem State.discardOutput_olen : (s.discardOutput).olen = s.olen := rfl
@[simp] theorem State.discardOutput_inPos : (s.discardOutput).inPos = s.inPos := rfl
@[simp] theorem State.discardOutput_outCap : (s.discardOutput).outCap = s.outCap := rfl
@[simp] theorem State.discardOutput_bufBytes : (s.discardOutput).bufBytes = s.bufBytes := rfl
@[simp] theorem State.discardOutput_ft : (s.discardOutput).ft = s.ft := rfl
@[simp] theorem State.discardOutput_sft : (s.discardOutput).sft = s.sft := rfl
@[simp] theorem State.discardOutput_ctPat : (s.discardOutput).ctPat = s.ctPat := rfl
@[simp] theorem State.discardOutput_ctLen : (s.discardOutput).ctLen = s.ctLen := rfl
@[simp] theorem State.discardOutput_heap : (s.discardOutput).heap = s.heap := rfl
@[simp] theorem State.discardOutput_node : (s.discardOutput).node = s.node := rfl
@[simp] theorem State.discardOutput_wbuf : (s.discardOutput).wbuf = s.wbuf := rfl
@[simp] theorem State.discardOutput_rbuf : (s.discardOutput).rbuf = s.rbuf := rfl
@[simp] theorem State.discardOutput_obuf : (s.discardOutput).obuf = s.obuf := rfl
@[simp] theorem State.discardOutput_input : (s.discardOutput).input = s.input := rfl
@[simp] theorem State.discardOutput_output : (s.discardOutput).output = [] := rfl
@[simp] theorem State.discardOutput_pending : (s.discardOutput).pending = s.pending := rfl
@[simp] theorem State.discardOutput_portOut : (s.discardOutput).portOut = s.portOut := rfl
@[simp] theorem State.discardOutput_freeCount : (s.discardOutput).freeCount = s.freeCount := rfl

end Sys2Proof.Machine
end

