-- ==== Sys2Proof/Laws/Run.lean ====
section
/-! SUPPORT. Laws/Run.lean: sequencing, `require`, `raise` and the sticky gate: what each can do, said once. -/

namespace Sys2Proof.Machine

variable {α β : Type}

@[simp] theorem Run.bind_ok (a : α) (s : State) (f : α → State → Run β) : (Run.ok a s).bind f = f a s := rfl
@[simp] theorem Run.bind_stop (s : State) (f : α → State → Run β) : (Run.stop s).bind f = .stop s := rfl
@[simp] theorem Run.state_ok (a : α) (s : State) : (Run.ok a s).state = s := rfl
@[simp] theorem Run.state_stop (s : State) : (Run.stop s : Run α).state = s := rfl

/-- A sequence completes exactly when both parts do. -/
theorem Run.bind_eq_ok {r : Run α} {f : α → State → Run β} {b : β} {t : State} :
    r.bind f = .ok b t ↔ ∃ a s, r = .ok a s ∧ f a s = .ok b t := by
  cases r <;> simp

/-- A sequence stops in its first part, or completes it and stops in the second. -/
theorem Run.bind_eq_stop {r : Run α} {f : α → State → Run β} {t : State} :
    r.bind f = .stop t ↔ r = .stop t ∨ ∃ a s, r = .ok a s ∧ f a s = .stop t := by
  cases r <;> simp

/-- A relation that is transitive and holds across both parts holds across the sequence. -/
theorem Run.bind_rel {R : State → State → Prop} (htrans : ∀ {a b c}, R a b → R b c → R a c) {s : State}
    {r : Run α} {f : α → State → Run β} (hr : R s r.state)
    (hf : ∀ a t, r = .ok a t → R t (f a t).state) : R s (r.bind f).state := by
  cases r with
  | ok a t => exact htrans hr (hf a t rfl)
  | stop t => exact hr

/-- A property of states that both parts keep is kept by the sequence. -/
theorem Run.bind_keeps {P : State → Prop} {r : Run α} {f : α → State → Run β} (hr : P r.state)
    (hf : ∀ a t, r = .ok a t → P t → P (f a t).state) : P (r.bind f).state := by
  cases r with
  | ok a t => exact hf a t rfl hr
  | stop t => exact hr

/-! ## `raise` (60 R241) -/

theorem State.raise_of_fault {s : State} (h : s.status.fault = true) (e : Err) (info : Word64) :
    s.raise e info = s := by
  simp [State.raise, h]

theorem State.raise_of_noFault {s : State} (h : s.NoFault) (e : Err) (info : Word64) :
    s.raise e info =
      { s with err := e.code, errinfo := info, status := { s.status with fault := true } } := by
  have h : s.status.fault = false := h
  simp [State.raise, h, State.setFault]

/-- After a `raise` a fault is recorded. -/
@[simp] theorem State.raise_fault (s : State) (e : Err) (info : Word64) :
    (s.raise e info).status.fault = true := by
  unfold State.raise
  split <;> simp_all

/-- `raise` writes `ERR`, `ERRINFO` and `STATUS.FAULT` alone. -/
theorem State.raise_frame (s : State) (e : Err) (info : Word64) :
    s.raise e info = { s with
      err := (s.raise e info).err
      errinfo := (s.raise e info).errinfo
      status := { s.status with fault := true } } := by
  unfold State.raise
  split
  · rename_i h
    cases s with
    | mk => rename_i st _ _ _ _ _ _ _ _ _ _ _ _ _ _ _ _ _ _ _ _ _ _ _ _ _ _ _ _ _ _ _ _ _; cases st; simp_all
  · rfl

/-! ## `require` (00 R15) -/

@[simp] theorem require_true (e : Err) (info : Word64) (s : State) : require true e info s = .ok () s := rfl
@[simp] theorem require_false (e : Err) (info : Word64) (s : State) :
    require false e info s = .stop (s.raise e info) := rfl

theorem require_eq_ok {c : Bool} {e : Err} {info : Word64} {s t : State} {u : Unit} :
    require c e info s = .ok u t ↔ c = true ∧ t = s := by
  cases c <;> simp [eq_comm]

theorem require_eq_stop {c : Bool} {e : Err} {info : Word64} {s t : State} :
    require c e info s = .stop t ↔ c = false ∧ t = s.raise e info := by
  cases c <;> simp [eq_comm]

/-! ## The sticky gate (60 R243) -/

theorem command_of_fault {s : State} (h : s.status.fault = true) (body : Proc Unit) :
    command body s = .next s := by
  simp [command, h]

theorem command_of_noFault {s : State} (h : s.NoFault) (body : Proc Unit) :
    command body s = .next (body s).state := by
  have h : s.status.fault = false := h
  simp [command, h]

/-- Whatever the state, a command answers one next state. -/
theorem command_eq_next (body : Proc Unit) (s : State) :
    command body s = .next (if s.status.fault then s else (body s).state) := by
  unfold command
  split <;> rfl

/-- An illegal word answers one next state: the same, or the `raise`. -/
theorem illegalWord_eq_next (w : Word32) (s : State) :
    illegalWord w s =
      .next (if s.status.fault && opField w != 0x01 then s else s.raise .badCmd (wordInfo w)) := by
  unfold illegalWord
  split <;> rfl

end Sys2Proof.Machine
end

