-- ==== Sys2Proof/Laws/Tables.lean ====
section
/-! SUPPORT. Laws/Tables.lean: reading a table, a heap array or the arena after writing it, and the list of all symbols. -/

namespace Sys2Proof.Machine

variable {α β : Type}

/-! ## Tables indexed by symbol -/

theorem symAt_symPut (t : Vector α 256) (c d : Byte) (v : α) :
    symAt (symPut t c v) d = if d = c then v else symAt t d := by
  simp only [symAt, symPut, Vector.getElem_set, BitVec.toNat_inj, eq_comm]

@[simp] theorem symAt_symPut_self (t : Vector α 256) (c : Byte) (v : α) : symAt (symPut t c v) c = v := by
  simp [symAt_symPut]

theorem symAt_symPut_ne (t : Vector α 256) {c d : Byte} (v : α) (h : d ≠ c) :
    symAt (symPut t c v) d = symAt t d := by
  simp [symAt_symPut, h]

@[simp] theorem symAt_replicate (v : α) (c : Byte) : symAt (Vector.replicate 256 v) c = v := by
  simp [symAt]

@[simp] theorem symAt_symMap (f : α → β) (t : Vector α 256) (c : Byte) : symAt (symMap f t) c = f (symAt t c) := by
  simp [symAt, symMap]

@[simp] theorem allSymbols_length : allSymbols.length = 256 := by simp [allSymbols]

theorem mem_allSymbols (c : Byte) : c ∈ allSymbols := by
  simp only [allSymbols, List.mem_map, List.mem_range]
  exact ⟨c.toNat, c.isLt, by simp⟩

theorem allSymbols_nodup : allSymbols.Nodup := by
  refine List.Nodup.map_on ?_ List.nodup_range
  intro a ha b hb h
  simp only [List.mem_range] at ha hb
  have := congrArg BitVec.toNat h
  simp at this
  omega

/-- A table listed is its entries in symbol order. -/
theorem toList_eq_map (t : Vector α 256) : t.toList = allSymbols.map (symAt t) := by
  apply List.ext_getElem
  · simp
  · intro n h1 h2
    simp at h1
    simp [allSymbols, symAt, Nat.mod_eq_of_lt h1]

/-- Two tables with equal entries are equal. -/
theorem table_ext {t u : Vector α 256} (h : ∀ c, symAt t c = symAt u c) : t = u := by
  apply Vector.ext
  intro i hi
  have := h (BitVec.ofNat 8 i)
  simpa [symAt, Nat.mod_eq_of_lt hi] using this

theorem mem_presentSymbols {sft : Vector Byte 256} {c : Byte} : c ∈ presentSymbols sft ↔ symAt sft c ≠ 0 := by
  simp [presentSymbols, mem_allSymbols]

theorem presentSymbols_nodup (sft : Vector Byte 256) : (presentSymbols sft).Nodup := allSymbols_nodup.filter _

theorem presentCount_eq {w : Nat} (t : Vector (BitVec w) 256) :
    presentCount t = (allSymbols.filter fun c => symAt t c != 0).length := by
  rw [presentCount, toList_eq_map, List.countP_map, List.countP_eq_length_filter]
  rfl

theorem presentCount_le {w : Nat} (t : Vector (BitVec w) 256) : presentCount t ≤ 256 := by
  rw [presentCount_eq, ← allSymbols_length]
  exact List.length_filter_le _ _

theorem presentCount_byte (sft : Vector Byte 256) : presentCount sft = (presentSymbols sft).length := presentCount_eq sft

/-! ## The heap array and the arena -/

theorem heapAt_set (heap : Vector Handle 256) (i j : Nat) (h : Handle) :
    heapAt (heap.setIfInBounds i h) j = if i = j ∧ i < 256 then h else heapAt heap j := by
  simp only [heapAt, Vector.getElem?_setIfInBounds]
  by_cases hij : i = j
  · subst hij
    by_cases hi : i < 256 <;> simp [hi]
  · simp [hij]

theorem nodeAt_set (arena : Vector Node 511) (i : Nat) (n : Node) (h : Handle) :
    nodeAt (arena.setIfInBounds i n) h = if i = h.toNat ∧ i < 511 then n else nodeAt arena h := by
  simp only [nodeAt, Vector.getElem?_setIfInBounds]
  by_cases hij : i = h.toNat
  · by_cases hi : h.toNat < 511 <;> simp [hij, hi]
  · simp [hij]

theorem nodeAt_set_ne (arena : Vector Node 511) {i : Nat} (n : Node) {h : Handle} (hne : h.toNat ≠ i) :
    nodeAt (arena.setIfInBounds i n) h = nodeAt arena h := by
  rw [nodeAt_set, if_neg (by omega)]

theorem nodeAt_set_self (arena : Vector Node 511) {i : Nat} (n : Node) {h : Handle} (he : h.toNat = i)
    (hi : i < 511) : nodeAt (arena.setIfInBounds i n) h = n := by
  rw [nodeAt_set, if_pos ⟨he.symm, hi⟩]

/-! ## Words -/

theorem word_toNat {n : Nat} (h : n < 2 ^ 64) : (word n).toNat = n := by
  rw [word, BitVec.toNat_ofNat, Nat.mod_eq_of_lt h]

@[simp] theorem word_toNat_self (v : Word64) : word v.toNat = v := by simp [word]

end Sys2Proof.Machine
end

