-- ==== Sys2Proof/Laws/Sift.lean ====
section
/-! SUPPORT. Laws/Sift.lean: the heap order of spec 41 R142, and what the two repair loops do to the heap array (41 R144,
R147), said once as the path an element moves along. -/

namespace Sys2Proof.Machine

/-! ## The order -/

theorem keyLt_iff {a b : Node} :
    keyLt a b = true ↔ a.w.toNat < b.w.toNat ∨ (a.w.toNat = b.w.toNat ∧ a.sym.toNat < b.sym.toNat) := by
  simp [keyLt, ← BitVec.toNat_inj]

theorem keyLt_eq_false_iff {a b : Node} :
    keyLt a b = false ↔ b.w.toNat < a.w.toNat ∨ (a.w.toNat = b.w.toNat ∧ b.sym.toNat ≤ a.sym.toNat) := by
  rw [← Bool.not_eq_true, keyLt_iff]
  omega

theorem keyLt_irrefl (a : Node) : keyLt a a = false := by
  rw [keyLt_eq_false_iff]; omega

theorem keyLt_asymm {a b : Node} (h : keyLt a b = true) : keyLt b a = false := by
  rw [keyLt_iff] at h; rw [keyLt_eq_false_iff]; omega

/-- Not smaller, twice, is not smaller. -/
theorem not_keyLt_trans {a b c : Node} (hab : keyLt a b = false) (hbc : keyLt b c = false) : keyLt a c = false := by
  rw [keyLt_eq_false_iff] at *; omega

theorem keyLt_of_not_keyLt {a b c : Node} (hab : keyLt a b = true) (hcb : keyLt c b = false) : keyLt a c = true := by
  rw [keyLt_eq_false_iff] at *; rw [keyLt_iff] at *; omega

theorem weight_le_of_not_keyLt {a b : Node} (h : keyLt a b = false) : b.w.toNat ≤ a.w.toNat := by
  rw [keyLt_eq_false_iff] at h; omega

/-! ## Paths to the root -/

theorem onPath_refl (i : Nat) : OnPath i i := ⟨0, by simp⟩

theorem onPath_zero (i : Nat) : OnPath 0 i := by
  refine ⟨Nat.log2 (i + 1), ?_⟩
  have h1 := Nat.log2_self_le (n := i + 1) (by omega)
  have h2 := Nat.lt_log2_self (n := i + 1)
  rw [Nat.div_eq_iff (by positivity)]
  rw [pow_succ] at h2
  omega

theorem onPath_le {j i : Nat} (h : OnPath j i) : j ≤ i := by
  obtain ⟨k, hk⟩ := h
  have := Nat.div_le_self (i + 1) (2 ^ k)
  omega

theorem onPath_trans {a b c : Nat} (hab : OnPath a b) (hbc : OnPath b c) : OnPath a c := by
  obtain ⟨k, hk⟩ := hab
  obtain ⟨l, hl⟩ := hbc
  exact ⟨l + k, by rw [pow_add, ← Nat.div_div_eq_div_mul, hl, hk]⟩

theorem onPath_parent {i : Nat} (h : 0 < i) : OnPath ((i - 1) / 2) i := ⟨1, by omega⟩

/-- On the path: the index itself, or on its parent's path. -/
theorem onPath_iff {j i : Nat} (h : 0 < i) : OnPath j i ↔ j = i ∨ OnPath j ((i - 1) / 2) := by
  constructor
  · rintro ⟨k, hk⟩
    cases k with
    | zero => left; simpa using hk.symm
    | succ k =>
      right
      refine ⟨k, ?_⟩
      rw [pow_succ', ← Nat.div_div_eq_div_mul] at hk
      have : (i + 1) / 2 = (i - 1) / 2 + 1 := by omega
      rw [← this, hk]
  · rintro (rfl | h')
    · exact onPath_refl _
    · exact onPath_trans h' (onPath_parent h)

/-- Two indices on one path: the smaller is on the larger's path. -/
theorem onPath_of_le {a b i : Nat} (ha : OnPath a i) (hb : OnPath b i) (h : a ≤ b) : OnPath a b := by
  obtain ⟨k, hk⟩ := ha
  obtain ⟨l, hl⟩ := hb
  by_cases hkl : l ≤ k
  · obtain ⟨m, rfl⟩ := Nat.exists_eq_add_of_le hkl
    exact ⟨m, by rw [← hl, Nat.div_div_eq_div_mul, ← pow_add, hk]⟩
  · obtain ⟨m, rfl⟩ := Nat.exists_eq_add_of_le (Nat.le_of_not_le hkl)
    rw [pow_add, ← Nat.div_div_eq_div_mul, hk] at hl
    have := Nat.div_le_self (a + 1) (2 ^ m)
    have : a = b := by omega
    exact this ▸ onPath_refl _

/-- On a proper path: the parent is still at or below the upper end. -/
theorem le_parent_of_onPath {a b i : Nat} (ha : OnPath a i) (hb : OnPath b i) (h : a < b) : a ≤ (b - 1) / 2 := by
  have := onPath_of_le ha hb (Nat.le_of_lt h)
  rw [onPath_iff (by omega)] at this
  rcases this with rfl | this
  · omega
  · exact onPath_le this

/-! ## Swapping -/

theorem heapAt_heapSwap {heap : Vector Handle 256} {i j : Nat} (hi : i < 256) (hj : j < 256) (k : Nat) :
    heapAt (heapSwap heap i j) k =
      if k = j then heapAt heap i else if k = i then heapAt heap j else heapAt heap k := by
  simp only [heapSwap, heapAt_set]
  by_cases h1 : k = j
  · simp [h1, hj]
  · by_cases h2 : k = i
    · subst h2
      simp [h1, hi, Ne.symm h1]
    · simp [h1, h2, Ne.symm h1, Ne.symm h2]

/-- The first `n` entries of a heap array. -/
def heapEntries (heap : Vector Handle 256) (n : Nat) : List Handle := (List.range n).map (heapAt heap)

theorem State.heapList_eq (s : State) : s.heapList = heapEntries s.heap s.hsize.toNat := rfl

theorem heapEntries_succ (heap : Vector Handle 256) (n : Nat) :
    heapEntries heap (n + 1) = heapEntries heap n ++ [heapAt heap n] := by
  simp [heapEntries, List.range_succ]

theorem heapEntries_congr {heap heap' : Vector Handle 256} {n : Nat} (h : ∀ k < n, heapAt heap k = heapAt heap' k) :
    heapEntries heap n = heapEntries heap' n := by
  apply List.map_congr_left
  intro k hk
  exact h k (List.mem_range.1 hk)

theorem mem_heapEntries {heap : Vector Handle 256} {n : Nat} {h : Handle} :
    h ∈ heapEntries heap n ↔ ∃ k < n, heapAt heap k = h := by
  simp [heapEntries]

/-- A swap inside the first `n` entries permutes them. -/
theorem heapEntries_heapSwap {heap : Vector Handle 256} {i j n : Nat} (hi : i < n) (hj : j < n) (hn : n ≤ 256) :
    (heapEntries (heapSwap heap i j) n).Perm (heapEntries heap n) := by
  have h : heapEntries (heapSwap heap i j) n = ((List.range n).map (Equiv.swap i j)).map (heapAt heap) := by
    rw [heapEntries, List.map_map]
    apply List.map_congr_left
    intro k _
    rw [heapAt_heapSwap (by omega) (by omega), Function.comp_apply, Equiv.swap_apply_def]
    split_ifs <;> simp_all
  rw [h]
  apply List.Perm.map
  rw [List.perm_ext_iff_of_nodup ((List.nodup_map_iff (Equiv.injective _)).2 List.nodup_range) List.nodup_range]
  intro k
  simp only [List.mem_map, List.mem_range]
  constructor
  · rintro ⟨a, ha, rfl⟩
    rw [Equiv.swap_apply_def]
    split_ifs <;> omega
  · intro hk
    refine ⟨Equiv.swap i j k, ?_, by simp⟩
    rw [Equiv.swap_apply_def]
    split_ifs <;> omega

/-! ## Sift-up (41 R144) -/

/-- The element rests at `r` on its path; what it passed moved one place down; nothing else moved. -/
structure SiftedUp (arena : Vector Node 511) (heap : Vector Handle 256) (i : Nat) (heap' : Vector Handle 256)
    (r : Nat) : Prop where
  onPath : OnPath r i
  rest : heapAt heap' r = heapAt heap i
  moved : ∀ j, OnPath j i → r < j → heapAt heap' j = heapAt heap ((j - 1) / 2) ∧
    keyLt (nodeAt arena (heapAt heap i)) (nodeAt arena (heapAt heap ((j - 1) / 2))) = true
  stop : 0 < r → keyLt (nodeAt arena (heapAt heap i)) (nodeAt arena (heapAt heap ((r - 1) / 2))) = false
  same : ∀ j, ¬ (OnPath j i ∧ r ≤ j) → heapAt heap' j = heapAt heap j

theorem siftUp_spec (arena : Vector Node 511) (fuel : Nat) (heap : Vector Handle 256) (i : Nat) (hf : i ≤ fuel)
    (hi : i < 256) : SiftedUp arena heap i (siftUp arena fuel heap i).1 (siftUp arena fuel heap i).2 := by
  have done : ∀ heap : Vector Handle 256, ∀ i,
      (0 < i → keyLt (nodeAt arena (heapAt heap i)) (nodeAt arena (heapAt heap ((i - 1) / 2))) = false) →
      SiftedUp arena heap i heap i := fun heap i h =>
    ⟨onPath_refl i, rfl, fun j hj hlt => absurd (onPath_le hj) (Nat.not_le.2 hlt), h, fun _ _ => rfl⟩
  induction fuel generalizing heap i with
  | zero =>
    obtain rfl : i = 0 := by omega
    exact done heap 0 (by omega)
  | succ fuel ih =>
    rw [siftUp]
    split
    · rename_i hc
      simp only [Bool.and_eq_true, decide_eq_true_eq, posLt, parentIdx] at hc
      obtain ⟨h0, hlt⟩ := hc
      have hp : (i - 1) / 2 < i := by omega
      have h := ih (heapSwap heap i ((i - 1) / 2)) ((i - 1) / 2) (by omega) (by omega)
      simp only [parentIdx] at h ⊢
      have at1 := heapAt_heapSwap (heap := heap) hi (show (i - 1) / 2 < 256 by omega)
      have hx : heapAt (heapSwap heap i ((i - 1) / 2)) ((i - 1) / 2) = heapAt heap i := by simp [at1]
      have hr := onPath_le h.onPath
      have low : ∀ j, j < (i - 1) / 2 → heapAt (heapSwap heap i ((i - 1) / 2)) j = heapAt heap j := by
        intro j hj
        rw [at1, if_neg (by omega), if_neg (by omega)]
      refine ⟨(onPath_iff h0).2 (.inr h.onPath), h.rest.trans hx, ?_, ?_, ?_⟩
      · intro j hj hlt'
        rcases (onPath_iff h0).1 hj with rfl | hj
        · refine ⟨?_, hlt⟩
          rw [h.same j (fun hh => by have := onPath_le hh.1; omega), at1]
          simp
          intro h; omega
        · have hjp := onPath_le hj
          have := h.moved j hj hlt'
          rwa [hx, low _ (by omega)] at this
      · intro hr0
        have := h.stop hr0
        rwa [hx, low _ (by omega)] at this
      · intro j hj
        have hji : j ≠ i := fun he => hj ⟨he ▸ onPath_refl _, by omega⟩
        rw [h.same j (fun hh => hj ⟨(onPath_iff h0).2 (.inr hh.1), hh.2⟩), at1]
        have hjp : j ≠ (i - 1) / 2 := fun he => hj ⟨he ▸ onPath_parent h0, by omega⟩
        simp [hji, hjp]
    · rename_i hc
      simp only [Bool.and_eq_true, decide_eq_true_eq, posLt, parentIdx, not_and, Bool.not_eq_true] at hc
      exact done heap i hc

theorem siftUp_perm (arena : Vector Node 511) (fuel : Nat) (heap : Vector Handle 256) {i n : Nat} (hi : i < n)
    (hn : n ≤ 256) : (heapEntries (siftUp arena fuel heap i).1 n).Perm (heapEntries heap n) := by
  induction fuel generalizing heap i with
  | zero => exact .refl _
  | succ fuel ih =>
    rw [siftUp]
    split
    · refine (ih (heapSwap heap i (parentIdx i)) ?_).trans (heapEntries_heapSwap hi ?_ hn)
      all_goals (simp only [parentIdx]; omega)
    · exact .refl _

/-! ## Sift-down (41 R147) -/

/-- The element that was at `i` rests at `r` below it; each place on the way took the smaller of its children (the
left one on a tie); nothing else moved. -/
structure SiftedDown (arena : Vector Node 511) (n : Nat) (heap : Vector Handle 256) (i : Nat)
    (heap' : Vector Handle 256) (r : Nat) : Prop where
  onPath : OnPath i r
  lt : r < n
  rest : heapAt heap' r = heapAt heap i
  moved : ∀ j, OnPath j r → i < j → heapAt heap' ((j - 1) / 2) = heapAt heap j ∧
    keyLt (nodeAt arena (heapAt heap j)) (nodeAt arena (heapAt heap i)) = true ∧
    ∀ k < n, 0 < k → (k - 1) / 2 = (j - 1) / 2 →
      keyLt (nodeAt arena (heapAt heap k)) (nodeAt arena (heapAt heap j)) = false ∧
      (k < j → keyLt (nodeAt arena (heapAt heap j)) (nodeAt arena (heapAt heap k)) = true)
  stop : ∀ k < n, 0 < k → (k - 1) / 2 = r →
    keyLt (nodeAt arena (heapAt heap k)) (nodeAt arena (heapAt heap i)) = false
  same : ∀ j, ¬ (OnPath j r ∧ i ≤ j) → heapAt heap' j = heapAt heap j

/-- The candidate of one round: no child is strictly smaller than the element, or the smaller child. -/
theorem smallest_spec (arena : Vector Node 511) (heap : Vector Handle 256) (n i : Nat) :
    (smallest arena heap n i = i ∧ ∀ k < n, 0 < k → (k - 1) / 2 = i → posLt arena heap k i = false) ∨
    (smallest arena heap n i < n ∧ 0 < smallest arena heap n i ∧ (smallest arena heap n i - 1) / 2 = i ∧
      posLt arena heap (smallest arena heap n i) i = true ∧
      ∀ k < n, 0 < k → (k - 1) / 2 = i → posLt arena heap k (smallest arena heap n i) = false ∧
        (k < smallest arena heap n i → posLt arena heap (smallest arena heap n i) k = true)) := by
  have child : ∀ k, 0 < k → (k - 1) / 2 = i → k = 2 * i + 1 ∨ k = 2 * i + 2 := by omega
  simp only [smallest, Bool.and_eq_true, decide_eq_true_eq]
  by_cases hl : 2 * i + 1 < n ∧ posLt arena heap (2 * i + 1) i = true
  · rw [if_pos hl]
    by_cases hr : 2 * i + 2 < n ∧ posLt arena heap (2 * i + 2) (2 * i + 1) = true
    · rw [if_pos hr]
      right
      refine ⟨hr.1, by omega, by omega, ?_, ?_⟩
      · rw [posLt] at *
        exact keyLt_of_not_keyLt hr.2 (keyLt_asymm hl.2)
      · intro k _ h0 hk
        rcases child k h0 hk with rfl | rfl
        · exact ⟨keyLt_asymm hr.2, fun _ => hr.2⟩
        · exact ⟨keyLt_irrefl _, fun h => absurd h (by omega)⟩
    · rw [if_neg hr]
      right
      refine ⟨hl.1, by omega, by omega, hl.2, ?_⟩
      intro k hk h0 hk'
      rcases child k h0 hk' with rfl | rfl
      · exact ⟨keyLt_irrefl _, fun h => absurd h (by omega)⟩
      · exact ⟨by simpa using fun h => hr ⟨hk, h⟩, fun h => absurd h (by omega)⟩
  · rw [if_neg hl]
    by_cases hr : 2 * i + 2 < n ∧ posLt arena heap (2 * i + 2) i = true
    · rw [if_pos hr]
      right
      have hl' : posLt arena heap (2 * i + 1) i = false := by
        simpa using fun h => hl ⟨by omega, h⟩
      have hlt : posLt arena heap (2 * i + 2) (2 * i + 1) = true := keyLt_of_not_keyLt hr.2 hl'
      refine ⟨hr.1, by omega, by omega, hr.2, ?_⟩
      intro k _ h0 hk
      rcases child k h0 hk with rfl | rfl
      · exact ⟨keyLt_asymm hlt, fun _ => hlt⟩
      · exact ⟨keyLt_irrefl _, fun h => absurd h (by omega)⟩
    · rw [if_neg hr]
      left
      refine ⟨rfl, ?_⟩
      intro k hk h0 hk'
      rcases child k h0 hk' with rfl | rfl
      · simpa using fun h => hl ⟨hk, h⟩
      · simpa using fun h => hr ⟨hk, h⟩

theorem siftDown_spec (arena : Vector Node 511) (n fuel : Nat) (heap : Vector Handle 256) (i : Nat)
    (hf : n ≤ fuel + i) (hi : i < n) (hn : n ≤ 256) :
    ∃ r, SiftedDown arena n heap i (siftDown arena n fuel heap i) r := by
  induction fuel generalizing heap i with
  | zero => omega
  | succ fuel ih =>
    rw [siftDown]
    rcases smallest_spec arena heap n i with ⟨hs, hstop⟩ | ⟨hsn, hs0, hsi, hlt, hsib⟩
    · rw [if_pos hs]
      exact ⟨i, onPath_refl i, hi, rfl, fun j hj hlt => absurd (onPath_le hj) (Nat.not_le.2 hlt), hstop,
        fun _ _ => rfl⟩
    · generalize smallest arena heap n i = c at *
      have hc : c ≠ i := by omega
      rw [if_neg hc]
      have at1 := heapAt_heapSwap (heap := heap) (show i < 256 by omega) (show c < 256 by omega)
      obtain ⟨r, h⟩ := ih (heapSwap heap i c) c (by omega) hsn
      have hx : heapAt (heapSwap heap i c) c = heapAt heap i := by simp [at1]
      have hir : OnPath i r := onPath_trans (hsi ▸ onPath_parent hs0) h.onPath
      have high : ∀ j, c < j → heapAt (heapSwap heap i c) j = heapAt heap j := by
        intro j hj
        rw [at1, if_neg (by omega), if_neg (by omega)]
      have hcr := onPath_le h.onPath
      refine ⟨r, hir, h.lt, h.rest.trans hx, ?_, ?_, ?_⟩
      · intro j hj hij
        rcases Nat.lt_trichotomy j c with hjc | rfl | hjc
        · have := le_parent_of_onPath hj h.onPath hjc
          omega
        · refine ⟨?_, hlt, fun k hk h0 hk' => hsib k hk h0 (by omega)⟩
          rw [hsi, h.same i (fun hh => by omega), at1, if_neg (Ne.symm hc)]
          simp
        · obtain ⟨h1, h2, h3⟩ := h.moved j hj hjc
          have hpc := le_parent_of_onPath h.onPath hj hjc
          rw [high j hjc] at h1 h2 h3
          rw [hx] at h2
          refine ⟨h1, h2, fun k hk h0 hk' => ?_⟩
          have := h3 k hk h0 hk'
          rwa [high k (by omega)] at this
      · intro k hk h0 hk'
        have := h.stop k hk h0 hk'
        rwa [hx, high k (by omega)] at this
      · intro j hj
        have hji : j ≠ i := fun he => hj ⟨he ▸ hir, by omega⟩
        have hjc : j ≠ c := fun he => hj ⟨he ▸ h.onPath, by omega⟩
        rw [h.same j (fun hh => hj ⟨hh.1, by omega⟩), at1]
        simp [hji, hjc]

theorem siftDown_perm (arena : Vector Node 511) (fuel : Nat) (heap : Vector Handle 256) {i n : Nat} (hi : i < n)
    (hn : n ≤ 256) : (heapEntries (siftDown arena n fuel heap i) n).Perm (heapEntries heap n) := by
  induction fuel generalizing heap i with
  | zero => exact .refl _
  | succ fuel ih =>
    rw [siftDown]
    rcases smallest_spec arena heap n i with ⟨hs, -⟩ | ⟨hsn, hs0, hsi, -, -⟩
    · rw [if_pos hs]
    · rw [if_neg (by omega)]
      exact (ih (heapSwap heap i (smallest arena heap n i)) hsn).trans (heapEntries_heapSwap hi hsn hn)

/-! ## The heap order -/

/-- No element of the first `n` entries is strictly smaller than its parent. -/
def EntriesOrdered (arena : Vector Node 511) (heap : Vector Handle 256) (n : Nat) : Prop :=
  ∀ k, 0 < k → k < n → keyLt (nodeAt arena (heapAt heap k)) (nodeAt arena (heapAt heap ((k - 1) / 2))) = false

theorem State.heapOrdered_iff {s : State} : s.HeapOrdered ↔ EntriesOrdered s.node s.heap s.hsize.toNat := by
  constructor
  · intro h k h0 hk
    have := h ((k - 1) / 2) (by omega)
    rcases Nat.even_or_odd' k with ⟨m, rfl | rfl⟩
    · have he : 2 * ((2 * m - 1) / 2) + 2 = 2 * m := by omega
      rw [he] at this
      exact this.2 hk
    · have he : 2 * ((2 * m + 1 - 1) / 2) + 1 = 2 * m + 1 := by omega
      rw [he] at this
      exact this.1 hk
  · intro h i _
    refine ⟨fun hl => ?_, fun hr => ?_⟩
    · have := h (2 * i + 1) (by omega) hl
      have he : (2 * i + 1 - 1) / 2 = i := by omega
      rwa [he] at this
    · have := h (2 * i + 2) (by omega) hr
      have he : (2 * i + 2 - 1) / 2 = i := by omega
      rwa [he] at this

/-- The root of an ordered heap is not above any element. -/
theorem EntriesOrdered.root_le {arena : Vector Node 511} {heap : Vector Handle 256} {n : Nat}
    (h : EntriesOrdered arena heap n) (k : Nat) (hk : k < n) :
    keyLt (nodeAt arena (heapAt heap k)) (nodeAt arena (heapAt heap 0)) = false := by
  induction k using Nat.strong_induction_on with
  | _ k ih =>
    rcases Nat.eq_zero_or_pos k with rfl | h0
    · exact keyLt_irrefl _
    · exact not_keyLt_trans (h k h0 hk) (ih _ (by omega) (by omega))

/-- Sift-up from the last place restores the order (41 R149 a). -/
theorem SiftedUp.ordered {arena : Vector Node 511} {heap heap' : Vector Handle 256} {i r : Nat}
    (h : SiftedUp arena heap i heap' r) (ho : EntriesOrdered arena heap i) : EntriesOrdered arena heap' (i + 1) := by
  intro k h0 hk
  have hp : (k - 1) / 2 < k := by omega
  by_cases hkP : OnPath k i ∧ r ≤ k
  · have hpar : OnPath ((k - 1) / 2) i := onPath_trans (onPath_parent h0) hkP.1
    rcases Nat.eq_or_lt_of_le hkP.2 with rfl | hrk
    · rw [h.rest, h.same _ (fun hh => by omega)]
      exact h.stop h0
    · have hrp := le_parent_of_onPath h.onPath hkP.1 hrk
      obtain ⟨he, hlt⟩ := h.moved k hkP.1 hrk
      rw [he]
      rcases Nat.eq_or_lt_of_le hrp with hrp | hrp
      · rw [← hrp, h.rest, hrp]
        exact keyLt_asymm hlt
      · rw [(h.moved _ hpar hrp).1]
        exact ho _ (by omega) (by omega)
  · have hki : k ≠ i := fun he => hkP ⟨he ▸ onPath_refl _, he ▸ onPath_le h.onPath⟩
    have hko := ho k h0 (by omega)
    rw [h.same k hkP]
    by_cases hpP : OnPath ((k - 1) / 2) i ∧ r ≤ (k - 1) / 2
    · rcases Nat.eq_or_lt_of_le hpP.2 with hrp | hrp
      · rw [← hrp, h.rest]
        have hri : r ≠ i := by omega
        -- the path goes on below `r`: its next place shows the element smaller than what was at `r`
        have hbelow : ∃ j, OnPath j i ∧ 0 < j ∧ (j - 1) / 2 = r := by
          have key : ∀ m, OnPath r m → r < m → OnPath m i → ∃ j, OnPath j i ∧ 0 < j ∧ (j - 1) / 2 = r := by
            intro m
            induction m using Nat.strong_induction_on with
            | _ m ih =>
              intro hrm hlt hmi
              rcases (onPath_iff (by omega)).1 hrm with rfl | hrm'
              · omega
              · rcases Nat.eq_or_lt_of_le (onPath_le hrm') with he | hlt'
                · exact ⟨m, hmi, by omega, he.symm⟩
                · exact ih _ (by omega) hrm' hlt' (onPath_trans (onPath_parent (by omega)) hmi)
          exact key i h.onPath (by have := onPath_le h.onPath; omega) (onPath_refl i)
        obtain ⟨j, hj, hj0, hjr⟩ := hbelow
        have := (h.moved j hj (by omega)).2
        rw [hjr] at this
        rw [← hrp] at hko
        exact not_keyLt_trans hko (keyLt_asymm this)
      · rw [(h.moved _ hpP.1 hrp).1]
        exact not_keyLt_trans hko (ho _ (by omega) (by omega))
    · rw [h.same _ hpP]
      exact hko

/-- Sift-down from the root restores the order (41 R149 a). -/
theorem SiftedDown.ordered {arena : Vector Node 511} {heap heap' : Vector Handle 256} {n r : Nat}
    (h : SiftedDown arena n heap 0 heap' r)
    (ho : ∀ k, 0 < k → k < n → 0 < (k - 1) / 2 →
      keyLt (nodeAt arena (heapAt heap k)) (nodeAt arena (heapAt heap ((k - 1) / 2))) = false) :
    EntriesOrdered arena heap' n := by
  intro k h0 hk
  -- the place above a place on the path takes that place's element
  have next : ∀ m, OnPath m r → m ≠ r → ∃ j, OnPath j r ∧ 0 < j ∧ (j - 1) / 2 = m := by
    intro m hm hne
    have key : ∀ q, OnPath m q → m < q → OnPath q r → ∃ j, OnPath j r ∧ 0 < j ∧ (j - 1) / 2 = m := by
      intro q
      induction q using Nat.strong_induction_on with
      | _ q ih =>
        intro hmq hlt hqr
        rcases (onPath_iff (by omega)).1 hmq with rfl | hmq'
        · omega
        · rcases Nat.eq_or_lt_of_le (onPath_le hmq') with he | hlt'
          · exact ⟨q, hqr, by omega, he.symm⟩
          · exact ih _ (by omega) hmq' hlt' (onPath_trans (onPath_parent (by omega)) hqr)
    exact key r hm (by have := onPath_le hm; omega) (onPath_refl r)
  by_cases hpP : OnPath ((k - 1) / 2) r
  · by_cases hpr : (k - 1) / 2 = r
    · have hkP : ¬ OnPath k r := fun hh => by have := onPath_le hh; omega
      rw [hpr, h.rest, h.same k (fun hh => hkP hh.1)]
      exact h.stop k hk h0 hpr
    · obtain ⟨j, hj, hj0, hjp⟩ := next _ hpP hpr
      obtain ⟨he, hlt, hsib⟩ := h.moved j hj hj0
      rw [← hjp, he]
      by_cases hkP : OnPath k r
      · have hkj : k = j := by
          rcases Nat.lt_trichotomy k j with hl | hl | hl
          · have := le_parent_of_onPath hkP hj hl; omega
          · exact hl
          · have := le_parent_of_onPath hj hkP hl; omega
        subst hkj
        by_cases hkr : k = r
        · rw [hkr, h.rest, ← hkr]
          exact keyLt_asymm hlt
        · obtain ⟨j2, hj2, hj20, hj2p⟩ := next k hkP hkr
          have hj2n : j2 < n := Nat.lt_of_le_of_lt (onPath_le hj2) h.lt
          rw [← hj2p, (h.moved j2 hj2 hj20).1]
          exact ho j2 hj20 hj2n (by omega)
      · rw [h.same k (fun hh => hkP hh.1)]
        exact (hsib k hk h0 hjp.symm).1
  · have hkP : ¬ OnPath k r := fun hh => hpP (onPath_trans (onPath_parent h0) hh)
    rw [h.same k (fun hh => hkP hh.1), h.same _ (fun hh => hpP hh.1)]
    refine ho k h0 hk ?_
    rcases Nat.eq_zero_or_pos ((k - 1) / 2) with he | he
    · exact absurd (he ▸ onPath_zero r) hpP
    · exact he

end Sys2Proof.Machine
end

