-- ==== Sys2Proof/Laws/Heap.lean ====
section
/-! SUPPORT. Laws/Heap.lean: `NewNode`, `HeapInsert`, `HeapExtract` and the leaf loop of `HP_FILL`: when each completes,
and everything it then does. -/

namespace Sys2Proof.Machine

/-! ## `NewNode` (42 R160) -/

theorem newNode_ok {sym : Byte} {w : Nat} {l r : Handle} {s : State} (hn : s.nalloc.toNat < 511)
    (hw : w < 2 ^ 64) :
    newNode sym w l r s = .ok (s.nalloc.setWidth 9) { s with
      node := s.node.setIfInBounds s.nalloc.toNat ⟨sym, word w, l, r⟩
      nalloc := BitVec.ofNat 10 (s.nalloc.toNat + 1) } := by
  simp only [newNode, Config.nodeMax, hn, hw, decide_true, require_true, Run.bind_ok]

theorem newNode_full {sym : Byte} {w : Nat} {l r : Handle} {s : State} (hn : ¬ s.nalloc.toNat < 511) :
    newNode sym w l r s = .stop (s.raise .alloc (s.nalloc.setWidth 64)) := by
  simp only [newNode, Config.nodeMax, hn, decide_false, require_false, Run.bind_stop]

theorem newNode_overflow {sym : Byte} {w : Nat} {l r : Handle} {s : State} (hn : s.nalloc.toNat < 511)
    (hw : ¬ w < 2 ^ 64) : newNode sym w l r s = .stop (s.raise .overflow 1) := by
  simp only [newNode, Config.nodeMax, hn, hw, decide_true, decide_false, require_true, require_false, Run.bind_ok,
    Run.bind_stop]

/-- The next `NALLOC`. -/
theorem nalloc_succ {n : BitVec 10} (h : n.toNat < 511) : (BitVec.ofNat 10 (n.toNat + 1)).toNat = n.toNat + 1 := by
  rw [BitVec.toNat_ofNat]; omega

/-- The new handle as a number. -/
theorem nalloc_handle {n : BitVec 10} (h : n.toNat < 511) : (n.setWidth 9).toNat = n.toNat := by
  rw [BitVec.toNat_setWidth]; omega

/-! ## `HeapInsert` (41 R144) -/

theorem hsize_succ {n : BitVec 9} {m : Nat} (h : n.toNat < m) (hm : m ≤ 256) :
    (BitVec.ofNat 9 (n.toNat + 1)).toNat = n.toNat + 1 := by
  rw [BitVec.toNat_ofNat]; omega

theorem hsize_pred (n : BitVec 9) : (BitVec.ofNat 9 (n.toNat - 1)).toNat = n.toNat - 1 := by
  rw [BitVec.toNat_ofNat]; omega

theorem heapInsert_full {h : Handle} {s : State} (hs : ¬ s.hsize.toNat < s.hmax.toNat) :
    heapInsert h s = .stop (s.raise .heapFull (s.hmax.setWidth 64)) := by
  simp only [heapInsert, hs, decide_false, require_false, Run.bind_stop]

theorem heapInsert_spec (h : Handle) (s : State) (hs : s.hsize.toNat < s.hmax.toNat) (hm : s.hmax.toNat ≤ 256) :
    ∃ r heap', heapInsert h s = .ok r { s with heap := heap', hsize := BitVec.ofNat 9 (s.hsize.toNat + 1) } ∧
      SiftedUp s.node (s.heap.setIfInBounds s.hsize.toNat h) s.hsize.toNat heap' r ∧ r ≤ s.hsize.toNat ∧
      (heapEntries heap' (s.hsize.toNat + 1)).Perm (h :: s.heapList) ∧
      (s.HeapOrdered → EntriesOrdered s.node heap' (s.hsize.toNat + 1)) := by
  have hi : s.hsize.toNat < 256 := by omega
  have hsift := siftUp_spec s.node s.hsize.toNat (s.heap.setIfInBounds s.hsize.toNat h) s.hsize.toNat le_rfl hi
  have low : ∀ k < s.hsize.toNat, heapAt (s.heap.setIfInBounds s.hsize.toNat h) k = heapAt s.heap k := by
    intro k hk
    rw [heapAt_set, if_neg (by omega)]
  refine ⟨_, _, by simp only [heapInsert, hs, decide_true, require_true, Run.bind_ok], hsift,
    onPath_le hsift.onPath, ?_, fun ho => hsift.ordered ?_⟩
  · refine (siftUp_perm _ _ _ (Nat.lt_succ_self _) (by omega)).trans ?_
    rw [heapEntries_succ, heapEntries_congr low, heapAt_set, if_pos ⟨rfl, hi⟩]
    exact List.perm_append_singleton _ _
  · rw [State.heapOrdered_iff] at ho
    intro k h0 hk
    rw [low k hk, low _ (by omega)]
    exact ho k h0 hk

/-! ## `HeapExtract` (41 R147) -/

theorem heapExtract_empty {s : State} (hs : s.hsize.toNat = 0) : heapExtract s = .stop (s.raise .heapEmpty 0) := by
  simp [heapExtract, hs]

theorem heapExtract_spec (s : State) (h0 : 0 < s.hsize.toNat) (hm : s.hsize.toNat ≤ 256) :
    ∃ heap', heapExtract s =
        .ok (heapAt s.heap 0) { s with heap := heap', hsize := BitVec.ofNat 9 (s.hsize.toNat - 1) } ∧
      (0 < s.hsize.toNat - 1 → ∃ r, SiftedDown s.node (s.hsize.toNat - 1)
        (s.heap.setIfInBounds 0 (heapAt s.heap (s.hsize.toNat - 1))) 0 heap' r) ∧
      s.heapList.Perm (heapAt s.heap 0 :: heapEntries heap' (s.hsize.toNat - 1)) ∧
      (s.HeapOrdered → EntriesOrdered s.node heap' (s.hsize.toNat - 1) ∧
        ∀ h ∈ heapEntries heap' (s.hsize.toNat - 1),
          keyLt (nodeAt s.node h) (nodeAt s.node (heapAt s.heap 0)) = false) := by
  obtain ⟨n, hn⟩ : ∃ n, s.hsize.toNat = n + 1 := ⟨s.hsize.toNat - 1, by omega⟩
  have hexec : heapExtract s = .ok (heapAt s.heap 0) { s with
      heap := siftDown s.node n n (s.heap.setIfInBounds 0 (heapAt s.heap n)) 0
      hsize := BitVec.ofNat 9 n } := by
    simp [heapExtract, hn]
  have hperm : s.heapList.Perm (heapAt s.heap 0 ::
      heapEntries (siftDown s.node n n (s.heap.setIfInBounds 0 (heapAt s.heap n)) 0) n) := by
    rw [State.heapList_eq, hn]
    rcases Nat.eq_zero_or_pos n with rfl | hpos
    · simp [heapEntries]
    · have h1 : (heapEntries s.heap (n + 1)).Perm
          (heapAt s.heap 0 :: heapEntries (s.heap.setIfInBounds 0 (heapAt s.heap n)) n) := by
        obtain ⟨m, rfl⟩ : ∃ m, n = m + 1 := ⟨n - 1, by omega⟩
        rw [heapEntries_succ]
        have e : ∀ v : Vector Handle 256, heapEntries v (m + 1) =
            heapAt v 0 :: (List.range m).map (fun k => heapAt v (k + 1)) := by
          intro v
          simp [heapEntries, List.range_succ_eq_map, Function.comp_def]
        have e2 : (List.range m).map (fun k => heapAt (s.heap.setIfInBounds 0 (heapAt s.heap (m + 1))) (k + 1)) =
            (List.range m).map (fun k => heapAt s.heap (k + 1)) := by
          apply List.map_congr_left
          intro k _
          rw [heapAt_set, if_neg (by omega)]
        rw [e, e, e2, heapAt_set, if_pos ⟨rfl, by omega⟩, List.cons_append]
        exact List.Perm.cons _ (List.perm_append_singleton _ _)
      exact h1.trans (List.Perm.cons _ (siftDown_perm _ _ _ hpos (by omega)).symm)
  rw [hn, Nat.add_sub_cancel]
  refine ⟨_, hexec, fun hpos => siftDown_spec _ _ _ _ _ (by omega) hpos (by omega), hperm, fun ho => ⟨?_, ?_⟩⟩
  · rcases Nat.eq_zero_or_pos n with rfl | hpos
    · intro k _ hk; omega
    · obtain ⟨r, hr⟩ := siftDown_spec s.node n n (s.heap.setIfInBounds 0 (heapAt s.heap n)) 0 (by omega) hpos
        (by omega)
      refine hr.ordered ?_
      rw [State.heapOrdered_iff, hn] at ho
      intro k hk0 hk hp
      rw [heapAt_set, if_neg (by omega), heapAt_set, if_neg (by omega)]
      exact ho k hk0 (by omega)
  · intro h hmem
    have hin : h ∈ s.heapList := hperm.symm.subset (List.mem_cons_of_mem _ hmem)
    rw [State.heapList_eq, mem_heapEntries] at hin
    obtain ⟨k, hk, rfl⟩ := hin
    rw [State.heapOrdered_iff] at ho
    exact ho.root_le k hk

/-! ## The leaf loop of `HP_FILL` (41 R150) -/

/-- The leaf of a present symbol. -/
def leafNode (sft : Vector Byte 256) (c : Byte) : Node := ⟨c, (symAt sft c).setWidth 64, Config.null, Config.null⟩

/-- The weight of an arena entry below the ones just written does not change the order of older handles. -/
theorem EntriesOrdered.congr {arena arena' : Vector Node 511} {heap : Vector Handle 256} {n : Nat}
    (h : EntriesOrdered arena heap n) (he : ∀ k < n, nodeAt arena' (heapAt heap k) = nodeAt arena (heapAt heap k)) :
    EntriesOrdered arena' heap n := by
  intro k h0 hk
  rw [he k hk, he _ (by omega)]
  exact h k h0 hk

/-- With room for every present symbol the loop completes: one leaf each, in the order of the list, all of them in the
heap, older nodes and elements kept, the order kept. -/
theorem fillLeaves_spec (cs : List Byte) (s : State)
    (hn : s.nalloc.toNat + (cs.filter fun c => symAt s.sft c != 0).length ≤ 511)
    (hh : s.hsize.toNat + (cs.filter fun c => symAt s.sft c != 0).length ≤ s.hmax.toNat) (hm : s.hmax.toNat ≤ 256)
    (hv : ∀ h ∈ s.heapList, h.toNat < s.nalloc.toNat) :
    ∃ t, fillLeaves cs s = .ok () t ∧
      t = { s with node := t.node, nalloc := t.nalloc, heap := t.heap, hsize := t.hsize } ∧
      t.nalloc.toNat = s.nalloc.toNat + (cs.filter fun c => symAt s.sft c != 0).length ∧
      t.hsize.toNat = s.hsize.toNat + (cs.filter fun c => symAt s.sft c != 0).length ∧
      (∀ h : Handle, h.toNat < s.nalloc.toNat → nodeAt t.node h = nodeAt s.node h) ∧
      (∀ k (hk : k < (cs.filter fun c => symAt s.sft c != 0).length),
        nodeAt t.node (BitVec.ofNat 9 (s.nalloc.toNat + k)) =
          leafNode s.sft (cs.filter fun c => symAt s.sft c != 0)[k]) ∧
      t.heapList.Perm (s.heapList ++
        (List.range (cs.filter fun c => symAt s.sft c != 0).length).map
          (fun k => BitVec.ofNat 9 (s.nalloc.toNat + k))) ∧
      (s.HeapOrdered → t.HeapOrdered) := by
  induction cs generalizing s with
  | nil => exact ⟨s, rfl, rfl, by simp, by simp, fun _ _ => rfl, by simp, by simp, id⟩
  | cons c cs ih =>
    by_cases hc : symAt s.sft c = 0
    · have hf : ((c :: cs).filter fun c => symAt s.sft c != 0) = cs.filter fun c => symAt s.sft c != 0 := by
        simp [hc]
      rw [hf] at hn hh ⊢
      rw [fillLeaves, if_pos hc]
      exact ih s hn hh hm hv
    · have hf : ((c :: cs).filter fun c => symAt s.sft c != 0) =
          c :: cs.filter fun c => symAt s.sft c != 0 := List.filter_cons_of_pos (by simpa using hc)
      rw [hf, List.length_cons] at hn hh
      have hw : (symAt s.sft c).toNat < 2 ^ 64 := by have := (symAt s.sft c).isLt; omega
      have hn1 : s.nalloc.toNat < 511 := by omega
      obtain ⟨r, heap', he, -, -, hperm, hord⟩ := heapInsert_spec (s.nalloc.setWidth 9)
        { s with
          node := s.node.setIfInBounds s.nalloc.toNat
            ⟨c, word (symAt s.sft c).toNat, Config.null, Config.null⟩
          nalloc := BitVec.ofNat 10 (s.nalloc.toNat + 1) } (by simpa using by omega) hm
      have hs1 := nalloc_succ hn1
      have hs2 := hsize_succ (n := s.hsize) (m := s.hmax.toNat) (by omega) hm
      have hs3 := nalloc_handle hn1
      have hnode : ∀ h : Handle, h.toNat ≠ s.nalloc.toNat → nodeAt (s.node.setIfInBounds s.nalloc.toNat
          ⟨c, word (symAt s.sft c).toNat, Config.null, Config.null⟩) h = nodeAt s.node h :=
        fun h hne => nodeAt_set_ne _ _ hne
      obtain ⟨t, ht, hfr, h1, h2, h3, h4, h5, h6⟩ := ih
        { s with
          node := s.node.setIfInBounds s.nalloc.toNat
            ⟨c, word (symAt s.sft c).toNat, Config.null, Config.null⟩
          nalloc := BitVec.ofNat 10 (s.nalloc.toNat + 1)
          heap := heap', hsize := BitVec.ofNat 9 (s.hsize.toNat + 1) }
        (by simp only [hs1]; omega) (by simp only [hs2]; omega) hm
        (by
          intro h hh'
          rw [State.heapList_eq] at hh'
          simp only [hs2] at hh'
          have := hperm.subset hh'
          simp only [List.mem_cons] at this
          simp only [hs1]
          rcases this with rfl | hin
          · omega
          · have := hv h hin; omega)
      simp only [hs1, hs2] at h1 h2 h3 h4 h5
      refine ⟨t, ?_, ?_, ?_, ?_, ?_, ?_, ?_, ?_⟩
      · rw [fillLeaves, if_neg hc, newNode_ok hn1 hw, Run.bind_ok, he, Run.bind_ok, ht]
      · rw [hfr]
      · rw [h1, hf, List.length_cons]; omega
      · rw [h2, hf, List.length_cons]; omega
      · intro h hlt
        rw [h3 h (by omega), hnode h (by omega)]
      · intro k hk
        simp only [hf] at hk ⊢
        cases k with
        | zero =>
          rw [h3 _ (by rw [BitVec.toNat_ofNat]; omega),
            nodeAt_set_self _ _ (by rw [BitVec.toNat_ofNat]; omega) hn1]
          simp [leafNode, word, BitVec.ofNat_toNat]
        | succ k =>
          rw [List.length_cons] at hk
          have := h4 k (by omega)
          simpa [Nat.add_assoc, Nat.add_comm 1] using this
      · rw [hf, List.length_cons]
        refine h5.trans ?_
        rw [State.heapList_eq]
        simp only [hs2]
        refine (List.Perm.append_right _ hperm).trans ?_
        rw [List.range_succ_eq_map, List.map_cons, List.map_map]
        have e : s.nalloc.setWidth 9 = BitVec.ofNat 9 (s.nalloc.toNat + 0) := by
          apply BitVec.eq_of_toNat_eq
          rw [hs3, BitVec.toNat_ofNat]; omega
        rw [← e]
        have e2 : (List.range (cs.filter fun c => symAt s.sft c != 0).length).map
            ((fun k => BitVec.ofNat 9 (s.nalloc.toNat + k)) ∘ Nat.succ) =
            (List.range (cs.filter fun c => symAt s.sft c != 0).length).map
              (fun k => BitVec.ofNat 9 (s.nalloc.toNat + 1 + k)) := by
          apply List.map_congr_left
          intro k _
          simp only [Function.comp_apply, Nat.succ_eq_add_one]
          congr 1
          omega
        rw [e2]
        exact List.perm_middle.symm
      · intro ho
        apply h6
        rw [State.heapOrdered_iff]
        simp only [hs2]
        apply hord
        rw [State.heapOrdered_iff] at ho ⊢
        refine ho.congr fun k hk => hnode _ ?_
        have := hv (heapAt s.heap k) (mem_heapEntries.2 ⟨k, hk, rfl⟩)
        omega

end Sys2Proof.Machine
end

