-- ==== Sys2Proof/Laws/Tree.lean ====
section
/-! SUPPORT. Laws/Tree.lean: one merge round of `TB_BUILD` (42 R162), and the loop over a heap of trees: the forest it keeps
and the depth its trees can reach (00 R9 b). -/

namespace Sys2Proof.Machine

/-! ## Trees in the arena -/

/-- The arena holds the tree, every handle of it below `n`. -/
def HTree.Below (arena : Vector Node 511) (n : Nat) : HTree → Handle → Prop
  | .leaf c, h => h.toNat < n ∧ (nodeAt arena h).isLeaf = true ∧ (nodeAt arena h).sym = c
  | .node l r, h =>
    h.toNat < n ∧ (nodeAt arena h).isLeaf = false ∧ HTree.Below arena n l (nodeAt arena h).l ∧
      HTree.Below arena n r (nodeAt arena h).r

theorem HTree.Below.lt {arena : Vector Node 511} {n : Nat} {t : HTree} {h : Handle} (hb : t.Below arena n h) :
    h.toNat < n := by
  cases t <;> exact hb.1

theorem HTree.Below.at_ {arena : Vector Node 511} {n : Nat} {t : HTree} {h : Handle} (hb : t.Below arena n h) :
    t.At arena h := by
  induction t generalizing h with
  | leaf c => exact ⟨hb.2.1, hb.2.2⟩
  | node l r ihl ihr => exact ⟨hb.2.1, ihl hb.2.2.1, ihr hb.2.2.2⟩

/-- A larger arena that agrees below `n` holds the same trees. -/
theorem HTree.Below.mono {arena arena' : Vector Node 511} {n m : Nat} {t : HTree} {h : Handle}
    (hb : t.Below arena n h) (hnm : n ≤ m) (he : ∀ k : Handle, k.toNat < n → nodeAt arena' k = nodeAt arena k) :
    t.Below arena' m h := by
  induction t generalizing h with
  | leaf c =>
    rw [HTree.Below] at hb ⊢
    rw [he h hb.1]
    exact ⟨by omega, hb.2⟩
  | node l r ihl ihr =>
    rw [HTree.Below] at hb ⊢
    rw [he h hb.1]
    exact ⟨by omega, hb.2.1, ihl hb.2.2.1, ihr hb.2.2.2⟩

theorem null_toNat : Config.null.toNat = 511 := rfl

theorem isLeaf_eq_false_of_ne {n : Node} (h : n.l ≠ Config.null) : n.isLeaf = false := by
  simp [Node.isLeaf, h]

/-! ## One round -/

/-- With two elements, a free arena entry and weights in range a round completes: the two extracted first are merged,
first left and second right, and the new node joins what is left. In an ordered heap they are its two smallest. -/
theorem mergeRound_spec (s : State) (h2 : 2 ≤ s.hsize.toNat) (hh : s.hsize.toNat ≤ s.hmax.toNat)
    (hm : s.hmax.toNat ≤ 256) (hn : s.nalloc.toNat < 511) (hw : (s.heapList.map s.weight).sum < 2 ^ 64)
    (hv : ∀ h ∈ s.heapList, h.toNat < s.nalloc.toNat) :
    ∃ a b rest node' heap', mergeRound s = .ok () { s with
        node := node', nalloc := BitVec.ofNat 10 (s.nalloc.toNat + 1)
        heap := heap', hsize := BitVec.ofNat 9 (s.hsize.toNat - 1) } ∧
      node' = s.node.setIfInBounds s.nalloc.toNat
        ⟨Config.internalSym, word (s.weight a + s.weight b), a, b⟩ ∧
      s.heapList.Perm (a :: b :: rest) ∧
      (heapEntries heap' (s.hsize.toNat - 1)).Perm (s.nalloc.setWidth 9 :: rest) ∧
      (s.HeapOrdered →
        keyLt (nodeAt s.node b) (nodeAt s.node a) = false ∧
        (∀ h ∈ rest, keyLt (nodeAt s.node h) (nodeAt s.node b) = false) ∧
        EntriesOrdered node' heap' (s.hsize.toNat - 1)) := by
  obtain ⟨h1, he1, -, hp1, ho1⟩ := heapExtract_spec s (by omega) (by omega)
  have hz1 := hsize_pred s.hsize
  obtain ⟨h2', he2, -, hp2, ho2⟩ := heapExtract_spec
    { s with heap := h1, hsize := BitVec.ofNat 9 (s.hsize.toNat - 1) } (by simp only [hz1]; omega)
    (by simp only [hz1]; omega)
  simp only [State.heapList_eq, hz1] at hp2
  generalize ha : heapAt s.heap 0 = a at *
  generalize hb : heapAt h1 0 = b at *
  have hperm : s.heapList.Perm (a :: b :: heapEntries h2' (s.hsize.toNat - 1 - 1)) := hp1.trans (hp2.cons a)
  have hsum : s.weight a + s.weight b < 2 ^ 64 := by
    have := (hperm.map s.weight).sum_eq
    simp only [List.map_cons, List.sum_cons] at this
    omega
  have hz2 : (BitVec.ofNat 9 (s.hsize.toNat - 1 - 1)).toNat = s.hsize.toNat - 1 - 1 := by
    rw [BitVec.toNat_ofNat]; omega
  obtain ⟨r, h3, he3, -, -, hp3, ho3⟩ := heapInsert_spec (s.nalloc.setWidth 9)
    { s with
      node := s.node.setIfInBounds s.nalloc.toNat ⟨Config.internalSym, word (s.weight a + s.weight b), a, b⟩
      nalloc := BitVec.ofNat 10 (s.nalloc.toNat + 1)
      heap := h2', hsize := BitVec.ofNat 9 (s.hsize.toNat - 1 - 1) } (by simp only [hz2]; omega) hm
  simp only [State.heapList_eq, hz2] at hp3
  have hz3 : s.hsize.toNat - 1 - 1 + 1 = s.hsize.toNat - 1 := by omega
  refine ⟨a, b, heapEntries h2' (s.hsize.toNat - 1 - 1), _, h3, ?_, rfl, hperm, by rwa [hz3] at hp3, fun ho => ?_⟩
  · have hnew := newNode_ok (sym := Config.internalSym) (l := a) (r := b)
      (s := { s with heap := h2', hsize := BitVec.ofNat 9 (s.hsize.toNat - 1 - 1) }) hn hsum
    simp only [State.weight] at hnew he3
    simp only [mergeRound, he1, he2, hz1, Run.bind_ok, hnew, he3, hz2, hz3, State.weight]
  · obtain ⟨ord1, min1⟩ := ho1 ho
    obtain ⟨ord2, min2⟩ := ho2 (by rw [State.heapOrdered_iff]; simpa only [hz1] using ord1)
    simp only [hz1] at ord2 min2
    refine ⟨min1 b (hp2.symm.subset (by simp)), min2, ?_⟩
    simp only [hz2, hz3] at ho3
    apply ho3
    rw [State.heapOrdered_iff]
    simp only [hz2]
    refine ord2.congr fun k hk => nodeAt_set_ne _ _ ?_
    have := hv _ (hperm.symm.subset (List.mem_cons_of_mem _ (List.mem_cons_of_mem _
      (mem_heapEntries.2 ⟨k, hk, rfl⟩))))
    omega

/-! ## The merge loop -/

/-- What the loop keeps: the heap's elements are the roots of trees over the leaves it started from. -/
structure Forest (s0 : State) (F : List (Handle × HTree)) (s : State) : Prop where
  frame : s = { s0 with node := s.node, nalloc := s.nalloc, heap := s.heap, hsize := s.hsize }
  roots : s.heapList.Perm (F.map Prod.fst)
  trees : ∀ p ∈ F, p.2.Below s.node s.nalloc.toNat p.1
  old : ∀ h : Handle, h.toNat < s0.nalloc.toNat → nodeAt s.node h = nodeAt s0.node h
  new : ∀ h, s0.nalloc.toNat ≤ h → h < s.nalloc.toNat →
    s.NodeOk h ∧ (nodeAt s.node (BitVec.ofNat 9 h)).isLeaf = false
  grown : s0.nalloc.toNat ≤ s.nalloc.toNat
  count : s.nalloc.toNat + s.hsize.toNat = s0.nalloc.toNat + s0.hsize.toNat
  syms : (F.flatMap fun p => p.2.codes.map Prod.fst).Perm (s0.heapList.map fun h => (nodeAt s0.node h).sym)
  weights : (s.heapList.map s.weight).sum = (s0.heapList.map s0.weight).sum

theorem Forest.hmax {s0 s : State} {F : List (Handle × HTree)} (f : Forest s0 F s) : s.hmax = s0.hmax := by
  rw [f.frame]

/-- A heap of leaves is a forest of one-leaf trees. -/
theorem Forest.start (s : State)
    (hv : ∀ h ∈ s.heapList, h.toNat < s.nalloc.toNat ∧ (nodeAt s.node h).isLeaf = true) :
    Forest s (s.heapList.map fun h => (h, HTree.leaf (nodeAt s.node h).sym)) s where
  frame := rfl
  roots := by simp [List.map_map, Function.comp_def]
  trees := by
    intro p hp
    obtain ⟨h, hh, rfl⟩ := List.mem_map.1 hp
    exact ⟨(hv h hh).1, (hv h hh).2, rfl⟩
  old := fun _ _ => rfl
  new := fun h h1 h2 => by omega
  grown := le_rfl
  count := rfl
  syms := by
    rw [List.flatMap_map]
    simp only [HTree.codes, List.map_cons, List.map_nil]
    induction s.heapList with
    | nil => exact .refl _
    | cons h l ih => exact ih.cons _
  weights := rfl

/-- The fields of the depth bound: weights grow with depth as the Fibonacci numbers do, since whatever was merged was
no heavier than anything the heap still holds. -/
structure Deep (F : List (Handle × HTree)) (s : State) : Prop where
  ordered : s.HeapOrdered
  heavy : ∀ p ∈ F, Nat.fib (p.2.depth + 2) ≤ s.weight p.1
  below : ∀ p ∈ F, ∀ l r, p.2 = .node l r → ∀ q ∈ F, Nat.fib (max l.depth r.depth + 2) ≤ s.weight q.1

theorem codes_node_fst (l r : HTree) :
    (HTree.node l r).codes.map Prod.fst = l.codes.map Prod.fst ++ r.codes.map Prod.fst := by
  simp [HTree.codes, List.map_map, Function.comp_def]

/-- One round keeps the forest, and its depth's bound. -/
theorem Forest.round {s0 s : State} {F : List (Handle × HTree)} (f : Forest s0 F s) (h2 : 2 ≤ s.hsize.toNat)
    (hh : s.hsize.toNat ≤ s.hmax.toNat) (hm : s.hmax.toNat ≤ 256) (hn : s.nalloc.toNat < 511)
    (hw : (s.heapList.map s.weight).sum < 2 ^ 64) :
    ∃ t F', mergeRound s = .ok () t ∧ Forest s0 F' t ∧ t.hsize.toNat = s.hsize.toNat - 1 ∧
      t.nalloc.toNat = s.nalloc.toNat + 1 ∧ s.nalloc.setWidth 9 ∈ t.heapList ∧ (Deep F s → Deep F' t) := by
  have hv : ∀ h ∈ s.heapList, h.toNat < s.nalloc.toNat := by
    intro h hin
    obtain ⟨p, hp, rfl⟩ := List.mem_map.1 (f.roots.subset hin)
    exact (f.trees p hp).lt
  obtain ⟨a, b, rest, node', heap', hr, hnode, hperm, hperm', hord⟩ := mergeRound_spec s h2 hh hm hn hw hv
  -- the two trees taken out of the forest
  have take : ∀ (G : List (Handle × HTree)) (x : Handle) (ys : List Handle), (G.map Prod.fst).Perm (x :: ys) →
      ∃ tx G', G.Perm ((x, tx) :: G') ∧ (G'.map Prod.fst).Perm ys := by
    intro G x ys hG
    obtain ⟨⟨x', tx⟩, hp, rfl⟩ := List.mem_map.1 (hG.symm.subset (List.mem_cons_self ..))
    obtain ⟨G1, G2, rfl⟩ := List.append_of_mem hp
    refine ⟨tx, G1 ++ G2, List.perm_middle, ?_⟩
    have : ((x', tx) :: (G1 ++ G2)).map Prod.fst |>.Perm (x' :: ys) :=
      (List.perm_middle.map Prod.fst).symm.trans hG
    simpa using this
  obtain ⟨ta, F1, hF1, hr1⟩ := take F a (b :: rest) (f.roots.symm.trans hperm)
  obtain ⟨tb, R, hF2, hr2⟩ := take F1 b rest hr1
  have hF : F.Perm ((a, ta) :: (b, tb) :: R) := hF1.trans (hF2.cons _)
  have hsum : s.weight a + s.weight b < 2 ^ 64 := by
    have := (hperm.map s.weight).sum_eq
    simp only [List.map_cons, List.sum_cons] at this
    omega
  have hA : ta.Below s.node s.nalloc.toNat a := f.trees (a, ta) (hF.symm.subset (by simp))
  have hB : tb.Below s.node s.nalloc.toNat b := f.trees (b, tb) (hF.symm.subset (by simp))
  have hz := hsize_pred s.hsize
  have hna := nalloc_succ hn
  have hnh := nalloc_handle hn
  have hnode' : ∀ h : Handle, h.toNat < s.nalloc.toNat → nodeAt node' h = nodeAt s.node h := by
    intro h hlt
    rw [hnode]
    exact nodeAt_set_ne _ _ (by omega)
  have hself : nodeAt node' (s.nalloc.setWidth 9) =
      ⟨Config.internalSym, word (s.weight a + s.weight b), a, b⟩ := by
    rw [hnode]
    exact nodeAt_set_self _ _ hnh hn
  have hleaf : (nodeAt node' (s.nalloc.setWidth 9)).isLeaf = false := by
    rw [hself]
    apply isLeaf_eq_false_of_ne
    intro he
    have he : a.toNat = 511 := congrArg BitVec.toNat he
    have := hA.lt
    omega
  refine ⟨_, (s.nalloc.setWidth 9, .node ta tb) :: R, hr, ?_, hz, hna, ?_, ?_⟩
  · refine ⟨?_, ?_, ?_, ?_, ?_, ?_, ?_, ?_, ?_⟩
    · rw [f.frame]
    · rw [State.heapList_eq]
      simp only [hz]
      exact hperm'.trans ((hr2.symm).cons _)
    · intro p hp
      simp only [hna]
      rcases List.mem_cons.1 hp with rfl | hp
      · refine ⟨by simp only [hnh]; omega, hleaf, ?_, ?_⟩
        · rw [hself]
          exact hA.mono (Nat.le_succ _) hnode'
        · rw [hself]
          exact hB.mono (Nat.le_succ _) hnode'
      · exact (f.trees p (hF.symm.subset (by simp [hp]))).mono (Nat.le_succ _) hnode'
    · intro h hlt
      have := f.grown
      exact (hnode' h (by omega)).trans (f.old h hlt)
    · intro h hlo hhi
      simp only [hna] at hhi
      by_cases hlast : h = s.nalloc.toNat
      · subst hlast
        have he : BitVec.ofNat 9 s.nalloc.toNat = s.nalloc.setWidth 9 := by
          apply BitVec.eq_of_toNat_eq
          rw [hnh, BitVec.toNat_ofNat]; omega
        refine ⟨.inr ?_, by rw [he]; exact hleaf⟩
        simp only [he, hself, State.weight]
        refine ⟨hA.lt, hB.lt, trivial, ?_⟩
        rw [hnode' a hA.lt, hnode' b hB.lt]
        exact word_toNat hsum
      · have hlt : h < s.nalloc.toNat := by omega
        have hb9 : (BitVec.ofNat 9 h).toNat = h := by rw [BitVec.toNat_ofNat]; omega
        obtain ⟨hok, hnl⟩ := f.new h hlo hlt
        have he := hnode' (BitVec.ofNat 9 h) (by omega)
        refine ⟨?_, by simpa only [he] using hnl⟩
        rcases hok with hok | ⟨h1, h2, h3, h4⟩
        · left; simpa only [he] using hok
        · right
          simp only [he, State.weight] at h4 ⊢
          rw [hnode' _ (by omega), hnode' _ (by omega)]
          exact ⟨h1, h2, h3, h4⟩
    · simp only [hna]
      have := f.grown
      omega
    · simp only [hna, hz]
      have := f.count
      omega
    · refine List.Perm.trans ?_ f.syms
      refine List.Perm.trans ?_ (hF.flatMap_right _).symm
      simp only [List.flatMap_cons, codes_node_fst, List.append_assoc]
      exact .refl _
    · rw [← f.weights, State.heapList_eq]
      simp only [hz]
      rw [(hperm'.map _).sum_eq, (hperm.map s.weight).sum_eq]
      have hres : rest.map (fun h => (nodeAt node' h).w.toNat) = rest.map s.weight := by
        apply List.map_congr_left
        intro h hh'
        rw [hnode' h (hv h (hperm.symm.subset (by simp [hh'])))]
        rfl
      have hw' : (nodeAt node' (s.nalloc.setWidth 9)).w.toNat = s.weight a + s.weight b := by
        rw [hself]; exact word_toNat hsum
      change ((s.nalloc.setWidth 9 :: rest).map fun h => (nodeAt node' h).w.toNat).sum = _
      rw [List.map_cons, List.sum_cons, hres, hw']
      simp [Nat.add_assoc]
  · rw [State.heapList_eq]
    simp only [hz]
    exact hperm'.symm.subset (by simp)
  · intro d
    obtain ⟨hab, hrest, hord'⟩ := hord d.ordered
    have wab := weight_le_of_not_keyLt hab
    have wrest : ∀ q ∈ R, s.weight b ≤ s.weight q.1 := by
      intro q hq
      exact weight_le_of_not_keyLt (hrest q.1 (hr2.subset (List.mem_map_of_mem hq)))
    have wnew : ∀ q ∈ R, (nodeAt node' q.1).w.toNat = s.weight q.1 := by
      intro q hq
      rw [hnode' q.1 (hv q.1 (hperm.symm.subset (by
        have := hr2.subset (List.mem_map_of_mem hq)
        simp [this])))]
      rfl
    have wself : (nodeAt node' (s.nalloc.setWidth 9)).w.toNat = s.weight a + s.weight b := by
      rw [hself]; exact word_toNat hsum
    have ina : (a, ta) ∈ F := hF.symm.subset (by simp)
    have inb : (b, tb) ∈ F := hF.symm.subset (by simp)
    have ha := d.heavy _ ina
    have hb := d.heavy _ inb
    simp only at ha hb
    -- a child's weight bounds the next level
    have grow : ∀ (x y : Handle) (tx : HTree), (x, tx) ∈ F → (∃ ty, (y, ty) ∈ F) → 1 ≤ s.weight y →
        Nat.fib (tx.depth + 1 + 2) ≤ s.weight x + s.weight y := by
      rintro x y tx hx ⟨ty, hy⟩ hy1
      have hxw := d.heavy _ hx
      simp only at hxw
      cases tx with
      | leaf c =>
        simp only [HTree.depth] at hxw ⊢
        have : Nat.fib (0 + 2) = 1 := rfl
        have : Nat.fib (0 + 1 + 2) = 2 := rfl
        omega
      | node l r =>
        have hyb := d.below _ hx l r rfl _ hy
        simp only [HTree.depth] at hxw hyb ⊢
        have := Nat.fib_add_two (n := max l.depth r.depth + 1 + 1)
        have e1 : max l.depth r.depth + 1 + 1 + 2 = max l.depth r.depth + 1 + 1 + 1 + 1 := by omega
        have e2 : max l.depth r.depth + 1 + 2 = max l.depth r.depth + 1 + 1 + 1 := by omega
        rw [e2] at hxw
        rw [this]
        have e3 : max l.depth r.depth + 2 = max l.depth r.depth + 1 + 1 := by omega
        rw [e3] at hyb
        omega
    have pos : ∀ p ∈ F, 1 ≤ s.weight p.1 := fun p hp =>
      le_trans (Nat.fib_pos.2 (by omega)) (d.heavy p hp)
    refine ⟨?_, ?_, ?_⟩
    · rw [State.heapOrdered_iff]
      simp only [hz]
      exact hord'
    · intro p hp
      rcases List.mem_cons.1 hp with rfl | hp
      · simp only [State.weight, wself, HTree.depth]
        rcases Nat.le_total ta.depth tb.depth with hd | hd
        · rw [Nat.max_eq_right hd]
          have := grow b a tb inb ⟨ta, ina⟩ (pos _ ina)
          simp only [State.weight] at this ⊢
          omega
        · rw [Nat.max_eq_left hd]
          exact grow a b ta ina ⟨tb, inb⟩ (pos _ inb)
      · simp only [State.weight, wnew p hp]
        exact d.heavy p (hF.symm.subset (by simp [hp]))
    · -- everything left weighs at least as much as `b`, which bounds all children
      have low : ∀ q ∈ ((s.nalloc.setWidth 9, HTree.node ta tb) :: R), s.weight b ≤ (nodeAt node' q.1).w.toNat := by
        intro q hq
        rcases List.mem_cons.1 hq with rfl | hq
        · simp only [wself]; omega
        · rw [wnew q hq]; exact wrest q hq
      intro p hp l r hlr q hq
      refine le_trans ?_ (low q hq)
      rcases List.mem_cons.1 hp with rfl | hp
      · simp only [HTree.node.injEq] at hlr
        obtain ⟨rfl, rfl⟩ := hlr
        rcases Nat.le_total ta.depth tb.depth with hd | hd
        · rw [Nat.max_eq_right hd]; exact hb
        · rw [Nat.max_eq_left hd]
          simp only [State.weight] at ha ⊢
          omega
      · exact d.below p (hF.symm.subset (by simp [hp])) l r hlr (b, tb) inb

/-- The loop from a forest of `k + 1` trees ends with one tree. -/
theorem Forest.loop {s0 : State} (k : Nat) {s : State} {F : List (Handle × HTree)} (f : Forest s0 F s)
    (hk : s.hsize.toNat = k + 1) (hh : s.hsize.toNat ≤ s.hmax.toNat) (hm : s.hmax.toNat ≤ 256)
    (hn : s.nalloc.toNat + s.hsize.toNat ≤ 512) (hw : (s.heapList.map s.weight).sum < 2 ^ 64) :
    ∃ t h tree, mergeLoop k s = .ok () t ∧ Forest s0 [(h, tree)] t ∧ t.hsize = 1 ∧ heapAt t.heap 0 = h ∧
      (Deep F s → Deep [(h, tree)] t) ∧ (0 < k → h.toNat = t.nalloc.toNat - 1) ∧ (k = 0 → t = s) := by
  induction k generalizing s F with
  | zero =>
    have hl : s.heapList = [heapAt s.heap 0] := by
      rw [State.heapList_eq, hk]; rfl
    have := f.roots
    rw [hl, List.singleton_perm] at this
    obtain ⟨⟨h, tree⟩, rfl, hp⟩ : ∃ p, F = [p] ∧ p.1 = heapAt s.heap 0 := by
      cases F with
      | nil => simp at this
      | cons p F =>
        cases F with
        | nil => exact ⟨p, rfl, by simpa using this.symm⟩
        | cons q F => simp at this
    exact ⟨s, h, tree, rfl, f, BitVec.eq_of_toNat_eq (by rw [hk]; rfl), hp.symm, id, by omega, fun _ => rfl⟩
  | succ k ih =>
    obtain ⟨t1, F1, hr, f1, hz, hna, hin, hd⟩ := f.round (by omega) hh hm (by omega) hw
    have hmax : t1.hmax = s.hmax := by rw [f1.hmax, f.hmax]
    obtain ⟨t, h, tree, ht, ft, h1, h0, hdeep, hlast, hsame⟩ := ih f1 (by omega) (by rw [hmax]; omega)
      (by rw [hmax]; exact hm) (by omega) (by rw [f1.weights, ← f.weights]; exact hw)
    refine ⟨t, h, tree, by rw [mergeLoop, hr, Run.bind_ok, ht], ft, h1, h0, fun d => hdeep (hd d), fun _ => ?_,
      by omega⟩
    rcases Nat.eq_zero_or_pos k with rfl | hpos
    · obtain rfl := hsame rfl
      have hl : t.heapList = [h] := by
        rw [State.heapList_eq, h1, ← h0]; rfl
      rw [hl, List.mem_singleton] at hin
      rw [← hin, nalloc_handle (by omega)]
      omega
    · exact hlast hpos

end Sys2Proof.Machine
end

