-- ==== Sys2Proof/Laws/Agree.lean ====
section
/-! SUPPORT. Laws/Agree.lean: the heap and tree procedures depend on the scaled table, the valid heap entries and the valid
arena entries alone (42 R165, determinism): two states that agree there are kept in agreement. -/

namespace Sys2Proof.Machine

/-- Agreement on everything the heap and tree procedures may look at. -/
structure Agree (s t : State) : Prop where
  sft : s.sft = t.sft
  nsym : s.nsym = t.nsym
  nalloc : s.nalloc = t.nalloc
  hsize : s.hsize = t.hsize
  hmax : s.hmax = t.hmax
  small : s.hsize.toNat ≤ 256
  nodes : ∀ h : Handle, h.toNat < s.nalloc.toNat → nodeAt s.node h = nodeAt t.node h
  heap : ∀ k < s.hsize.toNat, heapAt s.heap k = heapAt t.heap k
  valid : ∀ k < s.hsize.toNat, (heapAt s.heap k).toNat < s.nalloc.toNat

/-- Two runs agree: both complete with the same value in agreeing states, or both stop. -/
def SameRun {α : Type} (r q : Run α) : Prop :=
  match r, q with
  | .ok a s, .ok b t => a = b ∧ Agree s t
  | .stop _, .stop _ => True
  | .ok _ _, .stop _ => False
  | .stop _, .ok _ _ => False

theorem SameRun.bind {α β : Type} {r q : Run α} {f g : α → State → Run β} (h : SameRun r q)
    (hf : ∀ a s t, r = .ok a s → Agree s t → SameRun (f a s) (g a t)) : SameRun (r.bind f) (q.bind g) := by
  cases r <;> cases q <;> simp only [SameRun] at h
  · obtain ⟨rfl, h⟩ := h
    exact hf _ _ _ rfl h
  · trivial

theorem SameRun.of_ok {α : Type} {r q : Run α} (h : SameRun r q) {a : α} {s : State} (hr : r = .ok a s) :
    ∃ t, q = .ok a t ∧ Agree s t := by
  subst hr
  cases q <;> simp only [SameRun] at h
  obtain ⟨rfl, h⟩ := h
  exact ⟨_, rfl, h⟩

/-- The heap arrays agree below `n`, and so do the nodes their entries name. -/
structure SameHeap (a1 a2 : Vector Node 511) (n : Nat) (h1 h2 : Vector Handle 256) : Prop where
  heap : ∀ k < n, heapAt h1 k = heapAt h2 k
  nodes : ∀ k < n, nodeAt a1 (heapAt h1 k) = nodeAt a2 (heapAt h1 k)

theorem SameHeap.posLt {a1 a2 : Vector Node 511} {n : Nat} {h1 h2 : Vector Handle 256}
    (h : SameHeap a1 a2 n h1 h2) {i j : Nat} (hi : i < n) (hj : j < n) : posLt a1 h1 i j = posLt a2 h2 i j := by
  rw [Machine.posLt, Machine.posLt, h.nodes i hi, h.nodes j hj, h.heap i hi, h.heap j hj]

theorem SameHeap.swap {a1 a2 : Vector Node 511} {n : Nat} {h1 h2 : Vector Handle 256}
    (h : SameHeap a1 a2 n h1 h2) (hn : n ≤ 256) {i j : Nat} (hi : i < n) (hj : j < n) :
    SameHeap a1 a2 n (heapSwap h1 i j) (heapSwap h2 i j) := by
  have at1 := heapAt_heapSwap (heap := h1) (show i < 256 by omega) (show j < 256 by omega)
  have at2 := heapAt_heapSwap (heap := h2) (show i < 256 by omega) (show j < 256 by omega)
  constructor
  · intro k hk
    rw [at1, at2, h.heap i hi, h.heap j hj, h.heap k hk]
  · intro k hk
    rw [at1]
    split_ifs
    · exact h.nodes i hi
    · exact h.nodes j hj
    · exact h.nodes k hk

theorem siftUp_same {a1 a2 : Vector Node 511} {n : Nat} (hn : n ≤ 256) (fuel : Nat) {h1 h2 : Vector Handle 256}
    (h : SameHeap a1 a2 n h1 h2) {i : Nat} (hi : i < n) :
    (siftUp a1 fuel h1 i).2 = (siftUp a2 fuel h2 i).2 ∧
      SameHeap a1 a2 n (siftUp a1 fuel h1 i).1 (siftUp a2 fuel h2 i).1 := by
  induction fuel generalizing h1 h2 i with
  | zero => exact ⟨rfl, h⟩
  | succ fuel ih =>
    have hp : parentIdx i < n := by simp only [parentIdx]; omega
    rw [siftUp, siftUp, h.posLt hi hp]
    split
    · exact ih (h.swap hn hi hp) hp
    · exact ⟨rfl, h⟩

theorem smallest_same {a1 a2 : Vector Node 511} {n : Nat} {h1 h2 : Vector Handle 256} (h : SameHeap a1 a2 n h1 h2)
    {i : Nat} (hi : i < n) : smallest a1 h1 n i = smallest a2 h2 n i := by
  have e1 : (decide (2 * i + 1 < n) && posLt a1 h1 (2 * i + 1) i) =
      (decide (2 * i + 1 < n) && posLt a2 h2 (2 * i + 1) i) := by
    by_cases hl : 2 * i + 1 < n
    · rw [h.posLt hl hi]
    · simp [hl]
  have e2 : ∀ c < n, (decide (2 * i + 2 < n) && posLt a1 h1 (2 * i + 2) c) =
      (decide (2 * i + 2 < n) && posLt a2 h2 (2 * i + 2) c) := by
    intro c hc
    by_cases hl : 2 * i + 2 < n
    · rw [h.posLt hl hc]
    · simp [hl]
  simp only [smallest, e1]
  rw [e2]
  split
  · rename_i hc
    simp only [Bool.and_eq_true, decide_eq_true_eq] at hc
    exact hc.1
  · exact hi

theorem siftDown_same {a1 a2 : Vector Node 511} {n : Nat} (hn : n ≤ 256) (fuel : Nat)
    {h1 h2 : Vector Handle 256} (h : SameHeap a1 a2 n h1 h2) {i : Nat} (hi : i < n) :
    SameHeap a1 a2 n (siftDown a1 n fuel h1 i) (siftDown a2 n fuel h2 i) := by
  induction fuel generalizing h1 h2 i with
  | zero => exact h
  | succ fuel ih =>
    rw [siftDown, siftDown, smallest_same h hi]
    rcases smallest_spec a2 h2 n i with ⟨hs, -⟩ | ⟨hsn, hs0, hsi, -, -⟩
    · rw [if_pos hs, if_pos hs]
      exact h
    · rw [if_neg (by omega), if_neg (by omega)]
      exact ih (h.swap hn hi hsn) hsn

theorem Agree.sameHeap {s t : State} (h : Agree s t) : SameHeap s.node t.node s.hsize.toNat s.heap t.heap :=
  ⟨h.heap, fun k hk => h.nodes _ (h.valid k hk)⟩

/-- `NewNode` keeps agreement. -/
theorem newNode_same {sym : Byte} {w : Nat} {l r : Handle} {s t : State} (h : Agree s t) :
    SameRun (newNode sym w l r s) (newNode sym w l r t) ∧
      ∀ n s', newNode sym w l r s = .ok n s' → n.toNat < s'.nalloc.toNat ∧ s'.hmax = s.hmax := by
  by_cases hn : s.nalloc.toNat < 511
  · by_cases hw : w < 2 ^ 64
    · have hs := nalloc_succ hn
      have hh := nalloc_handle hn
      rw [newNode_ok hn hw, newNode_ok (s := t) (h.nalloc ▸ hn) hw]
      refine ⟨⟨by rw [h.nalloc], ⟨h.sft, h.nsym, by simp only [h.nalloc], h.hsize, h.hmax, h.small, ?_, h.heap, ?_⟩⟩, ?_⟩
      · intro k hk
        simp only [hs] at hk
        simp only [← h.nalloc, nodeAt_set]
        split_ifs with he
        · rfl
        · exact h.nodes k (by omega)
      · intro k hk
        simp only [hs]
        have := h.valid k hk
        omega
      · rintro n s' he
        simp only [Run.ok.injEq] at he
        obtain ⟨rfl, rfl⟩ := he
        exact ⟨by simp only [hs, hh]; omega, rfl⟩
    · rw [newNode_overflow hn hw, newNode_overflow (s := t) (h.nalloc ▸ hn) hw]
      exact ⟨trivial, fun n s' he => by simp at he⟩
  · rw [newNode_full hn, newNode_full (s := t) (h.nalloc ▸ hn)]
    exact ⟨trivial, fun n s' he => by simp at he⟩

/-- `HeapInsert` of a valid handle keeps agreement. -/
theorem heapInsert_same {n : Handle} {s t : State} (h : Agree s t) (hv : n.toNat < s.nalloc.toNat)
    (hm : s.hmax.toNat ≤ 256) : SameRun (heapInsert n s) (heapInsert n t) := by
  by_cases hs : s.hsize.toNat < s.hmax.toNat
  · obtain ⟨r, h1, he, -, -, hperm, -⟩ := heapInsert_spec n s hs hm
    have hz := hsize_succ hs hm
    have hsame : SameHeap s.node t.node (s.hsize.toNat + 1) (s.heap.setIfInBounds s.hsize.toNat n)
        (t.heap.setIfInBounds s.hsize.toNat n) := by
      constructor
      · intro k hk
        rw [heapAt_set, heapAt_set]
        split_ifs
        · rfl
        · exact h.heap k (by omega)
      · intro k hk
        rw [heapAt_set]
        split_ifs
        · exact h.nodes n hv
        · exact h.nodes _ (h.valid k (by omega))
    obtain ⟨hr, hheap⟩ := siftUp_same (by omega) s.hsize.toNat hsame (Nat.lt_succ_self _)
    have e1 : h1 = (siftUp s.node s.hsize.toNat (s.heap.setIfInBounds s.hsize.toNat n) s.hsize.toNat).1 ∧
        r = (siftUp s.node s.hsize.toNat (s.heap.setIfInBounds s.hsize.toNat n) s.hsize.toNat).2 := by
      simp only [heapInsert, hs, decide_true, require_true, Run.bind_ok, Run.ok.injEq, State.mk.injEq] at he
      exact ⟨by simp [he], by simp [he]⟩
    have e2 : heapInsert n t = .ok
        (siftUp t.node s.hsize.toNat (t.heap.setIfInBounds s.hsize.toNat n) s.hsize.toNat).2
        { t with
          heap := (siftUp t.node s.hsize.toNat (t.heap.setIfInBounds s.hsize.toNat n) s.hsize.toNat).1
          hsize := BitVec.ofNat 9 (s.hsize.toNat + 1) } := by
      simp only [heapInsert, ← h.hsize, ← h.hmax, hs, decide_true, require_true, Run.bind_ok]
    rw [he, e2]
    refine ⟨e1.2.trans hr, ⟨h.sft, h.nsym, h.nalloc, rfl, h.hmax, by simp only [hz]; omega, h.nodes, ?_, ?_⟩⟩
    · intro k hk
      simp only [hz] at hk
      simp only [e1.1]
      exact hheap.heap k hk
    · intro k hk
      simp only [hz] at hk
      have := hperm.subset (mem_heapEntries.2 ⟨k, hk, rfl⟩)
      rcases List.mem_cons.1 this with he | hin
      · simp only [he]; exact hv
      · obtain ⟨m, hm', he⟩ := mem_heapEntries.1 hin
        rw [← he]
        exact h.valid m hm'
  · rw [heapInsert_full hs, heapInsert_full (s := t) (h.hsize ▸ h.hmax ▸ hs)]
    trivial

/-- `HeapExtract` keeps agreement. -/
theorem heapExtract_same {s t : State} (h : Agree s t) : SameRun (heapExtract s) (heapExtract t) := by
  by_cases h0 : s.hsize.toNat = 0
  · rw [heapExtract_empty h0, heapExtract_empty (s := t) (h.hsize ▸ h0)]
    trivial
  · obtain ⟨h1, he, -, hperm, -⟩ := heapExtract_spec s (by omega) h.small
    have hz := hsize_pred s.hsize
    have e2 : ∀ u : State, u.hsize = s.hsize → heapExtract u = .ok (heapAt u.heap 0) { u with
        heap := siftDown u.node (s.hsize.toNat - 1) (s.hsize.toNat - 1)
          (u.heap.setIfInBounds 0 (heapAt u.heap (s.hsize.toNat - 1))) 0
        hsize := BitVec.ofNat 9 (s.hsize.toNat - 1) } := by
      intro u hu
      have : 0 < s.hsize.toNat := by omega
      simp only [heapExtract, hu, this, decide_true, require_true, Run.bind_ok]
    have e1 := he.symm.trans (e2 s rfl)
    simp only [Run.ok.injEq, State.mk.injEq] at e1
    rw [he, e2 t h.hsize.symm]
    have hvalid : ∀ k < s.hsize.toNat - 1, (heapAt h1 k).toNat < s.nalloc.toNat := by
      intro k hk
      have := hperm.symm.subset (List.mem_cons_of_mem _ (mem_heapEntries.2 ⟨k, hk, rfl⟩))
      obtain ⟨m, hm', he⟩ := mem_heapEntries.1 (State.heapList_eq s ▸ this)
      rw [← he]
      exact h.valid m hm'
    refine ⟨h.heap 0 (by omega), ⟨h.sft, h.nsym, h.nalloc, rfl, h.hmax, by simp only [hz]; have := h.small; omega, h.nodes,
      ?_, by simpa only [hz] using hvalid⟩⟩
    intro k hk
    simp only [hz] at hk
    have hsame : SameHeap s.node t.node (s.hsize.toNat - 1)
        (s.heap.setIfInBounds 0 (heapAt s.heap (s.hsize.toNat - 1)))
        (t.heap.setIfInBounds 0 (heapAt t.heap (s.hsize.toNat - 1))) := by
      constructor
      · intro k hk
        rw [heapAt_set, heapAt_set]
        split_ifs
        · exact h.heap _ (by omega)
        · exact h.heap k (by omega)
      · intro k hk
        rw [heapAt_set]
        split_ifs
        · exact h.nodes _ (h.valid _ (by omega))
        · exact h.nodes _ (h.valid k (by omega))
    have hs := siftDown_same (by have := h.small; omega) (s.hsize.toNat - 1) hsame (show 0 < s.hsize.toNat - 1 by omega)
    have e1' : h1 = siftDown s.node (s.hsize.toNat - 1) (s.hsize.toNat - 1)
        (s.heap.setIfInBounds 0 (heapAt s.heap (s.hsize.toNat - 1))) 0 := by simp [e1]
    simp only [e1']
    exact hs.heap k hk

/-- What a completed `HeapInsert` or `HeapExtract` leaves of the capacity and the arena. -/
theorem heapExtract_keeps {s t : State} {a : Handle} (he : heapExtract s = .ok a t) :
    t.hmax = s.hmax ∧ t.nalloc = s.nalloc ∧ t.node = s.node := by
  simp only [heapExtract] at he
  rw [Run.bind_eq_ok] at he
  obtain ⟨_, s1, h1, h2⟩ := he
  obtain ⟨-, rfl⟩ := require_eq_ok.1 h1
  simp only [Run.ok.injEq] at h2
  obtain ⟨-, rfl⟩ := h2
  exact ⟨rfl, rfl, rfl⟩

theorem heapInsert_keeps {s t : State} {h : Handle} {i : Nat} (he : heapInsert h s = .ok i t) :
    t.hmax = s.hmax ∧ t.nalloc = s.nalloc ∧ t.node = s.node := by
  simp only [heapInsert] at he
  rw [Run.bind_eq_ok] at he
  obtain ⟨_, s1, h1, h2⟩ := he
  obtain ⟨-, rfl⟩ := require_eq_ok.1 h1
  simp only [Run.ok.injEq] at h2
  obtain ⟨-, rfl⟩ := h2
  exact ⟨rfl, rfl, rfl⟩

theorem fillLeaves_same (cs : List Byte) {s t : State} (h : Agree s t) (hm : s.hmax.toNat ≤ 256) :
    SameRun (fillLeaves cs s) (fillLeaves cs t) := by
  induction cs generalizing s t with
  | nil => exact ⟨rfl, h⟩
  | cons c cs ih =>
    rw [fillLeaves, fillLeaves, ← h.sft]
    split
    · exact ih h hm
    · have hn := newNode_same (sym := c) (w := (symAt s.sft c).toNat) (l := Config.null) (r := Config.null) h
      refine hn.1.bind fun a s1 t1 he h1 => ?_
      obtain ⟨hv, hx⟩ := hn.2 a s1 he
      refine (heapInsert_same h1 hv (hx ▸ hm)).bind fun _ s2 t2 he2 h2 => ?_
      exact ih h2 ((heapInsert_keeps he2).1 ▸ hx ▸ hm)

theorem mergeRound_same {s t : State} (h : Agree s t) (hm : s.hmax.toNat ≤ 256) :
    SameRun (mergeRound s) (mergeRound t) := by
  refine (heapExtract_same h).bind fun a s1 t1 he1 h1 => (heapExtract_same h1).bind fun b s2 t2 he2 h2 => ?_
  obtain ⟨hm1, hn1, hd1⟩ := heapExtract_keeps he1
  obtain ⟨hm2, hn2, hd2⟩ := heapExtract_keeps he2
  have ha : a.toNat < s2.nalloc.toNat := by
    have h0 : 0 < s.hsize.toNat := by
      by_contra h0
      rw [heapExtract_empty (by omega)] at he1
      simp at he1
    obtain ⟨h1', he, -⟩ := heapExtract_spec s h0 h.small
    rw [he1] at he
    simp only [Run.ok.injEq] at he
    rw [he.1, hn2, hn1]
    exact h.valid 0 h0
  have hb : b.toNat < s2.nalloc.toNat := by
    have h0 : 0 < s1.hsize.toNat := by
      by_contra h0
      rw [heapExtract_empty (by omega)] at he2
      simp at he2
    obtain ⟨h1', he, -⟩ := heapExtract_spec s1 h0 h1.small
    rw [he2] at he
    simp only [Run.ok.injEq] at he
    rw [he.1, hn2]
    exact h1.valid 0 h0
  rw [h2.nodes a ha, h2.nodes b hb]
  have hn := newNode_same (sym := Config.internalSym)
    (w := (nodeAt t2.node a).w.toNat + (nodeAt t2.node b).w.toNat) (l := a) (r := b) h2
  refine hn.1.bind fun n s3 t3 he3 h3 => ?_
  obtain ⟨hv, hx⟩ := hn.2 n s3 he3
  refine (heapInsert_same h3 hv (by rw [hx, hm2, hm1]; exact hm)).bind fun _ s4 t4 _ h4 => ⟨rfl, h4⟩

theorem mergeRound_keeps {s t : State} (he : mergeRound s = .ok () t) : t.hmax = s.hmax := by
  simp only [mergeRound] at he
  simp only [Run.bind_eq_ok] at he
  obtain ⟨a, s1, h1, b, s2, h2, n, s3, h3, i, s4, h4, h5⟩ := he
  simp only [Run.ok.injEq, true_and] at h5
  subst h5
  rw [(heapInsert_keeps h4).1, ← (heapExtract_keeps h1).1, ← (heapExtract_keeps h2).1]
  simp only [newNode] at h3
  simp only [Run.bind_eq_ok] at h3
  obtain ⟨_, x, hx, _, y, hy, hz⟩ := h3
  obtain ⟨-, rfl⟩ := require_eq_ok.1 hx
  obtain ⟨-, rfl⟩ := require_eq_ok.1 hy
  simp only [Run.ok.injEq] at hz
  rw [← hz.2]

theorem mergeLoop_same (k : Nat) {s t : State} (h : Agree s t) (hm : s.hmax.toNat ≤ 256) :
    SameRun (mergeLoop k s) (mergeLoop k t) := by
  induction k generalizing s t with
  | zero => exact ⟨rfl, h⟩
  | succ k ih =>
    rw [mergeLoop, mergeLoop]
    exact (mergeRound_same h hm).bind fun _ s1 t1 he h1 => ih h1 (mergeRound_keeps he ▸ hm)

end Sys2Proof.Machine
end

