-- ==== Sys2Proof/Laws/Streams.lean ====
section
/-! SUPPORT. Laws/Streams.lean: `OutAppend`, the trailer's bytes, and the bits of a byte sequence. -/

namespace Sys2Proof.Machine

/-! ## `OutAppend` (20 R88) -/

theorem State.room_eq (s : State) : s.room = s.outCap.toNat - s.output.length := rfl

/-- Bytes that fit are appended and nothing else happens. -/
theorem outAppend_of_fits {v : List Byte} {s : State} (h : v.length ≤ s.room) :
    outAppend v s = .ok () { s with output := s.output ++ v } := by
  simp [outAppend, h]

/-- An append of nothing never faults. -/
@[simp] theorem outAppend_nil (s : State) : outAppend [] s = .ok () s := by
  rw [outAppend_of_fits (by simp)]
  simp

/-- Bytes that do not fit are appended as far as they do, and `IoWrite` is raised. -/
theorem outAppend_of_short {v : List Byte} {s : State} (h : s.room < v.length) :
    outAppend v s =
      .stop ({ s with output := s.output ++ v.take s.room }.raise .ioWrite (word (v.length - s.room))) := by
  simp [outAppend, Nat.not_le.2 h, fail]

theorem outAppend_eq_ok {v : List Byte} {s t : State} {u : Unit} :
    outAppend v s = .ok u t ↔ v.length ≤ s.room ∧ t = { s with output := s.output ++ v } := by
  by_cases h : v.length ≤ s.room
  · simp [outAppend_of_fits h, h, eq_comm]
  · simp [outAppend_of_short (Nat.lt_of_not_le h), h]

/-- The room left after an append that fits. -/
theorem State.room_append (s : State) (v : List Byte) :
    { s with output := s.output ++ v }.room = s.room - v.length := by
  simp [State.room, Nat.sub_sub]

/-! ## The trailer (20 R81) -/

@[simp] theorem le64_length (v : Word64) : (le64 v).length = 8 := by simp [le64, Config.trailerBytes]

theorem unLe64_nil : unLe64 [] = 0 := rfl

theorem unLe64_cons (x : Byte) (b : List Byte) : unLe64 (x :: b) = x.toNat + 256 * unLe64 b := rfl

/-- `n` bytes hold a number below `256 ^ n`. -/
theorem unLe64_lt (b : List Byte) : unLe64 b < 256 ^ b.length := by
  induction b with
  | nil => simp [unLe64_nil]
  | cons x b ih =>
    rw [unLe64_cons, List.length_cons, pow_succ]
    have := x.isLt
    omega

/-- Byte `i` of `LE64(v)`. -/
theorem le64_getElem (v : Word64) (i : Nat) (h : i < (le64 v).length) :
    (le64 v)[i].toNat = v.toNat / 256 ^ i % 256 := by
  have h8 : (256 : Nat) ^ i = 2 ^ (8 * i) := by rw [pow_mul]; norm_num
  simp [le64, BitVec.extractLsb'_toNat, Nat.shiftRight_eq_div_pow, h8]

/-- `UnLE64` is the inverse of `LE64` (00 R14). -/
@[simp] theorem unLe64_le64 (v : Word64) : unLe64 (le64 v) = v.toNat := by
  have hv := v.isLt
  simp only [le64, Config.trailerBytes, List.range_succ, List.range_zero, List.map_cons,
    List.map_nil, List.nil_append, List.cons_append, unLe64_cons, unLe64_nil, BitVec.extractLsb'_toNat,
    Nat.shiftRight_eq_div_pow]
  omega

/-! ## Bits -/

@[simp] theorem byteBits_length (x : Byte) : (byteBits x).length = 8 := by simp [byteBits]

@[simp] theorem byteBits_zero : byteBits 0 = List.replicate 8 false := by decide

@[simp] theorem streamBits_nil : streamBits [] = [] := rfl

theorem streamBits_cons (x : Byte) (b : List Byte) : streamBits (x :: b) = byteBits x ++ streamBits b := rfl

@[simp] theorem streamBits_append (a b : List Byte) : streamBits (a ++ b) = streamBits a ++ streamBits b := by
  simp [streamBits]

@[simp] theorem streamBits_length (b : List Byte) : (streamBits b).length = 8 * b.length := by
  induction b with
  | nil => rfl
  | cons x b ih => simp [streamBits_cons, ih]; omega

/-- Zero bytes are zero bits. -/
theorem streamBits_replicate (n : Nat) : streamBits (List.replicate n 0) = List.replicate (8 * n) false := by
  induction n with
  | zero => rfl
  | succ n ih =>
    rw [List.replicate_succ, streamBits_cons, ih, byteBits_zero, List.replicate_append_replicate]
    congr 1
    omega

/-- Stream bit `k` of a byte sequence (00 R12). -/
theorem streamBits_getElem? (b : List Byte) (k : Nat) :
    (streamBits b)[k]? = b[k / 8]?.map fun x => x.getLsbD (7 - k % 8) := by
  induction b generalizing k with
  | nil => simp
  | cons x b ih =>
    rw [streamBits_cons]
    by_cases hk : k < 8
    · rw [List.getElem?_append_left (by simpa using hk), Nat.div_eq_of_lt hk, Nat.mod_eq_of_lt hk]
      simp [byteBits, hk]
    · rw [List.getElem?_append_right (by simp; omega), ih, byteBits_length]
      have h1 : k / 8 = (k - 8) / 8 + 1 := by omega
      have h2 : (k - 8) % 8 = k % 8 := by omega
      rw [h1, h2, List.getElem?_cons_succ]

/-- The bits of the first bytes are the first bits. -/
theorem streamBits_take (b : List Byte) (n : Nat) : streamBits (b.take n) = (streamBits b).take (8 * n) := by
  induction b generalizing n with
  | nil => simp
  | cons x b ih =>
    cases n with
    | zero => simp
    | succ n =>
      have h : (byteBits x).take (8 * (n + 1)) = byteBits x := List.take_of_length_le (by simp)
      have h' : 8 * (n + 1) - (byteBits x).length = 8 * n := by simp; omega
      rw [List.take_succ_cons, streamBits_cons, streamBits_cons, ih, List.take_append, h, h']

/-- The bits of the later bytes are the later bits. -/
theorem streamBits_drop (b : List Byte) (n : Nat) : streamBits (b.drop n) = (streamBits b).drop (8 * n) := by
  induction b generalizing n with
  | nil => simp
  | cons x b ih =>
    cases n with
    | zero => simp
    | succ n =>
      have h : (byteBits x).drop (8 * (n + 1)) = [] := List.drop_of_length_le (by simp)
      have h' : 8 * (n + 1) - (byteBits x).length = 8 * n := by simp; omega
      rw [List.drop_succ_cons, streamBits_cons, ih, List.drop_append, h, h', List.nil_append]

@[simp] theorem codeBits_length (pat : Word64) (len : Nat) : (codeBits pat len).length = len := by simp [codeBits]

@[simp] theorem codeBits_zero (pat : Word64) : codeBits pat 0 = [] := rfl

/-- The first bit of a code is the most significant one (20 R82 a). -/
theorem codeBits_succ (pat : Word64) (k : Nat) : codeBits pat (k + 1) = pat.getLsbD k :: codeBits pat k := by
  simp [codeBits, List.range_succ]

end Sys2Proof.Machine
end

