-- ==== Sys2Proof/Laws/Bitio.lean ====
section
/-! SUPPORT. Laws/Bitio.lean: `WriteBit`, `WriteBits` and `ReadBit` (44 R181, R182, R190) said once in bits: what the writer
holds and has put out, what the reader has yet to return. -/

namespace Sys2Proof.Machine

/-! ## Bits in a buffer -/

@[simp] theorem orBit_length (buf : List Byte) (pos : Nat) (b : Bool) : (orBit buf pos b).length = buf.length := by
  simp [orBit]

theorem orByte_bit (x : Byte) (b : Bool) {p k : Nat} (hp : p < 8) (hk : k < 8) :
    (x ||| ((BitVec.ofBool b).setWidth 8 <<< (7 - p))).getLsbD (7 - k) =
      (x.getLsbD (7 - k) || (b && decide (k = p))) := by
  rw [BitVec.getLsbD_or, BitVec.getLsbD_shiftLeft]
  congr 1
  by_cases h : k = p
  · subst h
    cases b <;> simp <;> omega
  · rcases Nat.lt_or_gt_of_ne h with h' | h'
    · have : 7 - k - (7 - p) ≠ 0 := by omega
      cases b <;> simp [h, BitVec.getLsbD_ofBool, this]
    · have : 7 - k < 7 - p := by omega
      simp [h, this]

/-- Or-ing a bit into a buffer sets the stream bit of that position where it was 0. -/
theorem streamBits_orBit {buf : List Byte} {pos : Nat} {b : Bool} (hpos : pos < 8 * buf.length)
    (hz : (streamBits buf)[pos]? = some false) : streamBits (orBit buf pos b) = (streamBits buf).set pos b := by
  apply List.ext_getElem?
  intro k
  rw [streamBits_getElem?, List.getElem?_set, orBit, List.getElem?_modify]
  by_cases hk : k < 8 * buf.length
  · have hk8 : k / 8 < buf.length := by omega
    rw [List.getElem?_eq_getElem hk8]
    by_cases hd : pos / 8 = k / 8
    · have e := orByte_bit buf[k / 8] b (p := pos % 8) (k := k % 8) (by omega) (by omega)
      have hs : (streamBits buf)[k]? = some (buf[k / 8].getLsbD (7 - k % 8)) := by
        rw [streamBits_getElem?, List.getElem?_eq_getElem hk8]; rfl
      simp only [hd, if_true, Option.map_eq_map, Option.map_some, e]
      by_cases hpk : pos = k
      · subst hpk
        rw [hs] at hz
        simp only [Option.some.injEq] at hz
        simp [hz, hpos]
      · have : k % 8 ≠ pos % 8 := by omega
        simp [hpk, this, hs]
    · have : pos ≠ k := fun h => hd (by rw [h])
      have hs : (streamBits buf)[k]? = some (buf[k / 8].getLsbD (7 - k % 8)) := by
        rw [streamBits_getElem?, List.getElem?_eq_getElem hk8]; rfl
      simp [hd, this, hs]
  · have hk8 : buf.length ≤ k / 8 := by omega
    have : pos ≠ k := by omega
    have hs : (streamBits buf)[k]? = none := by
      rw [List.getElem?_eq_none_iff]; simp; omega
    rw [List.getElem?_eq_none hk8]
    simp [this, hs]

/-- Bit `pos` of a buffer is its stream bit. -/
theorem bitAt_eq {buf : List Byte} {pos : Nat} (h : pos < 8 * buf.length) :
    (streamBits buf)[pos]? = some (bitAt buf pos) := by
  have h8 : pos / 8 < buf.length := by omega
  rw [streamBits_getElem?, List.getElem?_eq_getElem h8, bitAt, bufAt, List.getD_eq_getElem _ _ h8]
  rfl

/-! ## The writer -/

theorem State.writerBits_length {s : State} (hl : s.wbuf.length = s.bufBytes.toNat)
    (hp : s.wpos.toNat ≤ 8 * s.bufBytes.toNat) : s.writerBits.length = s.wpos.toNat := by
  simp [State.writerBits, hl, hp]

/-- The pending bits, cut to whole bytes, are the pending bits padded with zeros. -/
theorem packs_writerBits {s : State} (hc : s.WriterClean) (hl : s.wbuf.length = s.bufBytes.toNat)
    (hp : s.wpos.toNat ≤ 8 * s.bufBytes.toNat) : Packs (s.wbuf.take (ceilDiv s.wpos.toNat 8)) s.writerBits := by
  have hlen := State.writerBits_length hl hp
  have hn : ceilDiv s.wpos.toNat 8 ≤ s.bufBytes.toNat := by rw [ceilDiv]; omega
  have hn8 : s.wpos.toNat ≤ 8 * ceilDiv s.wpos.toNat 8 := by rw [ceilDiv]; omega
  have htake : (s.wbuf.take (ceilDiv s.wpos.toNat 8)).length = ceilDiv s.wpos.toNat 8 := by simp [hl, hn]
  refine ⟨by rw [htake, hlen], ?_⟩
  rw [streamBits_take, htake, hlen, State.writerBits]
  have hsplit := List.take_append_drop s.wpos.toNat (streamBits s.wbuf)
  conv_lhs => rw [← hsplit]
  rw [List.take_append, List.take_take, Nat.min_eq_right hn8]
  congr 1
  have hzero : (streamBits s.wbuf).drop s.wpos.toNat =
      List.replicate ((streamBits s.wbuf).drop s.wpos.toNat).length false := List.eq_replicate_iff.2 ⟨rfl, hc⟩
  rw [hzero, List.take_replicate]
  congr 1
  simp [hl]
  omega

theorem placeBit_spec {s : State} (b : Bool) (hw : s.WriterOk) (ht : s.wtotal.toNat < 2 ^ 64 - 1) :
    (s.placeBit b).wpos.toNat = s.wpos.toNat + 1 ∧ (s.placeBit b).wtotal.toNat = s.wtotal.toNat + 1 ∧
      (s.placeBit b).wbuf.length = s.bufBytes.toNat ∧ (s.placeBit b).WriterClean ∧
      (s.placeBit b).writerBits = s.writerBits ++ [b] := by
  obtain ⟨h0, hl, hp, hpt, hc⟩ := hw
  have e1 : (s.placeBit b).wpos.toNat = s.wpos.toNat + 1 := word_toNat (by omega)
  have hlen : (streamBits s.wbuf).length = 8 * s.bufBytes.toNat := by simp [hl]
  have hz : (streamBits s.wbuf)[s.wpos.toNat]? = some false := by
    rw [List.getElem?_eq_getElem (by omega)]
    congr 1
    apply hc
    rw [List.mem_iff_getElem]
    exact ⟨0, by simp; omega, by simp⟩
  have hset : streamBits (s.placeBit b).wbuf = (streamBits s.wbuf).set s.wpos.toNat b :=
    streamBits_orBit (by omega) hz
  refine ⟨e1, word_toNat (by omega), by simp [hl], ?_, ?_⟩
  · intro x hx
    rw [e1, hset, List.drop_set_of_lt (by omega)] at hx
    rw [← List.drop_drop] at hx
    exact hc x (List.mem_of_mem_drop hx)
  · rw [State.writerBits, e1, hset, State.writerBits, List.take_set, List.take_succ_eq_append_getElem (by omega),
      List.set_append_right _ _ (by simp)]
    have hm : min s.wpos.toNat (8 * s.wbuf.length) = s.wpos.toNat := by rw [hl]; omega
    simp [hm]

/-- At the counter's limit `WriteBit` only raises `Overflow(2)`. -/
theorem writeBit_overflow {s : State} (b : Bool) (h : s.wtotal.toNat = 2 ^ 64 - 1) :
    writeBit b s = .stop (s.raise .overflow 2) := by
  rw [writeBit, decide_eq_false (by omega), require_false, Run.bind_stop]

/-- What writing `bits` does: `q` whole buffers go out, the rest is pending. -/
structure Wrote (s : State) (bits : List Bool) (t : State) (v : List Byte) : Prop where
  frame : t = { s with wbuf := t.wbuf, wpos := t.wpos, wtotal := t.wtotal, output := s.output ++ v }
  ok : t.WriterOk
  out : v.length = (s.wpos.toNat + bits.length) / (8 * s.bufBytes.toNat) * s.bufBytes.toNat
  pos : t.wpos.toNat = (s.wpos.toNat + bits.length) % (8 * s.bufBytes.toNat)
  total : t.wtotal.toNat = s.wtotal.toNat + bits.length
  bits_eq : streamBits v ++ t.writerBits = s.writerBits ++ bits

/-- `OUT` has room for the whole buffers that writing `n` bits fills. -/
abbrev State.RoomFor (s : State) (n : Nat) : Prop :=
  (s.wpos.toNat + n) / (8 * s.bufBytes.toNat) ≠ 0 →
    s.output.length + (s.wpos.toNat + n) / (8 * s.bufBytes.toNat) * s.bufBytes.toNat ≤ s.outCap.toNat

theorem bufBytes_pos {s : State} (h : s.bufBytes ≠ 0) : 0 < s.bufBytes.toNat := by
  rcases Nat.eq_zero_or_pos s.bufBytes.toNat with h0 | h0
  · exact absurd (BitVec.eq_of_toNat_eq h0) h
  · exact h0

/-- `WriteBit` completes when the counter and `OUT` have room. -/
theorem writeBit_spec {s : State} (b : Bool) (hw : s.WriterOk) (ht : s.wtotal.toNat < 2 ^ 64 - 1)
    (hr : s.RoomFor 1) : ∃ t v, writeBit b s = .ok () t ∧ Wrote s [b] t v := by
  obtain ⟨p1, p2, p3, p4, p5⟩ := placeBit_spec b hw ht
  have h0 := bufBytes_pos hw.1
  have hlt := hw.2.2.1
  have hbuf : (s.placeBit b).bufBytes = s.bufBytes := rfl
  have hreq : (require (decide (s.wtotal.toNat < 2 ^ 64 - 1)) .overflow 2 s) = .ok () s := by
    rw [decide_eq_true ht, require_true]
  by_cases hfull : s.wpos.toNat + 1 = 8 * s.bufBytes.toNat
  · have hq : (s.wpos.toNat + 1) / (8 * s.bufBytes.toNat) = 1 := by rw [hfull, Nat.div_self (by omega)]
    have hm : (s.wpos.toNat + 1) % (8 * s.bufBytes.toNat) = 0 := by rw [hfull, Nat.mod_self]
    have hroom := hr (by rw [hq]; omega)
    rw [hq, Nat.one_mul] at hroom
    have htake : (s.placeBit b).wbuf.take s.bufBytes.toNat = (s.placeBit b).wbuf :=
      List.take_of_length_le (by omega)
    have hfits : (s.placeBit b).wbuf.length ≤ (s.placeBit b).room := by
      rw [p3, State.room_eq]; simp only [State.placeBit_outCap, State.placeBit_output]; omega
    refine ⟨{ s.placeBit b with output := s.output ++ (s.placeBit b).wbuf, wpos := 0 }.zeroWbuf,
      (s.placeBit b).wbuf, ?_, ?_⟩
    · rw [writeBit, hreq, Run.bind_ok]
      simp only [p1, hbuf, hfull, if_true, htake]
      rw [outAppend_of_fits hfits, Run.bind_ok]
      rfl
    · have hclean : ∀ n, ∀ x ∈ (streamBits (List.replicate n 0)).drop 0, x = false := by
        intro n x hx
        rw [streamBits_replicate] at hx
        simp at hx
        exact hx.2
      refine ⟨rfl, ⟨hw.1, by simp, by simp; omega, by simp, hclean _⟩, ?_, ?_, p2, ?_⟩
      · simp only [List.length_singleton]
        rw [hq, p3, Nat.one_mul]
      · simp only [List.length_singleton]
        rw [hm]; rfl
      · rw [← p5]
        simp only [State.writerBits, State.zeroWbuf]
        rw [show (0 : Word64).toNat = 0 from rfl, List.take_zero, List.append_nil]
        rw [p1, hfull, ← p3, ← streamBits_length, List.take_length]
  · have hq : (s.wpos.toNat + 1) / (8 * s.bufBytes.toNat) = 0 := Nat.div_eq_of_lt (by omega)
    have hm : (s.wpos.toNat + 1) % (8 * s.bufBytes.toNat) = s.wpos.toNat + 1 := Nat.mod_eq_of_lt (by omega)
    refine ⟨s.placeBit b, [], ?_, ?_⟩
    · rw [writeBit, hreq, Run.bind_ok]
      simp only [p1, hbuf, hfull, if_false]
    · refine ⟨by simp [State.placeBit], ⟨hw.1, p3, by rw [p1, hbuf]; omega, by rw [p1, p2]; have := hw.2.2.2.1; omega, p4⟩,
        ?_, ?_, p2, ?_⟩
      · simp only [List.length_singleton, List.length_nil]
        rw [hq, Nat.zero_mul]
      · simp only [List.length_singleton]
        rw [hm, p1]
      · rw [p5]; rfl

/-- Writing some bits and then more is writing all of them. -/
theorem Wrote.trans {s t u : State} {a b : List Bool} {v w : List Byte} (h1 : Wrote s a t v) (h2 : Wrote t b u w) :
    Wrote s (a ++ b) u (v ++ w) := by
  have hbuf : t.bufBytes = s.bufBytes := by rw [h1.frame]
  have h0 := bufBytes_pos (hbuf ▸ h1.ok.1)
  have key : (s.wpos.toNat + (a ++ b).length) / (8 * s.bufBytes.toNat) =
      (s.wpos.toNat + a.length) / (8 * s.bufBytes.toNat) + (t.wpos.toNat + b.length) / (8 * s.bufBytes.toNat) := by
    rw [h1.pos, List.length_append, ← Nat.add_assoc]
    conv_lhs => rw [← Nat.div_add_mod (s.wpos.toNat + a.length) (8 * s.bufBytes.toNat), Nat.add_assoc]
    rw [Nat.mul_add_div (by omega)]
  have keym : (s.wpos.toNat + (a ++ b).length) % (8 * s.bufBytes.toNat) =
      (t.wpos.toNat + b.length) % (8 * s.bufBytes.toNat) := by
    rw [h1.pos, List.length_append, ← Nat.add_assoc, Nat.mod_add_mod]
  refine ⟨?_, h2.ok, ?_, ?_, ?_, ?_⟩
  · have hf := h2.frame
    have ho : t.output = s.output ++ v := by rw [h1.frame]
    rw [ho, List.append_assoc] at hf
    rw [hf, h1.frame]
  · rw [List.length_append, h1.out, h2.out, hbuf, key, Nat.add_mul]
  · rw [h2.pos, hbuf, keym]
  · rw [h2.total, h1.total, List.length_append]; omega
  · rw [streamBits_append, List.append_assoc, h2.bits_eq, ← List.append_assoc, h1.bits_eq, List.append_assoc]

/-- Writing nothing. -/
theorem Wrote.refl {s : State} (hw : s.WriterOk) : Wrote s [] s [] := by
  have h := hw.2.2.1
  refine ⟨by simp, hw, ?_, ?_, rfl, by simp⟩
  · simp [Nat.div_eq_of_lt h]
  · simp [Nat.mod_eq_of_lt h]

theorem State.RoomFor.left {s : State} {m n : Nat} (h : s.RoomFor (m + n)) : s.RoomFor m := by
  intro hq
  have hle : (s.wpos.toNat + m) / (8 * s.bufBytes.toNat) ≤ (s.wpos.toNat + (m + n)) / (8 * s.bufBytes.toNat) :=
    Nat.div_le_div_right (by omega)
  have := h fun h0 => hq (Nat.le_zero.1 (h0 ▸ hle))
  have := Nat.mul_le_mul_right s.bufBytes.toNat hle
  omega

theorem State.RoomFor.right {s t : State} {a : List Bool} {n : Nat} {v : List Byte} (h : s.RoomFor (a.length + n))
    (hw : Wrote s a t v) : t.RoomFor n := by
  have hbuf : t.bufBytes = s.bufBytes := by rw [hw.frame]
  have hcap : t.outCap = s.outCap := by rw [hw.frame]
  have hout : t.output.length = s.output.length + v.length := by rw [hw.frame]; simp
  have h0 := bufBytes_pos (hbuf ▸ hw.ok.1)
  have key : (s.wpos.toNat + (a.length + n)) / (8 * s.bufBytes.toNat) =
      (s.wpos.toNat + a.length) / (8 * s.bufBytes.toNat) + (t.wpos.toNat + n) / (8 * s.bufBytes.toNat) := by
    rw [hw.pos, ← Nat.add_assoc]
    conv_lhs => rw [← Nat.div_add_mod (s.wpos.toNat + a.length) (8 * s.bufBytes.toNat), Nat.add_assoc]
    rw [Nat.mul_add_div (by omega)]
  intro hq
  rw [hbuf] at hq ⊢
  rw [hcap, hout, hw.out]
  rw [State.RoomFor, key] at h
  have := h fun h0 => hq (Nat.eq_zero_of_add_eq_zero h0).2
  rw [Nat.add_mul] at this
  omega

/-- `WriteBits` completes when the counter and `OUT` have room (44 R182). -/
theorem writeBits_spec (pat : Word64) (len : Nat) {s : State} (hw : s.WriterOk)
    (ht : s.wtotal.toNat + len ≤ 2 ^ 64 - 1) (hr : s.RoomFor len) :
    ∃ t v, writeBits pat len s = .ok () t ∧ Wrote s (codeBits pat len) t v := by
  induction len generalizing s with
  | zero => exact ⟨s, [], rfl, Wrote.refl hw⟩
  | succ k ih =>
    have hr' : s.RoomFor (1 + k) := by rwa [Nat.add_comm]
    obtain ⟨t, v, h1, w1⟩ := writeBit_spec (pat.getLsbD k) hw (by omega) hr'.left
    have htot := w1.total
    simp only [List.length_singleton] at htot
    obtain ⟨u, w, h2, w2⟩ := ih w1.ok (by omega) (State.RoomFor.right hr' w1)
    refine ⟨u, v ++ w, by rw [writeBits, h1, Run.bind_ok, h2], ?_⟩
    rw [codeBits_succ]
    exact w1.trans w2

/-! ## The reader -/

theorem State.refillSize_eq (s : State) :
    s.refillSize = min s.bufBytes.toNat (min s.rlimit.toNat (s.input.length - s.inPos.toNat)) := rfl

theorem takeBit_ok {s : State} (ht : s.rtotal.toNat < 2 ^ 64 - 1) :
    takeBit s = .ok (some (bitAt s.rbuf s.rpos.toNat))
      { s with rpos := word (s.rpos.toNat + 1), rtotal := word (s.rtotal.toNat + 1) } := by
  rw [takeBit, decide_eq_true ht, require_true, Run.bind_ok]

/-- At the counter's limit no bit is taken and `Overflow(3)` is raised. -/
theorem takeBit_overflow {s : State} (h : s.rtotal.toNat = 2 ^ 64 - 1) :
    takeBit s = .stop (s.raise .overflow 3) := by
  rw [takeBit, decide_eq_false (by omega), require_false, Run.bind_stop]

/-- With valid bits left in the buffer `ReadBit` takes the next one. -/
theorem takeBit_spec {s : State} (hr : s.ReaderOk) (ht : s.rtotal.toNat < 2 ^ 64 - 1)
    (hp : s.rpos.toNat < 8 * s.rfill.toNat) :
    ∃ b t, takeBit s = .ok (some b) t ∧ t = { s with rpos := t.rpos, rtotal := t.rtotal } ∧
      t.rpos.toNat = s.rpos.toNat + 1 ∧ t.rtotal.toNat = s.rtotal.toNat + 1 ∧ t.ReaderOk ∧
      s.readerBits = b :: t.readerBits := by
  obtain ⟨h0, hl, hf, hle, hpt, hin⟩ := hr
  have e1 : (word (s.rpos.toNat + 1)).toNat = s.rpos.toNat + 1 := word_toNat (by omega)
  have e2 : (word (s.rtotal.toNat + 1)).toNat = s.rtotal.toNat + 1 := word_toNat (by omega)
  refine ⟨_, _, takeBit_ok ht, rfl, e1, e2, ⟨h0, hl, hf, by simp only [e1]; omega, by simp only [e1, e2]; omega, hin⟩, ?_⟩
  have hb := bitAt_eq (buf := s.rbuf) (pos := s.rpos.toNat) (by omega)
  simp only [State.readerBits, e1]
  rw [← List.cons_append]
  congr 1
  have hlen : s.rpos.toNat < ((streamBits s.rbuf).take (8 * s.rfill.toNat)).length := by simp [hl]; omega
  rw [List.drop_eq_getElem_cons hlen]
  congr 1
  rw [List.getElem_take]
  rw [List.getElem?_eq_getElem (by simp [hl]; omega)] at hb
  exact Option.some.inj hb

/-- A refill moves the next chunk from `IN` into the buffer; the bits yet to come stay the same. -/
theorem refill_spec {s : State} (hr : s.ReaderOk) (hp : s.rpos.toNat = 8 * s.rfill.toNat) :
    s.refill.ReaderOk ∧ s.refill.rfill.toNat = s.refillSize ∧ s.refill.rpos.toNat = 0 ∧
      s.refill.rlimit.toNat + s.refillSize = s.rlimit.toNat ∧
      s.refill.inPos.toNat = s.inPos.toNat + s.refillSize ∧
      s.refill.rbuf.take s.refillSize = (s.input.drop s.inPos.toNat).take s.refillSize ∧
      s.refill.readerBits = s.readerBits := by
  obtain ⟨h0, hl, hf, hle, hpt, hin⟩ := hr
  have hn := s.refillSize_eq
  have hin' := s.inPos.isLt
  have hli := s.rlimit.isLt
  have hbu := s.bufBytes.isLt
  have e1 : s.refill.rfill.toNat = s.refillSize := word_toNat (by omega)
  have e2 : s.refill.rlimit.toNat = s.rlimit.toNat - s.refillSize := word_toNat (by omega)
  have e3 : s.refill.inPos.toNat = s.inPos.toNat + s.refillSize := word_toNat (by omega)
  have hmem : (s.memRead s.inPos.toNat s.refillSize).length = s.refillSize := by
    simp only [State.memRead, List.length_take, List.length_drop]; omega
  have e5 : s.refill.rbuf.take s.refillSize = (s.input.drop s.inPos.toNat).take s.refillSize := by
    rw [State.refill_rbuf, List.take_append_of_le_length (by omega), List.take_of_length_le (by omega)]
    rfl
  have hlen : s.refill.rbuf.length = s.bufBytes.toNat := by
    rw [State.refill_rbuf, List.length_append, hmem, List.length_drop, hl]; omega
  refine ⟨⟨h0, hlen, by rw [e1, State.refill_bufBytes]; omega, by simp, by simp, hin⟩, e1, by simp, by omega, e3, e5, ?_⟩
  rw [State.readerBits, State.readerBits, hp, e1, e2, State.refill_rpos, ← streamBits_take, e5]
  have hdrop : ((streamBits s.rbuf).take (8 * s.rfill.toNat)).drop (8 * s.rfill.toNat) = [] := by
    apply List.drop_of_length_le
    simp
  rw [hdrop, List.nil_append]
  rw [show (0 : Word64).toNat = 0 from rfl, List.drop_zero, ← streamBits_append]
  congr 1
  rw [State.unread, State.unread, e3, State.refill_input]
  have hsplit : (s.input.drop s.inPos.toNat).take s.rlimit.toNat =
      (s.input.drop s.inPos.toNat).take (s.refillSize + (s.rlimit.toNat - s.refillSize)) := by
    congr 1; omega
  rw [hsplit, List.take_add, List.drop_drop]

/-- Nothing to fetch: no bit is left. -/
theorem readerBits_eq_nil_iff {s : State} (hr : s.ReaderOk) (hp : s.rpos.toNat = 8 * s.rfill.toNat) :
    s.readerBits = [] ↔ s.refillSize = 0 := by
  obtain ⟨h0, -⟩ := hr
  have h0 := bufBytes_pos h0
  have hdrop : ((streamBits s.rbuf).take (8 * s.rfill.toNat)).drop (8 * s.rfill.toNat) = [] := by
    apply List.drop_of_length_le
    simp
  rw [State.readerBits, hp, hdrop, List.nil_append, ← List.length_eq_zero_iff, streamBits_length, State.refillSize_eq,
    State.unread]
  simp only [List.length_take, List.length_drop]
  omega

/-- At the counter's limit `ReadBit` with a bit left raises `Overflow(3)`, after a refill where one is due. -/
theorem readBit_overflow {s : State} (hr : s.ReaderOk) (ht : s.rtotal.toNat = 2 ^ 64 - 1) (hb : s.readerBits ≠ []) :
    readBit s = .stop ((if s.rpos.toNat = 8 * s.rfill.toNat then s.refill else s).raise .overflow 3) := by
  by_cases hp : s.rpos.toNat = 8 * s.rfill.toNat
  · have hn : s.refillSize ≠ 0 := fun h => hb ((readerBits_eq_nil_iff hr hp).2 h)
    rw [readBit, if_pos hp, if_neg hn, if_pos hp, takeBit_overflow (by rw [State.refill_rtotal]; exact ht)]
  · rw [readBit, if_neg hp, if_neg hp, takeBit_overflow ht]

/-- `ReadBit` (44 R190): the next bit of what the reader has yet to return, or the sentinel when there is none. -/
theorem readBit_spec {s : State} (hr : s.ReaderOk) (ht : s.rtotal.toNat < 2 ^ 64 - 1) :
    (s.readerBits = [] ∧ readBit s = .ok none s) ∨
    ∃ b t, readBit s = .ok (some b) t ∧ s.readerBits = b :: t.readerBits ∧
      t = { s with
        rpos := t.rpos, rtotal := t.rtotal, rbuf := t.rbuf, rfill := t.rfill, rlimit := t.rlimit, inPos := t.inPos } ∧
      t.ReaderOk ∧ t.rtotal.toNat = s.rtotal.toNat + 1 ∧
      (s.rpos.toNat ≠ 8 * s.rfill.toNat → t.rpos.toNat = s.rpos.toNat + 1 ∧ t.rbuf = s.rbuf ∧ t.rfill = s.rfill ∧
        t.rlimit = s.rlimit ∧ t.inPos = s.inPos) ∧
      (s.rpos.toNat = 8 * s.rfill.toNat → t.rpos.toNat = 1 ∧ t.rfill.toNat = s.refillSize ∧
        t.rlimit.toNat + s.refillSize = s.rlimit.toNat ∧ t.inPos.toNat = s.inPos.toNat + s.refillSize ∧
        t.rbuf.take s.refillSize = (s.input.drop s.inPos.toNat).take s.refillSize) := by
  by_cases hp : s.rpos.toNat = 8 * s.rfill.toNat
  · by_cases hn : s.refillSize = 0
    · left
      exact ⟨(readerBits_eq_nil_iff hr hp).2 hn, by rw [readBit, if_pos hp, if_pos hn]⟩
    · right
      obtain ⟨r1, r2, r3, r4, r5, r6, r7⟩ := refill_spec hr hp
      obtain ⟨b, t, h1, h2, h3, h4, h5, h6⟩ := takeBit_spec r1 (by rw [State.refill_rtotal]; exact ht)
        (by rw [r2, r3]; omega)
      refine ⟨b, t, by rw [readBit, if_pos hp, if_neg hn, h1], by rw [← r7, h6], ?_, h5,
        by rw [h4, State.refill_rtotal], fun h => absurd hp h, fun _ => ?_⟩
      · rw [h2]; rfl
      · have f1 : t.rfill = s.refill.rfill := by rw [h2]
        have f2 : t.rlimit = s.refill.rlimit := by rw [h2]
        have f3 : t.inPos = s.refill.inPos := by rw [h2]
        have f4 : t.rbuf = s.refill.rbuf := by rw [h2]
        rw [f1, f2, f3, f4]
        exact ⟨by omega, r2, r4, r5, r6⟩
  · right
    obtain ⟨b, t, h1, h2, h3, h4, h5, h6⟩ := takeBit_spec hr ht (by have := hr.2.2.2.1; omega)
    refine ⟨b, t, by rw [readBit, if_neg hp, h1], h6, ?_, h5, h4, fun _ => ⟨h3, ?_⟩, fun h => absurd h hp⟩
    · rw [h2]
    · rw [h2]
      exact ⟨rfl, rfl, rfl, rfl⟩

end Sys2Proof.Machine
end

