-- ==== Sys2Proof/Laws/Codegen.lean ====
section
/-! SUPPORT. Laws/Codegen.lean: what the walk of `CG_RUN` (43 R171) leaves in the code table, when it completes and how it
stops. -/

namespace Sys2Proof.Machine

/-- The symbols at a tree's leaves, left first. -/
abbrev HTree.syms (t : HTree) : List Byte := t.codes.map Prod.fst

@[simp] theorem HTree.syms_leaf (c : Byte) : (HTree.leaf c).syms = [c] := rfl

@[simp] theorem HTree.syms_node (l r : HTree) : (HTree.node l r).syms = l.syms ++ r.syms := by
  simp [HTree.syms, HTree.codes, List.map_map, Function.comp_def]

theorem HTree.syms_ne_nil (t : HTree) : t.syms ≠ [] := by
  induction t with
  | leaf c => simp
  | node l r ihl _ => simp [ihl]

theorem HTree.code_length_le_depth {t : HTree} {p : Byte × List Bool} (hp : p ∈ t.codes) : p.2.length ≤ t.depth := by
  induction t generalizing p with
  | leaf c =>
    simp only [HTree.codes, List.mem_singleton] at hp
    simp [hp]
  | node l r ihl ihr =>
    simp only [HTree.codes, List.mem_append, List.mem_map] at hp
    rcases hp with ⟨q, hq, rfl⟩ | ⟨q, hq, rfl⟩
    · have := ihl hq
      simp only [HTree.depth, List.length_cons]; omega
    · have := ihr hq
      simp only [HTree.depth, List.length_cons]; omega

/-- An arena holds at most one tree under a handle. -/
theorem HTree.at_unique {arena : Vector Node 511} {a b : HTree} {h : Handle} (ha : a.At arena h)
    (hb : b.At arena h) : a = b := by
  induction a generalizing b h with
  | leaf c =>
    cases b with
    | leaf d => exact congrArg HTree.leaf (ha.2.symm.trans hb.2)
    | node l r => exact absurd ha.1 (by simp [hb.1])
  | node l r ihl ihr =>
    cases b with
    | leaf d => exact absurd hb.1 (by simp [ha.1])
    | node l' r' => rw [ihl ha.2.1 hb.2.1, ihr ha.2.2 hb.2.2]

/-! ## Codes bit by bit -/

theorem codeBits_congr {a b : Word64} {n : Nat} (h : ∀ k < n, a.getLsbD k = b.getLsbD k) :
    codeBits a n = codeBits b n := by
  apply List.map_congr_left
  intro k hk
  exact h k (by simpa using hk)

/-- Appending a bit to a pattern appends it to the code. -/
theorem codeBits_snoc {pat d : Nat} (b : Bool) (hd : d < 64) (hp : pat < 2 ^ d) :
    codeBits (word (2 * pat + b.toNat)) (d + 1) = codeBits (word pat) d ++ [b] := by
  have hlt : pat < 2 ^ 63 := lt_of_lt_of_le hp (Nat.pow_le_pow_right (by omega) (by omega))
  have hb : b.toNat ≤ 1 := Bool.toNat_le b
  have bit : ∀ n k : Nat, n < 2 ^ 64 → k < 64 → (word n).getLsbD k = n.testBit k := by
    intro n k _ hk
    rw [word, BitVec.getLsbD_ofNat]
    simp [hk]
  have e : (List.range (d + 1)).reverse = ((List.range d).reverse.map Nat.succ) ++ [0] := by
    rw [List.range_succ_eq_map, List.reverse_cons, List.map_reverse]
  rw [codeBits, codeBits, e, List.map_append, List.map_map]
  congr 1
  · apply List.map_congr_left
    intro k hk
    have hk : k < d := by simpa using hk
    rw [Function.comp_apply, bit _ _ (by omega) (by omega), bit _ _ (by omega) (by omega), Nat.testBit_succ]
    congr 1
    omega
  · rw [List.map_singleton, bit _ _ (by omega) (by omega)]
    cases b <;> simp [Nat.testBit_zero] <;> omega

/-! ## The walk -/

/-- What a completed walk leaves: the code of every leaf is the walk's own prefix and then the path to the leaf; other
symbols keep what they had. -/
structure Coded (s : State) (pat d : Nat) (tree : HTree) (t : State) : Prop where
  frame : t = { s with ctPat := t.ctPat, ctLen := t.ctLen }
  code : ∀ p ∈ tree.codes, t.codeOf p.1 = codeBits (word pat) d ++ p.2 ∧
    (symAt t.ctLen p.1).toNat = d + p.2.length ∧ (symAt t.ctPat p.1).toNat < 2 ^ (d + p.2.length)
  same : ∀ c, c ∉ tree.syms → symAt t.ctPat c = symAt s.ctPat c ∧ symAt t.ctLen c = symAt s.ctLen c

theorem walk_leaf {room : Nat} {h : Handle} {pat : Nat} {s : State} (hl : (nodeAt s.node h).isLeaf = true) :
    walk room h pat s = (require (symAt s.ctLen (nodeAt s.node h).sym == 0) .dupSymbol
      ((nodeAt s.node h).sym.setWidth 64) s).bind fun _ s' =>
        .ok () (s'.putCode (nodeAt s.node h).sym pat (Config.codeBits - room)) := by
  cases room <;> simp only [walk, hl, if_true]

theorem walk_node_zero {h : Handle} {pat : Nat} {s : State} (hl : (nodeAt s.node h).isLeaf = false) :
    walk 0 h pat s = fail .codeLen (h.setWidth 64) s := by
  rw [walk]
  simp [hl]

theorem walk_node_succ {room : Nat} {h : Handle} {pat : Nat} {s : State} (hl : (nodeAt s.node h).isLeaf = false) :
    walk (room + 1) h pat s = (walk room (nodeAt s.node h).l (2 * pat) s).bind fun _ s' =>
      walk room (nodeAt s.node h).r (2 * pat + 1) s' := by
  rw [walk]
  simp [hl]

/-- Over a tree of distinct symbols, none of them coded yet and none too deep, the walk completes. -/
theorem walk_ok {tree : HTree} {room : Nat} {h : Handle} {pat : Nat} {s : State} (hat : tree.At s.node h)
    (hroom : room ≤ 64) (hd : tree.depth ≤ room) (hpat : pat < 2 ^ (64 - room)) (hn : tree.syms.Nodup)
    (hz : ∀ c ∈ tree.syms, symAt s.ctLen c = 0) :
    ∃ t, walk room h pat s = .ok () t ∧ Coded s pat (64 - room) tree t := by
  induction tree generalizing room h pat s with
  | leaf c =>
    obtain ⟨hl, rfl⟩ := hat
    have hc := hz (nodeAt s.node h).sym (by simp)
    rw [walk_leaf hl, hc]
    refine ⟨_, rfl, rfl, ?_, ?_⟩
    · intro p hp
      simp only [HTree.codes, List.mem_singleton] at hp
      subst hp
      have hlt : pat < 2 ^ 64 := lt_of_lt_of_le hpat (Nat.pow_le_pow_right (by omega) (by omega))
      have hlen : (BitVec.ofNat 8 (Config.codeBits - room)).toNat = 64 - room := by
        rw [BitVec.toNat_ofNat]; simp only [Config.codeBits]; omega
      simp only [State.codeOf, State.putCode, symAt_symPut_self, hlen, List.append_nil, List.length_nil, Nat.add_zero,
        word_toNat hlt, hpat, and_self]
    · intro d hd'
      have : d ≠ (nodeAt s.node h).sym := by simpa using hd'
      simp [State.putCode, symAt_symPut_ne, this]
  | node l r ihl ihr =>
    obtain ⟨hl, hatl, hatr⟩ := hat
    simp only [HTree.depth] at hd
    obtain ⟨room, rfl⟩ : ∃ m, room = m + 1 := ⟨room - 1, by omega⟩
    simp only [HTree.syms_node] at hn hz
    rw [List.nodup_append'] at hn
    obtain ⟨hnl, hnr, hdis⟩ := hn
    have hpow : 2 ^ (64 - room) = 2 * 2 ^ (64 - (room + 1)) := by
      rw [← pow_succ']; congr 1; omega
    have hroom' : 64 - room = 64 - (room + 1) + 1 := by omega
    obtain ⟨t1, hw1, c1⟩ := ihl (room := room) (pat := 2 * pat) hatl (by omega) (by omega) (by omega) hnl
      (fun c hc => hz c (by simp [hc]))
    have hnode : t1.node = s.node := by rw [c1.frame]
    obtain ⟨t2, hw2, c2⟩ := ihr (room := room) (pat := 2 * pat + 1) (s := t1) (by rw [hnode]; exact hatr) (by omega)
      (by omega) (by omega) hnr
      (fun c hc => by rw [(c1.same c (fun hc' => hdis hc' hc)).2]; exact hz c (by simp [hc]))
    refine ⟨t2, by rw [walk_node_succ hl, hw1, Run.bind_ok, hw2], ?_, ?_, ?_⟩
    · rw [c2.frame, c1.frame]
    · intro p hp
      simp only [HTree.codes, List.mem_append, List.mem_map] at hp
      rcases hp with ⟨q, hq, rfl⟩ | ⟨q, hq, rfl⟩
      · have hqs : q.1 ∉ r.syms := fun hc => hdis (List.mem_map_of_mem hq) hc
        obtain ⟨e1, e2, e3⟩ := c1.code q hq
        obtain ⟨f1, f2⟩ := c2.same q.1 hqs
        have hs := codeBits_snoc (pat := pat) false (d := 64 - (room + 1)) (by omega) hpat
        simp only [Bool.toNat_false, Nat.add_zero] at hs
        simp only [State.codeOf, f1, f2, List.length_cons] at e1 ⊢
        rw [e1, hroom', hs]
        refine ⟨by simp, by omega, ?_⟩
        have : 64 - (room + 1) + (q.2.length + 1) = 64 - room + q.2.length := by omega
        rw [this]
        exact e3
      · obtain ⟨e1, e2, e3⟩ := c2.code q hq
        have hs := codeBits_snoc (pat := pat) true (d := 64 - (room + 1)) (by omega) hpat
        simp only [Bool.toNat_true] at hs
        simp only [List.length_cons]
        rw [e1, hroom', hs]
        refine ⟨by simp, by omega, ?_⟩
        have : 64 - (room + 1) + (q.2.length + 1) = 64 - room + q.2.length := by omega
        rw [this]
        exact e3
    · intro c hc
      simp only [HTree.syms_node, List.mem_append, not_or] at hc
      obtain ⟨a1, a2⟩ := c1.same c hc.1
      obtain ⟨b1, b2⟩ := c2.same c hc.2
      exact ⟨b1.trans a1, b2.trans a2⟩

/-- A walk that completes, below the root or from an internal root, was over a tree of distinct uncoded symbols no deeper
than the room. -/
theorem walk_sound {room : Nat} {h : Handle} {pat : Nat} {s t : State} (hw : walk room h pat s = .ok () t)
    (hroom : room ≤ 64) (hpat : pat < 2 ^ (64 - room)) (hd : room < 64 ∨ (nodeAt s.node h).isLeaf = false) :
    ∃ tree : HTree, tree.At s.node h ∧ tree.depth ≤ room ∧ tree.syms.Nodup ∧ ∀ c ∈ tree.syms, symAt s.ctLen c = 0 := by
  induction room generalizing h pat s t with
  | zero =>
    cases hl : (nodeAt s.node h).isLeaf
    · rw [walk_node_zero hl, fail] at hw
      simp at hw
    · rw [walk_leaf hl, Run.bind_eq_ok] at hw
      obtain ⟨_, _, h1, -⟩ := hw
      have hc := (require_eq_ok.1 h1).1
      exact ⟨.leaf (nodeAt s.node h).sym, ⟨hl, rfl⟩, by simp [HTree.depth], by simp, by simpa using hc⟩
  | succ room ih =>
    cases hl : (nodeAt s.node h).isLeaf
    · rw [walk_node_succ hl, Run.bind_eq_ok] at hw
      obtain ⟨_, t1, h1, h2⟩ := hw
      have hpow : 2 ^ (64 - room) = 2 * 2 ^ (64 - (room + 1)) := by
        rw [← pow_succ']; congr 1; omega
      obtain ⟨l, atl, dl, nl, zl⟩ := ih h1 (by omega) (by omega) (.inl (by omega))
      obtain ⟨t1', h1', c1⟩ := walk_ok (pat := 2 * pat) atl (by omega) dl (by omega) nl zl
      obtain rfl : t1 = t1' := by
        rw [h1] at h1'
        simpa using h1'
      have hnode : t1.node = s.node := by rw [c1.frame]
      obtain ⟨r, atr, dr, nr, zr⟩ := ih h2 (by omega) (by omega) (.inl (by omega))
      rw [hnode] at atr
      have hdis : ∀ c ∈ l.syms, c ∉ r.syms := by
        intro c hc hc'
        obtain ⟨p, hp, rfl⟩ := List.mem_map.1 hc
        have := (c1.code p hp).2.1
        rw [zr _ hc'] at this
        simp at this
        omega
      refine ⟨.node l r, ⟨hl, atl, atr⟩, by simp only [HTree.depth]; omega, ?_, ?_⟩
      · rw [HTree.syms_node, List.nodup_append']
        exact ⟨nl, nr, fun c h1 h2 => hdis c h1 h2⟩
      · intro c hc
        rw [HTree.syms_node, List.mem_append] at hc
        rcases hc with hc | hc
        · exact zl c hc
        · have := (c1.same c (fun hc' => hdis c hc' hc)).2
          rw [← this]
          exact zr c hc
    · rw [walk_leaf hl, Run.bind_eq_ok] at hw
      obtain ⟨_, _, h1, -⟩ := hw
      have hc := (require_eq_ok.1 h1).1
      exact ⟨.leaf (nodeAt s.node h).sym, ⟨hl, rfl⟩, by simp [HTree.depth], by simp, by simpa using hc⟩

/-! ## Where the walk stops -/

/-- A walk whose limit is not reached visits exactly the leaves. -/
theorem HTree.visits_of_depth_le {t : HTree} {k : Nat} (h : t.depth ≤ k) :
    HTree.visits k t = t.codes.map fun p => (some p.1, p.2) := by
  induction t generalizing k with
  | leaf c => cases k <;> rfl
  | node l r ihl ihr =>
    simp only [HTree.depth] at h
    obtain ⟨k, rfl⟩ : ∃ m, k = m + 1 := ⟨k - 1, by omega⟩
    rw [HTree.visits, ihl (by omega), ihr (by omega), HTree.codes]
    simp [List.map_map, Function.comp_def]

/-- How a walk over a tree stops: at the first visit that is either a leaf whose symbol was coded before, by an earlier
visit or before the walk, or an internal node with no room below it. -/
theorem walk_stop {tree : HTree} {room : Nat} {h : Handle} {pat : Nat} {s t : State} (hat : tree.At s.node h)
    (hroom : room ≤ 64) (hpat : pat < 2 ^ (64 - room)) (hd : room < 64 ∨ (nodeAt s.node h).isLeaf = false)
    (hw : walk room h pat s = .stop t) :
    ∃ ctPat ctLen pre o p post, HTree.visits room tree = pre ++ (o, p) :: post ∧ (pre.map Prod.fst).Nodup ∧
      (∀ v ∈ pre, ∃ c, v.1 = some c ∧ symAt s.ctLen c = 0) ∧
      ((∃ c, o = some c ∧ t = { s with ctPat := ctPat, ctLen := ctLen }.raise .dupSymbol (c.setWidth 64) ∧
          (symAt s.ctLen c ≠ 0 ∨ o ∈ pre.map Prod.fst)) ∨
        (o = none ∧ p.length = room ∧ (nodeAt s.node (handleAt s.node h p)).isLeaf = false ∧
          t = { s with ctPat := ctPat, ctLen := ctLen }.raise .codeLen ((handleAt s.node h p).setWidth 64))) := by
  induction tree generalizing room h pat s t with
  | leaf c =>
    obtain ⟨hl, rfl⟩ := hat
    rw [walk_leaf hl, Run.bind_eq_stop] at hw
    rcases hw with hw | ⟨_, _, _, hw⟩
    · obtain ⟨hc, rfl⟩ := require_eq_stop.1 hw
      refine ⟨s.ctPat, s.ctLen, [], some (nodeAt s.node h).sym, [], [], by cases room <;> rfl, by simp, by simp,
        .inl ⟨_, rfl, rfl, .inl (by simpa using hc)⟩⟩
    · simp at hw
  | node l r ihl ihr =>
    obtain ⟨hl, atl, atr⟩ := hat
    cases room with
    | zero =>
      rw [walk_node_zero hl, fail] at hw
      simp only [Run.stop.injEq] at hw
      exact ⟨s.ctPat, s.ctLen, [], none, [], [], rfl, by simp, by simp, .inr ⟨rfl, rfl, hl, hw.symm⟩⟩
    | succ room =>
      have hpow : 2 ^ (64 - room) = 2 * 2 ^ (64 - (room + 1)) := by
        rw [← pow_succ']; congr 1; omega
      rw [walk_node_succ hl, Run.bind_eq_stop] at hw
      rcases hw with hw | ⟨_, t1, h1, hw⟩
      · obtain ⟨a, b, pre, o, p, post, hv, hn, hz, hcase⟩ := ihl atl (by omega) (by omega) (.inl (by omega)) hw
        have hfst : (pre.map fun v : Option Byte × List Bool => (v.1, false :: v.2)).map Prod.fst = pre.map Prod.fst := by
          simp [List.map_map, Function.comp_def]
        refine ⟨a, b, pre.map fun v => (v.1, false :: v.2), o, false :: p,
          post.map (fun v => (v.1, false :: v.2)) ++ (HTree.visits room r).map fun v => (v.1, true :: v.2), ?_, hfst ▸ hn,
          ?_, ?_⟩
        · rw [HTree.visits, hv, List.map_append, List.map_cons, List.append_assoc, List.cons_append]
        · intro v hv
          obtain ⟨w, hw, rfl⟩ := List.mem_map.1 hv
          exact hz w hw
        · rw [hfst]
          rcases hcase with hc | ⟨ho, hp, hi, e⟩
          · exact .inl hc
          · exact .inr ⟨ho, by simp [hp], by simpa [handleAt] using hi, by simpa [handleAt] using e⟩
      · -- the left subtree completed
        obtain ⟨l', atl', dl, nl, zl⟩ := walk_sound h1 (by omega) (by omega) (.inl (by omega))
        obtain rfl := HTree.at_unique atl' atl
        obtain ⟨t1', h1', c1⟩ := walk_ok (pat := 2 * pat) atl (by omega) dl (by omega) nl zl
        obtain rfl : t1 = t1' := by
          rw [h1] at h1'
          simpa using h1'
        have hnode : t1.node = s.node := by rw [c1.frame]
        obtain ⟨a, b, pre, o, p, post, hv, hn, hz, hcase⟩ :=
          ihr (s := t1) (by rw [hnode]; exact atr) (by omega) (by omega) (.inl (by omega)) hw
        have hfr : ({ t1 with ctPat := a, ctLen := b } : State) = { s with ctPat := a, ctLen := b } := by rw [c1.frame]
        have hcoded : ∀ c ∈ l'.syms, symAt t1.ctLen c ≠ 0 := by
          intro c hc h0
          obtain ⟨q, hq, rfl⟩ := List.mem_map.1 hc
          have := (c1.code q hq).2.1
          rw [h0] at this
          simp at this
          omega
        have hleft : (l'.codes.map fun q => ((some q.1 : Option Byte), false :: q.2)).map Prod.fst = l'.syms.map some := by
          simp [List.map_map, Function.comp_def]
        have hright : (pre.map fun v : Option Byte × List Bool => (v.1, true :: v.2)).map Prod.fst = pre.map Prod.fst := by
          simp [List.map_map, Function.comp_def]
        refine ⟨a, b, (l'.codes.map fun q => (some q.1, false :: q.2)) ++ pre.map (fun v => (v.1, true :: v.2)), o,
          true :: p, post.map fun v => (v.1, true :: v.2), ?_, ?_, ?_, ?_⟩
        · rw [HTree.visits, HTree.visits_of_depth_le dl, hv]
          simp [List.map_map, Function.comp_def]
        · rw [List.map_append, hleft, hright, List.nodup_append']
          refine ⟨nl.map (Option.some_injective _), hn, ?_⟩
          intro v hv1 hv2
          obtain ⟨c, hc, rfl⟩ := List.mem_map.1 hv1
          obtain ⟨w, hw, hwc⟩ := List.mem_map.1 hv2
          obtain ⟨d, hd, h0⟩ := hz w hw
          rw [hd, Option.some.injEq] at hwc
          exact hcoded c hc (hwc ▸ h0)
        · intro v hv
          rcases List.mem_append.1 hv with hv | hv
          · obtain ⟨q, hq, rfl⟩ := List.mem_map.1 hv
            exact ⟨q.1, rfl, zl _ (List.mem_map_of_mem hq)⟩
          · obtain ⟨w, hw, rfl⟩ := List.mem_map.1 hv
            obtain ⟨d, hd, h0⟩ := hz w hw
            refine ⟨d, hd, ?_⟩
            by_cases hdl : d ∈ l'.syms
            · exact absurd h0 (hcoded d hdl)
            · rw [← (c1.same d hdl).2]; exact h0
        · rw [List.map_append, hleft, hright, List.mem_append]
          rw [hfr, hnode] at hcase
          rcases hcase with ⟨c, ho, e, hc⟩ | ⟨ho, hp, hi, e⟩
          · refine .inl ⟨c, ho, e, ?_⟩
            rcases hc with hc | hc
            · by_cases hcl : c ∈ l'.syms
              · exact .inr (.inl (ho ▸ List.mem_map_of_mem hcl))
              · exact .inl ((c1.same c hcl).2 ▸ hc)
            · exact .inr (.inr hc)
          · exact .inr ⟨ho, by simp [hp], by simpa [handleAt] using hi, by simpa [handleAt] using e⟩

end Sys2Proof.Machine
end

