-- ==== Sys2Proof/Laws/Frequency.lean ====
section
/-! SUPPORT. Laws/Frequency.lean: what the counting pass and the scaler leave (40 R131 to R135). -/

namespace Sys2Proof.Machine

/-! ## Counting -/

theorem symAt_countByte (ft : Vector Word64 256) (x c : Byte) :
    (symAt (countByte ft x) c).toNat = ((symAt ft c).toNat + if x = c then 1 else 0) % 2 ^ 64 := by
  have := (symAt ft c).isLt
  by_cases h : c = x
  · subst h; simp [countByte, word]
  · simp [countByte, symAt_symPut_ne _ _ h, Ne.symm h, Nat.mod_eq_of_lt this]

/-- The counting pass adds each symbol's number of occurrences, modulo the counter's width. -/
theorem symAt_foldl_countByte (bytes : List Byte) (ft : Vector Word64 256) (c : Byte) :
    (symAt (bytes.foldl countByte ft) c).toNat = ((symAt ft c).toNat + bytes.count c) % 2 ^ 64 := by
  induction bytes generalizing ft with
  | nil => simp [Nat.mod_eq_of_lt (symAt ft c).isLt]
  | cons x xs ih =>
    rw [List.foldl_cons, ih, symAt_countByte, List.count_cons, Nat.mod_add_mod]
    congr 1
    simp only [beq_iff_eq]
    omega

/-- Entry `c` of the count table is the number of bytes `c` (40 R131), for any stream an `IN_LEN` can describe. -/
theorem symAt_countBytes {bytes : List Byte} (h : bytes.length < 2 ^ 64) (c : Byte) :
    (symAt (countBytes bytes) c).toNat = bytes.count c := by
  have := List.count_le_length (a := c) (l := bytes)
  rw [countBytes, symAt_foldl_countByte, symAt_replicate]
  rw [show (0 : Word64).toNat = 0 from rfl, Nat.zero_add, Nat.mod_eq_of_lt (by omega)]

/-- The ones of an indicator add up to the number of occurrences. -/
theorem sum_indicator (l : List Byte) (x : Byte) : (l.map fun c => if x = c then 1 else 0).sum = l.count x := by
  induction l with
  | nil => rfl
  | cons a l ih =>
    rw [List.map_cons, List.sum_cons, ih, List.count_cons]
    by_cases h : a = x
    · rw [if_pos h.symm, if_pos (by simp [h]), Nat.add_comm]
    · rw [if_neg (Ne.symm h), if_neg (by simp [h]), Nat.zero_add, Nat.add_zero]

/-- Counts over a list of symbols without repeats that holds every byte add up to the length. -/
theorem sum_count {l : List Byte} (hn : l.Nodup) (hm : ∀ c, c ∈ l) (bytes : List Byte) :
    (l.map fun c => bytes.count c).sum = bytes.length := by
  induction bytes with
  | nil => simp
  | cons x xs ih =>
    have h : (l.map fun c => (x :: xs).count c) = l.map fun c => xs.count c + if x = c then 1 else 0 := by
      simp only [List.count_cons, beq_iff_eq]
    rw [h, List.sum_map_add, ih, sum_indicator, List.count_eq_one_of_mem hn (hm x), List.length_cons]

/-- The counts of all symbols add up to the length (40 R132). -/
theorem sum_count_allSymbols (bytes : List Byte) : (allSymbols.map fun c => bytes.count c).sum = bytes.length :=
  sum_count allSymbols_nodup mem_allSymbols bytes

/-! ## Scaling -/

theorem foldl_max_le {l : List Word64} {k : Nat} :
    k ≤ l.foldl (fun m f => max m f.toNat) k ∧ ∀ f ∈ l, f.toNat ≤ l.foldl (fun m f => max m f.toNat) k := by
  induction l generalizing k with
  | nil => simp
  | cons x xs ih =>
    obtain ⟨h1, h2⟩ := ih (k := max k x.toNat)
    rw [List.foldl_cons]
    refine ⟨by omega, fun f hf => ?_⟩
    rcases List.mem_cons.1 hf with rfl | hf
    · omega
    · exact h2 f hf

theorem foldl_max_mem {l : List Word64} {k : Nat} :
    l.foldl (fun m f => max m f.toNat) k = k ∨ ∃ f ∈ l, f.toNat = l.foldl (fun m f => max m f.toNat) k := by
  induction l generalizing k with
  | nil => simp
  | cons x xs ih =>
    rw [List.foldl_cons]
    rcases ih (k := max k x.toNat) with h | ⟨f, hf, h⟩
    · rcases Nat.le_total x.toNat k with hk | hk
      · left; rw [h]; omega
      · right; exact ⟨x, by simp, by rw [h]; omega⟩
    · right; exact ⟨f, List.mem_cons_of_mem _ hf, h⟩

theorem symAt_mem (ft : Vector Word64 256) (c : Byte) : symAt ft c ∈ ft.toList := by
  rw [toList_eq_map]
  exact List.mem_map_of_mem (mem_allSymbols c)

theorem symAt_le_maxFreq (ft : Vector Word64 256) (c : Byte) : (symAt ft c).toNat ≤ maxFreq ft :=
  foldl_max_le.2 _ (symAt_mem ft c)

theorem exists_maxFreq (ft : Vector Word64 256) : ∃ c, (symAt ft c).toNat = maxFreq ft := by
  rcases foldl_max_mem (l := ft.toList) (k := 0) with h | ⟨f, hf, h⟩
  · have h : maxFreq ft = 0 := h
    exact ⟨0, by have := symAt_le_maxFreq ft 0; omega⟩
  · rw [toList_eq_map, List.mem_map] at hf
    obtain ⟨c, -, rfl⟩ := hf
    exact ⟨c, h⟩

/-- The largest entry is the only number that bounds all entries and is one of them. -/
theorem maxFreq_unique {ft : Vector Word64 256} {m : Nat} (h1 : ∀ c, (symAt ft c).toNat ≤ m)
    (h2 : ∃ c, (symAt ft c).toNat = m) : maxFreq ft = m := by
  obtain ⟨c, hc⟩ := exists_maxFreq ft
  obtain ⟨d, hd⟩ := h2
  have := h1 c
  have := symAt_le_maxFreq ft d
  omega

theorem scaleDivisor_pos (ft : Vector Word64 256) : 1 ≤ scaleDivisor ft := by
  rw [scaleDivisor]; omega

/-- The largest entry over the divisor fits a byte. -/
theorem maxFreq_div_le (ft : Vector Word64 256) : maxFreq ft / scaleDivisor ft ≤ 255 := by
  have h : maxFreq ft ≤ 255 * scaleDivisor ft := by rw [scaleDivisor, ceilDiv]; omega
  exact Nat.div_le_of_le_mul (by rw [Nat.mul_comm]; exact h)

theorem scaleDivisor_lt (ft : Vector Word64 256) : scaleDivisor ft < 2 ^ 64 := by
  obtain ⟨c, hc⟩ := exists_maxFreq ft
  have := (symAt ft c).isLt
  rw [scaleDivisor, ceilDiv]
  omega

/-- A scaled entry fits a byte (40 R135). -/
theorem scaleFreq_le {ft : Vector Word64 256} {f : Nat} (h : f ≤ maxFreq ft) : scaleFreq (scaleDivisor ft) f ≤ 255 := by
  have h1 := Nat.div_le_div_right (c := scaleDivisor ft) h
  have h2 := maxFreq_div_le ft
  unfold scaleFreq
  split <;> omega

/-- Entry `c` of the scaled table (40 R133, R134). -/
theorem symAt_scaledTable (ft : Vector Word64 256) (c : Byte) :
    (symAt (scaledTable ft) c).toNat = scaleFreq (scaleDivisor ft) (symAt ft c).toNat := by
  have := scaleFreq_le (symAt_le_maxFreq ft c)
  rw [scaledTable, symAt_symMap, BitVec.toNat_ofNat, Nat.mod_eq_of_lt (by omega)]

/-- A symbol is present in the scaled table exactly when it is in the count table (40 R135). -/
theorem scaledTable_eq_zero (ft : Vector Word64 256) (c : Byte) :
    symAt (scaledTable ft) c = 0 ↔ symAt ft c = 0 := by
  rw [← BitVec.toNat_inj, symAt_scaledTable, ← BitVec.toNat_inj (x := symAt ft c), scaleFreq]
  rw [show (0 : Byte).toNat = 0 from rfl, show (0 : Word64).toNat = 0 from rfl]
  split <;> omega

theorem presentCount_scaledTable (ft : Vector Word64 256) : presentCount (scaledTable ft) = presentCount ft := by
  rw [presentCount_eq, presentCount_eq]
  congr 2
  funext c
  have := scaledTable_eq_zero ft c
  rw [Bool.eq_iff_iff, bne_iff_ne, bne_iff_ne]
  exact not_congr this

end Sys2Proof.Machine
end

