-- ==== Sys2Proof/Laws/Container.lean ====
section
/-! SUPPORT. Laws/Container.lean: the loops of the container family: writing and reading the pairs, encoding a stream,
emitting decoded bytes (spec 45). -/

namespace Sys2Proof.Machine

/-! ## Writing the pairs (45 R203) -/

/-- The pairs of the present symbols of a list, in its order. -/
def pairBytes (sft : Vector Byte 256) (cs : List Byte) : List Byte :=
  (cs.filter fun c => symAt sft c != 0).flatMap fun c => [c, symAt sft c]

@[simp] theorem pairBytes_nil (sft : Vector Byte 256) : pairBytes sft [] = [] := rfl

theorem pairBytes_cons (sft : Vector Byte 256) (c : Byte) (cs : List Byte) :
    pairBytes sft (c :: cs) = (if symAt sft c = 0 then [] else [c, symAt sft c]) ++ pairBytes sft cs := by
  by_cases h : symAt sft c = 0
  · simp [pairBytes, h]
  · have h' : (symAt sft c != 0) = true := bne_iff_ne.2 h
    rw [if_neg h, pairBytes, List.filter_cons, h', if_pos rfl]
    rfl

theorem pairBytes_length (sft : Vector Byte 256) (cs : List Byte) :
    (pairBytes sft cs).length = 2 * (cs.filter fun c => symAt sft c != 0).length := by
  simp [pairBytes, List.length_flatMap, Nat.mul_comm]

theorem headerBytes_eq (n : Nat) (sft : Vector Byte 256) :
    headerBytes n sft = BitVec.ofNat 8 n :: pairBytes sft allSymbols := rfl

/-- The pair loop completes when `OUT` has room, and appends the pairs. -/
theorem writePairs_spec (cs : List Byte) {s : State} (h : (pairBytes s.sft cs).length ≤ s.room) :
    writePairs cs s = .ok () { s with output := s.output ++ pairBytes s.sft cs } := by
  induction cs generalizing s with
  | nil => simp [writePairs]
  | cons c cs ih =>
    rw [pairBytes_cons] at h ⊢
    by_cases hc : symAt s.sft c = 0
    · rw [if_pos hc, List.nil_append] at h ⊢
      rw [writePairs, if_pos hc, ih h]
    · rw [if_neg hc, List.length_append] at h
      rw [if_neg hc, writePairs, if_neg hc, outAppend_of_fits (by omega), Run.bind_ok, ih]
      · simp only [List.append_assoc]
      · rw [State.room_append]
        exact Nat.le_sub_of_add_le (by rw [Nat.add_comm]; exact h)

/-! ## Reading the pairs (45 R205, 60 R247 reasons 3 and 4) -/

theorem readPairs_zero (i : Nat) (s : State) : readPairs 0 i s = .ok () s := rfl

/-- One pair: a zero frequency is reason 3, a symbol seen before reason 4, else the entry is stored. -/
theorem readPairs_succ (n i : Nat) (s : State) : readPairs (n + 1) i s =
    if s.inByte (2 + 2 * i) = 0 then .stop (s.raise .corruptHeader 3)
    else if symAt s.sft (s.inByte (1 + 2 * i)) ≠ 0 then .stop (s.raise .corruptHeader 4)
    else readPairs n (i + 1) { s with sft := symPut s.sft (s.inByte (1 + 2 * i)) (s.inByte (2 + 2 * i)) } := by
  rw [readPairs]
  by_cases h1 : s.inByte (2 + 2 * i) = 0
  · simp [h1]
  · have h1' : (s.inByte (2 + 2 * i) != 0) = true := bne_iff_ne.2 h1
    simp only [h1', require_true, Run.bind_ok, if_neg h1]
    by_cases h2 : symAt s.sft (s.inByte (1 + 2 * i)) = 0
    · rw [if_neg (not_not.2 h2), beq_iff_eq.2 h2, require_true, Run.bind_ok]
    · rw [if_pos h2, beq_eq_false_iff_ne.2 h2, require_false, Run.bind_stop]

/-- The pair loop completes over distinct symbols not yet in the table, with no zero frequency, and stores each
pair's frequency under its symbol, and nothing else. -/
theorem readPairs_spec (n i : Nat) {s : State}
    (hf : ∀ k < n, s.inByte (2 + 2 * (i + k)) ≠ 0)
    (hs : ∀ k < n, symAt s.sft (s.inByte (1 + 2 * (i + k))) = 0)
    (hd : ∀ k < n, ∀ j < k, s.inByte (1 + 2 * (i + j)) ≠ s.inByte (1 + 2 * (i + k))) :
    ∃ sft, readPairs n i s = .ok () { s with sft := sft } ∧
      (∀ k < n, symAt sft (s.inByte (1 + 2 * (i + k))) = s.inByte (2 + 2 * (i + k))) ∧
      ∀ c, (∀ k < n, s.inByte (1 + 2 * (i + k)) ≠ c) → symAt sft c = symAt s.sft c := by
  induction n generalizing i s with
  | zero => exact ⟨s.sft, rfl, by simp, fun _ _ => rfl⟩
  | succ n ih =>
    have h0 := hf 0 (by omega)
    have h1 := hs 0 (by omega)
    rw [Nat.add_zero] at h0 h1
    rw [readPairs_succ, if_neg h0, if_neg (by simpa using h1)]
    have e : ∀ k, i + 1 + k = i + (k + 1) := fun k => by omega
    obtain ⟨sft, hr, hv, hk⟩ := ih (i + 1)
      (s := { s with sft := symPut s.sft (s.inByte (1 + 2 * i)) (s.inByte (2 + 2 * i)) })
      (by intro k hk; rw [e]; exact hf (k + 1) (by omega))
      (by
        intro k hk
        rw [e]
        have hne := hd (k + 1) (by omega) 0 (by omega)
        rw [Nat.add_zero] at hne
        exact (symAt_symPut_ne _ _ (Ne.symm hne)).trans (hs (k + 1) (by omega)))
      (by
        intro k hk j hj
        rw [e, e]
        exact hd (k + 1) (by omega) (j + 1) (by omega))
    refine ⟨sft, hr, ?_, ?_⟩
    · intro k hkn
      cases k with
      | zero =>
        rw [Nat.add_zero]
        refine (hk _ fun k hk => ?_).trans (symAt_symPut_self _ _ _)
        rw [e]
        exact Ne.symm (hd (k + 1) (by omega) 0 (by omega))
      | succ k =>
        have := hv k (by omega)
        rw [e] at this
        exact this
    · intro c hc
      have h := hk c fun k hk => by rw [e]; exact hc (k + 1) (by omega)
      exact h.trans (symAt_symPut_ne _ _ (Ne.symm (hc 0 (by omega))))

/-! ## Encoding (45 R210) -/

/-- The byte loop completes when every byte has a code and the counter and `OUT` have room; it writes the codes and
moves `IN_POS` over the bytes. -/
theorem encodeBytes_spec (msg : List Byte) {s : State} (hw : s.WriterOk) (hc : ∀ c ∈ msg, symAt s.ctLen c ≠ 0)
    (ht : s.wtotal.toNat + (msg.flatMap s.codeOf).length ≤ 2 ^ 64 - 1) (hr : s.RoomFor (msg.flatMap s.codeOf).length)
    (hp : s.inPos.toNat + msg.length < 2 ^ 64) :
    ∃ t v, encodeBytes msg s = .ok () t ∧ t.inPos.toNat = s.inPos.toNat + msg.length ∧
      Wrote { s with inPos := t.inPos } (msg.flatMap s.codeOf) t v := by
  induction msg generalizing s with
  | nil => exact ⟨s, [], rfl, rfl, Wrote.refl hw⟩
  | cons c cs ih =>
    have hne := hc c (by simp)
    have hlen : (s.codeOf c).length = (symAt s.ctLen c).toNat := by simp [State.codeOf]
    simp only [List.flatMap_cons, List.length_append, List.length_cons] at ht hr hp ⊢
    rw [hlen] at ht
    obtain ⟨t, v, h1, w1⟩ := writeBits_spec (symAt s.ctPat c) (symAt s.ctLen c).toNat
      (s := { s with inPos := word (s.inPos.toNat + 1) }) hw (by simpa using (by omega : _ ≤ 2 ^ 64 - 1))
      (by rw [hlen] at hr; exact hr.left)
    have hpos : (word (s.inPos.toNat + 1)).toNat = s.inPos.toNat + 1 := word_toNat (by omega)
    have f1 : t.inPos = word (s.inPos.toNat + 1) := by rw [w1.frame]
    have f2 : t.ctLen = s.ctLen := by rw [w1.frame]
    have f3 : t.ctPat = s.ctPat := by rw [w1.frame]
    have fc : t.codeOf = s.codeOf := by funext x; simp [State.codeOf, f2, f3]
    have htot : t.wtotal.toNat = s.wtotal.toNat + (symAt s.ctLen c).toNat := by
      rw [w1.total]; simp
    have hroom : t.RoomFor (cs.flatMap s.codeOf).length := by
      refine State.RoomFor.right ?_ w1
      rw [hlen] at hr
      simpa using hr
    obtain ⟨u, w, h2, p2, w2⟩ := ih (s := t) w1.ok (by rw [f2]; exact fun x hx => hc x (by simp [hx]))
      (by rw [fc, htot]; omega) (by rw [fc]; exact hroom) (by rw [f1, hpos]; omega)
    refine ⟨u, v ++ w, ?_, by rw [p2, f1, hpos]; omega, ?_⟩
    · rw [encodeBytes, show (symAt s.ctLen c != 0) = true by simpa using hne, require_true, Run.bind_ok, h1,
        Run.bind_ok, h2]
    · rw [fc] at w2
      have w1' : Wrote { s with inPos := u.inPos } (s.codeOf c) { t with inPos := u.inPos } v :=
        ⟨by conv_lhs => rw [w1.frame], w1.ok, w1.out, w1.pos, w1.total, w1.bits_eq⟩
      exact w1'.trans w2

/-! ## Emitting (45 R213) -/

/-- The decoded bytes so far: those in `OUT` and those in the buffer. -/
def State.emitted (s : State) : List Byte := s.output ++ s.obuf.take s.olen.toNat

/-- The output buffer is in order inside `DEC_STREAM` (10 R36, R47). -/
abbrev State.EmitterOk (s : State) : Prop :=
  s.obuf.length = s.bufBytes.toNat ∧ s.olen.toNat < s.bufBytes.toNat

/-- `Emit` completes when all decoded bytes fit `OUT`; then they are one more. -/
theorem emit_spec (c : Byte) {s : State} (ho : s.EmitterOk) (hr : s.emitted.length + 1 ≤ s.outCap.toNat) :
    ∃ t, emit c s = .ok () t ∧ t = { s with obuf := t.obuf, olen := t.olen, output := t.output } ∧
      t.EmitterOk ∧ t.emitted = s.emitted ++ [c] ∧
      t.output = s.output ++ (if s.olen.toNat + 1 = s.bufBytes.toNat then s.obuf.take s.olen.toNat ++ [c] else []) := by
  obtain ⟨hl, hlt⟩ := ho
  have hb := s.bufBytes.isLt
  have hw : (word (s.olen.toNat + 1)).toNat = s.olen.toNat + 1 := word_toNat (by omega)
  have htake : (s.obuf.set s.olen.toNat c).take (s.olen.toNat + 1) = s.obuf.take s.olen.toNat ++ [c] := by
    rw [List.take_set, List.take_succ_eq_append_getElem (by omega), List.set_append_right _ _ (by simp)]
    simp [Nat.min_eq_left (Nat.le_of_lt (hl ▸ hlt))]
  have hlen : s.emitted.length = s.output.length + s.olen.toNat := by
    simp [State.emitted, hl]; omega
  by_cases hfull : s.olen.toNat + 1 = s.bufBytes.toNat
  · refine ⟨{ s with
      obuf := s.obuf.set s.olen.toNat c
      olen := 0
      output := s.output ++ (s.obuf.take s.olen.toNat ++ [c]) }, ?_, rfl, ⟨by simpa using hl, ?_⟩, ?_, ?_⟩
    · have hfit : (s.obuf.take s.olen.toNat ++ [c]).length ≤ s.room := by
        rw [List.length_append, List.length_take, List.length_singleton, State.room_eq]
        omega
      show (if (word (s.olen.toNat + 1)).toNat = s.bufBytes.toNat then
        (outAppend ((s.obuf.set s.olen.toNat c).take s.bufBytes.toNat) _).bind _ else _) = _
      rw [if_pos (hw.trans hfull), ← hfull, htake, outAppend_of_fits (by exact hfit), Run.bind_ok]
    · show (0 : Word64).toNat < s.bufBytes.toNat
      rw [show (0 : Word64).toNat = 0 from rfl]
      omega
    · simp [State.emitted]
    · simp [hfull]
  · refine ⟨{ s with obuf := s.obuf.set s.olen.toNat c, olen := word (s.olen.toNat + 1) }, ?_, rfl,
      ⟨by simpa using hl, ?_⟩, ?_, ?_⟩
    · simp only [emit, hw, hfull, if_false]
    · show (word (s.olen.toNat + 1)).toNat < s.bufBytes.toNat
      omega
    · simp only [State.emitted, hw, htake, List.append_assoc]
    · simp [hfull]

/-! ## The bit loop (45 R214) -/

theorem decodeLoop_zero (cur : Handle) (s : State) : decodeLoop 0 cur s = .ok cur s := rfl

/-- A round with a bit to read. -/
theorem decodeLoop_some {n : Nat} {cur : Handle} {s t : State} {b : Bool} (h : readBit s = .ok (some b) t) :
    decodeLoop (n + 1) cur s = (decodeBit b cur t).bind fun cur s => decodeLoop n cur s := by
  rw [decodeLoop, h, Run.bind_ok]

/-- A round with no bit left. -/
theorem decodeLoop_none {n : Nat} {cur : Handle} {s t : State} (h : readBit s = .ok none t) :
    decodeLoop (n + 1) cur s = .stop (t.raise .corruptStream 1) := by
  rw [decodeLoop, h, Run.bind_ok]
  rfl

/-- The loop over `m + n` bits is the loop over `m` and then the loop over `n`. -/
theorem decodeLoop_add (m n : Nat) (cur : Handle) (s : State) :
    decodeLoop (m + n) cur s = (decodeLoop m cur s).bind fun cur s => decodeLoop n cur s := by
  induction m generalizing cur s with
  | zero => rw [Nat.zero_add, decodeLoop_zero, Run.bind_ok]
  | succ m ih =>
    rw [Nat.add_right_comm, decodeLoop, decodeLoop]
    cases readBit s with
    | stop t => rfl
    | ok b t =>
      cases b with
      | none => rfl
      | some b =>
        simp only [Run.bind_ok]
        cases decodeBit b cur t with
        | stop u => rfl
        | ok c u => exact ih c u

/-- What a bit does at an internal root: it moves to the child it names, or past a leaf back to the root. -/
theorem decodeBit_node {b : Bool} {cur : Handle} {s : State} (hroot : (nodeAt s.node s.root).isLeaf = false) :
    decodeBit b cur s =
      let next := if b then (nodeAt s.node cur).r else (nodeAt s.node cur).l
      if (nodeAt s.node next).isLeaf then (emit (nodeAt s.node next).sym s).bind fun _ s => .ok s.root s
      else .ok next s := by
  rw [decodeBit, hroot]
  rfl

/-- What a bit does at a leaf root: it emits the one symbol (43 R173). -/
theorem decodeBit_leaf {b : Bool} {cur : Handle} {s : State} (hroot : (nodeAt s.node s.root).isLeaf = true) :
    decodeBit b cur s = (emit (nodeAt s.node s.root).sym s).bind fun _ s => .ok cur s := by
  rw [decodeBit, if_pos hroot]

end Sys2Proof.Machine
end

