-- ==== Sys2Proof/Laws/PerInstr.lean ====
section
/-! SUPPORT. Laws/PerInstr.lean: the family `EncodeShape`: where a command's opcode and immediate stand in its word
(spec 30 R111, R114). -/

namespace Sys2Proof.Laws.EncodeShape

/-- The word of a command: its opcode in bits 7:0, its immediate (0 without one) in bits 19:8, zero above
(30 R111). -/
def Statement (i : Instr) : Prop :=
  opField (encode i) = opcode i ∧ immField (encode i) = i.immediate.getD 0 ∧ topField (encode i) = 0

/-- An opcode and an immediate side by side in a word are read back by the field accessors. -/
theorem fields (op : BitVec 8) (a : BitVec 12) :
    opField (op.setWidth 32 ||| (a.setWidth 32 <<< 8)) = op ∧
      immField (op.setWidth 32 ||| (a.setWidth 32 <<< 8)) = a ∧
      topField (op.setWidth 32 ||| (a.setWidth 32 <<< 8)) = 0 := by
  refine ⟨?_, ?_, ?_⟩
  · apply BitVec.eq_of_getLsbD_eq
    intro k hk
    simp [opField, hk, show k < 32 by omega]
  · apply BitVec.eq_of_getLsbD_eq
    intro k hk
    simp [immField, hk, show 8 + k < 32 by omega]
  · apply BitVec.eq_of_getLsbD_eq
    intro k hk
    simp [topField, hk, BitVec.getLsbD_of_ge a (20 + k - 8) (by omega), BitVec.getLsbD_of_ge op (20 + k) (by omega)]

theorem nop : Statement .nop := fields _ 0

theorem clr : Statement .clr := fields _ 0

theorem fcRun : Statement .fcRun := fields _ 0

theorem fqScale : Statement .fqScale := fields _ 0

theorem hpCreate (a : BitVec 12) : Statement (.hpCreate a) := fields _ a

theorem hpInsert (a : BitVec 12) : Statement (.hpInsert a) := fields _ a

theorem hpExtract : Statement .hpExtract := fields _ 0

theorem hpFill : Statement .hpFill := fields _ 0

theorem ndLeaf (a : BitVec 12) : Statement (.ndLeaf a) := fields _ a

theorem tbBuild : Statement .tbBuild := fields _ 0

theorem tbFree : Statement .tbFree := fields _ 0

theorem cgRun : Statement .cgRun := fields _ 0

theorem bwInit : Statement .bwInit := fields _ 0

theorem bwWrite (a : BitVec 12) : Statement (.bwWrite a) := fields _ a

theorem bwFlush : Statement .bwFlush := fields _ 0

theorem brInit : Statement .brInit := fields _ 0

theorem brRead : Statement .brRead := fields _ 0

theorem hdrWrite : Statement .hdrWrite := fields _ 0

theorem hdrRead : Statement .hdrRead := fields _ 0

theorem encStream : Statement .encStream := fields _ 0

theorem trlWrite : Statement .trlWrite := fields _ 0

theorem decStream : Statement .decStream := fields _ 0

theorem compress : Statement .compress := fields _ 0

theorem decompress : Statement .decompress := fields _ 0

end Sys2Proof.Laws.EncodeShape
end

