-- ==== Sys2Proof/Tests/Slice0.lean ====
section
/-! SUPPORT. Tests/Slice0.lean: the model's own tests: ill-formed terms refused, words decoded and encoded as spec 30 writes
them, one step per test against the vectors of spec 95, and a witness for the hypotheses of every obligation. -/

namespace Sys2Proof.Tests

open Sys2Proof.Machine

set_option Elab.async false

/-! ## Small states -/

/-- A table with these entries and zero elsewhere. -/
def table {w : Nat} (l : List (Nat × Nat)) : Vector (BitVec w) 256 :=
  l.foldl (fun t p => symPut t (BitVec.ofNat 8 p.1) (BitVec.ofNat w p.2)) (Vector.replicate 256 0)

/-- The table has these entries. -/
def has {w : Nat} (t : Vector (BitVec w) 256) (l : List (Nat × Nat)) : Bool :=
  l.all fun p => (symAt t (BitVec.ofNat 8 p.1)).toNat == p.2

/-- A heap array with these handles first and zero after them. -/
def heapOf (l : List Nat) : Vector Handle 256 :=
  (l.zipIdx).foldl (fun v p => v.setIfInBounds p.2 (BitVec.ofNat 9 p.1)) (Vector.replicate 256 0)

/-- An arena with these entries (sym, w, l, r) first and zero after them. -/
def arenaOf (l : List (Nat × Nat × Nat × Nat)) : Vector Node 511 :=
  (l.zipIdx).foldl (fun v p => v.setIfInBounds p.2
    ⟨BitVec.ofNat 8 p.1.1, BitVec.ofNat 64 p.1.2.1, BitVec.ofNat 9 p.1.2.2.1, BitVec.ofNat 9 p.1.2.2.2⟩)
    (Vector.replicate 511 ⟨0, 0, 0, 0⟩)

/-- The state after reset with buffers of `n` zero bytes. -/
def small (n : Nat) : State :=
  { State.reset with
    bufBytes := BitVec.ofNat 64 n
    wbuf := List.replicate n 0
    rbuf := List.replicate n 0
    obuf := List.replicate n 0 }

/-- A leaf of the arena as `arenaOf` takes it. -/
def leaf (sym w : Nat) : Nat × Nat × Nat × Nat := (sym, w, 0x1FF, 0x1FF)

/-- A created heap over an arena. -/
def heaped (nodes : List (Nat × Nat × Nat × Nat)) (heap : List Nat) (cap : Nat) : State :=
  { small 2 with
    node := arenaOf nodes
    nalloc := BitVec.ofNat 10 nodes.length
    heap := heapOf heap
    hsize := BitVec.ofNat 9 heap.length
    hmax := BitVec.ofNat 9 cap
    status := { Status.zero with heapValid := true } }

/-- A tree in the arena, its root the last node. -/
def rooted (nodes : List (Nat × Nat × Nat × Nat)) : State :=
  { heaped nodes [] 0 with root := BitVec.ofNat 9 (nodes.length - 1) }

/-- The outcome is a next state with the property. -/
def ends (o : Host.Outcome State Fault Refusal) (p : State → Bool) : Bool :=
  match o with
  | .next t => p t
  | .fault _ => false
  | .refused _ => false

/-- The recorded fault. -/
def faultIs (t : State) (code info : Nat) : Bool :=
  t.status.fault && t.err.toNat == code && t.errinfo.toNat == info

/-- A byte list from numbers. -/
def bytes (l : List Nat) : List Byte := l.map (BitVec.ofNat 8)

/-- The six leaves of P3 (95 part 3). -/
def p3Leaves : List (Nat × Nat × Nat × Nat) :=
  [leaf 0x10 5, leaf 0x20 3, leaf 0x30 5, leaf 0x05 3, leaf 0xFF 1, leaf 0x00 1]

/-- The five leaves of H5 (95 part 2.2). -/
def h5Leaves : List (Nat × Nat × Nat × Nat) :=
  [leaf 0x61 5, leaf 0x62 2, leaf 0x63 1, leaf 0x64 1, leaf 0x72 2]

/-- The tree of T1 (95 part 2.3). -/
def t1Nodes : List (Nat × Nat × Nat × Nat) :=
  h5Leaves ++ [(0xFF, 2, 2, 3), (0xFF, 4, 1, 4), (0xFF, 6, 5, 6), (0xFF, 11, 0, 7)]

/-- "abracadabra" (95 F13). -/
def abra : List Byte := bytes [0x61, 0x62, 0x72, 0x61, 0x63, 0x61, 0x64, 0x61, 0x62, 0x72, 0x61]

/-- The container of "abba" (95 F4). -/
def abbaFile : List Byte := bytes [0x02, 0x61, 0x02, 0x62, 0x02, 0x60, 0x04, 0, 0, 0, 0, 0, 0, 0]

/-! ## Well-formedness: each check refuses an ill-formed term (30 R112, R114) -/

theorem test_hpCreate_257_illFormed : (Instr.hpCreate 257).wellFormed = false := by decide
theorem test_hpInsert_511_illFormed : (Instr.hpInsert 511).wellFormed = false := by decide
theorem test_ndLeaf_256_illFormed : (Instr.ndLeaf 256).wellFormed = false := by decide
theorem test_bwWrite_65_illFormed : (Instr.bwWrite 65).wellFormed = false := by decide
theorem test_bounds_wellFormed :
    (Instr.hpCreate 256).wellFormed ∧ (Instr.hpInsert 510).wellFormed ∧ (Instr.ndLeaf 255).wellFormed ∧
      (Instr.bwWrite 64).wellFormed := by decide

/-! ## Words: `op` in bits 7:0 (R114's column), `a` in bits 19:8, zero above (30 R111); 95 part 2.0 -/

theorem test_decode_system : decode 0x00000000 = .ok .nop ∧ decode 0x00000001 = .ok .clr := by decide
theorem test_decode_frequency : decode 0x00000010 = .ok .fcRun ∧ decode 0x00000011 = .ok .fqScale := by decide
theorem test_decode_heap :
    decode 0x00000620 = .ok (.hpCreate 6) ∧ decode 0x0001FE21 = .ok (.hpInsert 510) ∧
      decode 0x00000022 = .ok .hpExtract ∧ decode 0x00000023 = .ok .hpFill := by decide
theorem test_decode_tree :
    decode 0x00006130 = .ok (.ndLeaf 0x61) ∧ decode 0x00000031 = .ok .tbBuild ∧
      decode 0x00000032 = .ok .tbFree := by decide
theorem test_decode_codegen : decode 0x00000040 = .ok .cgRun := by decide
theorem test_decode_bitio :
    decode 0x00000050 = .ok .bwInit ∧ decode 0x00000951 = .ok (.bwWrite 9) ∧ decode 0x00000052 = .ok .bwFlush ∧
      decode 0x00000058 = .ok .brInit ∧ decode 0x00000059 = .ok .brRead := by decide
theorem test_decode_container :
    decode 0x00000060 = .ok .hdrWrite ∧ decode 0x00000061 = .ok .hdrRead ∧ decode 0x00000062 = .ok .encStream ∧
      decode 0x00000063 = .ok .trlWrite ∧ decode 0x00000064 = .ok .decStream ∧
      decode 0x00000068 = .ok .compress ∧ decode 0x00000069 = .ok .decompress := by decide
theorem test_decode_rejects :
    decode 0x00000065 = .error .unlistedOpcode ∧ decode 0x80000068 = .error .topBitsSet ∧
      decode 0x00000122 = .error .operandOnZ ∧ decode 0x0001FF21 = .error .immediateTooLarge := by decide
theorem test_encode : encode (.hpCreate 256) = 0x00010020 ∧ encode (.bwWrite 64) = 0x00004051 ∧
    encode (.ndLeaf 0xFF) = 0x0000FF30 ∧ encode .decompress = 0x00000069 := by decide
theorem test_decodeTableWord : decodeTableWord 32 0x00000321 = some (.hpInsert 3) ∧
    decodeTableWord 32 0x00000002 = none := by decide

/-- 95 S1 with a command placed: the first step after reset runs it (the `BadCmd` of the vectors of 2.0). -/
theorem test_step_runs_word :
    ends (step (State.reset.withFetchWord 32 0x00000950)) (fun t => faultIs t 9 0x950) = true ∧
      ends (step (State.reset.withFetchWord 32 0x00000050)) (fun t => t.status.bwValid && t.err == 0) = true := by
  decide +kernel

/-! ## System (95 part 2.7) -/

theorem test_nop_S2 : ends (exec .nop { small 2 with inPos := 7, nsym := 2 })
    (fun t => t.inPos == 7 && t.nsym == 2 && t.status == Status.zero && t.output == []) = true := by decide +kernel

/-- S3: `CLR` clears a fault; `IN_POS` is kept. -/
theorem test_clr_S3 :
    ends (exec .clr { (small 2).faulted 10 0x22 with inPos := 7, nsym := 2, wtotal := 4 })
      (fun t => t.status == Status.zero && t.err == 0 && t.errinfo == 0 && t.inPos == 7 && t.nsym == 0 &&
        t.wtotal == 0 && t.root == 0x1FF) = true := by decide +kernel

/-- S3: a faulted machine ignores a command and an illegal word. -/
theorem test_gate_S3 :
    ends (runWord 0x00000068 ((small 2).faulted 10 0x22)) (fun t => faultIs t 10 0x22) = true ∧
      ends (runWord 0x00000002 ((small 2).faulted 10 0x22)) (fun t => faultIs t 10 0x22) = true := by decide +kernel

/-! ## Frequency (95 part 2.1) -/

/-- Q2: counting starts at `IN_POS`. -/
theorem test_fcRun_Q2 :
    ends (exec .fcRun { small 2 with input := bytes [0x61, 0x62, 0x62, 0x61], inPos := 2 })
      (fun t => has t.ft [(0x61, 1), (0x62, 1), (0x05, 0)] && t.inPos == 0 && t.status.toWord == 0x0100) = true := by
  decide +kernel

/-- Q5, fourth row: 2/3 = 0 is lifted to 1. -/
theorem test_fqScale_Q5 :
    ends (exec .fqScale { small 2 with
        ft := table [(1, 511), (2, 2), (3, 1)], status := { Status.zero with ftValid := true } })
      (fun t => t.divisor == 3 && has t.sft [(1, 170), (2, 1), (3, 1), (0x05, 0)] && t.nsym == 3) = true := by
  decide +kernel

/-- Q5, seventh row: the largest count scales to 254. -/
theorem test_fqScale_Q5_254 :
    ends (exec .fqScale { small 2 with
        ft := table [(1, 65026), (2, 255), (3, 256), (4, 1)], status := { Status.zero with ftValid := true } })
      (fun t => t.divisor == 256 && has t.sft [(1, 254), (2, 1), (3, 1), (4, 1), (0x05, 0)] && t.nsym == 4) = true := by
  decide +kernel

/-! ## Heap (95 part 2.2, P3) -/

theorem test_hpCreate_P3 : ends (exec (.hpCreate 6) (small 2))
    (fun t => t.hsize == 0 && t.hmax == 6 && t.status.toWord == 0x0400) = true := by decide +kernel

/-- P3: the symbol breaks the tie of weights. -/
theorem test_hpInsert_P3 : ends (exec (.hpInsert 3) (heaped p3Leaves [1, 0, 2] 6))
    (fun t => t.res == 0 && t.heapList == [3, 1, 2, 0]) = true := by decide +kernel

/-- P3, the variant: a full heap. -/
theorem test_hpInsert_full_P3 : ends (exec (.hpInsert 0) (heaped p3Leaves [5, 3, 4, 0, 1, 2] 6))
    (fun t => faultIs t 2 6 && t.heapList == [5, 3, 4, 0, 1, 2]) = true := by decide +kernel

theorem test_hpExtract_P3 : ends (exec .hpExtract (heaped p3Leaves [5, 3, 4, 0, 1, 2] 6))
    (fun t => t.res == 5 && t.heapList == [4, 3, 2, 0, 1]) = true := by decide +kernel

/-- H2: among equal keys the last handle stays at the root. -/
theorem test_hpExtract_H2 :
    ends (exec .hpExtract (heaped [leaf 0xFF 2, leaf 0xFF 2, leaf 0xFF 2, leaf 0xFF 2] [0, 1, 2, 3] 4))
      (fun t => t.res == 0 && t.heapList == [3, 1, 2]) = true := by decide +kernel

theorem test_hpFill_H5 :
    ends (exec .hpFill { small 2 with
        sft := table [(0x61, 5), (0x62, 2), (0x63, 1), (0x64, 1), (0x72, 2)], nsym := 5
        status := { Status.zero with sftValid := true } })
      (fun t => t.heapList == [2, 3, 1, 0, 4] && t.nalloc == 5 && t.hmax == 5 && t.root == 0x1FF &&
        nodeAt t.node 4 == ⟨0x72, 2, 0x1FF, 0x1FF⟩ && t.res == 0) = true := by decide +kernel

/-! ## Tree and codes (95 parts 2.3, 2.4) -/

theorem test_ndLeaf_P3 : ends (exec (.ndLeaf 0xFF) { heaped (p3Leaves.take 4) [] 0 with arg0 := 1 })
    (fun t => t.res == 4 && nodeAt t.node 4 == ⟨0xFF, 1, 0x1FF, 0x1FF⟩ && t.nalloc == 5) = true := by decide +kernel

/-- T6: the arena is full. -/
theorem test_ndLeaf_full_T6 : ends (exec (.ndLeaf 0) { small 2 with nalloc := 511 })
    (fun t => faultIs t 1 511) = true := by decide +kernel

theorem test_tbBuild_T1 : ends (exec .tbBuild (heaped h5Leaves [2, 3, 1, 0, 4] 5))
    (fun t => t.root == 8 && t.nalloc == 9 && t.hsize == 0 && t.hmax == 5 && t.res == 0 &&
      (List.range 9).all fun h => nodeAt t.node (BitVec.ofNat 9 h) == nodeAt (arenaOf t1Nodes) (BitVec.ofNat 9 h)) =
      true := by decide +kernel

/-- T7: the sum of two weights does not fit 64 bits. -/
theorem test_tbBuild_overflow_T7 : ends (exec .tbBuild (heaped [leaf 0 (2 ^ 63), leaf 1 (2 ^ 63)] [0, 1] 2))
    (fun t => faultIs t 11 1) = true := by decide +kernel

theorem test_tbFree_T8 : ends (exec .tbFree { rooted t1Nodes with hmax := 5 })
    (fun t => t.nalloc == 0 && t.root == 0x1FF && t.hmax == 0 && t.status.toWord == 0) = true := by decide +kernel

theorem test_cgRun_G1 : ends (exec .cgRun (rooted t1Nodes))
    (fun t => has t.ctPat [(0x61, 0), (0x62, 6), (0x63, 4), (0x64, 5), (0x72, 7), (0x05, 0)] &&
      has t.ctLen [(0x61, 1), (0x62, 3), (0x63, 3), (0x64, 3), (0x72, 3), (0x05, 0)] && t.status.ctValid &&
      t.status.single == false) = true := by decide +kernel

/-- G7: a symbol at two leaves. -/
theorem test_cgRun_duplicate_G7 : ends (exec .cgRun (rooted [leaf 0x41 1, leaf 0x41 2, (0xFF, 3, 0, 1)]))
    (fun t => faultIs t 14 0x41) = true := by decide +kernel

/-! ## Bits (95 part 2.5, P4) -/

theorem test_bwInit_P4 : ends (exec .bwInit { small 2 with wbuf := [0xAA, 0], wpos := 7, wtotal := 7 })
    (fun t => t.wbuf == [0, 0] && t.wpos == 0 && t.wtotal == 0 && t.status.toWord == 0x2000) = true := by
  decide +kernel

/-- W1, fourth row: the buffer fills and goes out. -/
theorem test_bwWrite_W1 :
    ends (exec (.bwWrite 9) { small 2 with
        wbuf := [0xAA, 0], wpos := 7, wtotal := 7, arg0 := 0x1AB, status := { Status.zero with bwValid := true } })
      (fun t => t.output == [0xAB, 0xAB] && t.wbuf == [0, 0] && t.wpos == 0 && t.wtotal == 16) = true := by
  decide +kernel

/-- W6: `OUT` takes one of the two bytes. -/
theorem test_bwWrite_refused_W6 :
    ends (exec (.bwWrite 16) { small 2 with
        arg0 := 0xABCD, outCap := 1, status := { Status.zero with bwValid := true } })
      (fun t => t.output == [0xAB] && faultIs t 5 1) = true := by decide +kernel

theorem test_bwFlush_W1 :
    ends (exec .bwFlush { small 2 with
        wbuf := [0x80, 0], wpos := 1, wtotal := 17, output := [0xAB, 0xAB]
        status := { Status.zero with bwValid := true } })
      (fun t => t.output == [0xAB, 0xAB, 0x80] && t.wbuf == [0, 0] && t.wpos == 0 && t.wtotal == 17) = true := by
  decide +kernel

theorem test_brInit_B1 : ends (exec .brInit { small 2 with arg0 := 3, rpos := 5, rfill := 1, rtotal := 9, inPos := 1 })
    (fun t => t.rlimit == 3 && t.rfill == 0 && t.rpos == 0 && t.rtotal == 0 && t.inPos == 1 &&
      t.status.toWord == 0x4000) = true := by decide +kernel

/-- B1, read 17: the refill takes the last byte the limit allows. -/
theorem test_brRead_B1 :
    ends (exec .brRead { small 2 with
        input := bytes [0xA5, 0x0F, 0x80, 0x77], inPos := 2, rbuf := [0xA5, 0x0F], rfill := 2, rpos := 16
        rtotal := 16, rlimit := 1, status := { Status.zero with brValid := true } })
      (fun t => t.res == 1 && t.rbuf.take 1 == [0x80] && t.rfill == 1 && t.rpos == 1 && t.rtotal == 17 &&
        t.rlimit == 0 && t.inPos == 3) = true := by decide +kernel

/-- B1, read 25: the sentinel changes nothing but `RES`. -/
theorem test_brRead_sentinel_B1 :
    ends (exec .brRead { small 2 with
        input := bytes [0xA5, 0x0F, 0x80, 0x77], inPos := 3, rbuf := [0x80, 0x0F], rfill := 1, rpos := 8
        rtotal := 24, rlimit := 0, status := { Status.zero with brValid := true } })
      (fun t => t.res == BitVec.allOnes 64 && t.rpos == 8 && t.rtotal == 24 && t.inPos == 3) = true := by
  decide +kernel

/-! ## Container (95 part 2.6) -/

theorem test_hdrWrite_C1 :
    ends (exec .hdrWrite { small 2 with
        sft := table [(0x62, 2), (0x61, 2)], nsym := 2, status := { Status.zero with sftValid := true } })
      (fun t => t.output == bytes [2, 0x61, 2, 0x62, 2]) = true := by decide +kernel

theorem test_hdrRead_P1 : ends (exec .hdrRead { small 2 with input := abbaFile, inPos := 9 })
    (fun t => has t.sft [(0x61, 2), (0x62, 2), (0x05, 0)] && t.nsym == 2 && t.totalBits == 4 && t.inPos == 5 &&
      t.status.toWord == 0x1200) = true := by decide +kernel

/-- C3, the reason 5 before 6. -/
theorem test_hdrRead_C3 : ends (exec .hdrRead { small 2 with input := bytes [0, 1, 0, 0, 0, 0, 0, 0, 0] })
    (fun t => faultIs t 6 5 && t.inPos == 0) = true := by decide +kernel

/-- P2: the bits of "abracadabra", the most significant bit of a byte first. -/
theorem test_encStream_P2 :
    ends (exec .encStream { small 4 with
        input := abra
        ctPat := table [(0x61, 0), (0x62, 6), (0x63, 4), (0x64, 5), (0x72, 7)]
        ctLen := table [(0x61, 1), (0x62, 3), (0x63, 3), (0x64, 3), (0x72, 3)]
        status := { Status.zero with ctValid := true, bwValid := true } })
      (fun t => t.wbuf == bytes [0x6E, 0x8A, 0xDC, 0] && t.wpos == 23 && t.wtotal == 23 && t.inPos == 11 &&
        t.output == []) = true := by decide +kernel

/-- C6: the byte without a code is not consumed. -/
theorem test_encStream_C6 :
    ends (exec .encStream { small 4 with
        input := bytes [0x61, 0x62, 0x63], ctPat := table [(0x62, 1)], ctLen := table [(0x61, 1), (0x62, 1)]
        status := { Status.zero with ctValid := true, bwValid := true } })
      (fun t => faultIs t 13 0x63 && t.inPos == 2 && t.output == []) = true := by decide +kernel

theorem test_trlWrite_W1 :
    ends (exec .trlWrite { small 2 with wtotal := 0x0211, status := { Status.zero with bwValid := true } })
      (fun t => t.output == bytes [0x11, 0x02, 0, 0, 0, 0, 0, 0]) = true := by decide +kernel

theorem test_decStream_P6 :
    ends (exec .decStream { rooted t1Nodes with
        bufBytes := 4, rbuf := [0, 0, 0, 0], obuf := [0, 0, 0, 0], wbuf := [0, 0, 0, 0]
        input := bytes [0x6E, 0x8A, 0xDC, 0x17], rlimit := 3, totalBits := 23
        status := { Status.zero with hdrValid := true, brValid := true } })
      (fun t => t.output == abra && t.rtotal == 23 && t.rpos == 23 && t.rfill == 3 && t.rlimit == 0 &&
        t.inPos == 3 && t.olen == 0) = true := by decide +kernel

/-- C5: the reader runs out. -/
theorem test_decStream_C5 :
    ends (exec .decStream { rooted t1Nodes with
        totalBits := 6, status := { Status.zero with hdrValid := true, brValid := true } })
      (fun t => faultIs t 8 1 && t.output == []) = true := by decide +kernel

theorem test_compress_F4 : ends (exec .compress { small 2 with input := bytes [0x61, 0x62, 0x62, 0x61] })
    (fun t => t.output == abbaFile && t.status.toWord == 0x2B00 && t.nsym == 2 && t.divisor == 1 && t.wtotal == 4 &&
      t.wpos == 0 && t.inPos == 4 && t.root == 0x1FF && t.nalloc == 0) = true := by decide +kernel

/-- C7: the second of the two bytes of a pair is refused. -/
theorem test_compress_C7 :
    ends (exec .compress { small 2 with input := bytes [0x61, 0x62, 0x62, 0x61], outCap := 3 })
      (fun t => t.output == bytes [2, 0x61, 2] && faultIs t 5 2) = true := by decide +kernel

theorem test_decompress_F4 : ends (exec .decompress { small 1 with input := abbaFile })
    (fun t => t.output == bytes [0x61, 0x62, 0x62, 0x61] && t.status.toWord == 0x5200 && t.rtotal == 4 &&
      t.totalBits == 4 && t.inPos == 6 && t.rfill == 1 && t.rpos == 4) = true := by decide +kernel

/-- C4: the count ends inside a code. -/
theorem test_decompress_C4 :
    ends (exec .decompress { small 8 with
        input := bytes [3, 0x61, 2, 0x62, 1, 0x63, 1, 0x2C, 5, 0, 0, 0, 0, 0, 0, 0] })
      (fun t => faultIs t 8 2 && t.output == []) = true := by decide +kernel

/-! ## Witnesses: states and operands that meet the hypotheses of each obligation, clause by clause -/

/-- A machine with a recorded fault. -/
def faulty : State := (small 2).faulted 10 0x22

/-- The next state of an outcome. -/
def nextOf (o : Host.Outcome State Fault Refusal) : State :=
  match o with
  | .next t => t
  | .fault _ => State.reset
  | .refused _ => State.reset

/-- A check that the arena holds a tree, and what it shows. -/
def holds (arena : Vector Node 511) : HTree → Handle → Bool
  | .leaf c, h => (nodeAt arena h).isLeaf && (nodeAt arena h).sym == c
  | .node l r, h =>
    !(nodeAt arena h).isLeaf && holds arena l (nodeAt arena h).l && holds arena r (nodeAt arena h).r

theorem at_of_holds (arena : Vector Node 511) (t : HTree) (h : Handle) (hb : holds arena t h = true) :
    HTree.At arena t h := by
  induction t generalizing h with
  | leaf c => simpa [holds, HTree.At] using hb
  | node l r ihl ihr =>
    simp only [holds, Bool.and_eq_true, Bool.not_eq_true'] at hb
    exact ⟨hb.1.1, ihl _ hb.1.2, ihr _ hb.2⟩

/-- A tree of depth n whose left children are leaves: leaf i, counted from the deepest, has the symbol `sym i`. -/
def comb (sym : Nat → Nat) : Nat → HTree
  | 0 => .leaf (BitVec.ofNat 8 (sym 0))
  | n + 1 => .node (.leaf (BitVec.ofNat 8 (sym (n + 1)))) (comb sym n)

/-- The entries of `comb sym n`: leaf i has handle i, the internal nodes follow, the root last. -/
def combNodes (sym : Nat → Nat) (n : Nat) : List (Nat × Nat × Nat × Nat) :=
  (List.range (n + 1)).map (fun i => leaf (sym i) 1) ++
    (List.range n).map fun k => (0xFF, k + 2, k + 1, if k = 0 then 0 else n + k)

/-- The tree of T1. -/
def t1Tree : HTree :=
  .node (.leaf 0x61) (.node (.node (.leaf 0x63) (.leaf 0x64)) (.node (.leaf 0x62) (.leaf 0x72)))

/-- A machine with valid writer, reader, tables, tree and heap, bits pending in the writer. -/
def busy : State :=
  { heaped (t1Nodes ++ [leaf 7 7]) [9] 2 with
    root := 8
    wbuf := [0xA0, 0], wpos := 3, wtotal := 3
    sft := table [(0x61, 5), (0x62, 2)], nsym := 2
    ft := table [(0x61, 5), (0x62, 2)]
    ctPat := table [(0x62, 1)], ctLen := table [(0x61, 1), (0x62, 1)]
    input := bytes [0x61, 0x62], totalBits := 5, rlimit := 2
    status := ⟨false, false, true, true, true, true, true, true, true⟩ }

theorem witness_DecodeOfEncode : (Instr.hpInsert 510).wellFormed = true ∧ (Instr.bwWrite 0).wellFormed = true := by
  decide

theorem witness_EncodeOfDecode :
    decode 0x0001FE21 = .ok (.hpInsert 510) ∧ decode 0x00000068 = .ok .compress := by decide

theorem witness_IllegalWords :
    (LegalWord 0x00000068 ∧ LegalWord 0x00010020 ∧ LegalWord 0x0001FE21 ∧ LegalWord 0x0000FF30 ∧
      LegalWord 0x00004051) ∧
    (¬ LegalWord 0x00010120 ∧ ¬ LegalWord 0x0001FF21 ∧ ¬ LegalWord 0x00010030 ∧ ¬ LegalWord 0x00004151 ∧
      ¬ LegalWord 0x00000110 ∧ ¬ LegalWord 0x00100000 ∧ (small 2).NoFault) :=
  ⟨⟨by decide, by decide, by decide, by decide, by decide⟩,
    ⟨by decide, by decide, by decide, by decide, by decide, by decide, rfl⟩⟩

theorem witness_CommandWrite :
    ({ small 2 with pending := [.regWrite 0x0000 0xF00000068] }).pending = .regWrite 0x0000 0xF00000068 :: [] ∧
      decode ((0xF00000068 : Word64).setWidth 32) = .ok .compress ∧
      decode ((0x2 : Word64).setWidth 32) = .error .unlistedOpcode := ⟨rfl, by decide, by decide⟩

theorem witness_FaultGate :
    faulty.status.fault = true ∧ (0x00000068 : Word32) ≠ 0x00000001 ∧
      ∃ t, perform .reset faulty = .next t ∧ t.NoFault := ⟨rfl, by decide, _, rfl, rfl⟩

theorem witness_PortWrite :
    (∀ n ∈ [0x0006, 0x0007, 0x000F, 0x0017, 0x001D, 0x00FF, 0x0600, 0x07FF, 0x09FF, 0x0BFF, 0xFFFF], UnmappedReg n) ∧
      ∀ n ∈ [0x0005, 0x0008, 0x000E, 0x0010, 0x0016, 0x0018, 0x001C, 0x0100, 0x05FF, 0x0800, 0x09FE, 0x0BFE],
        ¬ UnmappedReg n := ⟨by decide, by decide⟩

theorem witness_PortReadScalars : busy.NoFault := rfl

theorem witness_PortReadTables : busy.NoFault ∧ (510 : Handle).toNat ≤ 510 := by decide

theorem witness_PortReadFaulted : faulty.status.fault = true ∧ (510 : Handle).toNat ≤ 510 := by decide

theorem witness_ResetValues : (510 : Handle).toNat ≤ 510 ∧ (0 : Handle).toNat ≤ 510 := by decide

theorem witness_ClrResult : ∃ s' : State, s' ≠ busy ∧ s'.arg0 = busy.arg0 ∧ s'.inPos = busy.inPos ∧
    s'.outCap = busy.outCap ∧ s'.input = busy.input ∧ s'.output = busy.output ∧ s'.bufBytes = busy.bufBytes ∧
    s'.pending = busy.pending ∧ s'.portOut = busy.portOut ∧ s'.freeCount = busy.freeCount :=
  ⟨{ busy with nsym := 9 }, fun h => absurd (congrArg State.nsym h) (by decide), rfl, rfl, rfl, rfl, rfl, rfl, rfl, rfl,
    rfl⟩

theorem witness_FcRunResult : busy.NoFault ∧ busy.input.length < 2 ^ 64 := by decide

theorem witness_FqScaleResult :
    ((small 2).NoFault ∧ (small 2).status.ftValid = false) ∧
    (busy.NoFault ∧ busy.status.ftValid = true ∧ (∀ c, (symAt busy.ft c).toNat ≤ 5) ∧
      ∃ c, (symAt busy.ft c).toNat = 5) := by decide +kernel

/-- The largest count is 255: the clauses for small tables and for counts of 255 and more meet here. -/
theorem witness_ScaleProperties :
    let s := { busy with ft := table [(0x61, 255), (0x62, 2)] }
    s.NoFault ∧ s.status.ftValid = true ∧ (∃ t, exec .fqScale s = .next t) ∧ (∀ c, (symAt s.ft c).toNat ≤ 255) ∧
      255 ≤ (symAt s.ft 0x61).toNat ∧ (symAt s.ft 0x62).toNat ≤ (symAt s.ft 0x61).toNat :=
  ⟨rfl, rfl, ⟨_, rfl⟩, by decide +kernel, by decide +kernel, by decide +kernel⟩

theorem witness_HpCreateResult : busy.NoFault ∧ (256 : BitVec 12).toNat ≤ 256 ∧ (0 : BitVec 12).toNat ≤ 256 := by decide

theorem witness_HpInsertResult :
    let full := { heaped [] [] 0 with nalloc := 511, hsize := 256, hmax := 256 }
    let free := { heaped [] [] 0 with nalloc := 511, hsize := 255, hmax := 256 }
    (full.NoFault ∧ full.status.heapValid = true ∧ (510 : BitVec 12).toNat < full.nalloc.toNat ∧
      full.nalloc.toNat ≤ 511 ∧ full.hmax.toNat ≤ 256 ∧ full.hmax.toNat ≤ full.hsize.toNat) ∧
    (free.NoFault ∧ free.status.heapValid = true ∧ (510 : BitVec 12).toNat < free.nalloc.toNat ∧
      free.nalloc.toNat ≤ 511 ∧ free.hmax.toNat ≤ 256 ∧ free.hsize.toNat < free.hmax.toNat) := by decide

theorem witness_HpExtractResult :
    let empty := heaped [] [] 6
    let full := { heaped [] [] 0 with hsize := 256, hmax := 256 }
    (empty.NoFault ∧ empty.status.heapValid = true ∧ empty.hsize.toNat ≤ 256 ∧ empty.hsize = 0) ∧
    (full.NoFault ∧ full.status.heapValid = true ∧ full.hsize.toNat ≤ 256 ∧ full.hsize ≠ 0) := by decide

theorem witness_HeapOrderKept :
    let s := heaped p3Leaves [3, 1, 2, 0] 6
    (∃ t, exec (.hpInsert 4) s = .next t ∧ t.NoFault) ∧ (∃ t, exec .hpExtract s = .next t ∧ t.NoFault) ∧
      s.NoFault ∧ s.hmax.toNat ≤ 256 ∧ s.nalloc.toNat ≤ 511 ∧ s.hsize.toNat ≤ 256 ∧ s.HeapOrdered :=
  ⟨⟨_, rfl, by decide +kernel⟩, ⟨_, rfl, by decide +kernel⟩, rfl, by decide, by decide, by decide, by decide +kernel⟩

/-- No symbol, and all 256. -/
theorem witness_HpFillResult :
    let none := { busy with sft := Vector.replicate 256 0, nsym := 0 }
    let all := { busy with sft := Vector.replicate 256 1, nsym := 256 }
    (none.NoFault ∧ none.status.sftValid = true ∧ none.nsym.toNat = presentCount none.sft) ∧
    (all.NoFault ∧ all.status.sftValid = true ∧ all.nsym.toNat = presentCount all.sft) := by decide +kernel

theorem witness_NdLeafResult :
    let full := { small 2 with nalloc := 511 }
    let last := { small 2 with nalloc := 510 }
    (full.NoFault ∧ (255 : BitVec 12).toNat ≤ 255 ∧ full.nalloc.toNat ≤ 511 ∧ full.nalloc.toNat = 511) ∧
    (last.NoFault ∧ last.nalloc.toNat ≤ 511 ∧ last.nalloc.toNat < 511) := by decide

/-- What `TbBuildRound` asks of a state. -/
abbrev RoundReady (s : State) : Prop :=
  s.NoFault ∧ s.status.heapValid = true ∧ s.hsize.toNat ≤ s.hmax.toNat ∧ s.hmax.toNat ≤ 256 ∧ s.nalloc.toNat ≤ 511

theorem witness_TbBuildRound :
    let one := heaped [leaf 0x41 250] [0] 1
    let full := { heaped h5Leaves [2, 3, 1, 0, 4] 5 with nalloc := 511 }
    let big := heaped [leaf 0 (2 ^ 63), leaf 1 (2 ^ 63)] [0, 1] 2
    let fits := heaped [leaf 0 (2 ^ 63 - 1), leaf 1 (2 ^ 63)] [0, 1] 2
    (∀ s ∈ [one, full, big, fits], RoundReady s) ∧
      (∀ s : State, RoundReady s → ∃ s1 s2, exec .hpExtract s = .next s1 ∧ exec .hpExtract s1 = .next s2) ∧
      one.hsize.toNat = 1 ∧ (2 ≤ full.hsize.toNat ∧ full.nalloc.toNat = 511) ∧
      (big.nalloc.toNat < 511 ∧ 2 ^ 64 ≤ big.weight 0 + big.weight 1 ∧
        (nextOf (exec .hpExtract big)).res = 0 ∧
        (nextOf (exec .hpExtract (nextOf (exec .hpExtract big)))).res = 1) ∧
      (fits.nalloc.toNat < 511 ∧ fits.weight 0 + fits.weight 1 < 2 ^ 64 ∧
        (nextOf (exec .hpExtract fits)).res = 0 ∧
        (nextOf (exec .hpExtract (nextOf (exec .hpExtract fits)))).res = 1) := by
  refine ⟨by decide +kernel, fun s _ => ?_, by decide +kernel⟩
  have h : ∀ s : State, ∃ t, exec .hpExtract s = .next t := fun s => by
    show ∃ t, command runHpExtract s = .next t
    unfold command
    split <;> exact ⟨_, rfl⟩
  obtain ⟨s1, h1⟩ := h s
  obtain ⟨s2, h2⟩ := h s1
  exact ⟨s1, s2, h1, h2⟩

theorem witness_TbBuildResult :
    ∀ s ∈ [heaped h5Leaves [2, 3, 1, 0, 4] 5, heaped [leaf 0x41 250] [0] 1], s.NoFault ∧ s.status.heapValid = true ∧ 1 ≤ s.hsize.toNat ∧ s.hsize.toNat ≤ s.hmax.toNat ∧
      s.hmax.toNat ≤ 256 ∧ s.nalloc.toNat + s.hsize.toNat ≤ 512 ∧
      (∀ h ∈ s.heapList, h.toNat < s.nalloc.toNat ∧ (nodeAt s.node h).isLeaf = true) ∧
      (s.heapList.map s.weight).sum < 2 ^ 64 := by
  intro s hs
  rw [List.mem_pair] at hs
  rcases hs with rfl | rfl <;>
    exact ⟨rfl, rfl, by decide, by decide, by decide, by decide, by decide +kernel, by decide +kernel⟩

theorem witness_DepthBound :
    let one := { busy with sft := table [(0x41, 250)], nsym := 1 }
    let all := { busy with sft := Vector.replicate 256 1, nsym := 256 }
    ∀ s ∈ [one, all], s.NoFault ∧ s.status.sftValid = true ∧ s.nsym.toNat = presentCount s.sft ∧
      1 ≤ s.nsym.toNat := by decide +kernel

theorem witness_TbFreeResult : busy.NoFault ∧ (rooted t1Nodes).NoFault := ⟨rfl, rfl⟩

theorem witness_BwInitResult : busy.NoFault ∧ busy.wpos ≠ 0 := by decide

theorem witness_BrInitResult : { busy with arg0 := BitVec.allOnes 64, inPos := 1 }.NoFault := rfl

theorem witness_CgRunLeaf :
    let s := rooted [leaf 0x41 250]
    s.NoFault ∧ s.root ≠ 0x1FF ∧ (nodeAt s.node s.root).isLeaf = true := by decide +kernel

theorem witness_CgRunTree :
    let s := rooted t1Nodes
    s.NoFault ∧ s.root ≠ 0x1FF ∧ (nodeAt s.node s.root).isLeaf = false ∧ HTree.At s.node t1Tree s.root ∧
      t1Tree.depth ≤ 64 ∧ (t1Tree.codes.map Prod.fst).Nodup :=
  ⟨rfl, by decide, by decide +kernel, at_of_holds _ _ _ (by decide +kernel), by decide, by decide⟩

/-- A tree of depth 64, the deepest that has codes. -/
theorem witness_CgRunTree_64 :
    let s := rooted (combNodes id 64)
    s.NoFault ∧ s.root ≠ 0x1FF ∧ (nodeAt s.node s.root).isLeaf = false ∧ HTree.At s.node (comb id 64) s.root ∧
      (comb id 64).depth ≤ 64 ∧ ((comb id 64).codes.map Prod.fst).Nodup :=
  ⟨rfl, by decide +kernel, by decide +kernel, at_of_holds _ _ _ (by decide +kernel), by decide +kernel,
    by decide +kernel⟩

theorem witness_CodeTableProperties :
    (let s := rooted [leaf 0x41 250]
     ∃ t, s.NoFault ∧ exec .cgRun s = .next t ∧ t.NoFault ∧ (nodeAt s.node s.root).isLeaf = true) ∧
    (let s := rooted t1Nodes
     ∃ t, s.NoFault ∧ exec .cgRun s = .next t ∧ t.NoFault ∧ (nodeAt s.node s.root).isLeaf = false) :=
  ⟨⟨_, rfl, rfl, by decide +kernel, by decide +kernel⟩, ⟨_, rfl, rfl, by decide +kernel, by decide +kernel⟩⟩

/-- What `CgRunFaults` asks of a state and a tree, but that the walk must stop. -/
abbrev WalkReady (s : State) (tree : HTree) : Prop :=
  s.NoFault ∧ s.root ≠ 0x1FF ∧ (nodeAt s.node s.root).isLeaf = false ∧ HTree.At s.node tree s.root

/-- A repeated symbol; a tree too deep; both, with the deep node visited first, and with the repeated symbol
visited first. -/
theorem witness_CgRunFaults :
    (let tree := HTree.node (.leaf 0x41) (.leaf 0x41)
     WalkReady (rooted [leaf 0x41 1, leaf 0x41 2, (0xFF, 3, 0, 1)]) tree ∧
       tree.depth ≤ 64 ∧ ¬ (tree.codes.map Prod.fst).Nodup) ∧
    (WalkReady (rooted (combNodes id 65)) (comb id 65) ∧
      64 < (comb id 65).depth ∧ ((comb id 65).codes.map Prod.fst).Nodup) ∧
    (let tree := comb (· % 65) 65
     WalkReady (rooted (combNodes (· % 65) 65)) tree ∧
       64 < tree.depth ∧ ¬ (tree.codes.map Prod.fst).Nodup) ∧
    (let tree := comb (· / 2) 65
     WalkReady (rooted (combNodes (· / 2) 65)) tree ∧
       64 < tree.depth ∧ ¬ (tree.codes.map Prod.fst).Nodup) :=
  ⟨⟨⟨rfl, by decide +kernel, by decide +kernel, at_of_holds _ _ _ (by decide +kernel)⟩, by decide, by decide⟩,
    ⟨⟨rfl, by decide +kernel, by decide +kernel, at_of_holds _ _ _ (by decide +kernel)⟩, by decide +kernel,
      by decide +kernel⟩,
    ⟨⟨rfl, by decide +kernel, by decide +kernel, at_of_holds _ _ _ (by decide +kernel)⟩, by decide +kernel,
      by decide +kernel⟩,
    ⟨⟨rfl, by decide +kernel, by decide +kernel, at_of_holds _ _ _ (by decide +kernel)⟩, by decide +kernel,
      by decide +kernel⟩⟩

/-- The pending bits and the new ones fill the buffer of two bytes exactly; the new bits are none; they are 64. The
counter reaches its limit at the first bit, and just when the buffer is full. -/
theorem witness_BwWriteResult :
    (busy.NoFault ∧ busy.status.bwValid = true ∧ busy.WriterOk ∧ ∀ a ∈ ([13, 0, 64] : List (BitVec 12)),
      a.toNat ≤ 64 ∧ busy.wtotal.toNat + a.toNat ≤ 2 ^ 64 - 1 ∧
      busy.output.length + (busy.wpos.toNat + a.toNat) / 16 * busy.bufBytes.toNat ≤ busy.outCap.toNat) ∧
    (let s := { busy with wtotal := BitVec.ofNat 64 (2 ^ 64 - 1) }
     s.NoFault ∧ s.status.bwValid = true ∧ s.WriterOk ∧ 2 ^ 64 - 1 < s.wtotal.toNat + (1 : BitVec 12).toNat ∧
       (s.wpos.toNat + (2 ^ 64 - 1 - s.wtotal.toNat)) / (8 * s.bufBytes.toNat) = 0) ∧
    (let s := { busy with wtotal := BitVec.ofNat 64 (2 ^ 64 - 14), outCap := 2 }
     s.NoFault ∧ s.status.bwValid = true ∧ s.WriterOk ∧ 2 ^ 64 - 1 < s.wtotal.toNat + (14 : BitVec 12).toNat ∧
       (s.wpos.toNat + (2 ^ 64 - 1 - s.wtotal.toNat)) / (8 * s.bufBytes.toNat) = 1 ∧
       s.output.length + 1 * s.bufBytes.toNat ≤ s.outCap.toNat) := by
  decide +kernel

/-- Nothing pending, and a full buffer. -/
theorem witness_BwFlushResult :
    let idle := { busy with wbuf := [0, 0], wpos := 0, outCap := 0 }
    let full := { busy with wbuf := [0xAB, 0xCD], wpos := 16, outCap := 2 }
    ∀ s ∈ [idle, full], s.NoFault ∧ s.status.bwValid = true ∧ s.WriterClean ∧ s.wbuf.length = s.bufBytes.toNat ∧
      s.wpos.toNat ≤ 8 * s.bufBytes.toNat ∧
      (s.wpos ≠ 0 → s.output.length + (s.wpos.toNat + 7) / 8 ≤ s.outCap.toNat) := by decide +kernel

theorem witness_WriterGuarantee :
    let s := { busy with outCap := 9 }
    let ws : List (Word64 × BitVec 12) := [(1, 1), (0x8000000000000001, 64), (7, 0)]
    s.NoFault ∧ s.bufBytes ≠ 0 ∧ (∀ w ∈ ws, w.2.toNat ≤ 64) ∧
      (ws.flatMap fun w => codeBits w.1 w.2.toNat).length ≤ 2 ^ 64 - 1 ∧
      s.output.length + ((ws.flatMap fun w => codeBits w.1 w.2.toNat).length + 7) / 8 ≤ s.outCap.toNat := by
  refine ⟨rfl, by decide, ?_, ?_, ?_⟩
  · exact List.forall_mem_cons.2 ⟨by decide, List.forall_mem_cons.2 ⟨by decide, List.forall_mem_cons.2 ⟨by decide,
      List.forall_mem_nil _⟩⟩⟩
  · simp [codeBits]
  · show 0 + ((List.length _) + 7) / 8 ≤ 9
    simp [codeBits]

/-- Nothing left; a bit in the buffer; a bit that a refill brings; each of these two with the counter at its
limit. -/
theorem witness_BrReadResult :
    let ready := fun s : State => s.NoFault ∧ s.status.brValid = true ∧ s.ReaderOk
    let held := { busy with rbuf := [0xA5, 0], rfill := 1, rpos := 7, rtotal := 7, rlimit := 0 }
    let top := BitVec.ofNat 64 (2 ^ 64 - 1)
    (ready { busy with rlimit := 0 } ∧ { busy with rlimit := 0 }.readerBits = []) ∧
    (ready held ∧ held.readerBits = true :: [] ∧ held.rtotal.toNat < 2 ^ 64 - 1 ∧
      held.rpos.toNat ≠ 8 * held.rfill.toNat) ∧
    (ready busy ∧ busy.readerBits = false :: (streamBits busy.input).tail ∧ busy.rtotal.toNat < 2 ^ 64 - 1 ∧
      busy.rpos.toNat = 8 * busy.rfill.toNat) ∧
    (ready { held with rtotal := top } ∧ { held with rtotal := top }.readerBits ≠ [] ∧ top.toNat = 2 ^ 64 - 1) ∧
    (ready { busy with rtotal := top } ∧ { busy with rtotal := top }.readerBits ≠ []) := by
  decide +kernel

/-- The last bit, and the first one beyond it. -/
theorem witness_ReaderGuarantee :
    let s := { busy with arg0 := 2 }
    s.NoFault ∧ s.bufBytes ≠ 0 ∧ s.rbuf.length = s.bufBytes.toNat ∧ s.input.length < 2 ^ 64 ∧
      (streamBits ((s.input.drop s.inPos.toNat).take s.arg0.toNat)).length = 16 ∧ 15 + 1 < 2 ^ 64 ∧
      16 + 1 < 2 ^ 64 := by decide +kernel

/-- Too many symbols; room for all; no room for the count byte, for a pair, for the second byte of a pair. -/
theorem witness_HdrWriteResult :
    let many := { busy with sft := Vector.replicate 256 1, nsym := 256 }
    let most := { busy with sft := table ((List.range 255).map fun c => (c, 1)), nsym := 255, outCap := 511 }
    (many.NoFault ∧ many.status.sftValid = true ∧ 255 < many.nsym.toNat) ∧
    (most.NoFault ∧ most.status.sftValid = true ∧ most.nsym.toNat ≤ 255 ∧
      most.output.length + (1 + 2 * (presentSymbols most.sft).length) ≤ most.outCap.toNat) ∧
    ∀ k ∈ [0, 1, 509, 510], (let s := { most with outCap := BitVec.ofNat 64 k }
      s.NoFault ∧ s.status.sftValid = true ∧ s.nsym.toNat ≤ 255 ∧
        s.outCap.toNat < s.output.length + (1 + 2 * (presentSymbols s.sft).length)) := by decide +kernel

theorem witness_HdrReadResult :
    let s := { small 2 with input := abbaFile }
    let none := { small 2 with input := List.replicate 9 0 }
    (s.NoFault ∧ ContainerOk s.input) ∧ (none.NoFault ∧ ContainerOk none.input) := by decide +kernel

/-- The vectors C3: one file per reason, those of reasons 1, 2, 5 at the edge. -/
theorem witness_HdrReadRejects :
    (small 2).NoFault ∧
    (let f := bytes [0, 0, 0, 0, 0, 0, 0, 0]
     f ≠ [] ∧ f.length < 1 + 2 * countField f + 8) ∧
    (let f := bytes [2, 0x61, 0, 0x62, 2, 0x60, 4, 0, 0, 0, 0, 0, 0, 0]
     1 + 2 * countField f + 8 ≤ f.length ∧ 0 < countField f ∧ PairsOk f 0 ∧ pairFreq f 0 = 0) ∧
    (let f := bytes [2, 0x61, 2, 0x61, 2, 0x60, 4, 0, 0, 0, 0, 0, 0, 0]
     1 + 2 * countField f + 8 ≤ f.length ∧ 1 < countField f ∧ PairsOk f 1 ∧ pairFreq f 1 ≠ 0 ∧
       pairSym f 0 = pairSym f 1) ∧
    (let f := bytes [2, 0x61, 2, 0x62, 2, 0x60, 9, 0, 0, 0, 0, 0, 0, 0]
     1 + 2 * countField f + 8 ≤ f.length ∧ PairsOk f (countField f) ∧
       f.length - 9 - 2 * countField f < (trailerField f + 7) / 8) ∧
    (let f := bytes [0, 0xAA, 1, 0, 0, 0, 0, 0, 0, 0]
     1 + 2 * countField f + 8 ≤ f.length ∧ PairsOk f (countField f) ∧
       (trailerField f + 7) / 8 ≤ f.length - 9 - 2 * countField f ∧ countField f = 0 ∧ trailerField f ≠ 0) := by
  decide +kernel

/-- The actions of `HeaderRoundTrip` for one bit string. -/
def headerActions (ws : List (Word64 × BitVec 12)) : List HostAction :=
  listCommand .hdrWrite :: listCommand .bwInit ::
    (ws.flatMap (fun w => [listSetArg0 w.1, listCommand (.bwWrite w.2)]) ++
      [listCommand .bwFlush, listCommand .trlWrite])

theorem witness_HeaderRoundTrip :
    let ws : List (Word64 × BitVec 12) := [(0b0110, 4)]
    busy.NoFault ∧ busy.bufBytes ≠ 0 ∧ busy.status.sftValid = true ∧ busy.output = [] ∧
      busy.nsym.toNat = presentCount busy.sft ∧ (∀ w ∈ ws, w.2.toNat ≤ 64) ∧ (busy.nsym = 0 → ∀ w ∈ ws, w.2 = 0) ∧
      ends (performAll (headerActions ws) busy) (fun t => !t.status.fault) = true ∧
      ({ small 2 with input := (nextOf (performAll (headerActions ws) busy)).output }).NoFault :=
  ⟨rfl, by decide, rfl, rfl, by decide +kernel,
    List.forall_mem_cons.2 ⟨by decide, List.forall_mem_nil _⟩, fun h => absurd h (by decide), by decide +kernel,
    by decide +kernel⟩

/-- All of `IN`; a byte without a code after one that has one. -/
theorem witness_EncStreamResult :
    let ready := fun (s : State) (msg : List Byte) =>
      s.NoFault ∧ s.status.ctValid = true ∧ s.status.bwValid = true ∧ s.WriterOk ∧ s.input.length < 2 ^ 64 ∧
      (∀ c ∈ msg, symAt s.ctLen c ≠ 0) ∧ s.wtotal.toNat + (msg.flatMap s.codeOf).length ≤ 2 ^ 64 - 1 ∧
      ((s.wpos.toNat + (msg.flatMap s.codeOf).length) / 16 ≠ 0 →
        s.output.length + (s.wpos.toNat + (msg.flatMap s.codeOf).length) / 16 * 2 ≤ s.outCap.toNat)
    (ready busy [0x61, 0x62] ∧ busy.input.drop busy.inPos.toNat = [0x61, 0x62]) ∧
    (ready { busy with input := [0x62, 0x63, 0x61] } [0x62] ∧ symAt busy.ctLen 0x63 = 0) := by decide +kernel

theorem witness_TrlWriteResult :
    let s := { busy with outCap := 8 }
    s.NoFault ∧ s.status.bwValid = true ∧ s.output.length + 8 ≤ s.outCap.toNat := by decide

/-- What the decoding statements ask of a state. -/
abbrev DecodeReady (s : State) : Prop :=
  s.NoFault ∧ s.status.hdrValid = true ∧ s.status.brValid = true ∧ s.ReaderOk ∧ s.obuf.length = s.bufBytes.toNat

theorem witness_DecStreamResult :
    (let s := { busy with totalBits := 5, rtotal := 5 }
     DecodeReady s ∧ s.totalBits.toNat ≤ s.rtotal.toNat ∧ s.root ≠ 0x1FF) ∧
    (let s := { busy with root := 9, outCap := 16, totalBits := 16 }
     DecodeReady s ∧ s.root ≠ 0x1FF ∧ HTree.At s.node (.leaf 7) s.root ∧ s.totalBits.toNat = s.rtotal.toNat + 16 ∧
       16 ≤ s.readerBits.length ∧ s.output.length + 16 ≤ s.outCap.toNat) ∧
    (let s := { busy with totalBits := 16, outCap := 6, input := [0x6E, 0x8A] }
     DecodeReady s ∧ s.root ≠ 0x1FF ∧ HTree.At s.node t1Tree s.root ∧
       t1Tree.encode [0x61, 0x62, 0x72, 0x61, 0x63, 0x61] =
         some [false, true, true, false, true, true, true, false, true, false, false, false] ∧
       [false, true, true, false, true, true, true, false, true, false, false, false] <+: s.readerBits) :=
  ⟨by decide +kernel,
    ⟨by decide +kernel, by decide, at_of_holds _ _ _ (by decide +kernel), by decide, by decide +kernel, by decide⟩,
    ⟨by decide +kernel, by decide, at_of_holds _ _ _ (by decide +kernel), by decide, by decide +kernel⟩⟩

theorem witness_DecStreamResult_total :
    ({ busy with totalBits := 12 }).totalBits.toNat = busy.rtotal.toNat + 12 ∧
      busy.output.length + 6 ≤ busy.outCap.toNat := by decide

theorem witness_DecStreamFaults :
    (let s := { busy with totalBits := 17 }
     DecodeReady s ∧ s.root ≠ 0x1FF ∧ HTree.At s.node t1Tree s.root ∧
       s.output.length + s.readerBits.length ≤ s.outCap.toNat ∧
       s.rtotal.toNat + s.readerBits.length < s.totalBits.toNat) ∧
    (let s := { busy with totalBits := 3, input := [0x6E, 0x8A] }
     DecodeReady s ∧ s.root ≠ 0x1FF ∧ HTree.At s.node t1Tree s.root ∧
       s.output.length + s.readerBits.length ≤ s.outCap.toNat ∧ t1Tree.encode [0x61] = some [false] ∧
       (0x62, [true, true, false]) ∈ t1Tree.codes ∧ [true, true] <+: [true, true, false] ∧
       ([false] ++ [true, true]) <+: s.readerBits ∧
       s.totalBits.toNat = s.rtotal.toNat + ([false] ++ [true, true]).length) :=
  ⟨⟨by decide +kernel, by decide, at_of_holds _ _ _ (by decide +kernel), by decide +kernel, by decide +kernel⟩,
    ⟨by decide +kernel, by decide, at_of_holds _ _ _ (by decide +kernel), by decide +kernel, by decide, by decide,
      by decide, by decide +kernel, by decide⟩⟩

theorem witness_CompressResult :
    let s := { busy with outCap := 525 }
    s.NoFault ∧ s.bufBytes ≠ 0 ∧ (0x00 : Byte) ∉ s.input ∧ 22 * s.input.length < 2 ^ 64 ∧
      s.output.length + (519 + 3 * s.input.length) ≤ s.outCap.toNat := by decide +kernel

theorem witness_CompositeSteps :
    (let u := nextOf (execAll [.fcRun, .fqScale] { busy with inPos := 0 })
     busy.NoFault ∧ (∃ u, execAll [.fcRun, .fqScale] { busy with inPos := 0 } = .next u) ∧ 1 ≤ u.nsym.toNat ∧
       u.nsym.toNat ≤ 255) ∧
    (∃ u, execAll [.hdrRead] { small 2 with input := abbaFile } = .next u) :=
  ⟨⟨rfl, ⟨_, rfl⟩, by decide +kernel, by decide +kernel⟩, ⟨_, rfl⟩⟩

theorem witness_RoundTrip :
    (let s := { busy with input := allSymbols }
     s.NoFault ∧ s.bufBytes ≠ 0 ∧ s.output = [] ∧ (∀ c, c ∈ s.input) ∧ s.input.length < 2 ^ 64) ∧
    (let s := { busy with outCap := 525 }
     let u := { small 1 with input := (nextOf (exec .compress s)).output, outCap := 2 }
     s.NoFault ∧ s.bufBytes ≠ 0 ∧ s.output = [] ∧ (0x00 : Byte) ∉ s.input ∧ 22 * s.input.length < 2 ^ 64 ∧
       519 + 3 * s.input.length ≤ s.outCap.toNat ∧ u.NoFault ∧ u.bufBytes ≠ 0 ∧
       u.rbuf.length = u.bufBytes.toNat ∧ u.obuf.length = u.bufBytes.toNat ∧ u.output = [] ∧
       s.input.length ≤ u.outCap.toNat) :=
  ⟨⟨rfl, by decide, rfl, mem_allSymbols, by decide +kernel⟩, by decide +kernel⟩

theorem witness_SmallContainers :
    (let s := { small 2 with outCap := 9 }
     s.NoFault ∧ s.bufBytes ≠ 0 ∧ s.input = [] ∧ s.output.length + 9 ≤ s.outCap.toNat) ∧
    (let s := { small 2 with input := bytes [0, 0xAA, 0, 0, 0, 0, 0, 0, 0, 0] }
     s.NoFault ∧ s.bufBytes ≠ 0 ∧ ContainerOk s.input ∧ s.input.length < 2 ^ 64 ∧ s.rbuf.length = s.bufBytes.toNat ∧
       s.obuf.length = s.bufBytes.toNat ∧ countField s.input = 0) ∧
    (let s := { small 2 with input := bytes [1, 0x41, 0xFA, 0xFF, 3, 0, 0, 0, 0, 0, 0, 0], outCap := 3 }
     s.NoFault ∧ s.bufBytes ≠ 0 ∧ ContainerOk s.input ∧ s.input.length < 2 ^ 64 ∧ s.rbuf.length = s.bufBytes.toNat ∧
       s.obuf.length = s.bufBytes.toNat ∧ countField s.input = 1 ∧
       s.output.length + trailerField s.input ≤ s.outCap.toNat) := by decide +kernel

theorem witness_Alphabet256Rejected :
    let s := { small 2 with input := allSymbols }
    s.NoFault ∧ s.input.length < 2 ^ 64 ∧ ∀ c, c ∈ s.input := ⟨rfl, by decide +kernel, mem_allSymbols⟩

theorem witness_invariants_busy : busy.Bounds ∧ busy.ArenaOk ∧ busy.Settled :=
  ⟨by decide +kernel, by decide +kernel, by decide +kernel⟩

theorem witness_BoundsKept :
    let s := { busy with pending := [listCommand .tbBuild] }
    s.Bounds ∧ s.Settled ∧ ∃ t, step s = .next t :=
  ⟨witness_invariants_busy.1, witness_invariants_busy.2.2, _, rfl⟩

theorem witness_ArenaKept :
    let s := { busy with pending := [listCommand (.hpInsert 4)] }
    s.Bounds ∧ s.ArenaOk ∧ s.Settled ∧ ∃ t, step s = .next t :=
  ⟨witness_invariants_busy.1, witness_invariants_busy.2.1, witness_invariants_busy.2.2, _, rfl⟩

theorem witness_SettledKept :
    let s := { busy with pending := [listCommand .encStream] }
    s.Bounds ∧ s.Settled ∧ ∃ t, step s = .next t := ⟨witness_invariants_busy.1, witness_invariants_busy.2.2, _, rfl⟩

theorem witness_FaultMatrix :
    (Instr.hpInsert 4).wellFormed = true ∧ busy.NoFault ∧ (busy.Bounds ∧ busy.ArenaOk ∧ busy.Settled) ∧
      ∃ t, exec (.hpInsert 4) busy = .next t := ⟨by decide, rfl, witness_invariants_busy, _, rfl⟩

theorem witness_Preconditions :
    (Instr.hpInsert 10).wellFormed = true ∧ busy.NoFault ∧ busy.err = 0 ∧ ¬ busy.Precondition (.hpInsert 10) ∧
      busy.Precondition (.hpInsert 9) ∧ ∃ t, exec (.hpInsert 9) busy = .next t :=
  ⟨by decide, rfl, rfl, by decide +kernel, by decide +kernel, _, rfl⟩

/-- A command that raises nothing, one that runs, and one turned away by a recorded fault. -/
theorem witness_WriteLists :
    (∃ t, exec .bwInit busy = .next t) ∧ Instr.bwInit.wellFormed = true ∧ mayRaise .bwInit = [] ∧ busy.NoFault ∧
    (∃ t, exec .cgRun busy = .next t) ∧
    ∃ t, exec .cgRun faulty = .next t ∧ Instr.cgRun.mnemonic ≠ "CLR" ∧ faulty.status.fault = true :=
  ⟨⟨_, rfl⟩, by decide, rfl, rfl, ⟨_, rfl⟩, _, rfl, by decide, rfl⟩

theorem witness_OutAppendResult :
    let s := { busy with outCap := 2 }
    s.NoFault ∧ (bytes [1, 2]).length ≤ s.outCap.toNat - s.output.length ∧
      s.outCap.toNat - s.output.length < (bytes [1, 2, 3]).length := by decide

theorem witness_BufferSizeHidden :
    let s := { busy with rbuf := [0, 0] }
    let s' := { s with bufBytes := 1, wbuf := [9], rbuf := [9], obuf := [9] }
    let d := { s with input := abbaFile }
    let d' := { d with bufBytes := 1, wbuf := [9], rbuf := [9], obuf := [9] }
    (s.NoFault ∧ s.bufBytes ≠ 0 ∧ s'.bufBytes ≠ 0 ∧ s.input.length < 2 ^ 64 ∧
      (∃ t, exec .compress s = .next t) ∧ (∃ t, exec .compress s' = .next t) ∧
      (nextOf (exec .compress s)).NoFault ∧ (nextOf (exec .compress s')).NoFault) ∧
    (d.NoFault ∧ d.input.length < 2 ^ 64 ∧ d.rbuf.length = d.bufBytes.toNat ∧ d.obuf.length = d.bufBytes.toNat ∧
      d'.rbuf.length = d'.bufBytes.toNat ∧ d'.obuf.length = d'.bufBytes.toNat ∧
      (∃ t, exec .decompress d = .next t) ∧ (∃ t, exec .decompress d' = .next t) ∧
      (nextOf (exec .decompress d)).NoFault ∧ (nextOf (exec .decompress d')).NoFault) :=
  ⟨⟨rfl, by decide, by decide, by decide, ⟨_, rfl⟩, ⟨_, rfl⟩, by decide +kernel, by decide +kernel⟩,
    ⟨rfl, by decide, by decide, by decide, by decide, by decide, ⟨_, rfl⟩, ⟨_, rfl⟩, by decide +kernel,
      by decide +kernel⟩⟩

theorem witness_StepAnswers :
    (small 2).pending = [] ∧ ¬ (small 2).Stops ∧
      (let s := { small 2 with pending := [.replaceIn (List.replicate (2 ^ 64) 0)] }
       s.Stops) ∧
      (let s := { small 2 with pending := [.replaceIn abbaFile, .discardOut] }
       s.pending = .replaceIn abbaFile :: [.discardOut] ∧ abbaFile.length < 2 ^ 64) ∧
      (let s := { small 2 with pending := [.discardOut] }
       s.pending = .discardOut :: []) := by
  refine ⟨rfl, ?_, ?_, ⟨rfl, by decide⟩, rfl⟩
  · rintro ⟨b, r, h, -⟩
    exact absurd h (by simp [small, State.reset])
  · exact ⟨_, _, rfl, by rw [List.length_replicate]⟩

end Sys2Proof.Tests
end

section
/-! The path `HP_FILL`, `TB_BUILD` (00 R9): what each of the two leaves, and how much its nodes weigh. -/

namespace Sys2Proof.Machine

/-! ## `HP_FILL` (41 R150) -/

/-- The state in which `HP_FILL` begins its leaf loop: the old tree released, the heap empty, its capacity `NSYM`. -/
def State.fillStart (s : State) : State :=
  { s with
    node := freeArena s.freeCount, nalloc := 0, root := Config.null
    heap := freeTable 9 (s.freeCount + 1) 0, hsize := 0, hmax := s.nsym
    status := { s.status with heapValid := true }, freeCount := s.freeCount + 2 }

theorem State.fillStart_heapOrdered (s : State) : s.fillStart.HeapOrdered := fun _ hi => absurd hi (Nat.not_lt_zero _)

theorem runHpFill_eq {s : State} (hv : s.status.sftValid = true) :
    runHpFill s = fillLeaves allSymbols s.fillStart := by
  simp only [runHpFill, hv, require_true, Run.bind_ok]
  rfl

/-- What `HP_FILL` leaves in `t` when it starts from `s`: one leaf per present symbol, all of them in an ordered heap
that is then full. -/
structure Filled (s t : State) : Prop where
  frame : t = { s with
    node := t.node, nalloc := t.nalloc, root := Config.null, heap := t.heap, hsize := s.nsym, hmax := s.nsym
    status := { s.status with heapValid := true }, freeCount := s.freeCount + 2 }
  nalloc : t.nalloc.toNat = s.nsym.toNat
  leaves : ∀ k (hk : k < (presentSymbols s.sft).length),
    nodeAt t.node (BitVec.ofNat 9 k) = leafNode s.sft (presentSymbols s.sft)[k]
  handles : t.heapList.Perm ((List.range s.nsym.toNat).map (BitVec.ofNat 9))
  ordered : t.HeapOrdered

/-- With a valid scaled table and `NSYM` its count, `HP_FILL` completes. -/
theorem runHpFill_filled {s : State} (hv : s.status.sftValid = true) (hn : s.nsym.toNat = presentCount s.sft) :
    ∃ t, runHpFill s = .ok () t ∧ Filled s t := by
  have hlen : (allSymbols.filter fun c => symAt s.fillStart.sft c != 0).length = s.nsym.toNat :=
    (hn.trans (presentCount_eq s.sft)).symm
  have h256 : s.nsym.toNat ≤ 256 := hn ▸ presentCount_le s.sft
  have hempty : s.fillStart.heapList = [] := rfl
  have hna0 : s.fillStart.nalloc.toNat = 0 := rfl
  have hsz0 : s.fillStart.hsize.toNat = 0 := rfl
  obtain ⟨t, ht, hframe, hna, hsz, -, hleaf, hperm, hord⟩ := fillLeaves_spec allSymbols s.fillStart
    (by omega) (by rw [hlen, hsz0, Nat.zero_add]; exact le_rfl) h256 (by simp [hempty])
  have hsize : t.hsize = s.nsym := BitVec.eq_of_toNat_eq (by omega)
  simp only [hempty, hna0, hlen, Nat.zero_add, List.nil_append] at hleaf hperm
  refine ⟨t, (runHpFill_eq hv).trans ht, ?_, by omega, fun k hk => hleaf k ?_, hperm, hord s.fillStart_heapOrdered⟩
  · rw [hframe, hsize]; rfl
  · rwa [← presentCount_byte, ← hn] at hk

section Filled

variable {s t : State} (f : Filled s t)
include f

theorem Filled.status : t.status = { s.status with heapValid := true } := by rw [f.frame]
theorem Filled.hsize : t.hsize = s.nsym := by rw [f.frame]
theorem Filled.hmax : t.hmax = s.nsym := by rw [f.frame]

theorem Filled.length_heapList : t.heapList.length = s.nsym.toNat := by
  rw [f.handles.length_eq, List.length_map, List.length_range]

variable (hn : s.nsym.toNat = presentCount s.sft)
include hn

/-- The heap holds the allocated handles and no others. -/
theorem Filled.mem_heapList {h : Handle} : h ∈ t.heapList ↔ h.toNat < t.nalloc.toNat := by
  have h256 : s.nsym.toNat ≤ 256 := hn ▸ presentCount_le s.sft
  rw [f.handles.mem_iff, f.nalloc, List.mem_map]
  constructor
  · rintro ⟨k, hk, rfl⟩
    have := List.mem_range.1 hk
    rw [BitVec.toNat_ofNat]
    omega
  · exact fun hlt => ⟨h.toNat, List.mem_range.2 hlt, by simp⟩

/-- Every allocated node is the leaf of a present symbol. -/
theorem Filled.leaf {h : Handle} (hh : h.toNat < t.nalloc.toNat) :
    ∃ c, symAt s.sft c ≠ 0 ∧ nodeAt t.node h = leafNode s.sft c := by
  have hk : h.toNat < (presentSymbols s.sft).length := by
    rwa [f.nalloc, hn, presentCount_byte] at hh
  have hleaf := f.leaves h.toNat hk
  rw [BitVec.ofNat_toNat, BitVec.setWidth_eq] at hleaf
  exact ⟨_, mem_presentSymbols.1 (List.getElem_mem hk), hleaf⟩

theorem Filled.isLeaf {h : Handle} (hh : h.toNat < t.nalloc.toNat) : (nodeAt t.node h).isLeaf = true := by
  obtain ⟨c, -, hc⟩ := f.leaf hn hh
  rw [hc]; rfl

/-- A leaf's weight is a scaled frequency of a present symbol, 1 to 255. -/
theorem Filled.weight_bounds {h : Handle} (hh : h.toNat < t.nalloc.toNat) : 1 ≤ t.weight h ∧ t.weight h ≤ 255 := by
  obtain ⟨c, hc, hnode⟩ := f.leaf hn hh
  have hw : t.weight h = (symAt s.sft c).toNat := by
    rw [State.weight, hnode]
    exact BitVec.toNat_setWidth_of_le (by omega)
  have hpos : (symAt s.sft c).toNat ≠ 0 := fun h0 => hc (BitVec.eq_of_toNat_eq h0)
  have := (symAt s.sft c).isLt
  omega

/-- 256 leaves of at most 255 each weigh at most 65280 together (00 R9 a). -/
theorem Filled.total_le : (t.heapList.map t.weight).sum ≤ 65280 := by
  have h256 : s.nsym.toNat ≤ 256 := hn ▸ presentCount_le s.sft
  have hsum : (t.heapList.map t.weight).sum ≤ (t.heapList.map t.weight).length • 255 := by
    refine List.sum_le_card_nsmul _ _ fun w hw => ?_
    obtain ⟨h, hh, rfl⟩ := List.mem_map.1 hw
    exact (f.weight_bounds hn ((f.mem_heapList hn).1 hh)).2
  rw [List.length_map, f.length_heapList, smul_eq_mul] at hsum
  omega

/-- The leaves are a forest of depth 0 that meets the depth bound. -/
theorem Filled.deep : Deep (t.heapList.map fun h => (h, HTree.leaf (nodeAt t.node h).sym)) t where
  ordered := f.ordered
  heavy := by
    intro p hp
    obtain ⟨h, hh, rfl⟩ := List.mem_map.1 hp
    exact (f.weight_bounds hn ((f.mem_heapList hn).1 hh)).1
  below := by
    intro p hp l r hlr
    obtain ⟨h, -, rfl⟩ := List.mem_map.1 hp
    exact absurd hlr (by simp)

end Filled

/-! ## The weights `TB_BUILD` makes (42 R162) -/

/-- No allocated node weighs more than `m`. -/
def State.WeightsLe (s : State) (m : Nat) : Prop := ∀ h : Handle, h.toNat < s.nalloc.toNat → s.weight h ≤ m

/-- A node in the heap weighs no more than the whole heap. -/
theorem State.weight_le_sum {s : State} {h : Handle} (hh : h ∈ s.heapList) :
    s.weight h ≤ (s.heapList.map s.weight).sum := List.le_sum_of_mem (List.mem_map_of_mem hh)

/-- A completed `NewNode` writes one arena entry, number `NALLOC`. -/
theorem newNode_nodes {sym : Byte} {w : Nat} {l r a : Handle} {s t : State} (he : newNode sym w l r s = .ok a t)
    {h : Handle} (hne : h.toNat ≠ s.nalloc.toNat) : nodeAt t.node h = nodeAt s.node h := by
  simp only [newNode, Run.bind_eq_ok] at he
  obtain ⟨_, s1, h1, _, s2, h2, h3⟩ := he
  obtain ⟨-, rfl⟩ := require_eq_ok.1 h1
  obtain ⟨-, rfl⟩ := require_eq_ok.1 h2
  obtain ⟨-, rfl⟩ := Run.ok.inj h3
  exact nodeAt_set_ne _ _ hne

/-- A completed round writes no other arena entry than number `NALLOC`. -/
theorem mergeRound_nodes {s t : State} (he : mergeRound s = .ok () t) {h : Handle}
    (hne : h.toNat ≠ s.nalloc.toNat) : nodeAt t.node h = nodeAt s.node h := by
  simp only [mergeRound, Run.bind_eq_ok] at he
  obtain ⟨a, s1, h1, b, s2, h2, n, s3, h3, i, s4, h4, h5⟩ := he
  obtain ⟨-, rfl⟩ := Run.ok.inj h5
  obtain ⟨-, hna1, hnode1⟩ := heapExtract_keeps h1
  obtain ⟨-, hna2, hnode2⟩ := heapExtract_keeps h2
  obtain ⟨-, -, hnode4⟩ := heapInsert_keeps h4
  rw [hnode4, newNode_nodes h3 (by rwa [hna2, hna1]), hnode2, hnode1]

/-- A round keeps a bound on the weights that its new node meets. -/
theorem State.WeightsLe.after_mergeRound {s t : State} {m : Nat} (hs : s.WeightsLe m)
    (he : mergeRound s = .ok () t) (hn : s.nalloc.toNat < 511) (hna : t.nalloc.toNat = s.nalloc.toNat + 1)
    (hnew : t.weight (s.nalloc.setWidth 9) ≤ m) : t.WeightsLe m := by
  intro h hlt
  by_cases hh : h.toNat = s.nalloc.toNat
  · have : h = s.nalloc.setWidth 9 := BitVec.eq_of_toNat_eq (by rw [hh, nalloc_handle hn])
    rwa [this]
  · rw [State.weight, mergeRound_nodes he hh]
    exact hs h (by omega)

/-- The loop makes no node heavier than all it started from: each new node is in the heap, whose weight stays. -/
theorem Forest.loop_weightsLe {s0 : State} (k : Nat) {s t : State} {F : List (Handle × HTree)} (f : Forest s0 F s)
    (hk : s.hsize.toNat = k + 1) (hh : s.hsize.toNat ≤ s.hmax.toNat) (hm : s.hmax.toNat ≤ 256)
    (hn : s.nalloc.toNat + s.hsize.toNat ≤ 512) (hw : (s0.heapList.map s0.weight).sum < 2 ^ 64)
    (ht : mergeLoop k s = .ok () t) (hs : s.WeightsLe (s0.heapList.map s0.weight).sum) :
    t.WeightsLe (s0.heapList.map s0.weight).sum := by
  induction k generalizing s F with
  | zero =>
    obtain ⟨-, rfl⟩ := Run.ok.inj ht
    exact hs
  | succ k ih =>
    obtain ⟨s1, F1, hr, f1, hz, hna, hin, -⟩ := f.round (by omega) hh hm (by omega) (by rwa [f.weights])
    have hmax : s1.hmax = s.hmax := by rw [f1.hmax, f.hmax]
    rw [mergeLoop, hr, Run.bind_ok] at ht
    refine ih f1 (by omega) (by rw [hmax]; omega) (by rwa [hmax]) (by omega) ht ?_
    exact hs.after_mergeRound hr (by omega) hna (f1.weights ▸ State.weight_le_sum hin)

/-! ## `TB_BUILD` (42 R162) -/

/-- After a merge loop that leaves one element `TB_BUILD` makes it the root. -/
theorem runTbBuild_of_mergeLoop {s t : State} (hv : s.status.heapValid = true) (h1 : 1 ≤ s.hsize.toNat)
    (ht : mergeLoop (s.hsize.toNat - 1) s = .ok () t) (hz : t.hsize = 1) :
    ∃ heap', runTbBuild s = .ok () { t with heap := heap', hsize := 0, root := heapAt t.heap 0 } := by
  obtain ⟨heap', he, -⟩ := heapExtract_spec t (by simp [hz]) (by simp [hz])
  refine ⟨heap', ?_⟩
  simp only [runTbBuild, hv, h1, decide_true, require_true, Run.bind_ok, ht, he, hz]
  rfl

/-- A tree no heavier than 65280 is at most 22 deep, since `Fib(25)` = 75025 (00 R9 b). -/
theorem Deep.depth_le {F : List (Handle × HTree)} {s : State} (d : Deep F s) {p : Handle × HTree} (hp : p ∈ F)
    (hw : s.weight p.1 ≤ 65280) : p.2.depth ≤ 22 := by
  by_contra hlt
  have hmono : Nat.fib 25 ≤ Nat.fib (p.2.depth + 2) := Nat.fib_mono (by omega)
  have hfib : Nat.fib 25 = 75025 := by norm_num
  have := d.heavy p hp
  omega

/-- From what `HP_FILL` leaves, `TB_BUILD` completes: no allocated node weighs more than 65280, and the root names a
tree at most 22 deep. -/
theorem Filled.runTbBuild_ok {s t : State} (f : Filled s t) (hn : s.nsym.toNat = presentCount s.sft)
    (h1 : 1 ≤ s.nsym.toNat) :
    ∃ u tree, runTbBuild t = .ok () u ∧ u.status = t.status ∧ u.root ≠ Config.null ∧ u.WeightsLe 65280 ∧
      HTree.At u.node tree u.root ∧ tree.depth ≤ 22 := by
  have h256 : s.nsym.toNat ≤ 256 := hn ▸ presentCount_le s.sft
  have hsize := congrArg BitVec.toNat f.hsize
  have hmax := congrArg BitVec.toNat f.hmax
  have hna := f.nalloc
  have htotal := f.total_le hn
  have start := Forest.start t fun h hh => ⟨(f.mem_heapList hn).1 hh, f.isLeaf hn ((f.mem_heapList hn).1 hh)⟩
  obtain ⟨v, h, tree, hv, fv, hz, hroot, hdeep, -⟩ :=
    start.loop (t.hsize.toNat - 1) (by omega) (by omega) (by omega) (by omega) (by omega)
  have hlight : v.WeightsLe 65280 := by
    have hleaves : t.WeightsLe (t.heapList.map t.weight).sum :=
      fun h hlt => State.weight_le_sum ((f.mem_heapList hn).2 hlt)
    intro h hlt
    exact (start.loop_weightsLe _ (by omega) (by omega) (by omega) (by omega) (by omega) hv hleaves h hlt).trans htotal
  have hbelow : tree.Below v.node v.nalloc.toNat h := fv.trees _ (List.mem_singleton_self _)
  obtain ⟨heap', hu⟩ := runTbBuild_of_mergeLoop (by rw [f.status]) (by omega) hv hz
  rw [hroot] at hu
  refine ⟨_, tree, hu, ?_, ?_, hlight, hbelow.at_, ?_⟩
  · rw [fv.frame]
  · intro hnull
    have hcount := fv.count
    have hlt := hbelow.lt
    have : h.toNat = 511 := congrArg BitVec.toNat hnull
    rw [hz] at hcount
    simp at hcount
    omega
  · exact (hdeep (f.deep hn)).depth_le (List.mem_singleton_self _) (hlight h hbelow.lt)

/-- Settles O25: the leaves `HP_FILL` makes weigh at most 65280 together, a merge never makes a node heavier than the
heap, and a tree's weight grows with its depth as the Fibonacci numbers do. -/
theorem depthBound : Obligations.DepthBound := by
  intro s hs hv hn h1
  obtain ⟨t, ht, f⟩ := runHpFill_filled hv hn
  obtain ⟨u, tree, hu, hstatus, hroot, hlight, hat, hdepth⟩ := f.runTbBuild_ok hn h1
  have hst : t.NoFault := by rw [State.NoFault, f.status]; exact hs
  refine ⟨t, u, ?_, ?_, hst, ?_, hroot, hlight, tree, hat, hdepth⟩
  · exact (command_of_noFault hs runHpFill).trans (by rw [ht, Run.state_ok])
  · exact (command_of_noFault hst runTbBuild).trans (by rw [hu, Run.state_ok])
  · rw [State.NoFault, hstatus]; exact hst

end Sys2Proof.Machine
end

section
/-! What a command may write. The state in items, the relation "nothing outside these items was written", and for each
procedure and command the items it writes (10 R22 to R49): the layer that `WriteLists` and the invariants stand on. -/

namespace Sys2Proof.Machine

/-! ## Items -/

/-- A flag of `STATUS` other than `FAULT`. -/
inductive Flag where
  | single
  | ftValid
  | sftValid
  | heapValid
  | ctValid
  | hdrValid
  | bwValid
  | brValid
  deriving DecidableEq

/-- The flag's value. -/
def Flag.get : Flag → Status → Bool
  | .single => (·.single)
  | .ftValid => (·.ftValid)
  | .sftValid => (·.sftValid)
  | .heapValid => (·.heapValid)
  | .ctValid => (·.ctValid)
  | .hdrValid => (·.hdrValid)
  | .bwValid => (·.bwValid)
  | .brValid => (·.brValid)

/-- A part of the state that is written as a whole, or a way in which a part may move. -/
inductive Item where
  /-- What no command writes: the host's `ARG0`, `IN`, `BUF_BYTES` and the model's `pending`, `portOut`. -/
  | host
  /-- Any move of `OUT` or `OUT_CAP` but the growth of `OUT` up to `OUT_CAP` (20 R88). -/
  | cut
  /-- Any move of `ERR`, `ERRINFO`, `STATUS.FAULT` but a first `raise` (60 R241). -/
  | record
  /-- A `raise`. -/
  | fault
  | output
  | res
  | nsym
  | sft
  | divisor
  | totalBits
  | root
  /-- `NALLOC` and `NODE` -/
  | arena
  /-- `HSIZE` and `HEAP` -/
  | heap
  | hmax
  /-- `WPOS` and `WBUF` -/
  | writer
  | wtotal
  /-- `RPOS`, `RFILL`, `RTOTAL`, `RLIMIT` and `RBUF` -/
  | reader
  /-- `OLEN` and `OBUF` -/
  | emitter
  | inPos
  | ft
  /-- `CT_PAT` and `CT_LEN` -/
  | codes
  /-- The flag goes from 0 to 1. -/
  | set (f : Flag)
  /-- The flag goes from 1 to 0. -/
  | unset (f : Flag)
  deriving DecidableEq

/-- `OUT` went from `a` to `b` by appending, never past the capacity (20 R88). -/
def Grows (cap : Nat) (a b : List Byte) : Prop := ∃ v, b = a ++ v ∧ (v ≠ [] → b.length ≤ cap)

@[simp] theorem Grows.refl (cap : Nat) (a : List Byte) : Grows cap a a := ⟨[], by simp, fun h => absurd rfl h⟩

theorem Grows.trans {cap : Nat} {a b c : List Byte} (hab : Grows cap a b) (hbc : Grows cap b c) : Grows cap a c := by
  obtain ⟨v, rfl, hv⟩ := hab
  obtain ⟨w, rfl, hw⟩ := hbc
  refine ⟨v ++ w, by simp, fun h => ?_⟩
  by_cases hw0 : w = []
  · subst hw0
    simpa using hv (by simpa using h)
  · exact hw hw0

theorem Grows.length_lt {cap n : Nat} {a b : List Byte} (h : Grows cap a b) (ha : a.length < n) (hc : cap < n) :
    b.length < n := by
  obtain ⟨v, rfl, hv⟩ := h
  by_cases hv0 : v = []
  · simpa [hv0] using ha
  · exact lt_of_le_of_lt (hv hv0) hc

/-- The record of 60 R241 is as it was, or holds a first `raise` of one of the codes that are ever raised. -/
def RecordMoves (s t : State) : Prop :=
  (t.status.fault = s.status.fault ∧ t.err = s.err ∧ t.errinfo = s.errinfo) ∨
  (s.status.fault = false ∧ t.status.fault = true ∧ ∃ e : Err, e ≠ .ioRead ∧ t.err = e.code)

/-- The item is the same in both states (for the last ones: did not move that way). -/
def Item.Same (s t : State) : Item → Prop
  | .host => t.arg0 = s.arg0 ∧ t.bufBytes = s.bufBytes ∧ t.input = s.input ∧ t.pending = s.pending ∧
      t.portOut = s.portOut
  | .cut => t.outCap = s.outCap ∧ Grows s.outCap.toNat s.output t.output
  | .record => RecordMoves s t
  | .fault => s.status.fault = false → t.status.fault = false
  | .output => t.output = s.output
  | .res => t.res = s.res
  | .nsym => t.nsym = s.nsym
  | .sft => t.sft = s.sft
  | .divisor => t.divisor = s.divisor
  | .totalBits => t.totalBits = s.totalBits
  | .root => t.root = s.root
  | .arena => t.nalloc = s.nalloc ∧ t.node = s.node
  | .heap => t.hsize = s.hsize ∧ t.heap = s.heap
  | .hmax => t.hmax = s.hmax
  | .writer => t.wpos = s.wpos ∧ t.wbuf = s.wbuf
  | .wtotal => t.wtotal = s.wtotal
  | .reader => t.rpos = s.rpos ∧ t.rfill = s.rfill ∧ t.rtotal = s.rtotal ∧ t.rlimit = s.rlimit ∧ t.rbuf = s.rbuf
  | .emitter => t.olen = s.olen ∧ t.obuf = s.obuf
  | .inPos => t.inPos = s.inPos
  | .ft => t.ft = s.ft
  | .codes => t.ctPat = s.ctPat ∧ t.ctLen = s.ctLen
  | .set f => f.get s.status = false → f.get t.status = false
  | .unset f => f.get s.status = true → f.get t.status = true

theorem RecordMoves.trans {s t u : State} (hst : RecordMoves s t) (htu : RecordMoves t u) : RecordMoves s u := by
  unfold RecordMoves at *
  rcases hst with ⟨f1, e1, i1⟩ | ⟨f1, f1', e1⟩
  · rwa [f1, e1, i1] at htu
  · rcases htu with ⟨f2, e2, i2⟩ | ⟨f2, -⟩
    · exact .inr ⟨f1, f2.trans f1', e2 ▸ e1⟩
    · exact absurd f1' (by simp [f2])

theorem Item.Same.refl (s : State) (x : Item) : x.Same s s := by
  cases x <;> simp [Item.Same, RecordMoves]

theorem Item.Same.trans {s t u : State} {x : Item} (hst : x.Same s t) (htu : x.Same t u) : x.Same s u := by
  cases x with
  | cut =>
    obtain ⟨hc, hg⟩ := hst
    obtain ⟨hc', hg'⟩ := htu
    exact ⟨hc'.trans hc, hg.trans (hc ▸ hg')⟩
  | record => exact RecordMoves.trans hst htu
  | fault => exact fun h => htu (hst h)
  | set f => exact fun h => htu (hst h)
  | unset f => exact fun h => htu (hst h)
  | _ => simp_all [Item.Same]

/-! ## The frame relation -/

/-- From `s` to `t` nothing but the items of `w` was written. -/
def Writes (w : List Item) (s t : State) : Prop := ∀ x, x ∉ w → x.Same s t

theorem Writes.refl (w : List Item) (s : State) : Writes w s s := fun x _ => .refl s x

theorem Writes.trans {w : List Item} {s t u : State} (hst : Writes w s t) (htu : Writes w t u) : Writes w s u :=
  fun x hx => (hst x hx).trans (htu x hx)

theorem Writes.mono {w w' : List Item} {s t : State} (h : Writes w s t) (hw : w ⊆ w') : Writes w' s t :=
  fun x hx => h x fun hin => hx (hw hin)

/-- `raise` writes the record alone. -/
theorem raise_writes {e : Err} (he : e ≠ .ioRead) (info : Word64) (s : State) :
    Writes [.fault] s (s.raise e info) := by
  by_cases hs : s.status.fault = true
  · rw [State.raise_of_fault hs]
    exact .refl _ s
  · have hs : s.status.fault = false := by simpa using hs
    rw [State.raise_of_noFault hs]
    intro x hx
    cases x with
    | record => exact .inr ⟨hs, rfl, e, he, rfl⟩
    | set f => cases f <;> exact id
    | unset f => cases f <;> exact id
    | _ => simp_all [Item.Same]

/-- Bytes that fit are appended to `OUT` alone. -/
theorem append_writes {v : List Byte} {s : State} (hv : v.length ≤ s.room) :
    Writes [.output] s { s with output := s.output ++ v } := by
  intro x hx
  cases x with
  | cut =>
    refine ⟨rfl, v, rfl, fun h => ?_⟩
    have hpos := List.length_pos_iff.2 h
    rw [State.room_eq] at hv
    simp only [List.length_append]
    omega
  | _ => simp_all [Item.Same, RecordMoves]

/-! ## Outcomes of a run -/

/-- A run ends as said: with a value and a state that meet `R`, or at a `raise` in a state that meets `Q`. -/
def Run.Ends {α : Type} (R : α → State → Prop) (Q : State → Prop) : Run α → Prop
  | .ok a t => R a t
  | .stop t => Q t

section Ends

variable {α β : Type} {R R' : α → State → Prop} {Q Q' : State → Prop} {r : Run α} {s : State}

theorem Run.Ends.mono (h : r.Ends R Q) (hR : ∀ a t, R a t → R' a t) (hQ : ∀ t, Q t → Q' t) : r.Ends R' Q' := by
  cases r with
  | ok a t => exact hR a t h
  | stop t => exact hQ t h

theorem Run.Ends.bind {S : β → State → Prop} {f : α → State → Run β} (h : r.Ends R Q)
    (hf : ∀ a t, R a t → (f a t).Ends S Q) : (r.bind f).Ends S Q := by
  cases r with
  | ok a t => exact hf a t h
  | stop t => exact h

/-- The state a run leaves, when both ends promise the same of it. -/
theorem Run.Ends.state (h : r.Ends (fun _ => Q) Q) : Q r.state := by
  cases r with
  | ok a t => exact h
  | stop t => exact h

theorem Run.Ends.fail {e : Err} {info : Word64} (h : Q (s.raise e info)) :
    (Machine.fail e info s : Run α).Ends R Q := h

/-- A check and what follows it: the check's `raise`, or the rest with the condition known. -/
theorem Run.Ends.require {c : Bool} {e : Err} {info : Word64} {f : Unit → State → Run α} (hQ : Q (s.raise e info))
    (hf : c = true → (f () s).Ends R Q) : ((Machine.require c e info s).bind f).Ends R Q := by
  cases c with
  | true => exact hf rfl
  | false => exact hQ

end Ends

/-- The run writes nothing but the items of `w`, and where it stops a fault is recorded. -/
def Run.Does {α : Type} (w : List Item) (s : State) (r : Run α) : Prop :=
  r.Ends (fun _ => Writes w s) fun t => Writes w s t ∧ t.status.fault = true

section Does

variable {α β : Type} {w w' : List Item} {s t : State} {r : Run α}

theorem Run.Does.writes (h : r.Does w s) : Writes w s r.state :=
  Ends.state (h.mono (fun _ _ h => h) fun _ h => h.1)

theorem Run.Does.mono (h : r.Does w s) (hw : w ⊆ w') : r.Does w' s :=
  Ends.mono h (fun _ _ h => h.mono hw) fun _ h => ⟨h.1.mono hw, h.2⟩

/-- What was written before counts too. -/
theorem Run.Does.after (hst : Writes w s t) (h : r.Does w t) : r.Does w s :=
  Ends.mono h (fun _ _ h => hst.trans h) fun _ h => ⟨hst.trans h.1, h.2⟩

theorem Run.Does.bind {f : α → State → Run β} (h : r.Does w s) (hf : ∀ a t, (f a t).Does w t) :
    (r.bind f).Does w s :=
  Ends.bind h fun a t ht => Does.after ht (hf a t)

theorem Run.Does.fail {e : Err} {info : Word64} (he : e ≠ .ioRead) (hw : .fault ∈ w) :
    (Machine.fail e info s : Run α).Does w s :=
  ⟨(raise_writes he info s).mono (by simpa using hw), s.raise_fault e info⟩

theorem Run.Does.require {c : Bool} {e : Err} {info : Word64} {f : Unit → State → Run α} (he : e ≠ .ioRead)
    (hw : .fault ∈ w) (hf : (f () s).Does w s) : ((Machine.require c e info s).bind f).Does w s :=
  Ends.require (Does.fail (α := Unit) he hw) fun _ => hf

end Does

/-! ## Updates -/

/-- A write of `STATUS` alone, flag by flag. -/
theorem status_writes {w : List Item} {s : State} {st : Status} (hfault : st.fault = s.status.fault)
    (hset : ∀ f, .set f ∉ w → f.get s.status = false → f.get st = false)
    (hunset : ∀ f, .unset f ∉ w → f.get s.status = true → f.get st = true) : Writes w s { s with status := st } := by
  intro x hx
  cases x with
  | set f => exact hset f hx
  | unset f => exact hunset f hx
  | _ => simp_all [Item.Same, RecordMoves]

section Updates

variable (s : State) (b : Bool)

theorem setSingle_writes : Writes [.set .single, .unset .single] s (s.setSingle b) :=
  status_writes rfl (by rintro ⟨⟩ <;> simp [Flag.get]) (by rintro ⟨⟩ <;> simp [Flag.get])

theorem setFtValid_writes : Writes [.set .ftValid] s s.setFtValid :=
  status_writes rfl (by rintro ⟨⟩ <;> simp [Flag.get]) (by rintro ⟨⟩ <;> simp [Flag.get])

theorem setSftValid_writes : Writes [.set .sftValid] s s.setSftValid :=
  status_writes rfl (by rintro ⟨⟩ <;> simp [Flag.get]) (by rintro ⟨⟩ <;> simp [Flag.get])

theorem setHeapValid_true_writes : Writes [.set .heapValid] s (s.setHeapValid true) :=
  status_writes rfl (by rintro ⟨⟩ <;> simp [Flag.get]) (by rintro ⟨⟩ <;> simp [Flag.get])

theorem setHeapValid_false_writes : Writes [.unset .heapValid] s (s.setHeapValid false) :=
  status_writes rfl (by rintro ⟨⟩ <;> simp [Flag.get]) (by rintro ⟨⟩ <;> simp [Flag.get])

theorem setCtValid_writes : Writes [.set .ctValid] s s.setCtValid :=
  status_writes rfl (by rintro ⟨⟩ <;> simp [Flag.get]) (by rintro ⟨⟩ <;> simp [Flag.get])

theorem setHdrValid_writes : Writes [.set .hdrValid] s s.setHdrValid :=
  status_writes rfl (by rintro ⟨⟩ <;> simp [Flag.get]) (by rintro ⟨⟩ <;> simp [Flag.get])

theorem setBwValid_writes : Writes [.set .bwValid] s s.setBwValid :=
  status_writes rfl (by rintro ⟨⟩ <;> simp [Flag.get]) (by rintro ⟨⟩ <;> simp [Flag.get])

theorem setBrValid_writes : Writes [.set .brValid] s s.setBrValid :=
  status_writes rfl (by rintro ⟨⟩ <;> simp [Flag.get]) (by rintro ⟨⟩ <;> simp [Flag.get])

theorem setRes_writes (v : Word64) : Writes [.res] s (s.setRes v) := by
  intro x hx
  cases x <;> simp_all [Item.Same, RecordMoves]

theorem inPos_writes (p : Word64) : Writes [.inPos] s { s with inPos := p } := by
  intro x hx
  cases x <;> simp_all [Item.Same, RecordMoves]

theorem arena_writes (node : Vector Node 511) (nalloc : BitVec 10) :
    Writes [.arena] s { s with node := node, nalloc := nalloc } := by
  intro x hx
  cases x <;> simp_all [Item.Same, RecordMoves]

theorem heap_writes (heap : Vector Handle 256) (hsize : BitVec 9) :
    Writes [.heap] s { s with heap := heap, hsize := hsize } := by
  intro x hx
  cases x <;> simp_all [Item.Same, RecordMoves]

theorem codes_writes (ctPat : Vector Word64 256) (ctLen : Vector Byte 256) :
    Writes [.codes] s { s with ctPat := ctPat, ctLen := ctLen } := by
  intro x hx
  cases x <;> simp_all [Item.Same, RecordMoves]

theorem writer_writes (wpos : Word64) (wbuf : List Byte) :
    Writes [.writer] s { s with wpos := wpos, wbuf := wbuf } := by
  intro x hx
  cases x <;> simp_all [Item.Same, RecordMoves]

theorem emitter_writes (olen : Word64) (obuf : List Byte) :
    Writes [.emitter] s { s with olen := olen, obuf := obuf } := by
  intro x hx
  cases x <;> simp_all [Item.Same, RecordMoves]

theorem placeBit_writes : Writes [.writer, .wtotal] s (s.placeBit b) := by
  intro x hx
  cases x <;> simp_all [Item.Same, RecordMoves]

theorem refill_writes : Writes [.reader, .inPos] s s.refill := by
  intro x hx
  cases x <;> simp_all [Item.Same, RecordMoves]

theorem initReader_writes (limit : Word64) : Writes [.reader, .set .brValid] s (s.initReader limit) := by
  have h : Writes [.reader] s { s with rlimit := limit, rfill := 0, rpos := 0, rtotal := 0 } := by
    intro x hx
    cases x <;> simp_all [Item.Same, RecordMoves]
  exact (h.mono (by simp)).trans ((setBrValid_writes _).mono (by simp))

/-- `TB_FREE`'s writes but that of `HEAP_VALID`. -/
theorem freeTree_writes (hmax : BitVec 9) : Writes [.root, .arena, .heap, .hmax] s { s with
    nalloc := 0, root := Config.null, hsize := 0, hmax := hmax
    node := freeArena s.freeCount, heap := freeTable 9 (s.freeCount + 1) 0, freeCount := s.freeCount + 2 } := by
  intro x hx
  cases x <;> simp_all [Item.Same, RecordMoves]

theorem fillStart_writes : Writes [.root, .arena, .heap, .hmax, .set .heapValid] s s.fillStart :=
  ((freeTree_writes s s.nsym).mono (by simp)).trans ((setHeapValid_true_writes _).mono (by simp))

end Updates

/-! ## Procedures -/

theorem checkImm_does {α : Type} {w : List Item} {i : Instr} {s : State} {f : Unit → State → Run α} (hw : .fault ∈ w)
    (hf : (f () s).Does w s) : ((checkImm i s).bind f).Does w s := .require (by decide) hw hf

theorem outAppend_does (v : List Byte) (s : State) : (outAppend v s).Does [.output, .fault] s := by
  by_cases h : v.length ≤ s.room
  · rw [outAppend_of_fits h]
    exact (append_writes h).mono (by simp)
  · have hcut : (v.take s.room).length ≤ s.room := by
      rw [List.length_take]
      omega
    rw [outAppend_of_short (Nat.lt_of_not_le h)]
    exact .after (α := Unit) ((append_writes hcut).mono (by simp)) (.fail (by decide) (by simp))

theorem newNode_does (sym : Byte) (w : Nat) (l r : Handle) (s : State) :
    (newNode sym w l r s).Does [.arena, .fault] s :=
  .require (by decide) (by simp) <| .require (by decide) (by simp) <| (arena_writes s _ _).mono (by simp)

theorem heapInsert_does (h : Handle) (s : State) : (heapInsert h s).Does [.heap, .fault] s :=
  .require (by decide) (by simp) <| (heap_writes s _ _).mono (by simp)

theorem heapExtract_does (s : State) : (heapExtract s).Does [.heap, .fault] s :=
  .require (by decide) (by simp) <| (heap_writes s _ _).mono (by simp)

theorem fillLeaves_does (cs : List Byte) (s : State) : (fillLeaves cs s).Does [.arena, .heap, .fault] s := by
  induction cs generalizing s with
  | nil => exact .refl _ s
  | cons c cs ih =>
    rw [fillLeaves]
    split
    · exact ih s
    · exact ((newNode_does ..).mono (by simp)).bind fun h t =>
        ((heapInsert_does h t).mono (by simp)).bind fun _ u => ih u

theorem mergeRound_does (s : State) : (mergeRound s).Does [.arena, .heap, .fault] s :=
  ((heapExtract_does s).mono (by simp)).bind fun a t => ((heapExtract_does t).mono (by simp)).bind fun b u =>
    ((newNode_does ..).mono (by simp)).bind fun n v => ((heapInsert_does n v).mono (by simp)).bind fun _ x => .refl _ x

theorem mergeLoop_does (k : Nat) (s : State) : (mergeLoop k s).Does [.arena, .heap, .fault] s := by
  induction k generalizing s with
  | zero => exact .refl _ s
  | succ k ih => exact (mergeRound_does s).bind fun _ t => ih t

theorem walk_does (room : Nat) (h : Handle) (pat : Nat) (s : State) : (walk room h pat s).Does [.codes, .fault] s := by
  induction room generalizing h pat s with
  | zero =>
    cases hl : (nodeAt s.node h).isLeaf with
    | true =>
      rw [walk_leaf hl]
      exact .require (by decide) (by simp) ((codes_writes s _ _).mono (by simp))
    | false =>
      rw [walk_node_zero hl]
      exact .fail (by decide) (by simp)
  | succ room ih =>
    cases hl : (nodeAt s.node h).isLeaf with
    | true =>
      rw [walk_leaf hl]
      exact .require (by decide) (by simp) ((codes_writes s _ _).mono (by simp))
    | false =>
      rw [walk_node_succ hl]
      exact (ih _ _ s).bind fun _ t => ih _ _ t

theorem writeBit_does (b : Bool) (s : State) : (writeBit b s).Does [.writer, .wtotal, .output, .fault] s := by
  refine .require (by decide) (by simp) (.after ((placeBit_writes s b).mono (by simp)) ?_)
  dsimp only
  split
  · exact ((outAppend_does _ _).mono (by simp)).bind fun _ t => (writer_writes t _ _).mono (by simp)
  · exact .refl _ _

theorem writeBits_does (pat : Word64) (len : Nat) (s : State) :
    (writeBits pat len s).Does [.writer, .wtotal, .output, .fault] s := by
  induction len generalizing s with
  | zero => exact .refl _ s
  | succ k ih => exact (writeBit_does _ s).bind fun _ t => ih t

theorem encodeBytes_does (msg : List Byte) (s : State) :
    (encodeBytes msg s).Does [.writer, .wtotal, .output, .inPos, .fault] s := by
  induction msg generalizing s with
  | nil => exact .refl _ s
  | cons c cs ih =>
    exact .require (by decide) (by simp) <| .after ((inPos_writes s _).mono (by simp)) <|
      ((writeBits_does ..).mono (by simp)).bind fun _ t => ih t

theorem takeBit_does (s : State) : (takeBit s).Does [.reader, .fault] s := by
  refine .require (by decide) (by simp) ?_
  intro x hx
  cases x <;> simp_all [Item.Same, RecordMoves]

theorem readBit_does (s : State) : (readBit s).Does [.reader, .inPos, .fault] s := by
  unfold readBit
  split_ifs
  · exact .refl _ s
  · exact .after ((refill_writes s).mono (by simp)) ((takeBit_does _).mono (by simp))
  · exact (takeBit_does s).mono (by simp)

theorem emit_does (c : Byte) (s : State) : (emit c s).Does [.emitter, .output, .fault] s := by
  refine .after ((emitter_writes s (word (s.olen.toNat + 1)) (s.obuf.set s.olen.toNat c)).mono (by simp)) ?_
  unfold emit
  dsimp only
  split
  · exact ((outAppend_does _ _).mono (by simp)).bind fun _ t => (emitter_writes t _ _).mono (by simp)
  · exact .refl _ _

/-- Acting on a bit keeps what emitting a byte keeps. -/
theorem decodeBit_ends {P Q : State → Prop} (hemit : ∀ c s, P s → (emit c s).Ends (fun _ => P) Q) (b : Bool)
    (cur : Handle) {s : State} (hs : P s) : (decodeBit b cur s).Ends (fun _ => P) Q := by
  cases hroot : (nodeAt s.node s.root).isLeaf with
  | true =>
    rw [decodeBit_leaf hroot]
    exact (hemit _ s hs).bind fun _ t ht => ht
  | false =>
    rw [decodeBit_node hroot]
    dsimp only
    generalize (if b then (nodeAt s.node cur).r else (nodeAt s.node cur).l) = next
    split
    · exact (hemit _ s hs).bind fun _ t ht => ht
    · exact hs

theorem decodeBit_does (b : Bool) (cur : Handle) (s : State) :
    (decodeBit b cur s).Does [.emitter, .output, .fault] s :=
  decodeBit_ends (fun c _ ht => Run.Does.after ht (emit_does c _)) b cur (.refl _ s)

/-- The bit loop keeps what reading a bit and acting on it keep. -/
theorem decodeLoop_ends {P Q : State → Prop} (hread : ∀ s, P s → (readBit s).Ends (fun _ => P) Q)
    (hbit : ∀ b cur s, P s → (decodeBit b cur s).Ends (fun _ => P) Q) (hraise : ∀ s, P s → Q (s.raise .corruptStream 1))
    (n : Nat) (cur : Handle) {s : State} (hs : P s) : (decodeLoop n cur s).Ends (fun _ => P) Q := by
  induction n generalizing cur s with
  | zero => exact hs
  | succ n ih =>
    refine (hread s hs).bind fun b t ht => ?_
    cases b with
    | none => exact hraise t ht
    | some b => exact (hbit b cur t ht).bind fun cur u hu => ih cur hu

theorem decodeLoop_does (n : Nat) (cur : Handle) (s : State) :
    (decodeLoop n cur s).Does [.reader, .inPos, .emitter, .output, .fault] s :=
  decodeLoop_ends (fun t ht => Run.Does.after ht ((readBit_does t).mono (by simp)))
    (fun b cur t ht => Run.Does.after ht ((decodeBit_does b cur t).mono (by simp)))
    (fun t ht => Run.Does.after (α := Unit) ht (.fail (by decide) (by simp))) n cur (.refl _ s)

theorem writePairs_does (cs : List Byte) (s : State) : (writePairs cs s).Does [.output, .fault] s := by
  induction cs generalizing s with
  | nil => exact .refl _ s
  | cons c cs ih =>
    rw [writePairs]
    split
    · exact ih s
    · exact (outAppend_does _ s).bind fun _ t => ih t

theorem sft_writes (s : State) (sft : Vector Byte 256) : Writes [.sft] s { s with sft := sft } := by
  intro x hx
  cases x <;> simp_all [Item.Same, RecordMoves]

theorem readPairs_does (n i : Nat) (s : State) : (readPairs n i s).Does [.sft, .fault] s := by
  induction n generalizing i s with
  | zero => exact .refl _ s
  | succ n ih =>
    exact .require (by decide) (by simp) <| .require (by decide) (by simp) <|
      .after ((sft_writes s _).mono (by simp)) (ih (i + 1) _)

/-! ## Commands -/

theorem runFcRun_does (s : State) : (runFcRun s).Does [.ft, .inPos, .set .ftValid] s := by
  have h : Writes [.ft, .inPos] s { s with ft := countBytes s.unread, inPos := 0 } := by
    intro x hx
    cases x <;> simp_all [Item.Same, RecordMoves]
  exact (h.mono (by simp)).trans ((setFtValid_writes _).mono (by simp))

theorem runFqScale_does (s : State) :
    (runFqScale s).Does [.nsym, .sft, .divisor, .set .sftValid, .fault] s := by
  have h : Writes [.nsym, .sft, .divisor] s { s with
      divisor := word (scaleDivisor s.ft), sft := scaledTable s.ft, nsym := BitVec.ofNat 9 (presentCount s.ft) } := by
    intro x hx
    cases x <;> simp_all [Item.Same, RecordMoves]
  exact .require (by decide) (by simp) <| (h.mono (by simp)).trans ((setSftValid_writes _).mono (by simp))

theorem runHpCreate_does (a : BitVec 12) (s : State) :
    (runHpCreate a s).Does [.heap, .hmax, .set .heapValid, .fault] s := by
  have h : Writes [.heap, .hmax] s { s with
      hsize := 0, hmax := immCapacity a, heap := freeTable 9 s.freeCount 0, freeCount := s.freeCount + 1 } := by
    intro x hx
    cases x <;> simp_all [Item.Same, RecordMoves]
  exact checkImm_does (by simp) <| (h.mono (by simp)).trans ((setHeapValid_true_writes _).mono (by simp))

theorem runHpInsert_does (a : BitVec 12) (s : State) : (runHpInsert a s).Does [.heap, .res, .fault] s :=
  checkImm_does (by simp) <| .require (by decide) (by simp) <| .require (by decide) (by simp) <|
    ((heapInsert_does _ s).mono (by simp)).bind fun _ t => (setRes_writes t _).mono (by simp)

theorem runHpExtract_does (s : State) : (runHpExtract s).Does [.heap, .res, .fault] s :=
  .require (by decide) (by simp) <|
    ((heapExtract_does s).mono (by simp)).bind fun _ t => (setRes_writes t _).mono (by simp)

/-- `HP_FILL` releases the old tree but never leaves `HEAP_VALID` at 0. -/
theorem runHpFill_does (s : State) :
    (runHpFill s).Does [.root, .arena, .heap, .hmax, .set .heapValid, .fault] s := by
  cases hv : s.status.sftValid with
  | true =>
    rw [runHpFill_eq hv]
    exact .after ((fillStart_writes s).mono (by simp)) ((fillLeaves_does ..).mono (by simp))
  | false =>
    rw [runHpFill, hv]
    exact .fail (by decide) (by simp)

theorem runNdLeaf_does (a : BitVec 12) (s : State) : (runNdLeaf a s).Does [.arena, .res, .fault] s :=
  checkImm_does (by simp) <|
    ((newNode_does ..).mono (by simp)).bind fun _ t => (setRes_writes t _).mono (by simp)

theorem root_writes (s : State) (h : Handle) : Writes [.root] s { s with root := h } := by
  intro x hx
  cases x <;> simp_all [Item.Same, RecordMoves]

theorem runTbBuild_does (s : State) : (runTbBuild s).Does [.root, .arena, .heap, .fault] s :=
  .require (by decide) (by simp) <| .require (by decide) (by simp) <|
    ((mergeLoop_does _ s).mono (by simp)).bind fun _ t =>
      ((heapExtract_does t).mono (by simp)).bind fun _ u => (root_writes u _).mono (by simp)

theorem runTbFree_does (s : State) : (runTbFree s).Does [.root, .arena, .heap, .hmax, .unset .heapValid] s :=
  ((freeTree_writes s 0).mono (by simp)).trans ((setHeapValid_false_writes _).mono (by simp))

theorem zeroCodes_writes (s : State) : Writes [.codes] s s.zeroCodes := codes_writes s _ _

theorem runCgRun_does (s : State) :
    (runCgRun s).Does [.codes, .set .single, .unset .single, .set .ctValid, .fault] s := by
  refine .require (by decide) (by simp) (.after ((zeroCodes_writes s).mono (by simp)) ?_)
  dsimp only
  split
  · exact ((codes_writes _ _ _).mono (by simp)).trans <| ((setSingle_writes _ true).mono (by simp)).trans <|
      (setCtValid_writes _).mono (by simp)
  · exact .after ((setSingle_writes _ false).mono (by simp)) <|
      ((walk_does ..).mono (by simp)).bind fun _ t => (setCtValid_writes t).mono (by simp)

theorem runBwInit_does (s : State) : (runBwInit s).Does [.writer, .wtotal, .set .bwValid] s := by
  have h : Writes [.writer, .wtotal] s { s with wpos := 0, wtotal := 0 }.zeroWbuf := by
    intro x hx
    cases x <;> simp_all [Item.Same, RecordMoves]
  exact (h.mono (by simp)).trans ((setBwValid_writes _).mono (by simp))

theorem runBwWrite_does (a : BitVec 12) (s : State) :
    (runBwWrite a s).Does [.writer, .wtotal, .output, .fault] s :=
  checkImm_does (by simp) <| .require (by decide) (by simp) <| writeBits_does ..

theorem runBwFlush_does (s : State) : (runBwFlush s).Does [.writer, .output, .fault] s :=
  .require (by decide) (by simp) <|
    ((outAppend_does _ s).mono (by simp)).bind fun _ t => (writer_writes t _ _).mono (by simp)

theorem runBrInit_does (s : State) : (runBrInit s).Does [.reader, .set .brValid] s := initReader_writes s s.arg0

theorem runBrRead_does (s : State) : (runBrRead s).Does [.reader, .inPos, .res, .fault] s :=
  .require (by decide) (by simp) <|
    ((readBit_does s).mono (by simp)).bind fun _ t => (setRes_writes t _).mono (by simp)

theorem runHdrWrite_does (s : State) : (runHdrWrite s).Does [.output, .fault] s :=
  .require (by decide) (by simp) <| .require (by decide) (by simp) <|
    (outAppend_does _ s).bind fun _ t => writePairs_does _ t

theorem runHdrRead_does (s : State) : (runHdrRead s).Does
    [.nsym, .sft, .totalBits, .inPos, .set .sftValid, .set .hdrValid, .fault] s := by
  refine .require (by decide) (by simp) <| .require (by decide) (by simp) <| .after ((sft_writes s _).mono (by simp)) <|
    ((readPairs_does ..).mono (by simp)).bind fun _ t => .require (by decide) (by simp) <|
      .require (by decide) (by simp) ?_
  have h : ∀ n b p, Writes [.nsym, .totalBits, .inPos] t { t with nsym := n, totalBits := b, inPos := p } := by
    intro n b p x hx
    cases x <;> simp_all [Item.Same, RecordMoves]
  exact ((h _ _ _).mono (by simp)).trans <| ((setSftValid_writes _).mono (by simp)).trans <|
    (setHdrValid_writes _).mono (by simp)

theorem runEncStream_does (s : State) :
    (runEncStream s).Does [.writer, .wtotal, .output, .inPos, .fault] s :=
  .require (by decide) (by simp) <| encodeBytes_does ..

theorem runTrlWrite_does (s : State) : (runTrlWrite s).Does [.output, .fault] s :=
  .require (by decide) (by simp) <| outAppend_does ..

theorem olen_writes (s : State) (v : Word64) : Writes [.emitter] s { s with olen := v } := emitter_writes s v s.obuf

theorem runDecStream_does (s : State) :
    (runDecStream s).Does [.reader, .inPos, .emitter, .output, .fault] s :=
  .require (by decide) (by simp) <| .require (by decide) (by simp) <| .after ((olen_writes s 0).mono (by simp)) <|
    (decodeLoop_does ..).bind fun _ t => .require (by decide) (by simp) <|
      ((outAppend_does _ t).mono (by simp)).bind fun _ u => (olen_writes u 0).mono (by simp)

theorem buildCodes_does (s : State) : (buildCodes s).Does
    [.root, .arena, .heap, .hmax, .set .heapValid, .unset .heapValid, .codes, .set .single, .unset .single,
      .set .ctValid, .fault] s := by
  unfold buildCodes
  split
  · exact ((runHpFill_does s).mono (by simp)).bind fun _ t => ((runTbBuild_does t).mono (by simp)).bind fun _ u =>
      ((runCgRun_does u).mono (by simp)).bind fun _ v => (runTbFree_does v).mono (by simp)
  · exact ((runTbFree_does s).mono (by simp)).bind fun _ t => ((zeroCodes_writes t).mono (by simp)).trans <|
      ((setSingle_writes _ false).mono (by simp)).trans <| (setCtValid_writes _).mono (by simp)

theorem writeFile_does (s : State) : (writeFile s).Does
    [.output, .writer, .wtotal, .set .bwValid, .inPos, .fault] s :=
  ((runHdrWrite_does s).mono (by simp)).bind fun _ t => ((runBwInit_does t).mono (by simp)).bind fun _ u =>
    ((runEncStream_does u).mono (by simp)).bind fun _ v => ((runBwFlush_does v).mono (by simp)).bind fun _ x =>
      (runTrlWrite_does x).mono (by simp)

/-- The items `COMPRESS` writes. -/
def compressItems : List Item :=
  [.ft, .inPos, .set .ftValid, .nsym, .sft, .divisor, .set .sftValid, .root, .arena, .heap, .hmax, .set .heapValid,
    .unset .heapValid, .codes, .set .single, .unset .single, .set .ctValid, .output, .writer, .wtotal, .set .bwValid,
    .fault]

theorem runCompress_does (s : State) : (runCompress s).Does compressItems s :=
  .after ((inPos_writes s 0).mono (by decide)) <| ((runFcRun_does _).mono (by decide)).bind fun _ t =>
    ((runFqScale_does t).mono (by decide)).bind fun _ u => .require (by decide) (by decide) <|
      ((buildCodes_does u).mono (by decide)).bind fun _ v => (writeFile_does v).mono (by decide)

theorem rebuildTree_does (s : State) : (rebuildTree s).Does
    [.root, .arena, .heap, .hmax, .set .heapValid, .unset .heapValid, .fault] s := by
  unfold rebuildTree
  split
  · exact ((runHpFill_does s).mono (by simp)).bind fun _ t => (runTbBuild_does t).mono (by simp)
  · exact (runTbFree_does s).mono (by simp)

/-- The items `DECOMPRESS` writes. -/
def decompressItems : List Item :=
  [.nsym, .sft, .totalBits, .inPos, .set .sftValid, .set .hdrValid, .root, .arena, .heap, .hmax, .set .heapValid,
    .unset .heapValid, .reader, .set .brValid, .emitter, .output, .fault]

theorem runDecompress_does (s : State) : (runDecompress s).Does decompressItems s :=
  ((runHdrRead_does s).mono (by decide)).bind fun _ t => ((rebuildTree_does t).mono (by decide)).bind fun _ u =>
    .after ((initReader_writes u _).mono (by decide)) <| ((runDecStream_does _).mono (by decide)).bind fun _ v =>
      (runTbFree_does v).mono (by decide)

/-- The items `CLR` writes. -/
def clearItems : List Item :=
  [.record, .res, .nsym, .sft, .divisor, .totalBits, .root, .arena, .heap, .hmax, .writer, .wtotal, .reader, .emitter,
    .ft, .codes, .unset .single, .unset .ftValid, .unset .sftValid, .unset .heapValid, .unset .ctValid,
    .unset .hdrValid, .unset .bwValid, .unset .brValid]

theorem clear_writes (s : State) : Writes clearItems s s.clear := by
  intro x hx
  cases x with
  | set f => cases f <;> exact fun _ => rfl
  | unset f => cases f <;> simp [clearItems] at hx
  | _ => simp_all [Item.Same, clearItems, Status.zero]

/-! ## The 24 commands -/

/-- A command's procedure; for `CLR`, which runs outside the sticky gate, its writes. -/
def procOf : Instr → Proc Unit
  | .nop => runNop
  | .clr => fun s => .ok () s.clear
  | .fcRun => runFcRun
  | .fqScale => runFqScale
  | .hpCreate a => runHpCreate a
  | .hpInsert a => runHpInsert a
  | .hpExtract => runHpExtract
  | .hpFill => runHpFill
  | .ndLeaf a => runNdLeaf a
  | .tbBuild => runTbBuild
  | .tbFree => runTbFree
  | .cgRun => runCgRun
  | .bwInit => runBwInit
  | .bwWrite a => runBwWrite a
  | .bwFlush => runBwFlush
  | .brInit => runBrInit
  | .brRead => runBrRead
  | .hdrWrite => runHdrWrite
  | .hdrRead => runHdrRead
  | .encStream => runEncStream
  | .trlWrite => runTrlWrite
  | .decStream => runDecStream
  | .compress => runCompress
  | .decompress => runDecompress

/-- The items a command writes. -/
def itemsOf : Instr → List Item
  | .nop => []
  | .clr => clearItems
  | .fcRun => [.ft, .inPos, .set .ftValid]
  | .fqScale => [.nsym, .sft, .divisor, .set .sftValid, .fault]
  | .hpCreate _ => [.heap, .hmax, .set .heapValid, .fault]
  | .hpInsert _ => [.heap, .res, .fault]
  | .hpExtract => [.heap, .res, .fault]
  | .hpFill => [.root, .arena, .heap, .hmax, .set .heapValid, .fault]
  | .ndLeaf _ => [.arena, .res, .fault]
  | .tbBuild => [.root, .arena, .heap, .fault]
  | .tbFree => [.root, .arena, .heap, .hmax, .unset .heapValid]
  | .cgRun => [.codes, .set .single, .unset .single, .set .ctValid, .fault]
  | .bwInit => [.writer, .wtotal, .set .bwValid]
  | .bwWrite _ => [.writer, .wtotal, .output, .fault]
  | .bwFlush => [.writer, .output, .fault]
  | .brInit => [.reader, .set .brValid]
  | .brRead => [.reader, .inPos, .res, .fault]
  | .hdrWrite => [.output, .fault]
  | .hdrRead => [.nsym, .sft, .totalBits, .inPos, .set .sftValid, .set .hdrValid, .fault]
  | .encStream => [.writer, .wtotal, .output, .inPos, .fault]
  | .trlWrite => [.output, .fault]
  | .decStream => [.reader, .inPos, .emitter, .output, .fault]
  | .compress => compressItems
  | .decompress => decompressItems

theorem procOf_does (i : Instr) (s : State) : (procOf i s).Does (itemsOf i) s := by
  cases i with
  | nop => exact .refl _ s
  | clr => exact clear_writes s
  | fcRun => exact runFcRun_does s
  | fqScale => exact runFqScale_does s
  | hpCreate a => exact runHpCreate_does a s
  | hpInsert a => exact runHpInsert_does a s
  | hpExtract => exact runHpExtract_does s
  | hpFill => exact runHpFill_does s
  | ndLeaf a => exact runNdLeaf_does a s
  | tbBuild => exact runTbBuild_does s
  | tbFree => exact runTbFree_does s
  | cgRun => exact runCgRun_does s
  | bwInit => exact runBwInit_does s
  | bwWrite a => exact runBwWrite_does a s
  | bwFlush => exact runBwFlush_does s
  | brInit => exact runBrInit_does s
  | brRead => exact runBrRead_does s
  | hdrWrite => exact runHdrWrite_does s
  | hdrRead => exact runHdrRead_does s
  | encStream => exact runEncStream_does s
  | trlWrite => exact runTrlWrite_does s
  | decStream => exact runDecStream_does s
  | compress => exact runCompress_does s
  | decompress => exact runDecompress_does s

/-- Every command but `CLR` runs its procedure under the sticky gate. -/
theorem exec_eq_command {i : Instr} (hi : i ≠ .clr) (s : State) : exec i s = command (procOf i) s := by
  cases i with
  | clr => exact absurd rfl hi
  | _ => rfl

/-- A command other than `CLR` does nothing while a fault is recorded. -/
theorem exec_of_fault {i : Instr} {s t : State} (hi : i ≠ .clr) (hs : s.status.fault = true)
    (he : exec i s = .next t) : t = s := by
  rw [exec_eq_command hi, command_of_fault hs] at he
  exact (Host.Outcome.next.inj he).symm

theorem exec_of_noFault {i : Instr} {s t : State} (hi : i ≠ .clr) (hs : s.NoFault) (he : exec i s = .next t) :
    t = (procOf i s).state := by
  rw [exec_eq_command hi, command_of_noFault hs] at he
  exact (Host.Outcome.next.inj he).symm

/-- A command writes no items but its own. -/
theorem exec_writes {i : Instr} {s t : State} (he : exec i s = .next t) : Writes (itemsOf i) s t := by
  by_cases hi : i = .clr
  · subst hi
    obtain rfl := Host.Outcome.next.inj he
    exact clear_writes s
  by_cases hs : s.status.fault = true
  · rw [exec_of_fault hi hs he]
    exact .refl _ s
  · rw [exec_of_noFault hi (by simpa using hs) he]
    exact (procOf_does i s).writes

end Sys2Proof.Machine
end


section
/-! The write lists of spec 10 R22 to R49, read off the items each command writes. -/

namespace Sys2Proof.Machine

/-- The commands that spec 10 lets write an item. -/
def Item.writers : Item → List String
  | .host => []
  | .cut => []
  | .record => ["CLR"]
  | .fault => ["FQ_SCALE", "HP_CREATE", "HP_INSERT", "HP_EXTRACT", "HP_FILL", "ND_LEAF", "TB_BUILD", "CG_RUN",
      "BW_WRITE", "BW_FLUSH", "BR_READ", "HDR_WRITE", "HDR_READ", "ENC_STREAM", "TRL_WRITE", "DEC_STREAM",
      "COMPRESS", "DECOMPRESS"]
  | .output => ["BW_WRITE", "BW_FLUSH", "HDR_WRITE", "ENC_STREAM", "TRL_WRITE", "DEC_STREAM", "COMPRESS", "DECOMPRESS"]
  | .res => ["HP_INSERT", "HP_EXTRACT", "ND_LEAF", "BR_READ", "CLR"]
  | .nsym => ["FQ_SCALE", "HDR_READ", "COMPRESS", "DECOMPRESS", "CLR"]
  | .sft => ["FQ_SCALE", "HDR_READ", "COMPRESS", "DECOMPRESS", "CLR"]
  | .divisor => ["FQ_SCALE", "COMPRESS", "CLR"]
  | .totalBits => ["HDR_READ", "DECOMPRESS", "CLR"]
  | .root => ["TB_BUILD", "TB_FREE", "HP_FILL", "COMPRESS", "DECOMPRESS", "CLR"]
  | .arena => ["ND_LEAF", "TB_BUILD", "TB_FREE", "HP_FILL", "COMPRESS", "DECOMPRESS", "CLR"]
  | .heap => ["HP_CREATE", "HP_INSERT", "HP_EXTRACT", "HP_FILL", "TB_BUILD", "TB_FREE", "COMPRESS", "DECOMPRESS", "CLR"]
  | .hmax => ["HP_CREATE", "HP_FILL", "TB_FREE", "COMPRESS", "DECOMPRESS", "CLR"]
  | .writer => ["BW_INIT", "BW_WRITE", "BW_FLUSH", "ENC_STREAM", "COMPRESS", "CLR"]
  | .wtotal => ["BW_INIT", "BW_WRITE", "ENC_STREAM", "COMPRESS", "CLR"]
  | .reader => ["BR_INIT", "BR_READ", "DEC_STREAM", "DECOMPRESS", "CLR"]
  | .emitter => ["DEC_STREAM", "DECOMPRESS", "CLR"]
  | .inPos => ["FC_RUN", "ENC_STREAM", "HDR_READ", "BR_READ", "DEC_STREAM", "COMPRESS", "DECOMPRESS"]
  | .ft => ["FC_RUN", "COMPRESS", "CLR"]
  | .codes => ["CG_RUN", "COMPRESS", "CLR"]
  | .set .single => ["CG_RUN", "COMPRESS"]
  | .set .ftValid => ["FC_RUN", "COMPRESS"]
  | .set .sftValid => ["FQ_SCALE", "HDR_READ", "COMPRESS", "DECOMPRESS"]
  | .set .heapValid => ["HP_CREATE", "HP_FILL", "COMPRESS", "DECOMPRESS"]
  | .set .ctValid => ["CG_RUN", "COMPRESS"]
  | .set .hdrValid => ["HDR_READ", "DECOMPRESS"]
  | .set .bwValid => ["BW_INIT", "COMPRESS"]
  | .set .brValid => ["BR_INIT", "DECOMPRESS"]
  | .unset .single => ["CG_RUN", "COMPRESS", "CLR"]
  | .unset .heapValid => ["TB_FREE", "COMPRESS", "DECOMPRESS", "CLR"]
  | .unset _ => ["CLR"]

/-- Every item a command writes is one that spec 10 lets it write. -/
theorem mnemonic_mem_writers (i : Instr) : ∀ x ∈ itemsOf i, i.mnemonic ∈ x.writers := by
  cases i <;> simp [itemsOf, Instr.mnemonic, Item.writers, clearItems, compressItems, decompressItems]

/-- A command outside an item's write list leaves the item alone. -/
theorem exec_same {i : Instr} {s t : State} (he : exec i s = .next t) (x : Item) (hx : i.mnemonic ∉ x.writers) :
    x.Same s t := exec_writes he x fun hin => hx (mnemonic_mem_writers i x hin)

theorem mnemonic_eq_clr {i : Instr} : i.mnemonic = "CLR" ↔ i = .clr := by
  cases i <;> simp [Instr.mnemonic]

/-- Without a fault at its end a command left the record of 60 R241 alone. -/
theorem RecordMoves.of_noFault {s t : State} (h : RecordMoves s t) (ht : t.NoFault) :
    t.err = s.err ∧ t.errinfo = s.errinfo := by
  rcases h with ⟨-, he, hi⟩ | ⟨-, hf, -⟩
  · exact ⟨he, hi⟩
  · exact absurd hf (by simp [ht])

/-- `HP_CREATE` with a capacity in range raises nothing. -/
theorem runHpCreate_noFault {a : BitVec 12} {s : State} (hw : (Instr.hpCreate a).wellFormed = true) (hs : s.NoFault) :
    (runHpCreate a s).state.NoFault := by
  rw [runHpCreate, checkImm, hw]
  exact hs

/-- The row of 60 R246 is empty for `HP_CREATE`, whose range check is the decoder's, and for commands that raise
nothing. -/
theorem mayRaise_eq_nil {i : Instr} (h : mayRaise i = []) :
    (∃ a, i = .hpCreate a) ∨ i.mnemonic ∉ Item.fault.writers := by
  cases i <;> simp_all [mayRaise, Instr.mnemonic, Item.writers]

/-- The commands with an empty row in 60 R246 raise nothing. -/
theorem exec_noFault {i : Instr} {s t : State} (he : exec i s = .next t) (hw : i.wellFormed = true)
    (hr : mayRaise i = []) (hs : s.NoFault) : t.NoFault := by
  rcases mayRaise_eq_nil hr with ⟨a, rfl⟩ | hi
  · rw [exec_of_noFault (by simp) hs he]
    exact runHpCreate_noFault hw hs
  · exact exec_same he .fault hi hs

/-- Settles O57: each clause is one item of the state and its list of writers. -/
theorem writeLists : Obligations.WriteLists := by
  intro i s t he
  have same := exec_same he
  obtain ⟨harg0, hbuf, hin, hpend, hport⟩ := same .host (by simp [Item.writers])
  obtain ⟨hcap, hgrows⟩ := same .cut (by simp [Item.writers])
  have hrec : i.mnemonic ≠ "CLR" → RecordMoves s t := fun hi => same .record (by simpa [Item.writers] using hi)
  exact ⟨⟨harg0, hcap, hbuf, hin, hpend, hport⟩, hcap ▸ hgrows, same .output, same .res,
    fun h => ⟨same .nsym h, same .sft h⟩, same .divisor, same .totalBits, same .root, same .arena, same .heap,
    same .hmax, same .writer, same .wtotal, same .reader, same .emitter, same .inPos, same .ft, same .codes,
    fun hi ht => (hrec hi).of_noFault ht, exec_noFault he,
    fun hi hs => exec_of_fault (fun h => hi (mnemonic_eq_clr.2 h)) hs he,
    ⟨same (.set .single), same (.unset .single)⟩, ⟨same (.set .ftValid), same (.unset .ftValid)⟩,
    ⟨same (.set .sftValid), same (.unset .sftValid)⟩, ⟨same (.set .heapValid), same (.unset .heapValid)⟩,
    ⟨same (.set .ctValid), same (.unset .ctValid)⟩, ⟨same (.set .hdrValid), same (.unset .hdrValid)⟩,
    ⟨same (.set .bwValid), same (.unset .bwValid)⟩, ⟨same (.set .brValid), same (.unset .brValid)⟩⟩

end Sys2Proof.Machine
end


section
/-! The invariants of spec 10 unit by unit: what each unit's registers meet at all times and what they meet while no
fault is recorded, and how the procedures that write a unit keep it. A procedure that writes none of a unit's items
keeps it by its frame. -/

namespace Sys2Proof.Machine

/-! ## Predicates over a few items -/

/-- `P` depends on the items of `d` alone. -/
def Local (d : List Item) (P : State → Prop) : Prop := ∀ ⦃s t : State⦄, (∀ x ∈ d, x.Same s t) → P s → P t

theorem Local.of_writes {d w : List Item} {P : State → Prop} (hP : Local d P) {s t : State} (h : Writes w s t)
    (hd : ∀ x ∈ d, x ∉ w) (hs : P s) : P t := hP (fun x hx => h x (hd x hx)) hs

theorem Local.raise {d : List Item} {P : State → Prop} (hP : Local d P) (hd : .fault ∉ d) {e : Err} (he : e ≠ .ioRead)
    {info : Word64} {s : State} (hs : P s) : P (s.raise e info) :=
  hP.of_writes (raise_writes he info s) (fun _ hx hx' => hd (List.mem_singleton.1 hx' ▸ hx)) hs

/-- A run that writes none of the items keeps what depends on them alone. -/
theorem Local.ends {α : Type} {d : List Item} {P Q : State → Prop} (hP : Local d P) (hPQ : ∀ t, P t → Q t)
    ⦃w : List Item⦄ ⦃s : State⦄ ⦃r : Run α⦄ (h : r.Does w s) (hd : ∀ x ∈ d, x ∉ w) (hs : P s) : r.Ends (fun _ => P) Q :=
  Run.Ends.mono h (fun _ _ h => hP.of_writes h hd hs) fun t h => hPQ t (hP.of_writes h.1 hd hs)

/-- A flag that did not go to 1 and is 1 was 1. -/
theorem flag_of_set {f : Flag} {s t : State} (h : (Item.set f).Same s t) (ht : f.get t.status = true) :
    f.get s.status = true := by
  cases hs : f.get s.status with
  | true => rfl
  | false => rw [h hs] at ht; exact ht

/-- `COMPRESS` keeps what its parts keep (45 R216). -/
theorem runCompress_ends {P Q : State → Prop} {s : State}
    (hcount : (runFcRun { s with inPos := 0 }).Ends (fun _ => P) Q)
    (hscale : ∀ t, P t → (runFqScale t).Ends (fun _ => P) Q)
    (hraise : ∀ t, P t → Q (t.raise .alphabet256 (t.nsym.setWidth 64)))
    (hbuild : ∀ t, P t → (buildCodes t).Ends (fun _ => P) Q) (hwrite : ∀ t, P t → (writeFile t).Ends (fun _ => P) Q) :
    (runCompress s).Ends (fun _ => P) Q :=
  hcount.bind fun _ t ht => (hscale t ht).bind fun _ u hu => .require (hraise u hu) fun _ =>
    (hbuild u hu).bind fun _ v hv => hwrite v hv

/-- `DECOMPRESS` keeps what its parts keep (45 R217). -/
theorem runDecompress_ends {P Q : State → Prop} {s : State} (hread : (runHdrRead s).Ends (fun _ => P) Q)
    (htree : ∀ t, P t → (rebuildTree t).Ends (fun _ => P) Q)
    (hdecode : ∀ t limit, P t → (runDecStream (t.initReader limit)).Ends (fun _ => P) Q)
    (hfree : ∀ t, P t → (runTbFree t).Ends (fun _ => P) Q) : (runDecompress s).Ends (fun _ => P) Q :=
  hread.bind fun _ t ht => (htree t ht).bind fun _ u hu => (hdecode u _ hu).bind fun _ v hv => hfree v hv

/-! ## The scaled table and `NSYM` (10 R28) -/

/-- `NSYM` counts the symbols of a valid `SFT`. -/
def State.TableRest (s : State) : Prop := s.status.sftValid = true → s.nsym.toNat = presentCount s.sft

theorem tableRest_local : Local [.nsym, .sft, .set .sftValid] State.TableRest := by
  intro s t h hs hv
  have hn : t.nsym = s.nsym := h .nsym (by simp)
  have ht : t.sft = s.sft := h .sft (by simp)
  rw [hn, ht]
  exact hs (flag_of_set (h (.set .sftValid) (by simp)) hv)

/-- Storing a frequency for an absent symbol makes one more present. -/
theorem presentCount_symPut {t : Vector Byte 256} {c f : Byte} (hc : symAt t c = 0) (hf : f ≠ 0) :
    presentCount (symPut t c f) = presentCount t + 1 := by
  have hlt : c.toNat < t.toList.length := by simpa using c.isLt
  have hget : t.toList[c.toNat] = 0 := by simpa [symAt] using hc
  have hpos : (f != 0) = true := by simpa using hf
  rw [presentCount, symPut, Vector.toList_set, List.countP_set hlt, hget, hpos, presentCount]
  rfl

/-- Each pair `HDR_READ` stores makes one more symbol present. -/
theorem readPairs_count (n i : Nat) (s : State) :
    (readPairs n i s).Ends (fun _ t => presentCount t.sft = presentCount s.sft + n) fun _ => True := by
  induction n generalizing i s with
  | zero => rfl
  | succ n ih =>
    refine .require trivial fun hf => .require trivial fun hc => ?_
    refine (ih (i + 1) _).mono (fun _ t ht => ?_) fun _ h => h
    rw [ht, presentCount_symPut (by simpa using hc) (by simpa using hf)]
    omega

theorem runFqScale_table (s : State) : (runFqScale s).Ends (fun _ => State.TableRest) fun _ => True := by
  refine .require trivial fun _ _ => ?_
  have hle := presentCount_le s.ft
  show (BitVec.ofNat 9 (presentCount s.ft)).toNat = presentCount (scaledTable s.ft)
  rw [presentCount_scaledTable, BitVec.toNat_ofNat, Nat.mod_eq_of_lt (by omega)]

theorem runHdrRead_table (s : State) : (runHdrRead s).Ends (fun _ => State.TableRest) fun _ => True := by
  refine .require trivial fun _ => .require trivial fun _ => (readPairs_count _ 0 _).bind fun _ t ht =>
    .require trivial fun _ => .require trivial fun _ _ => ?_
  have hlt := (s.inByte 0).isLt
  have hzero : presentCount (Vector.replicate 256 (0 : Byte)) = 0 := by
    rw [presentCount, List.countP_eq_zero]
    intro x hx
    rw [Vector.toList_replicate] at hx
    simp [List.eq_of_mem_replicate hx]
  show (BitVec.ofNat 9 (s.inByte 0).toNat).toNat = presentCount t.sft
  rw [ht, hzero, BitVec.toNat_ofNat, Nat.mod_eq_of_lt (by omega), Nat.zero_add]

theorem procOf_table {i : Instr} (hi : i ≠ .clr) {s : State} (hs : s.TableRest) :
    (procOf i s).Ends (fun _ => State.TableRest) fun _ => True := by
  have untouched := tableRest_local.ends (α := Unit) (Q := fun _ => True) fun _ _ => trivial
  cases i with
  | clr => exact absurd rfl hi
  | fqScale => exact runFqScale_table s
  | hdrRead => exact runHdrRead_table s
  | compress =>
    exact runCompress_ends (untouched (runFcRun_does _) (by decide) (by exact hs)) (fun t _ => runFqScale_table t)
      (fun _ _ => trivial) (fun t => untouched (buildCodes_does t) (by decide))
      fun t => untouched (writeFile_does t) (by decide)
  | decompress =>
    exact runDecompress_ends (runHdrRead_table s) (fun t => untouched (rebuildTree_does t) (by decide))
      (fun t limit ht => untouched (runDecStream_does _) (by decide) (by exact ht))
      fun t => untouched (runTbFree_does t) (by decide)
  | _ => exact untouched (procOf_does _ s) (by simp [itemsOf]) hs

/-! ## The code table (10 R42) -/

/-- Every code is at most 64 bits long and its pattern fits. -/
def State.CodesOk (s : State) : Prop :=
  ∀ c : Byte, (symAt s.ctLen c).toNat ≤ 64 ∧ (symAt s.ctPat c).toNat < 2 ^ (symAt s.ctLen c).toNat

/-- A valid code table holds codes. -/
def State.CodesRest (s : State) : Prop := s.status.ctValid = true → s.CodesOk

theorem codesRest_local : Local [.codes, .set .ctValid] State.CodesRest := by
  intro s t h hs hv
  obtain ⟨hp, hl⟩ := h .codes (by simp)
  have := hs (flag_of_set (h (.set .ctValid) (by simp)) hv)
  unfold State.CodesOk at *
  rwa [hp, hl]

theorem zeroCodes_codesOk (s : State) : s.zeroCodes.CodesOk := by
  intro c
  simp

theorem putCode_codesOk {s : State} {c : Byte} {pat len : Nat} (hs : s.CodesOk) (hl : len ≤ 64) (hp : pat < 2 ^ len) :
    (s.putCode c pat len).CodesOk := by
  intro d
  have hpat : pat < 2 ^ 64 := lt_of_lt_of_le hp (Nat.pow_le_pow_right (by omega) hl)
  have hlen : (BitVec.ofNat 8 len).toNat = len := by
    rw [BitVec.toNat_ofNat]
    omega
  by_cases hd : d = c
  · subst hd
    simp [hlen, word_toNat hpat, hl, hp]
  · simpa [symAt_symPut_ne, hd] using hs d

/-- The walk stores codes alone: the pattern it has at depth `64 - room` has that many bits. -/
theorem walk_codesOk {room : Nat} (h : Handle) {pat : Nat} {s : State} (hs : s.CodesOk) (hroom : room ≤ 64)
    (hpat : pat < 2 ^ (64 - room)) : (walk room h pat s).Ends (fun _ => State.CodesOk) fun _ => True := by
  induction room generalizing h pat s with
  | zero =>
    cases hl : (nodeAt s.node h).isLeaf with
    | true =>
      rw [walk_leaf hl]
      exact .require trivial fun _ => putCode_codesOk hs (by decide) hpat
    | false =>
      rw [walk_node_zero hl]
      trivial
  | succ room ih =>
    have hpow : 2 ^ (64 - room) = 2 * 2 ^ (64 - (room + 1)) := by
      rw [← pow_succ']
      congr 1
      omega
    cases hl : (nodeAt s.node h).isLeaf with
    | true =>
      rw [walk_leaf hl]
      exact .require trivial fun _ => putCode_codesOk hs (Nat.sub_le _ _) hpat
    | false =>
      rw [walk_node_succ hl]
      exact (ih _ hs (by omega) (by omega)).bind fun _ t ht => ih _ ht (by omega) (by omega)

theorem runCgRun_codes (s : State) : (runCgRun s).Ends (fun _ => State.CodesRest) fun _ => True := by
  refine .require trivial fun _ => ?_
  have hzero := zeroCodes_codesOk s
  dsimp only
  split
  · exact fun _ => putCode_codesOk hzero (by decide) (by decide)
  · exact (walk_codesOk (s := s.zeroCodes.setSingle false) _ hzero le_rfl (by decide)).bind fun _ t ht _ => ht

theorem buildCodes_codes (s : State) : (buildCodes s).Ends (fun _ => State.CodesRest) fun _ => True := by
  have untouched : ∀ {w : List Item} {r : Run Unit} {s : State}, r.Does w s → r.Ends (fun _ _ => True) fun _ => True :=
    fun h => Run.Ends.mono h (fun _ _ _ => trivial) fun _ _ => trivial
  unfold buildCodes
  split
  · exact (untouched (runHpFill_does s)).bind fun _ t _ => (untouched (runTbBuild_does t)).bind fun _ u _ =>
      (runCgRun_codes u).bind fun _ v hv =>
        codesRest_local.ends (fun _ _ => trivial) (runTbFree_does v) (by decide) hv
  · exact (untouched (runTbFree_does s)).bind fun _ t _ _ => zeroCodes_codesOk t

theorem procOf_codes {i : Instr} (hi : i ≠ .clr) {s : State} (hs : s.CodesRest) :
    (procOf i s).Ends (fun _ => State.CodesRest) fun _ => True := by
  have untouched := codesRest_local.ends (α := Unit) (Q := fun _ => True) fun _ _ => trivial
  cases i with
  | clr => exact absurd rfl hi
  | cgRun => exact runCgRun_codes s
  | compress =>
    exact runCompress_ends (untouched (runFcRun_does _) (by decide) (by exact hs))
      (fun t => untouched (runFqScale_does t) (by decide)) (fun _ _ => trivial) (fun t _ => buildCodes_codes t)
      fun t => untouched (writeFile_does t) (by decide)
  | _ => exact untouched (procOf_does _ s) (by simp [itemsOf, decompressItems]) hs

/-! ## The bit writer (10 R34, R45) -/

/-- The writer's registers are in range, fault or not. -/
def State.WriterRange (s : State) : Prop :=
  s.bufBytes ≠ 0 ∧ s.wbuf.length = s.bufBytes.toNat ∧ s.wpos.toNat ≤ 8 * s.bufBytes.toNat ∧
  s.wpos.toNat ≤ s.wtotal.toNat

/-- The writer is at rest, as it is without a fault. -/
def State.WriterRest (s : State) : Prop :=
  s.WriterRange ∧ s.wpos.toNat < 8 * s.bufBytes.toNat ∧ (s.status.bwValid = true → s.WriterClean)

theorem writerRange_local : Local [.host, .writer, .wtotal] State.WriterRange := by
  intro s t h hs
  obtain ⟨-, hb, -⟩ := h .host (by simp)
  obtain ⟨hp, hw⟩ := h .writer (by simp)
  have ht : t.wtotal = s.wtotal := h .wtotal (by simp)
  simpa only [State.WriterRange, hb, hp, hw, ht] using hs

theorem writerRest_local : Local [.host, .writer, .wtotal, .set .bwValid] State.WriterRest := by
  intro s t h ⟨hr, hlt, hc⟩
  obtain ⟨-, hb, -⟩ := h .host (by simp)
  obtain ⟨hp, hw⟩ := h .writer (by simp)
  refine ⟨writerRange_local (fun x hx => h x (List.mem_append_left [_] hx)) hr, by rwa [hp, hb], fun hv => ?_⟩
  rw [State.WriterClean, hp, hw]
  exact hc (flag_of_set (h (.set .bwValid) (by simp)) hv)

theorem State.WriterOk.range {s : State} (h : s.WriterOk) : s.WriterRange := by
  obtain ⟨h0, hl, hp, ht, -⟩ := h
  exact ⟨h0, hl, hp.le, ht⟩

theorem State.WriterOk.rest {s : State} (h : s.WriterOk) : s.WriterRest := by
  have hr := h.range
  obtain ⟨-, -, hp, -, hc⟩ := h
  exact ⟨hr, hp, fun _ => hc⟩

/-- With `BW_VALID` a writer at rest is in order. -/
theorem State.WriterRest.ok {s : State} (h : s.WriterRest) (hv : s.status.bwValid = true) : s.WriterOk := by
  obtain ⟨⟨h0, hl, -, ht⟩, hp, hc⟩ := h
  exact ⟨h0, hl, hp, ht, hc hv⟩

/-- An empty writer is in order. -/
theorem zeroWbuf_writerOk {s : State} (h0 : s.bufBytes ≠ 0) (hp : s.wpos = 0) : s.zeroWbuf.WriterOk := by
  have hpos := bufBytes_pos h0
  refine ⟨h0, by simp, by simp [hp]; omega, by simp [hp], fun b hb => ?_⟩
  rw [State.zeroWbuf_wbuf, streamBits_replicate] at hb
  exact List.eq_of_mem_replicate (List.mem_of_mem_drop hb)

/-- Appending to `OUT` leaves the writer in range, whether or not the bytes fit. -/
theorem outAppend_writerRange {s : State} (v : List Byte) (hs : s.WriterRange) :
    (outAppend v s).Ends (fun _ => State.WriterRange) State.WriterRange :=
  writerRange_local.ends (fun _ h => h) (outAppend_does v s) (by decide) hs

theorem writeBit_writer (b : Bool) {s : State} (hs : s.WriterOk) :
    (writeBit b s).Ends (fun _ => State.WriterOk) State.WriterRange := by
  refine .require (writerRange_local.raise (by decide) (by decide) hs.range) fun ht => ?_
  obtain ⟨hp, htot, hl, hc, -⟩ := placeBit_spec b hs (by simpa using ht)
  obtain ⟨h0, -, hlt, hpt, -⟩ := hs
  have hrange : (s.placeBit b).WriterRange := by
    refine ⟨h0, hl, ?_, ?_⟩
    · rw [hp, State.placeBit_bufBytes]; omega
    · omega
  dsimp only
  split
  · exact (outAppend_writerRange _ hrange).bind fun _ t ht => zeroWbuf_writerOk (s := { t with wpos := 0 }) ht.1 rfl
  · rename_i hne
    obtain ⟨h0', hl', hle, ht'⟩ := hrange
    exact ⟨h0', hl', by omega, ht', hc⟩

theorem writeBits_writer (pat : Word64) (len : Nat) {s : State} (hs : s.WriterOk) :
    (writeBits pat len s).Ends (fun _ => State.WriterOk) State.WriterRange := by
  induction len generalizing s with
  | zero => exact hs
  | succ k ih => exact (writeBit_writer _ hs).bind fun _ t ht => ih ht

theorem encodeBytes_writer (msg : List Byte) {s : State} (hs : s.WriterOk) :
    (encodeBytes msg s).Ends (fun _ => State.WriterOk) State.WriterRange := by
  induction msg generalizing s with
  | nil => exact hs
  | cons c cs ih =>
    exact .require (writerRange_local.raise (by decide) (by decide) hs.range) fun _ =>
      (writeBits_writer _ _ (s := { s with inPos := word (s.inPos.toNat + 1) }) hs).bind fun _ t ht => ih ht

theorem runBwInit_writer {s : State} (hs : s.WriterRange) :
    (runBwInit s).Ends (fun _ => State.WriterRest) State.WriterRange := by
  show State.WriterRest { s with wpos := 0, wtotal := 0 }.zeroWbuf.setBwValid
  exact State.WriterOk.rest (zeroWbuf_writerOk (s := { s with wpos := 0, wtotal := 0 }) hs.1 rfl)

theorem runEncStream_writer {s : State} (hs : s.WriterRest) :
    (runEncStream s).Ends (fun _ => State.WriterRest) State.WriterRange := by
  refine .require (writerRange_local.raise (by decide) (by decide) hs.1) fun hv => ?_
  exact (encodeBytes_writer _ (hs.ok (Bool.and_eq_true_iff.1 hv).2)).mono (fun _ _ h => h.rest) fun _ h => h

theorem runBwFlush_writer {s : State} (hs : s.WriterRange) :
    (runBwFlush s).Ends (fun _ => State.WriterRest) State.WriterRange :=
  .require (writerRange_local.raise (by decide) (by decide) hs) fun _ =>
    (outAppend_writerRange _ hs).bind fun _ t ht => (zeroWbuf_writerOk (s := { t with wpos := 0 }) ht.1 rfl).rest

theorem writeFile_writer {s : State} (hs : s.WriterRest) :
    (writeFile s).Ends (fun _ => State.WriterRest) State.WriterRange := by
  have untouched := writerRest_local.ends (α := Unit) fun _ h => h.1
  exact (untouched (runHdrWrite_does s) (by decide) hs).bind fun _ t ht => (runBwInit_writer ht.1).bind fun _ u hu =>
    (runEncStream_writer hu).bind fun _ v hv => (runBwFlush_writer hv.1).bind fun _ x hx =>
      untouched (runTrlWrite_does x) (by decide) hx

theorem procOf_writer {i : Instr} (hi : i ≠ .clr) {s : State} (hs : s.WriterRest) :
    (procOf i s).Ends (fun _ => State.WriterRest) State.WriterRange := by
  have untouched := writerRest_local.ends (α := Unit) fun _ h => h.1
  have raise : ∀ {e : Err} {info : Word64} {s : State}, e ≠ .ioRead → s.WriterRest → (s.raise e info).WriterRange :=
    fun he hs => writerRange_local.raise (by decide) he hs.1
  cases i with
  | clr => exact absurd rfl hi
  | bwInit => exact runBwInit_writer hs.1
  | bwWrite a =>
    exact .require (raise (by decide) hs) fun _ => .require (raise (by decide) hs) fun hv =>
      (writeBits_writer _ _ (hs.ok hv)).mono (fun _ _ h => h.rest) fun _ h => h
  | bwFlush => exact runBwFlush_writer hs.1
  | encStream => exact runEncStream_writer hs
  | compress =>
    exact runCompress_ends (untouched (runFcRun_does _) (by decide) (by exact hs))
      (fun t => untouched (runFqScale_does t) (by decide)) (fun _ => raise (by decide))
      (fun t => untouched (buildCodes_does t) (by decide)) fun _ => writeFile_writer
  | _ => exact untouched (procOf_does _ s) (by simp [itemsOf, decompressItems]) hs


/-! ## The bit reader (10 R35, R46) -/

theorem readerOk_local : Local [.host, .reader] State.ReaderOk := by
  intro s t h hs
  obtain ⟨-, hb, hi, -⟩ := h .host (by simp)
  obtain ⟨hp, hf, ht, -, hr⟩ := h .reader (by simp)
  simpa only [State.ReaderOk, hb, hi, hp, hf, ht, hr] using hs

theorem takeBit_reader {s : State} (hs : s.ReaderOk) (hp : s.rpos.toNat < 8 * s.rfill.toNat) :
    (takeBit s).Ends (fun _ => State.ReaderOk) State.ReaderOk := by
  by_cases ht : s.rtotal.toNat < 2 ^ 64 - 1
  · obtain ⟨b, t, he, -, -, -, hok, -⟩ := takeBit_spec hs ht hp
    rw [he]
    exact hok
  · rw [takeBit_overflow (by omega)]
    exact readerOk_local.raise (by decide) (by decide) hs

theorem readBit_reader (s : State) (hs : s.ReaderOk) : (readBit s).Ends (fun _ => State.ReaderOk) State.ReaderOk := by
  have hle := hs.2.2.2.1
  unfold readBit
  split
  next hp =>
    obtain ⟨hok, hfill, hpos, -⟩ := refill_spec hs hp
    split
    · exact hs
    · exact takeBit_reader hok (by omega)
  next hp => exact takeBit_reader hs (by omega)

theorem runDecStream_reader {s : State} (hs : s.ReaderOk) :
    (runDecStream s).Ends (fun _ => State.ReaderOk) State.ReaderOk := by
  have raise : ∀ {e : Err} {info : Word64} {s : State}, e ≠ .ioRead → s.ReaderOk → (s.raise e info).ReaderOk :=
    fun he hs => readerOk_local.raise (by decide) he hs
  refine .require (raise (by decide) hs) fun _ => .require (raise (by decide) hs) fun _ => ?_
  refine (decodeLoop_ends readBit_reader (fun b cur t => readerOk_local.ends (fun _ h => h) (decodeBit_does b cur t)
    (by decide)) (fun t => raise (by decide)) _ _ (s := { s with olen := 0 }) hs).bind fun _ t ht => ?_
  exact .require (raise (by decide) ht) fun _ =>
    (readerOk_local.ends (fun _ h => h) (outAppend_does _ t) (by decide) ht).bind fun _ u hu => hu

/-- A reader just started is in order. -/
theorem initReader_reader {s : State} (limit : Word64) (hs : s.ReaderOk) : (s.initReader limit).ReaderOk := by
  obtain ⟨h0, hl, -, -, -, hin⟩ := hs
  exact ⟨h0, hl, Nat.zero_le _, Nat.zero_le _, Nat.zero_le _, hin⟩

theorem procOf_reader {i : Instr} (hi : i ≠ .clr) {s : State} (hs : s.ReaderOk) :
    (procOf i s).Ends (fun _ => State.ReaderOk) State.ReaderOk := by
  have untouched := readerOk_local.ends (α := Unit) fun _ h => h
  cases i with
  | clr => exact absurd rfl hi
  | brInit => exact initReader_reader s.arg0 hs
  | brRead =>
    exact .require (readerOk_local.raise (by decide) (by decide) hs) fun _ =>
      (readBit_reader s hs).bind fun _ t ht => ht
  | decStream => exact runDecStream_reader hs
  | decompress =>
    exact runDecompress_ends (untouched (runHdrRead_does s) (by decide) hs)
      (fun t => untouched (rebuildTree_does t) (by decide))
      (fun _ limit ht => runDecStream_reader (initReader_reader limit ht))
      fun t => untouched (runTbFree_does t) (by decide)
  | _ => exact untouched (procOf_does _ s) (by simp [itemsOf, compressItems]) hs

/-! ## The output buffer of the decoder (10 R36, R47) -/

/-- The output buffer has its size, fault or not. -/
def State.EmitterRange (s : State) : Prop := s.obuf.length = s.bufBytes.toNat

/-- The output buffer is empty, as it is between commands without a fault. -/
def State.EmitterRest (s : State) : Prop := s.EmitterRange ∧ s.olen = 0

theorem emitterRange_local : Local [.host, .emitter] State.EmitterRange := by
  intro s t h hs
  obtain ⟨-, hb, -⟩ := h .host (by simp)
  obtain ⟨-, ho⟩ := h .emitter (by simp)
  rwa [State.EmitterRange, hb, ho]

theorem emitterRest_local : Local [.host, .emitter] State.EmitterRest := by
  intro s t h ⟨hr, ho⟩
  obtain ⟨hl, -⟩ := h .emitter (by simp)
  exact ⟨emitterRange_local h hr, hl.trans ho⟩

theorem outAppend_emitterRange (v : List Byte) {s : State} (hs : s.EmitterRange) :
    (outAppend v s).Ends (fun _ => State.EmitterRange) State.EmitterRange :=
  emitterRange_local.ends (fun _ h => h) (outAppend_does v s) (by decide) hs

theorem emit_emitter (c : Byte) (s : State) (hs : s.EmitterRange) :
    (emit c s).Ends (fun _ => State.EmitterRange) State.EmitterRange := by
  have hset : State.EmitterRange { s with
      obuf := s.obuf.set s.olen.toNat c, olen := word (s.olen.toNat + 1) } := by
    simpa [State.EmitterRange] using hs
  unfold emit
  dsimp only
  split
  · exact (outAppend_emitterRange _ hset).bind fun _ t ht => ht
  · exact hset

theorem runDecStream_emitter {s : State} (hs : s.EmitterRange) :
    (runDecStream s).Ends (fun _ => State.EmitterRest) State.EmitterRange := by
  have raise : ∀ {e : Err} {info : Word64} {s : State}, e ≠ .ioRead → s.EmitterRange → (s.raise e info).EmitterRange :=
    fun he hs => emitterRange_local.raise (by decide) he hs
  refine .require (raise (by decide) hs) fun _ => .require (raise (by decide) hs) fun _ => ?_
  refine (decodeLoop_ends (fun t => emitterRange_local.ends (fun _ h => h) (readBit_does t) (by decide))
    (fun b cur t => decodeBit_ends emit_emitter b cur) (fun t => raise (by decide)) _ _ (s := { s with olen := 0 })
    hs).bind fun _ t ht => ?_
  exact .require (raise (by decide) ht) fun _ => (outAppend_emitterRange _ ht).bind fun _ u hu => ⟨hu, rfl⟩

theorem procOf_emitter {i : Instr} (hi : i ≠ .clr) {s : State} (hs : s.EmitterRest) :
    (procOf i s).Ends (fun _ => State.EmitterRest) State.EmitterRange := by
  have untouched := emitterRest_local.ends (α := Unit) fun _ h => h.1
  cases i with
  | clr => exact absurd rfl hi
  | decStream => exact runDecStream_emitter hs.1
  | decompress =>
    exact runDecompress_ends (untouched (runHdrRead_does s) (by decide) hs)
      (fun t => untouched (rebuildTree_does t) (by decide))
      (fun t _ ht => runDecStream_emitter (by exact ht.1))
      fun t => untouched (runTbFree_does t) (by decide)
  | _ => exact untouched (procOf_does _ s) (by simp [itemsOf, compressItems]) hs

/-! ## The arena and the heap (10 R28, R32, R33, R43, R44, R54) -/

/-- The heap's and the arena's registers are in range, and so is `NSYM`, which `HP_FILL` makes the capacity. -/
def State.HeapRange (s : State) : Prop :=
  s.nsym.toNat ≤ 256 ∧ s.nalloc.toNat ≤ 511 ∧ s.hsize.toNat ≤ s.hmax.toNat ∧ s.hmax.toNat ≤ 256

/-- The registers are in range, and, if `arena` is assumed, arena, heap and root are in order. The ranges are kept
without the order, the order only with the ranges: with `arena` false or true the commands are gone through once for
both. -/
def State.HeapInv (arena : Prop) (s : State) : Prop := s.HeapRange ∧ (arena → s.ArenaOk)

theorem heapInv_local (arena : Prop) : Local [.nsym, .root, .arena, .heap, .hmax] (State.HeapInv arena) := by
  intro s t h hs
  have hsym : t.nsym = s.nsym := h .nsym (by simp)
  have hroot : t.root = s.root := h .root (by simp)
  have hmax : t.hmax = s.hmax := h .hmax (by simp)
  obtain ⟨hna, hno⟩ := h .arena (by simp)
  obtain ⟨hsz, hhp⟩ := h .heap (by simp)
  simpa only [State.HeapInv, State.HeapRange, State.ArenaOk, State.heapList, State.NodeOk, State.HeapOrdered,
    State.weight, hsym, hroot, hmax, hna, hno, hsz, hhp] using hs

/-- A valid entry stays valid when no entry up to it is written. -/
theorem State.NodeOk.congr {s t : State} {h : Nat} (hlt : h < 512)
    (he : ∀ k : Handle, k.toNat ≤ h → nodeAt t.node k = nodeAt s.node k) (hs : s.NodeOk h) : t.NodeOk h := by
  have hself := he (BitVec.ofNat 9 h) (by rw [BitVec.toNat_ofNat]; omega)
  rcases hs with hleaf | ⟨hl, hr, hsym, hw⟩
  · exact .inl (by simpa only [hself] using hleaf)
  · refine .inr ?_
    simp only [hself, State.weight, he _ hl.le, he _ hr.le]
    exact ⟨hl, hr, hsym, hw⟩

/-- What makes a new arena entry valid: a leaf, or the merge of two allocated nodes (42 R161, R163). -/
def State.Mergeable (s : State) (sym : Byte) (w : Nat) (l r : Handle) : Prop :=
  (l = Config.null ∧ r = Config.null) ∨
  (l.toNat < s.nalloc.toNat ∧ r.toNat < s.nalloc.toNat ∧ sym = Config.internalSym ∧ w = s.weight l + s.weight r)

/-- `NewNode` keeps the arena in order. -/
theorem State.ArenaOk.newNode {s : State} (hs : s.ArenaOk) {sym : Byte} {w : Nat} {l r : Handle}
    (hn : s.nalloc.toNat < 511) (hw : w < 2 ^ 64) (hnew : s.Mergeable sym w l r) :
    State.ArenaOk { s with
      node := s.node.setIfInBounds s.nalloc.toNat ⟨sym, word w, l, r⟩
      nalloc := BitVec.ofNat 10 (s.nalloc.toNat + 1) } := by
  obtain ⟨hroot, hheap, hnodes, hord⟩ := hs
  have hna := nalloc_succ hn
  have hold : ∀ k : Handle, k.toNat < s.nalloc.toNat →
      nodeAt (s.node.setIfInBounds s.nalloc.toNat ⟨sym, word w, l, r⟩) k = nodeAt s.node k :=
    fun k hk => nodeAt_set_ne _ _ (by omega)
  refine ⟨hroot.imp_right fun h => ?_, fun h hh => ?_, fun h hlt => ?_, ?_⟩
  · simp only [hna]; omega
  · have := hheap h hh
    simp only [hna]; omega
  · simp only [hna] at hlt
    by_cases hlast : h = s.nalloc.toNat
    · subst hlast
      have hself : nodeAt (s.node.setIfInBounds s.nalloc.toNat ⟨sym, word w, l, r⟩) (BitVec.ofNat 9 s.nalloc.toNat) =
          ⟨sym, word w, l, r⟩ := nodeAt_set_self _ _ (by rw [BitVec.toNat_ofNat]; omega) hn
      simp only [State.NodeOk, hself, State.weight]
      rcases hnew with hleaf | ⟨hl, hr, hsym, hsum⟩
      · exact .inl hleaf
      · rw [hold l hl, hold r hr, word_toNat hw]
        exact .inr ⟨hl, hr, hsym, hsum⟩
    · exact State.NodeOk.congr (by omega) (fun k hk => hold k (by omega)) (hnodes h (by omega))
  · rw [State.heapOrdered_iff] at hord ⊢
    exact hord.congr fun k hk => hold _ (hheap _ (mem_heapEntries.2 ⟨k, hk, rfl⟩))

/-- A heap array in order of the same or fewer allocated handles keeps the arena in order. -/
theorem State.ArenaOk.setHeap {s : State} (hs : s.ArenaOk) {heap : Vector Handle 256} {hsize : BitVec 9}
    (hheap : ∀ h ∈ heapEntries heap hsize.toNat, h.toNat < s.nalloc.toNat)
    (hord : EntriesOrdered s.node heap hsize.toNat) : State.ArenaOk { s with heap := heap, hsize := hsize } := by
  obtain ⟨hroot, -, hnodes, -⟩ := hs
  exact ⟨hroot, hheap, hnodes, State.heapOrdered_iff.2 hord⟩

section HeapInv

variable {arena : Prop} {s : State}

theorem State.HeapInv.raise {e : Err} {info : Word64} (he : e ≠ .ioRead) (hs : s.HeapInv arena) :
    (s.raise e info).HeapInv arena := (heapInv_local arena).raise (by simp) he hs

theorem newNode_heapInv (hs : s.HeapInv arena) {sym : Byte} {w : Nat} {l r : Handle}
    (hnew : arena → s.Mergeable sym w l r) : (newNode sym w l r s).Ends
      (fun h t => t.HeapInv arena ∧ (arena → h.toNat < t.nalloc.toNat)) (State.HeapInv arena) := by
  refine .require (hs.raise (by decide)) fun hn => .require (hs.raise (by decide)) fun hw => ?_
  have hn : s.nalloc.toNat < 511 := by simpa using hn
  have hw : w < 2 ^ 64 := by simpa using hw
  have hna := nalloc_succ hn
  have hnh := nalloc_handle hn
  obtain ⟨⟨hsym, -, hrange⟩, harena⟩ := hs
  refine ⟨⟨⟨hsym, ?_, hrange⟩, fun ha => (harena ha).newNode hn hw (hnew ha)⟩, fun _ => ?_⟩
  · simp only [hna]; omega
  · simp only [hna, hnh]; omega

theorem heapInsert_heapInv (hs : s.HeapInv arena) {h : Handle} (hlt : arena → h.toNat < s.nalloc.toNat) :
    (heapInsert h s).Ends (fun _ => State.HeapInv arena) (State.HeapInv arena) := by
  by_cases hroom : s.hsize.toNat < s.hmax.toNat
  · obtain ⟨⟨hsym, hna, hsz, hmax⟩, harena⟩ := hs
    obtain ⟨r, heap', he, -, -, hperm, hord⟩ := heapInsert_spec h s hroom hmax
    have hz := hsize_succ hroom hmax
    rw [he]
    refine ⟨⟨hsym, hna, by simp only [hz]; omega, hmax⟩, fun ha => (harena ha).setHeap ?_ ?_⟩
    · rw [hz]
      intro k hk
      rcases List.mem_cons.1 (hperm.subset hk) with rfl | hin
      · exact hlt ha
      · exact (harena ha).2.1 k hin
    · rw [hz]
      exact hord (harena ha).2.2.2
  · rw [heapInsert_full hroom]
    exact hs.raise (by decide)

theorem heapExtract_heapInv (hs : s.HeapInv arena) : (heapExtract s).Ends
    (fun h t => t.HeapInv arena ∧ t.nalloc = s.nalloc ∧ (arena → h.toNat < t.nalloc.toNat)) (State.HeapInv arena) := by
  by_cases h0 : s.hsize.toNat = 0
  · rw [heapExtract_empty h0]
    exact hs.raise (by decide)
  · obtain ⟨⟨hsym, hna, hsz, hmax⟩, harena⟩ := hs
    obtain ⟨heap', he, -, hperm, hord⟩ := heapExtract_spec s (by omega) (by omega)
    have hz := hsize_pred s.hsize
    have hin : ∀ {h}, h ∈ heapAt s.heap 0 :: heapEntries heap' (s.hsize.toNat - 1) → arena → h.toNat < s.nalloc.toNat :=
      fun hh ha => (harena ha).2.1 _ (hperm.symm.subset hh)
    rw [he]
    refine ⟨⟨⟨hsym, hna, by simp only [hz]; omega, hmax⟩, fun ha => (harena ha).setHeap ?_ ?_⟩, rfl,
      hin (List.mem_cons_self ..)⟩
    · rw [hz]
      exact fun k hk => hin (List.mem_cons_of_mem _ hk) ha
    · rw [hz]
      exact (hord (harena ha).2.2.2).1

theorem fillLeaves_heapInv (cs : List Byte) (hs : s.HeapInv arena) :
    (fillLeaves cs s).Ends (fun _ => State.HeapInv arena) (State.HeapInv arena) := by
  induction cs generalizing s with
  | nil => exact hs
  | cons c cs ih =>
    rw [fillLeaves]
    split
    · exact ih hs
    · exact (newNode_heapInv hs fun _ => .inl ⟨rfl, rfl⟩).bind fun h t ht =>
        (heapInsert_heapInv ht.1 ht.2).bind fun _ u hu => ih hu

theorem mergeRound_heapInv (hs : s.HeapInv arena) :
    (mergeRound s).Ends (fun _ => State.HeapInv arena) (State.HeapInv arena) := by
  refine (heapExtract_heapInv hs).bind fun a t ⟨ht, _, ha⟩ => (heapExtract_heapInv ht).bind fun b u ⟨hu, hna, hb⟩ => ?_
  refine (newNode_heapInv hu fun har => .inr ⟨hna ▸ ha har, hb har, rfl, rfl⟩).bind fun n v ⟨hv, hn⟩ => ?_
  exact (heapInsert_heapInv hv hn).bind fun _ x hx => hx

theorem mergeLoop_heapInv (k : Nat) (hs : s.HeapInv arena) :
    (mergeLoop k s).Ends (fun _ => State.HeapInv arena) (State.HeapInv arena) := by
  induction k generalizing s with
  | zero => exact hs
  | succ k ih => exact (mergeRound_heapInv hs).bind fun _ t ht => ih ht

/-- An empty arena and an empty heap are in order. -/
theorem heapInv_of_empty (hsym : s.nsym.toNat ≤ 256) (hna : s.nalloc = 0) (hroot : s.root = Config.null)
    (hsz : s.hsize = 0) (hmax : s.hmax.toNat ≤ 256) : s.HeapInv arena := by
  refine ⟨⟨hsym, by simp [hna], by simp [hsz], hmax⟩, fun _ => ⟨.inl hroot, ?_, ?_, ?_⟩⟩
  · simp [State.heapList, hsz]
  · simp [hna]
  · simp [State.HeapOrdered, hsz]

theorem runHpFill_heapInv (hs : s.HeapInv arena) :
    (runHpFill s).Ends (fun _ => State.HeapInv arena) (State.HeapInv arena) := by
  cases hv : s.status.sftValid with
  | true =>
    rw [runHpFill_eq hv]
    exact fillLeaves_heapInv _ (heapInv_of_empty hs.1.1 rfl rfl rfl hs.1.1)
  | false =>
    rw [runHpFill, hv]
    exact hs.raise (by decide)

theorem runTbBuild_heapInv (hs : s.HeapInv arena) :
    (runTbBuild s).Ends (fun _ => State.HeapInv arena) (State.HeapInv arena) := by
  refine .require (hs.raise (by decide)) fun _ => .require (hs.raise (by decide)) fun _ => ?_
  refine (mergeLoop_heapInv _ hs).bind fun _ t ht => (heapExtract_heapInv ht).bind fun h u ⟨hu, _, hlt⟩ => ?_
  exact ⟨hu.1, fun ha => ⟨.inr (hlt ha), (hu.2 ha).2⟩⟩

theorem runTbFree_heapInv (hs : s.HeapInv arena) :
    (runTbFree s).Ends (fun _ => State.HeapInv arena) (State.HeapInv arena) :=
  heapInv_of_empty (s := (runTbFree s).state) hs.1.1 rfl rfl rfl (Nat.zero_le _)

theorem buildCodes_heapInv (hs : s.HeapInv arena) :
    (buildCodes s).Ends (fun _ => State.HeapInv arena) (State.HeapInv arena) := by
  unfold buildCodes
  split
  · exact (runHpFill_heapInv hs).bind fun _ t ht => (runTbBuild_heapInv ht).bind fun _ u hu =>
      ((heapInv_local arena).ends (fun _ h => h) (runCgRun_does u) (by decide) hu).bind fun _ v hv =>
        runTbFree_heapInv hv
  · exact (runTbFree_heapInv hs).bind fun _ t ht => ht

theorem rebuildTree_heapInv (hs : s.HeapInv arena) :
    (rebuildTree s).Ends (fun _ => State.HeapInv arena) (State.HeapInv arena) := by
  unfold rebuildTree
  split
  · exact (runHpFill_heapInv hs).bind fun _ t ht => runTbBuild_heapInv ht
  · exact runTbFree_heapInv hs

/-- A new count of at most 256 symbols. -/
theorem State.HeapInv.setNsym (hs : s.HeapInv arena) {n : BitVec 9} (hn : n.toNat ≤ 256) :
    State.HeapInv arena { s with nsym := n } := ⟨⟨hn, hs.1.2⟩, hs.2⟩

theorem runFqScale_heapInv (hs : s.HeapInv arena) :
    (runFqScale s).Ends (fun _ => State.HeapInv arena) (State.HeapInv arena) := by
  have hle := presentCount_le s.ft
  have hn : (BitVec.ofNat 9 (presentCount s.ft)).toNat ≤ 256 := by
    rw [BitVec.toNat_ofNat]
    omega
  exact .require (hs.raise (by decide)) fun _ => hs.setNsym hn

theorem runHdrRead_heapInv (hs : s.HeapInv arena) :
    (runHdrRead s).Ends (fun _ => State.HeapInv arena) (State.HeapInv arena) := by
  refine .require (hs.raise (by decide)) fun _ => .require (hs.raise (by decide)) fun _ => ?_
  have hpairs := (heapInv_local arena).ends (fun _ h => h)
    (readPairs_does (s.inByte 0).toNat 0 { s with sft := Vector.replicate 256 0 }) (by decide) hs
  refine hpairs.bind fun _ t ht => ?_
  have hlt := (s.inByte 0).isLt
  have hn : (BitVec.ofNat 9 (s.inByte 0).toNat).toNat ≤ 256 := by
    rw [BitVec.toNat_ofNat]
    omega
  exact .require (ht.raise (by decide)) fun _ => .require (ht.raise (by decide)) fun _ => ht.setNsym hn

theorem runHpCreate_heapInv (a : BitVec 12) (hs : s.HeapInv arena) :
    (runHpCreate a s).Ends (fun _ => State.HeapInv arena) (State.HeapInv arena) := by
  refine .require (hs.raise (by decide)) fun hw => ?_
  have ha : a.toNat ≤ 256 := of_decide_eq_true hw
  obtain ⟨⟨hsym, hna, -, -⟩, harena⟩ := hs
  refine ⟨⟨hsym, hna, Nat.zero_le _, ?_⟩, fun har => ?_⟩
  · show (immCapacity a).toNat ≤ 256
    rw [immCapacity, BitVec.toNat_setWidth]
    omega
  · obtain ⟨hroot, -, hnodes, -⟩ := harena har
    exact ⟨hroot, fun _ hh => absurd hh (by simp [State.heapList]), hnodes, fun _ hi => absurd hi (Nat.not_lt_zero _)⟩

theorem runHpInsert_heapInv (a : BitVec 12) (hs : s.HeapInv arena) :
    (runHpInsert a s).Ends (fun _ => State.HeapInv arena) (State.HeapInv arena) := by
  refine .require (hs.raise (by decide)) fun _ => .require (hs.raise (by decide)) fun _ =>
    .require (hs.raise (by decide)) fun ha => ?_
  have ha : a.toNat < s.nalloc.toNat := by simpa using ha
  have hna := hs.1.2.1
  refine (heapInsert_heapInv hs fun _ => ?_).bind fun _ t ht => ht
  rw [immHandle, BitVec.toNat_setWidth]
  omega

theorem procOf_heapInv {i : Instr} (hi : i ≠ .clr) (hs : s.HeapInv arena) :
    (procOf i s).Ends (fun _ => State.HeapInv arena) (State.HeapInv arena) := by
  have untouched := (heapInv_local arena).ends (α := Unit) fun _ h => h
  cases i with
  | clr => exact absurd rfl hi
  | fqScale => exact runFqScale_heapInv hs
  | hpCreate a => exact runHpCreate_heapInv a hs
  | hpInsert a => exact runHpInsert_heapInv a hs
  | hpExtract =>
    exact .require (hs.raise (by decide)) fun _ => (heapExtract_heapInv hs).bind fun _ t ht => ht.1
  | hpFill => exact runHpFill_heapInv hs
  | ndLeaf a =>
    exact .require (hs.raise (by decide)) fun _ => (newNode_heapInv hs fun _ => .inl ⟨rfl, rfl⟩).bind fun _ t ht => ht.1
  | tbBuild => exact runTbBuild_heapInv hs
  | tbFree => exact runTbFree_heapInv hs
  | hdrRead => exact runHdrRead_heapInv hs
  | compress =>
    exact runCompress_ends (untouched (runFcRun_does _) (by decide) (by exact hs)) (fun _ => runFqScale_heapInv)
      (fun _ ht => ht.raise (by decide)) (fun _ => buildCodes_heapInv)
      fun t => untouched (writeFile_does t) (by decide)
  | decompress =>
    exact runDecompress_ends (runHdrRead_heapInv hs) (fun _ => rebuildTree_heapInv)
      (fun t limit ht => untouched (runDecStream_does _) (by decide) (by exact ht)) fun _ => runTbFree_heapInv
  | _ => exact untouched (procOf_does _ s) (by simp [itemsOf]) hs

end HeapInv

end Sys2Proof.Machine
end


section
/-! The invariants of spec 10 across a command, a host action and a step, assembled from the units. -/

namespace Sys2Proof.Machine

/-! ## The record of a fault (10 R26, 60 R240, R245) -/

/-- `ERR` is non-zero exactly with `STATUS.FAULT`, and one of the codes that are ever raised. -/
def State.RecordOk (s : State) : Prop :=
  (s.status.fault = true ↔ s.err ≠ 0) ∧ s.err.toNat ≤ 14 ∧ s.err ≠ Err.ioRead.code

theorem Err.code_range {e : Err} (he : e ≠ .ioRead) : e.code ≠ 0 ∧ e.code.toNat ≤ 14 ∧ e.code ≠ Err.ioRead.code := by
  cases e with
  | ioRead => exact absurd rfl he
  | _ => decide

theorem RecordMoves.recordOk {s t : State} (h : RecordMoves s t) (hs : s.RecordOk) : t.RecordOk := by
  rcases h with ⟨hf, he, -⟩ | ⟨-, hf, e, hne, he⟩
  · rwa [State.RecordOk, hf, he]
  · obtain ⟨h0, h14, h4⟩ := Err.code_range hne
    rw [State.RecordOk, hf, he]
    exact ⟨iff_of_true rfl h0, h14, h4⟩

/-! ## All units together -/

/-- The invariants sorted by unit. -/
structure State.Units (arena : Prop) (s : State) : Prop where
  record : s.RecordOk
  output : s.output.length < 2 ^ 64
  heap : s.HeapInv arena
  reader : s.ReaderOk
  writerRange : s.WriterRange
  emitterRange : s.EmitterRange
  writer : s.NoFault → s.WriterRest
  emitter : s.NoFault → s.EmitterRest
  table : s.NoFault → s.TableRest
  codes : s.NoFault → s.CodesRest

/-- `Bounds` and `Settled`, and, if `arena` is assumed, `ArenaOk`. -/
abbrev State.Sound (arena : Prop) (s : State) : Prop := s.Bounds ∧ s.Settled ∧ (arena → s.ArenaOk)

theorem State.units_iff {arena : Prop} {s : State} : s.Units arena ↔ s.Sound arena := by
  constructor
  · rintro ⟨⟨hfault, herr, hread⟩, hout, ⟨⟨hsym, hna, hsz, hmax⟩, harena⟩, ⟨h0, hrl, hrf, hrp, hrt, hin⟩,
      ⟨-, hwl, hwp, hwt⟩, hel, hwriter, hemitter, htable, hcodes⟩
    refine ⟨⟨h0, hwl, hrl, hel, hin, hout, hfault, herr, hread, hsym, hna, hsz, hmax, hwp, hwt, hrf, hrp, hrt⟩,
      fun hs => ?_, harena⟩
    obtain ⟨-, hlt, hclean⟩ := hwriter hs
    exact ⟨hlt, (hemitter hs).2, htable hs, hcodes hs, hclean⟩
  · rintro ⟨⟨h0, hwl, hrl, hel, hin, hout, hfault, herr, hread, hsym, hna, hsz, hmax, hwp, hwt, hrf, hrp, hrt⟩, hset,
      harena⟩
    have hrange : s.WriterRange := ⟨h0, hwl, hwp, hwt⟩
    refine ⟨⟨hfault, herr, hread⟩, hout, ⟨⟨hsym, hna, hsz, hmax⟩, harena⟩, ⟨h0, hrl, hrf, hrp, hrt, hin⟩, hrange, hel,
      fun hs => ?_, fun hs => ?_, fun hs => ?_, fun hs => ?_⟩
    all_goals obtain ⟨hlt, holen, htable, hcodes, hclean⟩ := hset hs
    · exact ⟨hrange, hlt, hclean⟩
    · exact ⟨hel, holen⟩
    · exact htable
    · exact hcodes

/-- A run that ends without a fault completed. -/
theorem Run.Ends.rest {R Q : State → Prop} {r : Run Unit} {w : List Item} {s : State} (h : r.Ends (fun _ => R) Q)
    (hd : r.Does w s) (hf : r.state.NoFault) : R r.state := by
  cases r with
  | ok a t => exact h
  | stop t => exact absurd hf (by simpa using hd.2)

section Units

variable {arena : Prop} {s t : State}

/-- A command that the sticky gate lets pass keeps every unit. -/
theorem State.Units.after_procOf {i : Instr} (hi : i ≠ .clr) (hs : s.NoFault) (h : s.Units arena) :
    (procOf i s).state.Units arena := by
  have hd := procOf_does i s
  have hrec : RecordMoves s (procOf i s).state :=
    hd.writes .record (by cases i <;> simp_all [itemsOf, compressItems, decompressItems])
  obtain ⟨-, hgrows⟩ : Item.cut.Same s (procOf i s).state :=
    hd.writes .cut fun hin => by simpa [Item.writers] using mnemonic_mem_writers i _ hin
  have hwriter := procOf_writer hi (h.writer hs)
  have hemitter := procOf_emitter hi (h.emitter hs)
  exact {
    record := hrec.recordOk h.record
    output := hgrows.length_lt h.output s.outCap.isLt
    heap := (procOf_heapInv hi h.heap).state
    reader := (procOf_reader hi h.reader).state
    writerRange := (hwriter.mono (fun _ _ h => h.1) fun _ h => h).state
    emitterRange := (hemitter.mono (fun _ _ h => h.1) fun _ h => h).state
    writer := hwriter.rest hd
    emitter := hemitter.rest hd
    table := (procOf_table hi (h.table hs)).rest hd
    codes := (procOf_codes hi (h.codes hs)).rest hd }

theorem State.Units.after_raise {e : Err} (he : e ≠ .ioRead) (info : Word64) (h : s.Units arena) :
    (s.raise e info).Units arena := by
  have hw := raise_writes he info s
  have hrec : RecordMoves s (s.raise e info) := hw .record (by simp)
  have hno : ¬ (s.raise e info).NoFault := by simp
  obtain ⟨-, hgrows⟩ : Item.cut.Same s (s.raise e info) := hw .cut (by simp)
  exact {
    record := hrec.recordOk h.record
    output := hgrows.length_lt h.output s.outCap.isLt
    heap := h.heap.raise he
    reader := readerOk_local.raise (by decide) he h.reader
    writerRange := writerRange_local.raise (by decide) he h.writerRange
    emitterRange := emitterRange_local.raise (by decide) he h.emitterRange
    writer := fun hf => absurd hf hno
    emitter := fun hf => absurd hf hno
    table := fun hf => absurd hf hno
    codes := fun hf => absurd hf hno }

/-- `CLR` leaves every unit at rest, whatever state it finds them in (46 R232). -/
theorem State.Units.after_clear (h : s.Units arena) : s.clear.Units arena := by
  obtain ⟨h0, -, -, -, -, hin⟩ := h.reader
  have hpos := bufBytes_pos h0
  have hbuf : ∀ n tick off, (freeBuffer n tick off).length = n := by simp [freeBuffer]
  have hrange : s.clear.WriterRange := ⟨h0, hbuf _ _ _, Nat.zero_le _, le_rfl⟩
  have hemit : s.clear.EmitterRange := hbuf _ _ _
  exact {
    record := by simp [State.RecordOk, Status.zero, Err.code]
    output := h.output
    heap := heapInv_of_empty (Nat.zero_le _) rfl rfl rfl (Nat.zero_le _)
    reader := ⟨h0, hbuf _ _ _, Nat.zero_le _, Nat.zero_le _, le_rfl, hin⟩
    writerRange := hrange
    emitterRange := hemit
    writer := fun _ => ⟨hrange, by simp; omega, fun hv => by simp [Status.zero] at hv⟩
    emitter := fun _ => ⟨hemit, rfl⟩
    table := fun _ hv => by simp [Status.zero] at hv
    codes := fun _ hv => by simp [Status.zero] at hv }

end Units

/-! ## Commands, host actions, steps -/

section Sound

variable {arena : Prop} {s t : State}

theorem exec_sound {i : Instr} (he : exec i s = .next t) (hs : s.Sound arena) : t.Sound arena := by
  rw [← State.units_iff] at hs ⊢
  by_cases hi : i = .clr
  · subst hi
    obtain rfl := Host.Outcome.next.inj he
    exact hs.after_clear
  · by_cases hf : s.status.fault = true
    · rwa [exec_of_fault hi hf he]
    · have hf : s.NoFault := by simpa using hf
      rw [exec_of_noFault hi hf he]
      exact hs.after_procOf hi hf

theorem illegalWord_sound {w : Word32} (he : illegalWord w s = .next t) (hs : s.Sound arena) : t.Sound arena := by
  rw [illegalWord_eq_next] at he
  obtain rfl := Host.Outcome.next.inj he
  split
  · exact hs
  · exact State.units_iff.1 ((State.units_iff.2 hs).after_raise (by decide) _)

theorem runWord_sound {w : Word32} (he : runWord w s = .next t) (hs : s.Sound arena) : t.Sound arena := by
  unfold runWord at he
  split at he
  · exact exec_sound he hs
  · exact illegalWord_sound he hs

/-- A read changes nothing but what it returned and the count of draws (20 R87). -/
theorem regRead_frame (n : RegNum) (s : State) :
    ∃ v k, k ≤ 1 ∧ s.regRead n = { s with portOut := some v, freeCount := s.freeCount + k } := by
  unfold State.regRead
  dsimp only
  split
  · exact ⟨_, 0, by omega, rfl⟩
  · exact ⟨_, 1, le_rfl, rfl⟩

theorem regWrite_sound (n : RegNum) (v : Word64) (hs : s.Sound arena) : (s.regWrite n v).Sound arena := by
  unfold State.regWrite
  split <;> exact hs

theorem replaceInput_sound {bytes : List Byte} (he : replaceInput bytes s = .next t) (hs : s.Sound arena) :
    t.Sound arena := by
  unfold replaceInput at he
  split at he
  next hlt =>
    obtain rfl := Host.Outcome.next.inj he
    obtain ⟨⟨h0, hwl, hrl, hel, -, hrest⟩, hset, harena⟩ := hs
    exact ⟨⟨h0, hwl, hrl, hel, hlt, hrest⟩, hset, harena⟩
  next => exact absurd he (by simp)

theorem discardOutput_sound (hs : s.Sound arena) : s.discardOutput.Sound arena := by
  obtain ⟨⟨h0, hwl, hrl, hel, hin, -, hrest⟩, hset, harena⟩ := hs
  exact ⟨⟨h0, hwl, hrl, hel, hin, by simp, hrest⟩, hset, harena⟩

theorem perform_sound {a : HostAction} (he : perform a s = .next t) (hs : s.Sound arena) : t.Sound arena := by
  cases a with
  | regRead n =>
    obtain rfl := Host.Outcome.next.inj he
    obtain ⟨v, k, -, hr⟩ := regRead_frame n s
    rw [hr]
    exact hs
  | regWrite n v =>
    simp only [perform] at he
    split at he
    · exact runWord_sound he hs
    · obtain rfl := Host.Outcome.next.inj he
      exact regWrite_sound n v hs
  | replaceIn bytes => exact replaceInput_sound he hs
  | discardOut =>
    obtain rfl := Host.Outcome.next.inj he
    exact discardOutput_sound hs
  | reset =>
    obtain rfl := Host.Outcome.next.inj he
    have hs : State.Sound arena { s with arg0 := 0, inPos := 0, outCap := BitVec.allOnes 64 } := hs
    exact State.units_iff.1 (State.units_iff.2 hs).after_clear

/-- Every step keeps the invariants, with the arena's among them or not. -/
theorem step_sound (he : step s = .next t) (hs : s.Sound arena) : t.Sound arena := by
  unfold step at he
  split at he
  · obtain rfl := Host.Outcome.next.inj he
    exact hs
  · exact perform_sound he hs

end Sound

/-- Settles O52: `Bounds` is kept beside `Settled`, nothing being assumed of the arena. -/
theorem boundsKept : Obligations.BoundsKept :=
  fun _ _ hb hs he => (step_sound (arena := False) he ⟨hb, hs, False.elim⟩).1

/-- Settles O53: the three invariants are kept together. -/
theorem arenaKept : Obligations.ArenaKept := by
  intro s t hb ha hs he
  obtain ⟨hb', hs', ha'⟩ := step_sound (arena := True) he ⟨hb, hs, fun _ => ha⟩
  exact ⟨hb', ha' trivial, hs'⟩

/-- Settles O54: `Settled` is kept beside `Bounds`, nothing being assumed of the arena. -/
theorem settledKept : Obligations.SettledKept :=
  fun _ _ hb hs he => (step_sound (arena := False) he ⟨hb, hs, False.elim⟩).2.1

/-- Settles O51: at reset every register is 0, `ROOT` is `NULL`, and no flag is set. -/
theorem resetMeetsInvariants : Obligations.ResetMeetsInvariants := by
  have h0 : State.reset.bufBytes ≠ 0 := by decide
  have hrange : State.reset.WriterRange := ⟨h0, List.length_replicate, Nat.zero_le _, le_rfl⟩
  have hemit : State.reset.EmitterRange := List.length_replicate
  have h : State.reset.Units True := {
    record := by simp [State.RecordOk, State.reset, Status.zero, Err.code]
    output := by simp [State.reset]
    heap := heapInv_of_empty (Nat.zero_le _) rfl rfl rfl (Nat.zero_le _)
    reader := ⟨h0, List.length_replicate, Nat.zero_le _, Nat.zero_le _, le_rfl, by simp [State.reset]⟩
    writerRange := hrange
    emitterRange := hemit
    writer := fun _ => ⟨hrange, by decide, fun hv => absurd hv (by decide)⟩
    emitter := fun _ => ⟨hemit, rfl⟩
    table := fun _ hv => absurd hv (by decide)
    codes := fun _ hv => absurd hv (by decide) }
  obtain ⟨hb, hs, ha⟩ := State.units_iff.1 h
  exact ⟨hb, ha trivial, hs⟩

end Sys2Proof.Machine
end


section
/-! The register port of spec 10 R21, R50 to R52: which register a number names, and what a read of it returns. -/

namespace Sys2Proof.Machine

/-! ## Exact reads and draws -/

section Read

variable {s : State} {n : RegNum}

theorem regRead_of_exact {v : Word64} (h : s.view n = exactView v) : s.regRead n = { s with portOut := some v } := by
  simp [State.regRead, h, exactView]

/-- The bits a draw of `w` bits may return. -/
theorem drawView_drawn (w : Nat) : (drawView w).drawn = BitVec.ofNat 64 (2 ^ w - 1) := by
  apply BitVec.eq_of_toNat_eq
  simp [drawView, BitVec.toNat_allOnes]

theorem regRead_of_draw {w : Nat} (h0 : 0 < w) (hw : w ≤ 64) (h : s.view n = drawView w) : s.regRead n = s.drawn w := by
  have hpow : 2 ^ w ≤ 2 ^ 64 := Nat.pow_le_pow_right (by omega) hw
  have hone : 2 ≤ 2 ^ w := Nat.le_self_pow (by omega) 2
  have hne : (drawView w).drawn ≠ 0 := by
    intro hz
    have hz := congrArg BitVec.toNat hz
    rw [drawView_drawn, BitVec.toNat_ofNat, Nat.mod_eq_of_lt (by omega)] at hz
    simp at hz
    omega
  have hknown : (drawView w).known = 0 := rfl
  unfold State.regRead
  simp only [h]
  rw [if_neg hne, PortView.value, hknown, drawView_drawn]
  exact congrArg (fun v => { s with portOut := some v, freeCount := s.freeCount + 1 }) (BitVec.zero_or ..)

/-- A conditional view reads the value or is a draw of its width. -/
theorem regRead_of_viewIf {w : Nat} (h0 : 0 < w) (hw : w ≤ 64) {c : Bool} {v : BitVec w} (h : s.view n = viewIf c v) :
    s.regRead n = if c then { s with portOut := some (v.setWidth 64) } else s.drawn w := by
  cases c with
  | true => exact regRead_of_exact h
  | false => exact regRead_of_draw h0 hw h

theorem view_of_noFault (hs : s.NoFault) {r : PortReg} (hr : portReg n = r) : s.view n = s.viewNormal r := by
  have hs : s.status.fault = false := hs
  simp [State.view, hs, hr]

theorem view_of_fault (hs : s.status.fault = true) {r : PortReg} (hr : portReg n = r) : s.view n = s.viewFaulted r := by
  simp [State.view, hs, hr]

/-- `CMD` reads 0, with or without a fault (10 R24, log 6). -/
theorem view_cmd (hn : portReg n = .cmd) : s.view n = exactView 0 := by
  rw [State.view, hn]
  split <;> rfl

/-- An unmapped number reads 0, with or without a fault (10 R51, log 6). -/
theorem view_unmapped (hn : portReg n = .unmapped) : s.view n = exactView 0 := by
  rw [State.view, hn]
  split <;> rfl

end Read

/-! ## The register map (10 R50) -/

/-- The number of a table entry: the table's base and the entry. -/
theorem portReg_table {w : Nat} (base : Nat) (c : BitVec w) (hw : w ≤ 16) (h0 : 0x0100 ≤ base)
    (h : base + 2 ^ w ≤ 2 ^ 16) : portReg (BitVec.ofNat 16 base + c.setWidth 16) = tableReg (base + c.toNat) := by
  have hc := c.isLt
  have hn : (BitVec.ofNat 16 base + c.setWidth 16).toNat = base + c.toNat := by
    rw [BitVec.toNat_add, BitVec.toNat_setWidth_of_le hw, BitVec.toNat_ofNat, Nat.mod_add_mod,
      Nat.mod_eq_of_lt (by omega)]
  rw [portReg, hn, if_neg (by omega)]

/-- A symbol counted back from its register number. -/
theorem symbol_of_mod (c : Byte) (k : Nat) : BitVec.ofNat 8 ((256 * k + c.toNat) % 256) = c := by
  have := c.isLt
  apply BitVec.eq_of_toNat_eq
  rw [BitVec.toNat_ofNat]
  omega

/-- A handle counted back from its register number. -/
theorem handle_of_sub (h : Handle) (base : Nat) : BitVec.ofNat 9 (base + h.toNat - base) = h := by
  rw [Nat.add_sub_cancel_left, BitVec.ofNat_toNat, BitVec.setWidth_eq]

section Tables

variable (c : Byte)

theorem portReg_ft : portReg (0x0100 + c.setWidth 16) = .ft c := by
  have hc := c.isLt
  refine (portReg_table 0x0100 c (by omega) (by decide) (by decide)).trans ?_
  simp (disch := omega) only [tableReg, if_neg, if_pos]
  exact congrArg _ (symbol_of_mod c 1)

theorem portReg_sft : portReg (0x0200 + c.setWidth 16) = .sft c := by
  have hc := c.isLt
  refine (portReg_table 0x0200 c (by omega) (by decide) (by decide)).trans ?_
  simp (disch := omega) only [tableReg, if_neg, if_pos]
  exact congrArg _ (symbol_of_mod c 2)

theorem portReg_ctPat : portReg (0x0300 + c.setWidth 16) = .ctPat c := by
  have hc := c.isLt
  refine (portReg_table 0x0300 c (by omega) (by decide) (by decide)).trans ?_
  simp (disch := omega) only [tableReg, if_neg, if_pos]
  exact congrArg _ (symbol_of_mod c 3)

theorem portReg_ctLen : portReg (0x0400 + c.setWidth 16) = .ctLen c := by
  have hc := c.isLt
  refine (portReg_table 0x0400 c (by omega) (by decide) (by decide)).trans ?_
  simp (disch := omega) only [tableReg, if_neg, if_pos]
  exact congrArg _ (symbol_of_mod c 4)

theorem portReg_heap : portReg (0x0500 + c.setWidth 16) = .heap c := by
  have hc := c.isLt
  refine (portReg_table 0x0500 c (by omega) (by decide) (by decide)).trans ?_
  simp (disch := omega) only [tableReg, if_neg, if_pos]
  exact congrArg _ (symbol_of_mod c 5)

theorem portReg_nodeW {h : Handle} (hh : h.toNat ≤ 510) : portReg (0x0800 + h.setWidth 16) = .nodeW h := by
  refine (portReg_table 0x0800 h (by omega) (by decide) (by decide)).trans ?_
  simp (disch := omega) only [tableReg, Config.nodeMax, if_neg, if_pos]
  exact congrArg _ (handle_of_sub h 0x0800)

theorem portReg_nodeLinks {h : Handle} (hh : h.toNat ≤ 510) : portReg (0x0A00 + h.setWidth 16) = .nodeLinks h := by
  refine (portReg_table 0x0A00 h (by omega) (by decide) (by decide)).trans ?_
  simp (disch := omega) only [tableReg, Config.nodeMax, if_neg, if_pos]
  exact congrArg _ (handle_of_sub h 0x0A00)

end Tables

/-- Above `BUF_BYTES` no number names a scalar register. -/
theorem scalarReg_of_ge {n : Nat} (h : 0x1D ≤ n) : scalarReg n = .unmapped := by
  obtain ⟨m, rfl⟩ := Nat.exists_eq_add_of_le' h
  rfl

theorem scalarReg_gap : ∀ n < 0x1D, n = 0x06 ∨ n = 0x07 ∨ n = 0x0F ∨ n = 0x17 → scalarReg n = .unmapped := by decide

theorem portReg_unmapped {n : RegNum} (hn : UnmappedReg n.toNat) : portReg n = .unmapped := by
  unfold portReg
  split
  next hlt =>
    by_cases hgap : n.toNat < 0x1D
    · exact scalarReg_gap _ hgap (by omega)
    · exact scalarReg_of_ge (by omega)
  next hge =>
    have h : (0x0600 ≤ n.toNat ∧ n.toNat < 0x0800) ∨ n.toNat = 0x09FF ∨ 0x0BFF ≤ n.toNat := by omega
    rcases h with h | h | h <;> simp (disch := omega) only [tableReg, Config.nodeMax, if_neg, if_pos]

/-- A register that is no table's has one number. -/
theorem portReg_eq_iff {n : RegNum} {k : Nat} {r : PortReg} (hk : k < 0x1D) (hr : r ≠ .unmapped)
    (hscalar : ∀ m < 0x1D, scalarReg m = r ↔ m = k) (htable : ∀ m, tableReg m ≠ r) :
    portReg n = r ↔ n = BitVec.ofNat 16 k := by
  have hnum : n = BitVec.ofNat 16 k ↔ n.toNat = k := by
    rw [← BitVec.toNat_inj, BitVec.toNat_ofNat, Nat.mod_eq_of_lt (by omega)]
  rw [hnum, portReg]
  split
  next hlt =>
    by_cases hgap : n.toNat < 0x1D
    · exact hscalar _ hgap
    · rw [scalarReg_of_ge (by omega)]
      exact iff_of_false hr.symm (by omega)
  next hge => exact iff_of_false (htable _) (by omega)

/-- No table's number names one of the registers a write takes effect on. -/
theorem tableReg_ne (m : Nat) :
    tableReg m ≠ .cmd ∧ tableReg m ≠ .arg0 ∧ tableReg m ≠ .inPos ∧ tableReg m ≠ .outCap := by
  unfold tableReg
  split_ifs <;> simp

theorem portReg_eq_cmd {n : RegNum} : portReg n = .cmd ↔ n = 0x0000 :=
  portReg_eq_iff (k := 0x00) (by decide) (by decide) (by decide) fun m => (tableReg_ne m).1

theorem portReg_eq_arg0 {n : RegNum} : portReg n = .arg0 ↔ n = 0x0004 :=
  portReg_eq_iff (k := 0x04) (by decide) (by decide) (by decide) fun m => (tableReg_ne m).2.1

theorem portReg_eq_inPos {n : RegNum} : portReg n = .inPos ↔ n = 0x0018 :=
  portReg_eq_iff (k := 0x18) (by decide) (by decide) (by decide) fun m => (tableReg_ne m).2.2.1

theorem portReg_eq_outCap {n : RegNum} : portReg n = .outCap ↔ n = 0x001B :=
  portReg_eq_iff (k := 0x1B) (by decide) (by decide) (by decide) fun m => (tableReg_ne m).2.2.2

/-! ## Writes (10 R24, R51) -/

/-- A write takes effect on the host's three registers alone. -/
theorem regWrite_eq (n : RegNum) (v : Word64) (s : State) : s.regWrite n v =
    if n = 0x0004 then { s with arg0 := v }
    else if n = 0x0018 then { s with inPos := v }
    else if n = 0x001B then { s with outCap := v }
    else s := by
  simp only [← portReg_eq_arg0, ← portReg_eq_inPos, ← portReg_eq_outCap, State.regWrite]
  cases portReg n <;> simp

/-- Settles O5: a step performs the write, which runs what the low 32 bits decode to. -/
theorem commandWrite : Obligations.CommandWrite := by
  intro s v rest hp
  have hstep : step s = runWord (v.setWidth 32) { s with pending := rest } := by
    rw [step, hp]
    rfl
  refine ⟨fun i hi => ?_, fun e he => ?_, regRead_of_exact (view_cmd rfl)⟩
  · rw [hstep, runWord, hi]
  · rw [hstep, runWord, he]

/-- Settles O7: an unmapped number views 0, and `regWrite` decides by the register the number names. -/
theorem portWrite : Obligations.PortWrite := by
  intro s n v
  refine ⟨fun hn => regRead_of_exact (view_unmapped (portReg_unmapped hn)), fun hn => ?_⟩
  rw [perform, if_neg fun h => hn (portReg_eq_cmd.1 h), regWrite_eq]

/-! ## Reads without a fault (10 R21, R50, R52) -/

theorem flagBit_getLsbD (b : Bool) {n : Nat} (hn : n < 64) (k : Nat) :
    (flagBit b n).getLsbD k = (b && decide (k = n)) := by
  cases b with
  | false => simp [flagBit]
  | true =>
    by_cases hk : k = n
    · subst hk
      simp [flagBit, hn]
    · have : k < 64 → ¬ k < n → 1 ≤ k - n := by omega
      simp [flagBit, hk]
      omega

/-- The bits of `STATUS` (10 R25). -/
theorem toWord_getLsbD (f : Status) (k : Nat) : f.toWord.getLsbD k =
    if k = 0 then f.fault else if k = 1 then f.single else if k = 8 then f.ftValid
    else if k = 9 then f.sftValid else if k = 10 then f.heapValid
    else if k = 11 then f.ctValid else if k = 12 then f.hdrValid
    else if k = 13 then f.bwValid else if k = 14 then f.brValid else false := by
  simp only [Status.toWord, BitVec.getLsbD_or, flagBit_getLsbD, Nat.reduceLT]
  split_ifs <;> simp_all

/-- Settles O8: each number's view is the exact register. -/
theorem portReadScalars : Obligations.PortReadScalars := by
  intro s hs
  refine ⟨fun p hp => ?_, toWord_getLsbD s.status⟩
  have read : ∀ {n : RegNum} {r : PortReg} {v : Word64}, portReg n = r → s.viewNormal r = exactView v →
      s.regRead n = { s with portOut := some v } := fun hr hv => regRead_of_exact ((view_of_noFault hs hr).trans hv)
  fin_cases hp <;> exact read rfl rfl

/-- `NODE[h].sym :: r :: l` as a number (10 R44). -/
theorem nodeLinksWord_toNat (n : Node) :
    (nodeLinksWord n).toNat = n.sym.toNat * 2 ^ 18 + n.r.toNat * 2 ^ 9 + n.l.toNat := by
  have hl := n.l.isLt
  have hr := n.r.isLt
  rw [nodeLinksWord, BitVec.toNat_append, ← Nat.shiftLeft_add_eq_or_of_lt hl, BitVec.toNat_append,
    ← Nat.shiftLeft_add_eq_or_of_lt hr, Nat.shiftLeft_eq, Nat.shiftLeft_eq]
  omega

theorem nodeLinksWord_setWidth (n : Node) : (nodeLinksWord n).setWidth 64 =
    BitVec.ofNat 64 (n.sym.toNat * 2 ^ 18 + n.r.toNat * 2 ^ 9 + n.l.toNat) := by
  rw [← nodeLinksWord_toNat, BitVec.ofNat_toNat]

/-- Settles O9: each entry's view is its value under its condition, else a draw of its width. -/
theorem portReadTables : Obligations.PortReadTables := by
  intro s hs
  have read : ∀ {n : RegNum} {r : PortReg} {w : Nat} {c : Bool} {v : BitVec w}, portReg n = r →
      s.viewNormal r = viewIf c v → 0 < w → w ≤ 64 →
      s.regRead n = if c then { s with portOut := some (v.setWidth 64) } else s.drawn w :=
    fun hr hv h0 hw => regRead_of_viewIf h0 hw ((view_of_noFault hs hr).trans hv)
  refine ⟨fun c => ⟨?_, ?_, ?_, ?_, ?_⟩, fun h hh => ⟨?_, ?_⟩⟩
  · simpa using read (portReg_ft c) rfl (by decide) (by decide)
  · exact read (portReg_sft c) rfl (by decide) (by decide)
  · simpa using read (portReg_ctPat c) rfl (by decide) (by decide)
  · exact read (portReg_ctLen c) rfl (by decide) (by decide)
  · simpa [State.heapEntryValid] using read (portReg_heap c) rfl (by decide) (by decide)
  · simpa [State.nodeEntryValid] using read (portReg_nodeW hh) rfl (by decide) (by decide)
  · simpa [State.nodeEntryValid, nodeLinksWord_setWidth] using read (portReg_nodeLinks hh) rfl (by decide) (by decide)

/-! ## Reads while a fault is recorded (10 R52, 60 R242) -/

/-- Settles O10: `viewFaulted` is exact for the listed registers and a draw of the width for all others. -/
theorem portReadFaulted : Obligations.PortReadFaulted := by
  intro s
  refine ⟨fun n => regRead_frame n s, fun hs => ?_⟩
  have read : ∀ {n : RegNum} {r : PortReg} {v : Word64}, portReg n = r → s.viewFaulted r = exactView v →
      s.regRead n = { s with portOut := some v } := fun hr hv => regRead_of_exact ((view_of_fault hs hr).trans hv)
  have draw : ∀ {n : RegNum} {r : PortReg} {w : Nat}, portReg n = r → s.viewFaulted r = drawView w → 0 < w → w ≤ 64 →
      s.regRead n = s.drawn w := fun hr hv h0 hw => regRead_of_draw h0 hw ((view_of_fault hs hr).trans hv)
  refine ⟨fun p hp => ?_, ?_, fun p hp => ?_, fun c p hp => ?_, fun h hh => ⟨?_, ?_⟩⟩
  · fin_cases hp <;> exact read rfl rfl
  · have hview : s.view 0x0001 = ⟨1, 0x7FFE⟩ := view_of_fault hs rfl
    refine ⟨PortView.value ⟨1, 0x7FFE⟩ s.freeCount, ?_, by simp [PortView.value]⟩
    rw [State.regRead, hview]
    rfl
  · fin_cases hp <;> exact draw rfl rfl (by decide) (by decide)
  · fin_cases hp
    · exact draw (portReg_ft c) rfl (by decide) (by decide)
    · exact draw (portReg_sft c) rfl (by decide) (by decide)
    · exact draw (portReg_ctPat c) rfl (by decide) (by decide)
    · exact draw (portReg_ctLen c) rfl (by decide) (by decide)
    · exact draw (portReg_heap c) rfl (by decide) (by decide)
  · exact draw (portReg_nodeW hh) rfl (by decide) (by decide)
  · exact draw (portReg_nodeLinks hh) rfl (by decide) (by decide)

/-! ## Reset (10 R53, 70 R280, R281) -/

/-- Settles O11: with no flag set and nothing allocated every table entry is a draw. -/
theorem resetValues : Obligations.ResetValues := by
  obtain ⟨hbyte, hnode⟩ := portReadTables State.reset rfl
  refine ⟨rfl, rfl, rfl, rfl, rfl, rfl, rfl, rfl, rfl, rfl, rfl, rfl, rfl, rfl, rfl, rfl, rfl, rfl, rfl, rfl, by decide,
    fun c p hp => ?_, fun h hh => ?_, fun s => rfl⟩
  · obtain ⟨hft, hsft, hpat, hlen, hheap⟩ := hbyte c
    fin_cases hp
    · exact hft
    · exact hsft
    · exact hpat
    · exact hlen
    · exact hheap.trans (if_neg fun h => Bool.false_ne_true h.1)
  · obtain ⟨hw, hlinks⟩ := hnode h hh
    exact ⟨hw.trans (if_neg (Nat.not_lt_zero _)), hlinks.trans (if_neg (Nat.not_lt_zero _))⟩

end Sys2Proof.Machine
end

section
/-! `OutAppend` in the words of 20 R88: the room with its guard, and the fault with its record. -/

namespace Sys2Proof.Machine

/-- While no fault is recorded, a `raise` records its code and detail (60 R241). -/
theorem State.raise_eq_faulted {s : State} (h : s.NoFault) (e : Err) (n : Nat) :
    s.raise e (word n) = s.faulted e.code.toNat n := by
  rw [State.raise_of_noFault h, State.faulted, BitVec.ofNat_toNat, BitVec.setWidth_eq, word]

/-- The room as 20 R88 writes it: the guard is what the subtraction of natural numbers does by itself. -/
theorem State.room_eq_ite (s : State) :
    s.room = if s.output.length ≤ s.outCap.toNat then s.outCap.toNat - s.output.length else 0 := by
  rw [State.room_eq]
  split <;> omega

/-- Settles O58: the bytes fit or they do not, and in the second case the raise meets a state without a fault. -/
theorem outAppendResult : Obligations.OutAppendResult := by
  intro s v hs
  rw [← State.room_eq_ite]
  refine ⟨outAppend_of_fits, fun hshort => ?_⟩
  have hkept : State.NoFault { s with output := s.output ++ v.take s.room } := hs
  rw [outAppend_of_short hshort, State.raise_eq_faulted hkept]
  rfl

end Sys2Proof.Machine
end

section
/-! Words and commands (30 R111, R112, R114): a word is its three fields, and `decode` reads them back from the word
`encode` makes of them, and from no other. -/

namespace Sys2Proof.Machine

/-! ## The fields of a word (30 R111) -/

/-- The three fields cover the word. -/
theorem word32_eq_iff {v w : Word32} :
    v = w ↔ opField v = opField w ∧ immField v = immField w ∧ topField v = topField w := by
  refine ⟨fun h => h ▸ ⟨rfl, rfl, rfl⟩, fun ⟨hop, himm, htop⟩ => BitVec.eq_of_toNat_eq ?_⟩
  simp only [opField, immField, topField, ← BitVec.toNat_inj, BitVec.extractLsb'_toNat,
    Nat.shiftRight_eq_div_pow] at hop himm htop
  omega

/-- The word of a command is the one with its opcode, its immediate and nothing above. -/
theorem encode_eq_iff {i : Instr} {w : Word32} :
    encode i = w ↔ opField w = opcode i ∧ immField w = i.immediate.getD 0 ∧ topField w = 0 := by
  obtain ⟨hop, himm, htop⟩ := Laws.EncodeShape.fields (opcode i) (i.immediate.getD 0)
  rw [eq_comm, word32_eq_iff, encode, hop, himm, htop]

/-- A command without an immediate is well-formed. -/
theorem wellFormed_of_immediate_none {i : Instr} (h : i.immediate = none) : i.wellFormed = true := by
  rw [Instr.wellFormed, h]

/-! ## The decoder (30 R112) -/

theorem decodeZ_eq_ok_iff {w : Word32} {i j : Instr} :
    decodeZ w i = .ok j ↔ topField w = 0 ∧ immField w = 0 ∧ i = j := by
  unfold decodeZ
  split_ifs <;> simp_all

theorem decodeA_eq_ok_iff {w : Word32} {i j : Instr} :
    decodeA w i = .ok j ↔ topField w = 0 ∧ i.wellFormed = true ∧ i = j := by
  unfold decodeA
  split_ifs <;> simp_all

/-- The opcode map of 30 R114 names the command, or the opcode is unlisted. -/
theorem decode_cases (w : Word32) :
    (∃ i, decode w = decodeZ w i ∧ opField w = opcode i ∧ i.immediate = none) ∨
    (∃ i, decode w = decodeA w i ∧ opField w = opcode i ∧ i.immediate = some (immField w)) ∨
    decode w = .error .unlistedOpcode := by
  unfold decode
  split
  case h_5 hop | h_6 hop | h_9 hop | h_14 hop =>
    exact .inr (.inl ⟨_, rfl, BitVec.eq_of_toNat_eq hop, rfl⟩)
  case h_25 => exact .inr (.inr rfl)
  all_goals next hop => exact .inl ⟨_, rfl, BitVec.eq_of_toNat_eq hop, rfl⟩

/-- On a command's opcode and immediate `decode` makes the checks of the command's format. -/
theorem decode_of_fields {w : Word32} {i : Instr} (hop : opField w = opcode i)
    (himm : immField w = i.immediate.getD 0) :
    decode w = if i.immediate = none then decodeZ w i else decodeA w i := by
  rw [decode, hop]
  cases i
  case hpCreate a | hpInsert a | ndLeaf a | bwWrite a =>
    obtain rfl : immField w = a := himm
    rfl
  all_goals rfl

/-- The decoder accepts the words of the well-formed commands and no others. -/
theorem decode_eq_ok_iff {w : Word32} {i : Instr} : decode w = .ok i ↔ encode i = w ∧ i.wellFormed = true := by
  rw [encode_eq_iff]
  constructor
  · intro h
    rcases decode_cases w with ⟨j, hj, hop, himm⟩ | ⟨j, hj, hop, himm⟩ | herr
    · obtain ⟨htop, hzero, rfl⟩ := decodeZ_eq_ok_iff.1 (hj ▸ h)
      exact ⟨⟨hop, by rw [hzero, himm]; rfl, htop⟩, wellFormed_of_immediate_none himm⟩
    · obtain ⟨htop, hwf, rfl⟩ := decodeA_eq_ok_iff.1 (hj ▸ h)
      exact ⟨⟨hop, by rw [himm]; rfl, htop⟩, hwf⟩
    · cases herr.symm.trans h
  · rintro ⟨⟨hop, himm, htop⟩, hwf⟩
    rw [decode_of_fields hop himm]
    split
    next hnone => exact decodeZ_eq_ok_iff.2 ⟨htop, by rw [himm, hnone]; rfl, rfl⟩
    next => exact decodeA_eq_ok_iff.2 ⟨htop, hwf, rfl⟩

/-- Settles O1: the word of a well-formed command is one the decoder accepts, as that command. -/
theorem decodeOfEncode : Obligations.DecodeOfEncode := fun _ hi => decode_eq_ok_iff.2 ⟨rfl, hi⟩

/-- Settles O2: the decoder accepts no other word. -/
theorem encodeOfDecode : Obligations.EncodeOfDecode := fun _ _ h => decode_eq_ok_iff.1 h

/-- Settles O3: the decoder computes each worked answer. -/
theorem workedEncodings : Obligations.WorkedEncodings := by
  unfold Obligations.WorkedEncodings
  decide

/-! ## The listed words (30 R114) and the others (30 R115) -/

/-- The commands of format Z, in the order of `zWords`. -/
def zCommands : List Instr :=
  [.nop, .clr, .fcRun, .fqScale, .hpExtract, .hpFill, .tbBuild, .tbFree, .cgRun, .bwInit, .bwFlush, .brInit, .brRead,
    .hdrWrite, .hdrRead, .encStream, .trlWrite, .decStream, .compress, .decompress]

theorem mem_zCommands {i : Instr} : i ∈ zCommands ↔ i.immediate = none := by
  cases i <;> simp [zCommands, Instr.immediate]

theorem zWords_eq_map_encode : zWords = zCommands.map encode := by decide

/-- The Z-format words are those the decoder reads a command without an immediate from. -/
theorem mem_zWords {w : Word32} : w ∈ zWords ↔ ∃ i : Instr, i.immediate = none ∧ decode w = .ok i := by
  rw [zWords_eq_map_encode, List.mem_map]
  refine exists_congr fun i => ?_
  rw [mem_zCommands, decode_eq_ok_iff]
  exact and_congr_right fun himm => (and_iff_left (wellFormed_of_immediate_none himm)).symm

/-- The match and mask form says what the fields are. -/
theorem aWord_iff {w : Word32} {op : BitVec 8} {amax : Nat} :
    AWord w (op.setWidth 32) amax ↔ opField w = op ∧ topField w = 0 ∧ (immField w).toNat ≤ amax := by
  have hmask : w &&& 0xFFF000FF#32 = op.setWidth 32 ↔ opField w = op ∧ topField w = 0 := by
    have hop : opField (w &&& 0xFFF000FF#32) = opField w := BitVec.extractLsb'_and.trans BitVec.and_allOnes
    have himm : immField (w &&& 0xFFF000FF#32) = 0#12 := BitVec.extractLsb'_and.trans BitVec.and_zero
    have htop : topField (w &&& 0xFFF000FF#32) = topField w := BitVec.extractLsb'_and.trans BitVec.and_allOnes
    obtain ⟨hop', himm', htop'⟩ := Laws.EncodeShape.fields op 0#12
    rw [BitVec.setWidth_zero, BitVec.zero_shiftLeft, BitVec.or_zero] at hop' himm' htop'
    rw [word32_eq_iff, hop, himm, htop, hop', himm', htop', eq_self, true_and]
  have himm : ((w >>> 8) &&& 0xFFF#32).toNat = (immField w).toNat := by
    simp [immField, Nat.and_two_pow_sub_one_eq_mod _ 12]
  rw [AWord, hmask, himm, and_assoc]

/-- The A-format words of an opcode are those the decoder reads its command from. -/
theorem aWord_iff_decode {w : Word32} {i : Instr} (himm : i.immediate = some (immField w)) :
    AWord w ((opcode i).setWidth 32) i.immMax ↔ decode w = .ok i := by
  have hwf : i.wellFormed = true ↔ (immField w).toNat ≤ i.immMax := by
    rw [Instr.wellFormed, himm]
    exact decide_eq_true_iff
  rw [aWord_iff, decode_eq_ok_iff, encode_eq_iff, himm, hwf]
  simp [and_assoc]

/-- The listed words are those the decoder accepts. -/
theorem legalWord_iff {w : Word32} : LegalWord w ↔ ∃ i, decode w = .ok i := by
  constructor
  · rintro (h | h | h | h | h)
    · obtain ⟨i, -, hi⟩ := mem_zWords.1 h
      exact ⟨i, hi⟩
    · exact ⟨.hpCreate (immField w), (aWord_iff_decode rfl).1 h⟩
    · exact ⟨.hpInsert (immField w), (aWord_iff_decode rfl).1 h⟩
    · exact ⟨.ndLeaf (immField w), (aWord_iff_decode rfl).1 h⟩
    · exact ⟨.bwWrite (immField w), (aWord_iff_decode rfl).1 h⟩
  · rintro ⟨i, hi⟩
    obtain ⟨-, himm, -⟩ := encode_eq_iff.1 (decode_eq_ok_iff.1 hi).1
    have aWord : ∀ {a}, i.immediate = some a → AWord w ((opcode i).setWidth 32) i.immMax := fun ha =>
      (aWord_iff_decode (by rw [himm, ha]; rfl)).2 hi
    cases i
    case hpCreate => exact .inr (.inl (aWord rfl))
    case hpInsert => exact .inr (.inr (.inl (aWord rfl)))
    case ndLeaf => exact .inr (.inr (.inr (.inl (aWord rfl))))
    case bwWrite => exact .inr (.inr (.inr (.inr (aWord rfl))))
    all_goals exact .inl (mem_zWords.2 ⟨_, rfl, hi⟩)

theorem wordInfo_eq_word (w : Word32) : wordInfo w = word w.toNat := by
  rw [wordInfo, word, BitVec.ofNat_toNat]

/-- While no fault is recorded, an illegal word is recorded as `BadCmd` with the word as detail (30 R115). -/
theorem illegalWord_of_noFault {s : State} (hs : s.NoFault) (w : Word32) :
    illegalWord w s = .next (s.faulted 9 w.toNat) := by
  rw [illegalWord_eq_next, hs, wordInfo_eq_word, State.raise_eq_faulted hs]
  rfl

/-- Settles O4: a word that is not listed reaches `illegalWord`, whose raise meets a state without a fault. -/
theorem illegalWords : Obligations.IllegalWords := by
  refine fun w => ⟨legalWord_iff.1, fun hw => ?_⟩
  have hno : ∀ i, decode w ≠ .ok i := fun i hi => hw (legalWord_iff.2 ⟨i, hi⟩)
  refine ⟨hno, fun s hs => ?_⟩
  cases hd : decode w with
  | ok i => exact absurd hd (hno i)
  | error e =>
    rw [runWord, hd]
    exact illegalWord_of_noFault hs w

end Sys2Proof.Machine
end

section
/-! The frequency commands (40 R131 to R135): the states `FC_RUN` and `FQ_SCALE` answer, and what the scaling function
keeps. -/

namespace Sys2Proof.Machine

/-! ## `FC_RUN` -/

/-- The state `FC_RUN` leaves (40 R131). -/
def State.counted (s : State) : State :=
  { s with ft := countBytes s.unread, inPos := 0, status := { s.status with ftValid := true } }

theorem exec_fcRun {s : State} (hs : s.NoFault) : exec .fcRun s = .next s.counted := command_of_noFault hs runFcRun

/-- The number of bytes read as 40 R132 writes it: the guard is what the subtraction of natural numbers does by
itself. -/
theorem State.unread_length (s : State) :
    s.unread.length =
      if s.inPos.toNat < s.input.length then s.input.length - s.inPos.toNat else 0 := by
  rw [State.unread, List.length_drop]
  split <;> omega

/-- Settles O14: each entry is a count of the unread bytes, and the counts of all symbols add up to their number. -/
theorem fcRunResult : Obligations.FcRunResult := by
  refine ⟨decode_eq_ok_iff.2 ⟨rfl, rfl⟩, fun s hs hlen => ⟨s.counted, exec_fcRun hs, rfl, ?_⟩⟩
  have hunread : s.unread.length < 2 ^ 64 := by
    rw [State.unread, List.length_drop]
    omega
  have hcount : ∀ c, (symAt s.counted.ft c).toNat = s.unread.count c := symAt_countBytes hunread
  refine ⟨hcount, ?_⟩
  rw [funext hcount, sum_count_allSymbols, State.unread_length]

/-! ## The scaling function (40 R133, R135) -/

/-- The divisor with its rounding up written out. -/
theorem scaleDivisor_eq (ft : Vector Word64 256) : scaleDivisor ft = max 1 ((maxFreq ft + 254) / 255) := by
  rw [scaleDivisor, ceilDiv, Nat.add_sub_assoc (by decide)]

theorem scaleDivisor_of_small {ft : Vector Word64 256} (h : ∀ c, (symAt ft c).toNat ≤ 255) : scaleDivisor ft = 1 := by
  obtain ⟨c, hc⟩ := exists_maxFreq ft
  have hle := h c
  rw [scaleDivisor_eq, ← hc]
  omega

theorem scaleFreq_one (f : Nat) : scaleFreq 1 f = f := by
  rw [scaleFreq, Nat.div_one]
  split <;> omega

theorem scaleFreq_mono {d f g : Nat} (h : f ≤ g) : scaleFreq d f ≤ scaleFreq d g := by
  have hdiv : f / d ≤ g / d := Nat.div_le_div_right h
  unfold scaleFreq
  split_ifs <;> omega

/-- Where the divisor is not above the entry the quotient is not lifted. -/
theorem scaleFreq_of_le {d f : Nat} (hd : 1 ≤ d) (h : d ≤ f) : scaleFreq d f = f / d := by
  have hpos : 1 ≤ f / d := Nat.div_pos h hd
  rw [scaleFreq, if_neg (by omega), Nat.max_eq_right hpos]

/-- The largest entry scales to the exact quotient. -/
theorem scaleFreq_maxFreq (ft : Vector Word64 256) :
    scaleFreq (scaleDivisor ft) (maxFreq ft) = maxFreq ft / scaleDivisor ft := by
  by_cases hzero : maxFreq ft = 0
  · simp [scaleFreq, hzero]
  · have hle : scaleDivisor ft ≤ maxFreq ft := by
      rw [scaleDivisor_eq]
      omega
    exact scaleFreq_of_le (scaleDivisor_pos ft) hle

/-- With `D = ceil(maxf / 255)` and `255 ≤ maxf`, `128 * D ≤ maxf`. -/
theorem le_maxFreq_div {ft : Vector Word64 256} (h : 255 ≤ maxFreq ft) : 128 ≤ maxFreq ft / scaleDivisor ft := by
  rw [Nat.le_div_iff_mul_le (scaleDivisor_pos ft), scaleDivisor_eq]
  omega

/-! ## `FQ_SCALE` -/

/-- The state `FQ_SCALE` leaves when the counts are valid (40 R134). -/
def State.scaled (s : State) : State :=
  { s with
    divisor := word (scaleDivisor s.ft), sft := scaledTable s.ft, nsym := BitVec.ofNat 9 (presentCount s.ft)
    status := { s.status with sftValid := true } }

theorem exec_fqScale_of_valid {s : State} (hs : s.NoFault) (hv : s.status.ftValid = true) :
    exec .fqScale s = .next s.scaled := by
  have hrun : runFqScale s = .ok () s.scaled := by
    rw [runFqScale, hv]
    rfl
  exact (command_of_noFault hs runFqScale).trans (by rw [hrun, Run.state_ok])

theorem exec_fqScale_of_invalid {s : State} (hs : s.NoFault) (hv : s.status.ftValid = false) :
    exec .fqScale s = .next (s.faulted 10 0x11) := by
  have hrun : (runFqScale s).state = s.raise .state (word 0x11) := by
    rw [runFqScale, hv]
    rfl
  refine (command_of_noFault hs runFqScale).trans ?_
  rw [hrun, State.raise_eq_faulted hs]
  rfl

theorem State.scaled_divisor_toNat (s : State) : s.scaled.divisor.toNat = scaleDivisor s.ft :=
  word_toNat (scaleDivisor_lt s.ft)

theorem State.symAt_scaled_sft (s : State) (c : Byte) :
    (symAt s.scaled.sft c).toNat = scaleFreq (scaleDivisor s.ft) (symAt s.ft c).toNat := symAt_scaledTable s.ft c

theorem State.scaled_nsym_toNat (s : State) : s.scaled.nsym.toNat = presentCount s.ft := by
  have hle := presentCount_le s.ft
  exact Nat.mod_eq_of_lt (by omega)

/-- Settles O15: the gate on `FT_VALID` decides between the raise and the scaled state, whose items are those of 40
R134. -/
theorem fqScaleResult : Obligations.FqScaleResult := by
  refine ⟨decode_eq_ok_iff.2 ⟨rfl, rfl⟩, fun s m hs => ⟨exec_fqScale_of_invalid hs, fun hv hle hm =>
    ⟨s.scaled, exec_fqScale_of_valid hs hv, rfl, ?_, fun c => ?_, ?_⟩⟩⟩
  · rw [s.scaled_divisor_toNat, scaleDivisor_eq, maxFreq_unique hle hm]
  · rw [s.symAt_scaled_sft, s.scaled_divisor_toNat, scaleFreq]
    simp only [← BitVec.toNat_inj]
    rfl
  · rw [s.scaled_nsym_toNat, presentCount_eq]

/-- Settles O16: the properties of the scaling function, entry by entry of the scaled table. -/
theorem scaleProperties : Obligations.ScaleProperties := by
  intro s t hs hv ht
  obtain rfl : s.scaled = t := Host.Outcome.next.inj ((exec_fqScale_of_valid hs hv).symm.trans ht)
  simp only [s.symAt_scaled_sft, s.scaled_divisor_toNat]
  refine ⟨scaledTable_eq_zero s.ft, ?_, fun hsmall => ?_, fun c hmax => ?_, fun a b hab => scaleFreq_mono hab⟩
  · rw [s.scaled_nsym_toNat, ← presentCount_scaledTable, presentCount_eq]
    rfl
  · have hone := scaleDivisor_of_small hsmall
    refine ⟨BitVec.eq_of_toNat_eq (s.scaled_divisor_toNat.trans hone), fun c => ?_⟩
    rw [hone, scaleFreq_one]
  · rw [← maxFreq_unique hmax ⟨c, rfl⟩, scaleFreq_maxFreq]
    exact ⟨rfl, le_maxFreq_div⟩

end Sys2Proof.Machine
end

section
/-! The heap commands (41 R143 to R150): when each completes, the state it then leaves, and what the two repair loops
say of that state. -/

namespace Sys2Proof.Machine

/-! ## Commands that complete -/

/-- A command that leaves no fault recorded completed its procedure. -/
theorem procOf_eq_ok {i : Instr} {s t : State} (hi : i ≠ .clr) (hs : s.NoFault) (ht : t.NoFault)
    (he : exec i s = .next t) : procOf i s = .ok () t := by
  have hstate := exec_of_noFault hi hs he
  have hdoes := procOf_does i s
  cases hrun : procOf i s with
  | ok u v => rw [hstate, hrun, Run.state_ok]
  | stop v =>
    rw [hrun] at hdoes hstate
    obtain ⟨-, hfault⟩ := hdoes
    rw [hstate, Run.state_stop, State.NoFault, hfault] at ht
    cases ht

/-- From a state without a fault a command answers the state its procedure leaves, at its end or at a raise. -/
theorem exec_eq_next {i : Instr} {s t : State} (hi : i ≠ .clr) (hs : s.NoFault) (hrun : (procOf i s).state = t) :
    exec i s = .next t := by
  rw [exec_eq_command hi, command_of_noFault hs, hrun]

/-! ## `HP_CREATE` (41 R143) -/

/-- With a capacity in range `HP_CREATE` completes. -/
theorem runHpCreate_of_le {s : State} {a : BitVec 12} (ha : a.toNat ≤ 256) :
    runHpCreate a s = .ok () ({ s with hsize := 0, hmax := immCapacity a }.setHeapValid true).forgetHeap := by
  have hwf : (Instr.hpCreate a).wellFormed = true := decide_eq_true ha
  rw [runHpCreate, checkImm, hwf, require_true, Run.bind_ok]

/-- Settles O17: a capacity of at most 256 passes the range check and fits the register. -/
theorem hpCreateResult : Obligations.HpCreateResult := by
  intro s a hs ha
  refine ⟨decode_eq_ok_iff.2 ⟨rfl, decide_eq_true ha⟩, _,
    exec_eq_next (by simp) hs (congrArg Run.state (runHpCreate_of_le ha)), rfl, ?_⟩
  show (immCapacity a).toNat = a.toNat
  rw [immCapacity, BitVec.toNat_setWidth]
  omega

/-! ## `HP_INSERT` (41 R145) -/

/-- With its three checks passed, `HP_INSERT` is `HeapInsert` and the write of `RES`. -/
theorem runHpInsert_eq {s : State} {a : BitVec 12} (hv : s.status.heapValid = true) (ha : a.toNat < s.nalloc.toNat)
    (hn : s.nalloc.toNat ≤ 511) :
    runHpInsert a s = (heapInsert (a.setWidth 9) s).bind fun i t => .ok () (t.setRes (word i)) := by
  have hwf : (Instr.hpInsert a).wellFormed = true := decide_eq_true (show a.toNat ≤ 510 by omega)
  simp only [runHpInsert, checkImm, hwf, hv, ha, decide_true, require_true, Run.bind_ok, immHandle]

/-- `HP_INSERT` completes only where `HeapInsert` does. -/
theorem heapInsert_of_runHpInsert {s t : State} {a : BitVec 12} (h : runHpInsert a s = .ok () t) :
    ∃ i u, heapInsert (a.setWidth 9) s = .ok i u ∧ t = u.setRes (word i) := by
  simp only [runHpInsert, checkImm, Run.bind_eq_ok, require_eq_ok] at h
  obtain ⟨_, _, ⟨-, rfl⟩, _, _, ⟨-, rfl⟩, _, _, ⟨-, rfl⟩, i, u, hins, hres⟩ := h
  cases hres
  exact ⟨i, u, hins, rfl⟩

/-- `HeapInsert` completes only with room. -/
theorem room_of_heapInsert {h : Handle} {s u : State} {i : Nat} (he : heapInsert h s = .ok i u) :
    s.hsize.toNat < s.hmax.toNat := by
  by_contra hfull
  rw [heapInsert_full hfull] at he
  cases he

/-- `HeapInsert` adds its handle to the heap and keeps the order (41 R149 a). -/
theorem heapInsert_heapList {h : Handle} {s u : State} {i : Nat} (he : heapInsert h s = .ok i u)
    (hm : s.hmax.toNat ≤ 256) : u.heapList.Perm (h :: s.heapList) ∧ (s.HeapOrdered → u.HeapOrdered) := by
  have hroom := room_of_heapInsert he
  obtain ⟨r, heap', hins, -, -, hperm, hord⟩ := heapInsert_spec h s hroom hm
  obtain ⟨-, hu⟩ := Run.ok.inj (he.symm.trans hins)
  have hsize : u.hsize.toNat = s.hsize.toNat + 1 := by rw [hu]; exact hsize_succ hroom hm
  rw [State.heapList_eq u, State.heapOrdered_iff (s := u), hsize, hu]
  exact ⟨hperm, hord⟩

/-- Settles O18: without room `HeapInsert` raises; with room its sift-up, from the place the handle was appended at, is
the path of the statement. -/
theorem hpInsertResult : Obligations.HpInsertResult := by
  intro s a hs hv ha hn hm
  have hrun := runHpInsert_eq hv ha hn
  refine ⟨fun hfull => exec_eq_next (by simp) hs ?_, fun hroom => ?_⟩
  · rw [procOf, hrun, heapInsert_full (by omega), Run.bind_stop, Run.state_stop, ← BitVec.ofNat_toNat]
    exact State.raise_eq_faulted hs .heapFull _
  · obtain ⟨r, heap', hins, hsift, hr, -, -⟩ := heapInsert_spec (a.setWidth 9) s hroom hm
    have hres : (word r).toNat = r := word_toNat (by omega)
    have hnew : heapAt (s.heap.setIfInBounds s.hsize.toNat (a.setWidth 9)) s.hsize.toNat = a.setWidth 9 := by
      rw [heapAt_set, if_pos ⟨rfl, by omega⟩]
    have hold : ∀ j < s.hsize.toNat,
        heapAt (s.heap.setIfInBounds s.hsize.toNat (a.setWidth 9)) j = heapAt s.heap j := fun j hj => by
      rw [heapAt_set, if_neg (by omega)]
    refine ⟨_, exec_eq_next (by simp) hs (by rw [procOf, hrun, hins, Run.bind_ok, Run.state_ok]), rfl,
      hsize_succ hroom hm, ?_⟩
    simp only [State.setRes_res, State.setRes_heap, hres]
    refine ⟨hsift.onPath, hsift.rest.trans hnew, fun j hj hlt => ?_, fun h0 => ?_, fun j hj hoff => ?_⟩
    · have hle := onPath_le hj
      have hmoved := hsift.moved j hj hlt
      rwa [hnew, hold _ (by omega)] at hmoved
    · have hstop := hsift.stop h0
      rwa [hnew, hold _ (by omega)] at hstop
    · rw [hsift.same j hoff, hold j hj]

/-! ## `HP_EXTRACT` (41 R148) -/

/-- With its check passed, `HP_EXTRACT` is `HeapExtract` and the write of `RES`. -/
theorem runHpExtract_eq {s : State} (hv : s.status.heapValid = true) :
    runHpExtract s = (heapExtract s).bind fun h t => .ok () (t.setRes (h.setWidth 64)) := by
  rw [runHpExtract, hv, require_true, Run.bind_ok]

/-- `HP_EXTRACT` completes only where `HeapExtract` does. -/
theorem heapExtract_of_runHpExtract {s t : State} (hrun : runHpExtract s = .ok () t) :
    ∃ h u, heapExtract s = .ok h u ∧ t = u.setRes (h.setWidth 64) := by
  simp only [runHpExtract, Run.bind_eq_ok, require_eq_ok] at hrun
  obtain ⟨_, _, ⟨-, rfl⟩, h, u, hext, hres⟩ := hrun
  cases hres
  exact ⟨h, u, hext, rfl⟩

/-- `HeapExtract` takes its result out of the heap, keeps the order (41 R149 a), and no remaining key is below
that of its result (41 R149 b). -/
theorem heapExtract_heapList {h : Handle} {s u : State} (he : heapExtract s = .ok h u) (hz : s.hsize.toNat ≤ 256) :
    s.heapList.Perm (h :: u.heapList) ∧
      (s.HeapOrdered → u.HeapOrdered ∧ ∀ k ∈ u.heapList, keyLt (nodeAt s.node k) (nodeAt s.node h) = false) := by
  have h0 : 0 < s.hsize.toNat := by
    by_contra hempty
    rw [heapExtract_empty (by omega)] at he
    cases he
  obtain ⟨heap', hext, -, hperm, hord⟩ := heapExtract_spec s h0 hz
  obtain ⟨rfl, hu⟩ := Run.ok.inj (he.symm.trans hext)
  have hsize : u.hsize.toNat = s.hsize.toNat - 1 := by rw [hu]; exact hsize_pred s.hsize
  rw [State.heapList_eq u, State.heapOrdered_iff (s := u), hsize, hu]
  exact ⟨hperm, hord⟩

/-- Settles O19: on an empty heap `HeapExtract` raises; otherwise the last handle, put at the root, sinks along the path
of the statement. -/
theorem hpExtractResult : Obligations.HpExtractResult := by
  intro s hs hv hz n less
  have hrun := runHpExtract_eq hv
  refine ⟨fun hempty => exec_eq_next (by simp) hs ?_, fun hne => ?_⟩
  · rw [procOf, hrun, heapExtract_empty (by rw [hempty]; rfl), Run.bind_stop, Run.state_stop]
    exact State.raise_eq_faulted hs .heapEmpty 0
  · have h0 : 0 < s.hsize.toNat := Nat.pos_of_ne_zero fun h => hne (BitVec.eq_of_toNat_eq h)
    obtain ⟨heap', hext, hsift, -, -⟩ := heapExtract_spec s h0 hz
    refine ⟨_, exec_eq_next (by simp) hs (by rw [procOf, hrun, hext, Run.bind_ok, Run.state_ok]), rfl,
      hsize_pred s.hsize, fun hn => ?_⟩
    obtain ⟨r, hdown⟩ := hsift hn
    have hroot : heapAt (s.heap.setIfInBounds 0 (heapAt s.heap n)) 0 = heapAt s.heap n := by
      rw [heapAt_set, if_pos ⟨rfl, by decide⟩]
    have hold : ∀ j, 0 < j → heapAt (s.heap.setIfInBounds 0 (heapAt s.heap n)) j = heapAt s.heap j := fun j hj => by
      rw [heapAt_set, if_neg (by omega)]
    refine ⟨r, hdown.lt, hdown.rest.trans hroot, fun j hj hj0 => ?_, fun k hk hk0 hkr => ?_, fun j hj hoff => ?_⟩
    · obtain ⟨hmoved, hless, hsibling⟩ := hdown.moved j hj hj0
      rw [hold j hj0] at hmoved hless hsibling
      rw [hroot] at hless
      refine ⟨hmoved, hless, fun k hk hk0 hkj => ?_⟩
      have hmin := hsibling k hk hk0 hkj
      rwa [hold k hk0] at hmin
    · have hstop := hdown.stop k hk hk0 hkr
      rwa [hold k hk0, hroot] at hstop
    · have hj0 : 0 < j := Nat.pos_of_ne_zero fun h => hoff (h ▸ onPath_zero r)
      exact (hdown.same j fun h => hoff h.1).trans (hold j hj0)

/-- Settles O20: a run that leaves no fault completed its heap procedure, which permutes the elements and restores the
order. -/
theorem heapOrderKept : Obligations.HeapOrderKept := by
  intro s t hs ht hm _
  refine ⟨fun a he => ?_, fun he hz => ?_⟩
  · obtain ⟨i, u, hins, rfl⟩ := heapInsert_of_runHpInsert (procOf_eq_ok (by simp) hs ht he)
    exact heapInsert_heapList (u := u) hins hm
  · obtain ⟨h, u, hext, rfl⟩ := heapExtract_of_runHpExtract (procOf_eq_ok (by simp) hs ht he)
    have hres : (u.setRes (h.setWidth 64)).res.setWidth 9 = h := by simp
    rw [hres]
    exact heapExtract_heapList (u := u) hext hz

/-! ## `HP_FILL` (41 R150) -/

/-- Settles O21: with `NSYM` the number of present symbols the leaf loop has room for all of them. -/
theorem hpFillResult : Obligations.HpFillResult := by
  intro s hs hv hn
  obtain ⟨t, hrun, hfilled⟩ := runHpFill_filled hv hn
  exact ⟨t, exec_eq_next (by simp) hs (congrArg Run.state hrun), hfilled.frame, hfilled.nalloc, hfilled.leaves,
    hfilled.handles, hfilled.ordered⟩

end Sys2Proof.Machine
end

section
/-! The tree commands (42 R160 to R166): the leaf a host makes, the merge round as `TB_BUILD` and as the commands it is
made of, and the tree a heap of leaves becomes. -/

namespace Sys2Proof.Machine

/-! ## `TB_FREE` (42 R166) -/

/-- Settles O26: the teardown has no check, and each of its two arrays costs one draw. -/
theorem tbFreeResult : Obligations.TbFreeResult :=
  ⟨decode_eq_ok_iff.2 ⟨rfl, rfl⟩, fun _ hs => ⟨_, command_of_noFault hs runTbFree, rfl⟩⟩

/-! ## `NewNode` (42 R160) and `ND_LEAF` (42 R161) -/

/-- The state a completed `NewNode` leaves when `n` is the new node. -/
def State.allocated (s : State) (n : Node) : State :=
  { s with node := s.node.setIfInBounds s.nalloc.toNat n, nalloc := BitVec.ofNat 10 (s.nalloc.toNat + 1) }

section NewNode

variable {s : State} {sym : Byte} {w : Nat} {l r : Handle}

theorem newNode_eq_allocated (hn : s.nalloc.toNat < 511) (hw : w < 2 ^ 64) :
    newNode sym w l r s = .ok (s.nalloc.setWidth 9) (s.allocated ⟨sym, word w, l, r⟩) := newNode_ok hn hw

/-- With 511 entries allocated the record of `NewNode` is `Alloc(511)`. -/
theorem newNode_full_faulted (hs : s.NoFault) (hn : s.nalloc.toNat = 511) :
    newNode sym w l r s = .stop (s.faulted 1 511) := by
  have hinfo : s.nalloc.setWidth 64 = word 511 := by rw [← hn, word, BitVec.ofNat_toNat]
  rw [newNode_full (by omega), hinfo, State.raise_eq_faulted hs]
  rfl

/-- With a weight out of range the record of `NewNode` is `Overflow(1)`. -/
theorem newNode_overflow_faulted (hs : s.NoFault) (hn : s.nalloc.toNat < 511) (hw : 2 ^ 64 ≤ w) :
    newNode sym w l r s = .stop (s.faulted 11 1) := by
  rw [newNode_overflow hn (by omega)]
  exact congrArg Run.stop (State.raise_eq_faulted hs .overflow 1)

end NewNode

/-- With a symbol in range `ND_LEAF` is `NewNode` and the write of `RES`. -/
theorem runNdLeaf_eq {s : State} {a : BitVec 12} (ha : a.toNat ≤ 255) :
    runNdLeaf a s = (newNode (a.setWidth 8) s.arg0.toNat Config.null Config.null s).bind fun h t =>
      .ok () (t.setRes (h.setWidth 64)) := by
  have hwf : (Instr.ndLeaf a).wellFormed = true := decide_eq_true ha
  rw [runNdLeaf, checkImm, hwf, require_true, Run.bind_ok, immSymbol]

/-- Settles O22: `ARG0` is below 2^64, so the arena's room alone decides between the raise and the new leaf. -/
theorem ndLeafResult : Obligations.NdLeafResult := by
  intro s a hs ha _
  have hrun := runNdLeaf_eq (s := s) ha
  refine ⟨decode_eq_ok_iff.2 ⟨rfl, decide_eq_true ha⟩, fun hfull => exec_eq_next (by simp) hs ?_, fun hroom => ?_⟩
  · rw [procOf, hrun, newNode_full_faulted hs hfull, Run.bind_stop, Run.state_stop]
  · have hhandle := nalloc_handle hroom
    rw [newNode_eq_allocated hroom s.arg0.isLt, Run.bind_ok, word_toNat_self] at hrun
    refine ⟨_, exec_eq_next (by simp) hs (congrArg Run.state hrun), ?_, nalloc_succ hroom,
      nodeAt_set_self _ _ hhandle hroom, fun h hne => nodeAt_set_ne _ _ fun he => ?_⟩
    · have hres : (s.nalloc.setWidth 9).setWidth 64 = s.nalloc.setWidth 64 :=
        BitVec.eq_of_toNat_eq (by simp only [BitVec.toNat_setWidth]; omega)
      rw [hres]
      rfl
    · exact hne (BitVec.eq_of_toNat_eq (he.trans hhandle.symm))

/-! ## `HeapExtract` and `HeapInsert` as functions of the state

`HP_EXTRACT` and `HP_INSERT` leave what the procedures leave, but for `RES`: a round of `TB_BUILD` and the same round
made of commands are compared through these two states. -/

/-- The state a completed `HeapExtract` leaves (41 R147). -/
def State.extracted (s : State) : State :=
  let n := s.hsize.toNat - 1
  { s with
    heap := siftDown s.node n n (s.heap.setIfInBounds 0 (heapAt s.heap n)) 0
    hsize := BitVec.ofNat 9 n }

/-- The array and the final index of a `HeapInsert` with room (41 R144). -/
def State.insertion (s : State) (h : Handle) : Vector Handle 256 × Nat :=
  siftUp s.node s.hsize.toNat (s.heap.setIfInBounds s.hsize.toNat h) s.hsize.toNat

/-- The state a completed `HeapInsert` leaves. -/
def State.inserted (s : State) (h : Handle) : State :=
  { s with heap := (s.insertion h).1, hsize := BitVec.ofNat 9 (s.hsize.toNat + 1) }

theorem heapExtract_eq {s : State} (h0 : 0 < s.hsize.toNat) :
    heapExtract s = .ok (heapAt s.heap 0) s.extracted := by
  rw [heapExtract, decide_eq_true h0, require_true, Run.bind_ok]
  rfl

theorem heapInsert_eq {s : State} (h : Handle) (hroom : s.hsize.toNat < s.hmax.toNat) :
    heapInsert h s = .ok (s.insertion h).2 (s.inserted h) := by
  rw [heapInsert, decide_eq_true hroom, require_true, Run.bind_ok]
  rfl

theorem State.extracted_hsize_toNat (s : State) : s.extracted.hsize.toNat = s.hsize.toNat - 1 := hsize_pred s.hsize

/-- A handle written to `RES` is read back from its low bits. -/
theorem State.setRes_handle (s : State) (h : Handle) : (s.setRes (h.setWidth 64)).res.setWidth 9 = h := by simp

theorem exec_hpExtract {s : State} (hs : s.NoFault) (hv : s.status.heapValid = true) (h0 : 0 < s.hsize.toNat) :
    exec .hpExtract s = .next (s.extracted.setRes ((heapAt s.heap 0).setWidth 64)) :=
  exec_eq_next (by simp) hs (by rw [procOf, runHpExtract_eq hv, heapExtract_eq h0, Run.bind_ok, Run.state_ok])

theorem exec_hpInsert {s : State} {a : BitVec 12} (hs : s.NoFault) (hv : s.status.heapValid = true)
    (ha : a.toNat < s.nalloc.toNat) (hn : s.nalloc.toNat ≤ 511) (hroom : s.hsize.toNat < s.hmax.toNat) :
    exec (.hpInsert a) s =
      .next ((s.inserted (a.setWidth 9)).setRes (word (s.insertion (a.setWidth 9)).2)) :=
  exec_eq_next (by simp) hs
    (by rw [procOf, runHpInsert_eq hv ha hn, heapInsert_eq _ hroom, Run.bind_ok, Run.state_ok])

/-! ## One round of `TB_BUILD` (42 R162, R163) -/

/-- The handle a second `HeapExtract` returns. -/
def State.second (s : State) : Handle := heapAt s.extracted.heap 0

/-- The node a round makes of the two elements it extracts, when their weights' sum is in range. -/
def State.mergedNode (s : State) : Node :=
  ⟨Config.internalSym, word (s.weight (heapAt s.heap 0) + s.weight s.second), heapAt s.heap 0, s.second⟩

/-- The state a completed round leaves. -/
def State.merged (s : State) : State :=
  (s.extracted.extracted.allocated s.mergedNode).inserted (s.nalloc.setWidth 9)

section Round

variable {s : State}

/-- On two elements or more a round is `NewNode` after the extracts, then `HeapInsert`. -/
theorem mergeRound_eq (h2 : 2 ≤ s.hsize.toNat) :
    mergeRound s =
      (newNode Config.internalSym (s.weight (heapAt s.heap 0) + s.weight s.second) (heapAt s.heap 0) s.second
        s.extracted.extracted).bind fun n t => (heapInsert n t).bind fun _ u => .ok () u := by
  have hsize := s.extracted_hsize_toNat
  rw [mergeRound, heapExtract_eq (by omega), Run.bind_ok, heapExtract_eq (by omega), Run.bind_ok]
  rfl

theorem mergeRound_full (hs : s.NoFault) (h2 : 2 ≤ s.hsize.toNat) (hn : s.nalloc.toNat = 511) :
    mergeRound s = .stop (s.extracted.extracted.faulted 1 511) := by
  rw [mergeRound_eq h2, newNode_full_faulted (s := s.extracted.extracted) hs hn, Run.bind_stop]

theorem mergeRound_overflow (hs : s.NoFault) (h2 : 2 ≤ s.hsize.toNat) (hn : s.nalloc.toNat < 511)
    (hw : 2 ^ 64 ≤ s.weight (heapAt s.heap 0) + s.weight s.second) :
    mergeRound s = .stop (s.extracted.extracted.faulted 11 1) := by
  rw [mergeRound_eq h2, newNode_overflow_faulted (s := s.extracted.extracted) hs hn hw, Run.bind_stop]

/-- After the extracts of a round there is room for what it inserts. -/
theorem State.room_after_extracts (h2 : 2 ≤ s.hsize.toNat) (hh : s.hsize.toNat ≤ s.hmax.toNat) :
    s.extracted.extracted.hsize.toNat < s.hmax.toNat := by
  rw [State.extracted_hsize_toNat, State.extracted_hsize_toNat]
  omega

theorem mergeRound_eq_merged (h2 : 2 ≤ s.hsize.toNat) (hh : s.hsize.toNat ≤ s.hmax.toNat)
    (hn : s.nalloc.toNat < 511) (hw : s.weight (heapAt s.heap 0) + s.weight s.second < 2 ^ 64) :
    mergeRound s = .ok () s.merged := by
  have hnew : newNode Config.internalSym (s.weight (heapAt s.heap 0) + s.weight s.second) (heapAt s.heap 0) s.second
      s.extracted.extracted = .ok (s.nalloc.setWidth 9) (s.extracted.extracted.allocated s.mergedNode) :=
    newNode_eq_allocated hn hw
  have hins : heapInsert (s.nalloc.setWidth 9) (s.extracted.extracted.allocated s.mergedNode) = .ok _ s.merged :=
    heapInsert_eq _ (State.room_after_extracts h2 hh)
  rw [mergeRound_eq h2, hnew, Run.bind_ok, hins, Run.bind_ok]

/-- A round takes one element from the heap. -/
theorem State.merged_hsize_toNat (h2 : 2 ≤ s.hsize.toNat) : s.merged.hsize.toNat = s.hsize.toNat - 1 := by
  have hsize : (s.extracted.extracted.hsize).toNat + 1 = s.hsize.toNat - 1 := by
    rw [State.extracted_hsize_toNat, State.extracted_hsize_toNat]
    omega
  show (BitVec.ofNat 9 (s.extracted.extracted.hsize.toNat + 1)).toNat = _
  rw [hsize, hsize_pred]

theorem exec_tbBuild (hs : s.NoFault) : exec .tbBuild s = .next (runTbBuild s).state := command_of_noFault hs runTbBuild

/-- With its checks passed `TB_BUILD` is the merge loop, and the last extract gives the root. -/
theorem runTbBuild_eq (hv : s.status.heapValid = true) (h1 : 1 ≤ s.hsize.toNat) :
    runTbBuild s =
      (mergeLoop (s.hsize.toNat - 1) s).bind fun _ t =>
        (heapExtract t).bind fun h u => .ok () { u with root := h } := by
  rw [runTbBuild, hv, require_true, Run.bind_ok, decide_eq_true h1, require_true, Run.bind_ok]

/-- On one element `TB_BUILD` extracts it as the root (42 R164). -/
theorem runTbBuild_of_one (hv : s.status.heapValid = true) (h1 : s.hsize.toNat = 1) :
    runTbBuild s = .ok () { s.extracted with root := heapAt s.heap 0 } := by
  rw [runTbBuild_eq hv h1.ge, h1, mergeLoop, Run.bind_ok, heapExtract_eq (by omega), Run.bind_ok]

/-- On two elements or more the merge loop begins with a round. -/
theorem mergeLoop_of_two (h2 : 2 ≤ s.hsize.toNat) :
    mergeLoop (s.hsize.toNat - 1) s = (mergeRound s).bind fun _ t => mergeLoop (s.hsize.toNat - 1 - 1) t := by
  obtain ⟨k, hk⟩ : ∃ k, s.hsize.toNat - 1 = k + 1 := ⟨s.hsize.toNat - 2, by omega⟩
  rw [hk, mergeLoop, Nat.add_sub_cancel]

/-- A round that raises ends `TB_BUILD`. -/
theorem runTbBuild_of_stop {t : State} (hv : s.status.heapValid = true) (h2 : 2 ≤ s.hsize.toNat)
    (hr : mergeRound s = .stop t) : runTbBuild s = .stop t := by
  rw [runTbBuild_eq hv (by omega), mergeLoop_of_two h2, hr, Run.bind_stop, Run.bind_stop]

/-- After a round that completes `TB_BUILD` goes on as if it began there. -/
theorem runTbBuild_of_merged (hv : s.status.heapValid = true) (h2 : 2 ≤ s.hsize.toNat)
    (hr : mergeRound s = .ok () s.merged) : runTbBuild s = runTbBuild s.merged := by
  have hsize := State.merged_hsize_toNat h2
  rw [runTbBuild_eq hv (by omega), mergeLoop_of_two h2, hr, Run.bind_ok, runTbBuild_eq (s := s.merged) hv (by omega),
    hsize]

variable (hs : s.NoFault) (hv : s.status.heapValid = true) (h2 : 2 ≤ s.hsize.toNat)
include hs hv h2

/-- The round's second extract as a command, whatever the first wrote to `RES`. -/
theorem exec_hpExtract_second (v : Word64) :
    exec .hpExtract (s.extracted.setRes v) = .next (s.extracted.extracted.setRes (s.second.setWidth 64)) :=
  exec_hpExtract (s := s.extracted.setRes v) hs hv
    (show 0 < s.extracted.hsize.toNat by rw [State.extracted_hsize_toNat]; omega)

/-- The round's insert as a command, whatever the extracts wrote to `RES`: what it leaves is the round's result, but for
`RES`. -/
theorem exec_hpInsert_merged (hh : s.hsize.toNat ≤ s.hmax.toNat) (hn : s.nalloc.toNat < 511) (v : Word64) :
    ∃ i, exec (.hpInsert (s.nalloc.setWidth 12)) ((s.extracted.extracted.allocated s.mergedNode).setRes v) =
      .next (s.merged.setRes i) := by
  have hnext := nalloc_succ hn
  have himm : (s.nalloc.setWidth 12).toNat = s.nalloc.toNat := BitVec.toNat_setWidth_of_le (by omega)
  have hhandle : (s.nalloc.setWidth 12).setWidth 9 = s.nalloc.setWidth 9 := by simp
  have hvalid : (s.nalloc.setWidth 12).toNat < (BitVec.ofNat 10 (s.nalloc.toNat + 1)).toNat := by omega
  have hins := exec_hpInsert (s := (s.extracted.extracted.allocated s.mergedNode).setRes v)
    (a := s.nalloc.setWidth 12) hs hv hvalid (hnext.trans_le hn) (State.room_after_extracts h2 hh)
  rw [hhandle] at hins
  exact ⟨_, hins⟩

end Round

/-- Settles O23: both sides extract, allocate and insert the same, the commands writing `RES` besides. -/
theorem tbBuildRound : Obligations.TbBuildRound := by
  intro s s1 s2 hs hv hh _ _ he1 he2
  refine ⟨fun h1 => ?_, fun h2 => ?_⟩
  · obtain rfl := Host.Outcome.next.inj ((exec_hpExtract hs hv (by omega)).symm.trans he1)
    rw [State.setRes_handle, exec_tbBuild hs, runTbBuild_of_one hv h1]
    rfl
  · obtain rfl := Host.Outcome.next.inj ((exec_hpExtract hs hv (by omega)).symm.trans he1)
    obtain rfl := Host.Outcome.next.inj ((exec_hpExtract_second hs hv h2 _).symm.trans he2)
    simp only [State.setRes_handle]
    have hstop : ∀ t, mergeRound s = .stop t → exec .tbBuild s = .next t := fun t hr => by
      rw [exec_tbBuild hs, runTbBuild_of_stop hv h2 hr, Run.state_stop]
    refine ⟨fun hfull => hstop _ (mergeRound_full hs h2 hfull),
      fun hroom hbig => hstop _ (mergeRound_overflow hs h2 hroom hbig), fun hroom hsum => ?_⟩
    have hmerged := mergeRound_eq_merged h2 hh hroom hsum
    obtain ⟨i, hins⟩ := exec_hpInsert_merged hs hv h2 hh hroom (s.second.setWidth 64)
    have hnext : s.nalloc + 1 = BitVec.ofNat 10 (s.nalloc.toNat + 1) := BitVec.eq_of_toNat_eq (by simp)
    rw [hnext]
    refine ⟨_, hins, hs, ?_⟩
    rw [exec_tbBuild hs, runTbBuild_of_merged hv h2 hmerged]
    exact (exec_tbBuild (s := s.merged) hs).symm

/-! ## The tree of a heap of leaves (42 R165) -/

/-- Settles O24: the leaves are a forest of one-leaf trees, every round joins two of its trees, and the one tree left is
the root's. -/
theorem tbBuildResult : Obligations.TbBuildResult := by
  intro s hs hv h1 hh hm hn hleaves hw
  obtain ⟨t, h, tree, hloop, hforest, hsize, hroot, -, hlast, hsame⟩ :=
    (Forest.start s hleaves).loop (s.hsize.toNat - 1) (by omega) hh hm hn hw
  obtain ⟨heap', hrun⟩ := runTbBuild_of_mergeLoop hv h1 hloop hsize
  have hexec := exec_tbBuild hs
  rw [hrun, hroot, Run.state_ok] at hexec
  have hlist : t.heapList = [h] := by rw [State.heapList_eq, hsize, ← hroot]; rfl
  have hcount := hforest.count
  have hsyms := hforest.syms
  have hweights := hforest.weights
  rw [hsize, show (1 : BitVec 9).toNat = 1 from rfl] at hcount
  rw [List.flatMap_cons, List.flatMap_nil, List.append_nil] at hsyms
  rw [hlist, List.map_singleton, List.sum_singleton] at hweights
  refine ⟨_, tree, hexec, by rw [hforest.frame], ?_, ?_, hforest.old, hforest.new,
    (hforest.trees _ (List.mem_singleton_self _)).at_, hsyms, hweights⟩
  · show t.nalloc.toNat = _
    omega
  · show h.toNat = if s.hsize.toNat = 1 then (heapAt s.heap 0).toNat else t.nalloc.toNat - 1
    split_ifs with hone
    · rw [← hroot, hsame (by omega)]
    · exact hlast (by omega)

end Sys2Proof.Machine
end

section
/-! The code generator (43 R171 to R175): `CG_RUN` as its two cases, the properties of the codes a tree gives, and how
the walk stops. -/

namespace Sys2Proof.Machine

/-! ## `CG_RUN` and its root (43 R171) -/

/-- The state `CG_RUN` leaves when its root is a leaf (43 R173). -/
def State.singleCoded (s : State) : State :=
  ((s.zeroCodes.putCode (nodeAt s.node s.root).sym 0 1).setSingle true).setCtValid

theorem State.singleCoded_ctPat (s : State) (c : Byte) : symAt s.singleCoded.ctPat c = 0 :=
  (symAt_symPut _ _ c _).trans (by simp [word])

theorem State.singleCoded_ctLen (s : State) (c : Byte) :
    symAt s.singleCoded.ctLen c = if c = (nodeAt s.node s.root).sym then 1 else 0 :=
  (symAt_symPut _ _ c _).trans (by simp)

/-- The state in which the walk from an internal root begins. -/
def State.walkStart (s : State) : State := s.zeroCodes.setSingle false

@[simp] theorem State.walkStart_node (s : State) : s.walkStart.node = s.node := rfl

@[simp] theorem State.walkStart_ctLen (s : State) (c : Byte) : symAt s.walkStart.ctLen c = 0 := symAt_replicate 0 c

@[simp] theorem State.walkStart_ctPat (s : State) (c : Byte) : symAt s.walkStart.ctPat c = 0 := symAt_replicate 0 c

@[simp] theorem State.setCtValid_codeOf (s : State) (c : Byte) : s.setCtValid.codeOf c = s.codeOf c := rfl

section Root

variable {s t : State}

theorem runCgRun_of_root (hr : s.root ≠ 0x1FF) :
    runCgRun s = if (nodeAt s.node s.root).isLeaf then .ok () s.singleCoded
      else (walk 64 s.root 0 s.walkStart).bind fun _ t => .ok () t.setCtValid := by
  have hroot : (s.root != Config.null) = true := bne_iff_ne.2 hr
  rw [runCgRun, hroot, require_true, Run.bind_ok]
  rfl

theorem runCgRun_of_leaf (hr : s.root ≠ 0x1FF) (hl : (nodeAt s.node s.root).isLeaf = true) :
    runCgRun s = .ok () s.singleCoded := by
  rw [runCgRun_of_root hr, if_pos hl]

theorem runCgRun_of_node (hr : s.root ≠ 0x1FF) (hl : (nodeAt s.node s.root).isLeaf = false) :
    runCgRun s = (walk 64 s.root 0 s.walkStart).bind fun _ t => .ok () t.setCtValid := by
  rw [runCgRun_of_root hr, if_neg (by simp [hl])]

/-- `CG_RUN` completes only under a root. -/
theorem root_of_runCgRun (he : runCgRun s = .ok () t) : s.root ≠ 0x1FF := by
  rw [runCgRun, Run.bind_eq_ok] at he
  obtain ⟨_, _, hreq, -⟩ := he
  exact bne_iff_ne.1 (require_eq_ok.1 hreq).1

/-- The walk of `CG_RUN` completes over a tree of distinct symbols no deeper than 64. -/
theorem cgWalk_ok {tree : HTree} (hat : tree.At s.node s.root) (hd : tree.depth ≤ 64) (hn : tree.syms.Nodup) :
    ∃ t, walk 64 s.root 0 s.walkStart = .ok () t ∧ Coded s.walkStart 0 0 tree t :=
  walk_ok (s := s.walkStart) hat le_rfl hd (by decide) hn fun c _ => s.walkStart_ctLen c

/-- The walk of `CG_RUN` from an internal root completes over no other tree. -/
theorem cgWalk_sound (hl : (nodeAt s.node s.root).isLeaf = false) (he : walk 64 s.root 0 s.walkStart = .ok () t) :
    ∃ tree : HTree, tree.At s.node s.root ∧ tree.depth ≤ 64 ∧ tree.syms.Nodup := by
  obtain ⟨tree, hat, hd, hn, -⟩ := walk_sound he le_rfl (by decide) (.inr hl)
  exact ⟨tree, hat, hd, hn⟩

/-- What `CG_RUN` has done when it completes under an internal root: it coded the tree there. -/
theorem coded_of_runCgRun (hl : (nodeAt s.node s.root).isLeaf = false) (he : runCgRun s = .ok () t) :
    ∃ (tree : HTree) (u : State), tree.At s.node s.root ∧ tree.depth ≤ 64 ∧ tree.syms.Nodup ∧
      Coded s.walkStart 0 0 tree u ∧ t = u.setCtValid := by
  rw [runCgRun_of_node (root_of_runCgRun he) hl, Run.bind_eq_ok] at he
  obtain ⟨_, u, hwalk, hu⟩ := he
  obtain ⟨tree, hat, hd, hn⟩ := cgWalk_sound hl hwalk
  obtain ⟨u', hwalk', hcoded⟩ := cgWalk_ok hat hd hn
  obtain ⟨-, rfl⟩ := Run.ok.inj (hwalk.symm.trans hwalk')
  exact ⟨tree, u, hat, hd, hn, hcoded, (Run.ok.inj hu).2.symm⟩

end Root

/-- Settles O27: the symbol's entry is put into a table of zeros. -/
theorem cgRunLeaf : Obligations.CgRunLeaf := by
  intro s hs hr hl
  exact ⟨s.singleCoded, exec_eq_next (by simp) hs (congrArg Run.state (runCgRun_of_leaf hr hl)), rfl, fun c =>
    ⟨s.singleCoded_ctPat c, s.singleCoded_ctLen c⟩⟩

/-! ## The code table of a walk from the root -/

section Coded

variable {s t : State} {tree : HTree}

/-- From the root the walk's own prefix is empty: a leaf's code is its path. -/
theorem Coded.path (h : Coded s 0 0 tree t) {p : Byte × List Bool} (hp : p ∈ tree.codes) :
    t.codeOf p.1 = p.2 ∧ (symAt t.ctLen p.1).toNat = p.2.length ∧ (symAt t.ctPat p.1).toNat < 2 ^ p.2.length := by
  simpa using h.code p hp

theorem Coded.rest (h : Coded s.walkStart 0 0 tree t) {c : Byte} (hc : c ∉ tree.syms) :
    symAt t.ctLen c = 0 ∧ symAt t.ctPat c = 0 := by
  obtain ⟨hpat, hlen⟩ := h.same c hc
  exact ⟨hlen.trans (s.walkStart_ctLen c), hpat.trans (s.walkStart_ctPat c)⟩

end Coded

/-- Settles O28: the walk from the root completes, and its prefix there is empty. -/
theorem cgRunTree : Obligations.CgRunTree := by
  intro s tree hs hr hl hat hd hn
  obtain ⟨t, hwalk, hcoded⟩ := cgWalk_ok hat hd hn
  have hrun : runCgRun s = .ok () t.setCtValid := by rw [runCgRun_of_node hr hl, hwalk, Run.bind_ok]
  refine ⟨t.setCtValid, exec_eq_next (by simp) hs (congrArg Run.state hrun), ?_, fun p hp => hcoded.path hp,
    fun c hc => hcoded.rest hc⟩
  rw [hcoded.frame]
  rfl

/-! ## The codes of a tree (43 R175) -/

/-- Under an internal node no code is empty. -/
theorem HTree.code_ne_nil_of_node {l r : HTree} {p : Byte × List Bool} (hp : p ∈ (HTree.node l r).codes) :
    p.2 ≠ [] := by
  simp only [HTree.codes, List.mem_append, List.mem_map] at hp
  rcases hp with ⟨q, -, rfl⟩ | ⟨q, -, rfl⟩ <;> exact List.cons_ne_nil _ _

/-- No leaf's path begins another leaf's (43 R175 b): where two paths part, the bits differ. -/
theorem HTree.codes_prefix_free {t : HTree} {p q : Byte × List Bool} (hp : p ∈ t.codes) (hq : q ∈ t.codes)
    (hpre : p.2 <+: q.2) : p = q := by
  induction t generalizing p q with
  | leaf c => rw [List.mem_singleton.1 hp, List.mem_singleton.1 hq]
  | node l r ihl ihr =>
    simp only [HTree.codes, List.mem_append, List.mem_map] at hp hq
    rcases hp with ⟨p, hp, rfl⟩ | ⟨p, hp, rfl⟩ <;> rcases hq with ⟨q, hq, rfl⟩ | ⟨q, hq, rfl⟩
    · rw [ihl hp hq (List.cons_prefix_cons.1 hpre).2]
    · exact absurd (List.cons_prefix_cons.1 hpre).1 (by decide)
    · exact absurd (List.cons_prefix_cons.1 hpre).1 (by decide)
    · rw [ihr hp hq (List.cons_prefix_cons.1 hpre).2]

/-- The codes are complete (43 R175 c), counted in units of the deepest level `k`: each leaf at depth `d` covers
`2 ^ (k - d)` of the `2 ^ k`. -/
theorem HTree.codes_complete {t : HTree} {k : Nat} (h : t.depth ≤ k) :
    (t.codes.map fun p => 2 ^ (k - p.2.length)).sum = 2 ^ k := by
  induction t generalizing k with
  | leaf c => simp [HTree.codes]
  | node l r ihl ihr =>
    simp only [HTree.depth] at h
    obtain ⟨k, rfl⟩ : ∃ m, k = m + 1 := ⟨k - 1, by omega⟩
    have hl := ihl (k := k) (by omega)
    have hr := ihr (k := k) (by omega)
    simp only [HTree.codes, List.map_append, List.map_map, Function.comp_def, List.length_cons,
      Nat.add_sub_add_right, List.sum_append, hl, hr]
    omega

/-! ## The present symbols of a code table -/

/-- The present symbols of a table are the list that names each of them once, up to order. -/
theorem presentSymbols_perm {t : Vector Byte 256} {cs : List Byte} (hn : cs.Nodup)
    (h : ∀ c, symAt t c ≠ 0 ↔ c ∈ cs) : (presentSymbols t).Perm cs :=
  (List.perm_ext_iff_of_nodup (presentSymbols_nodup t) hn).2 fun c => mem_presentSymbols.trans (h c)

theorem State.singleCoded_present (s : State) : presentSymbols s.singleCoded.ctLen = [(nodeAt s.node s.root).sym] :=
  List.perm_singleton.1 <| presentSymbols_perm (List.nodup_singleton _) fun c => by simp [s.singleCoded_ctLen]

/-- The single symbol's code is the one bit 0 (43 R173). -/
theorem State.singleCoded_codeOf (s : State) : s.singleCoded.codeOf (nodeAt s.node s.root).sym = [false] := by
  rw [State.codeOf, s.singleCoded_ctPat, s.singleCoded_ctLen, if_pos rfl]
  rfl

section Coded

variable {s t : State} {l r : HTree} (h : Coded s.walkStart 0 0 (.node l r) t)
include h

/-- The symbols with a code are those at the leaves: under an internal root no path is empty. -/
theorem Coded.present_iff {c : Byte} : symAt t.ctLen c ≠ 0 ↔ c ∈ (HTree.node l r).syms := by
  refine ⟨fun hc => by_contra fun hm => hc (h.rest hm).1, fun hm hc => ?_⟩
  obtain ⟨p, hp, rfl⟩ := List.mem_map.1 hm
  have hlen := (h.path hp).2.1
  rw [hc] at hlen
  exact HTree.code_ne_nil_of_node hp (List.length_eq_zero_iff.1 hlen.symm)

/-- A present symbol's code is the path to its leaf (43 R175 e). -/
theorem Coded.mem_codes {c : Byte} (hc : symAt t.ctLen c ≠ 0) : (c, t.codeOf c) ∈ (HTree.node l r).codes := by
  obtain ⟨p, hp, rfl⟩ := List.mem_map.1 (h.present_iff.1 hc)
  rw [(h.path hp).1]
  exact hp

/-- The sum over the present symbols is the sum over the leaves. -/
theorem Coded.complete (hd : (HTree.node l r).depth ≤ 64) (hn : (HTree.node l r).syms.Nodup) :
    ((presentSymbols t.ctLen).map fun c => 2 ^ (64 - (symAt t.ctLen c).toNat)).sum = 2 ^ 64 := by
  have hperm := presentSymbols_perm hn fun c => h.present_iff (c := c)
  have hlen : ∀ p ∈ (HTree.node l r).codes, 2 ^ (64 - (symAt t.ctLen p.1).toNat) = 2 ^ (64 - p.2.length) :=
    fun p hp => by rw [(h.path hp).2.1]
  rw [(hperm.map _).sum_eq, List.map_map]
  exact (congrArg List.sum (List.map_congr_left hlen)).trans (HTree.codes_complete hd)

end Coded

/-- Settles O29: the code table of a completed `CG_RUN` is that of the one leaf, or the paths of the tree walked, which
are prefix-free and complete. -/
theorem codeTableProperties : Obligations.CodeTableProperties := by
  intro s t hs he ht
  have hrun : runCgRun s = .ok () t := procOf_eq_ok (by simp) hs ht he
  have hcodes : t.CodesRest := by
    have hends := runCgRun_codes s
    rwa [hrun] at hends
  show ∃ tree : HTree, tree.At s.node s.root ∧ (presentSymbols t.ctLen).length = tree.codes.length ∧ t.CodesOk ∧
    (_ → (presentSymbols t.ctLen).map t.codeOf = [[false]]) ∧ (_ → _)
  cases hl : (nodeAt s.node s.root).isLeaf with
  | true =>
    obtain ⟨-, rfl⟩ := Run.ok.inj ((runCgRun_of_leaf (root_of_runCgRun hrun) hl).symm.trans hrun)
    have hpresent := s.singleCoded_present
    refine ⟨.leaf (nodeAt s.node s.root).sym, ⟨hl, rfl⟩, by rw [hpresent]; rfl, hcodes rfl, fun _ => ?_,
      fun h => absurd h (by simp)⟩
    rw [hpresent, List.map_singleton, s.singleCoded_codeOf]
  | false =>
    obtain ⟨tree, u, hat, hd, hn, hcoded, rfl⟩ := coded_of_runCgRun hl hrun
    cases tree with
    | leaf c => exact absurd hat.1 (by simp [hl])
    | node l r =>
      have hlength := (presentSymbols_perm hn fun c => hcoded.present_iff (c := c)).length_eq
      refine ⟨.node l r, hat, hlength.trans (List.length_map _), hcodes rfl, fun h => absurd h (by simp), fun _ =>
        ⟨fun a ha b hb hab hpre => hab ?_, hcoded.complete hd hn, fun c hc =>
          hcoded.mem_codes (mem_presentSymbols.1 hc)⟩⟩
      have hsame := HTree.codes_prefix_free (hcoded.mem_codes (mem_presentSymbols.1 ha))
        (hcoded.mem_codes (mem_presentSymbols.1 hb)) hpre
      exact congrArg Prod.fst hsame

/-! ## Where `CG_RUN` stops (43 R172, R174) -/

/-- Over a tree too deep or with a repeated symbol the walk of `CG_RUN` stops. -/
theorem cgWalk_stop {s : State} {tree : HTree} (hl : (nodeAt s.node s.root).isLeaf = false)
    (hat : tree.At s.node s.root) (hbad : 64 < tree.depth ∨ ¬ tree.syms.Nodup) :
    ∃ t, walk 64 s.root 0 s.walkStart = .stop t := by
  cases hwalk : walk 64 s.root 0 s.walkStart with
  | stop t => exact ⟨t, rfl⟩
  | ok _ t =>
    obtain ⟨tree', hat', hd, hn⟩ := cgWalk_sound hl hwalk
    obtain rfl := HTree.at_unique hat' hat
    exact absurd hbad (by simp [hn, hd])

/-- Settles O30: the walk stops at its first bad visit; it began with no symbol coded, so a coded one is one visited. -/
theorem cgRunFaults : Obligations.CgRunFaults := by
  intro s tree hs hr hl hat hbad
  obtain ⟨t, hwalk⟩ := cgWalk_stop hl hat hbad
  have hrun : runCgRun s = .stop t := by rw [runCgRun_of_node hr hl, hwalk, Run.bind_stop]
  obtain ⟨ctPat, ctLen, pre, sym, path, post, hvisits, hnodup, hleaves, hstop⟩ :=
    walk_stop (s := s.walkStart) hat le_rfl (by decide) (.inr hl) hwalk
  have hraise : ∀ e info, { s.walkStart with ctPat := ctPat, ctLen := ctLen }.raise e info =
      { s with
        ctPat := ctPat, ctLen := ctLen, status := { s.status with single := false, fault := true }
        err := e.code, errinfo := info } :=
    fun e info => State.raise_of_noFault (s := { s.walkStart with ctPat := ctPat, ctLen := ctLen }) hs e info
  have hpre : ∀ v ∈ pre, v.1 ≠ none := fun v hv => by
    obtain ⟨c, hc, -⟩ := hleaves v hv
    simp [hc]
  refine ⟨t, pre, sym, path, post, exec_eq_next (by simp) hs (congrArg Run.state hrun), ?_, hvisits, hpre, hnodup,
    ?_⟩
  · rcases hstop with ⟨c, -, rfl, -⟩ | ⟨-, -, -, rfl⟩ <;> rw [hraise]
  · rcases hstop with ⟨c, hsym, rfl, hcoded | hseen⟩ | ⟨hnone, hlen, hnode, rfl⟩
    · exact absurd (s.walkStart_ctLen c) hcoded
    · exact .inr ⟨c, hsym, hseen, by rw [hraise]; rfl, by rw [hraise]⟩
    · exact .inl ⟨hnone, hlen, hnode, by rw [hraise]; rfl, by rw [hraise]; rfl⟩

end Sys2Proof.Machine
end

section
/-! The host's listing (30 R117, R118) as commands: a write of a command's word to `CMD` runs the command. -/

namespace Sys2Proof.Machine

theorem cmdWord_setWidth (w : Word32) : cmdWord (w.setWidth 64) = w := by simp [cmdWord]

/-- A listed command is the command. -/
theorem perform_listCommand {i : Instr} (hi : i.wellFormed = true) (s : State) :
    perform (listCommand i) s = exec i s := by
  rw [listCommand, perform, if_pos (portReg_eq_cmd.2 rfl), cmdWord_setWidth, runWord, decodeOfEncode i hi]

theorem perform_listSetArg0 (v : Word64) (s : State) : perform (listSetArg0 v) s = .next { s with arg0 := v } := by
  rw [listSetArg0, perform, if_neg fun h => absurd (portReg_eq_cmd.1 h) (by decide), regWrite_eq, if_pos rfl]

theorem performAll_cons {a : HostAction} {s t : State} (h : perform a s = .next t) (rest : List HostAction) :
    performAll (a :: rest) s = performAll rest t := by
  rw [performAll, h]

theorem performAll_singleton {a : HostAction} {s t : State} (h : perform a s = .next t) :
    performAll [a] s = .next t := performAll_cons h []

/-- Actions that complete are followed by those after them. -/
theorem performAll_append {as : List HostAction} {s t : State} (h : performAll as s = .next t)
    (rest : List HostAction) : performAll (as ++ rest) s = performAll rest t := by
  induction as generalizing s with
  | nil => rw [← Host.Outcome.next.inj h, List.nil_append]
  | cons a as ih =>
    cases ha : perform a s with
    | next u =>
      rw [performAll_cons ha] at h
      rw [List.cons_append, performAll_cons ha, ih h]
    | fault r =>
      rw [performAll, ha] at h
      cases h
    | refused r =>
      rw [performAll, ha] at h
      cases h

end Sys2Proof.Machine
end

section
/-! The bit writer (44 R180 to R185): where `BW_WRITE` stops, what `BW_FLUSH` appends, and the bits of a sequence of
writes. -/

namespace Sys2Proof.Machine

/-! ## `BW_INIT` (44 R180) -/

/-- The state `BW_INIT` leaves. -/
def State.writerStarted (s : State) : State :=
  { s with
    wbuf := List.replicate s.bufBytes.toNat 0, wpos := 0, wtotal := 0, status := { s.status with bwValid := true } }

theorem exec_bwInit {s : State} (hs : s.NoFault) : exec .bwInit s = .next s.writerStarted :=
  command_of_noFault hs runBwInit

theorem State.writerStarted_ok {s : State} (h0 : s.bufBytes ≠ 0) : s.writerStarted.WriterOk :=
  zeroWbuf_writerOk (s := s.writerStarted) h0 rfl

/-- Settles O31: `BW_INIT` has no check. -/
theorem bwInitResult : Obligations.BwInitResult := ⟨decode_eq_ok_iff.2 ⟨rfl, rfl⟩, fun _ hs => exec_bwInit hs⟩

/-! ## `BW_WRITE` (44 R181 to R183) -/

section Wrote

variable {s t : State} {bits : List Bool} {v : List Byte}

theorem Wrote.status (h : Wrote s bits t v) : t.status = s.status := by rw [h.frame]

theorem Wrote.output (h : Wrote s bits t v) : t.output = s.output ++ v := by rw [h.frame]

/-- Each bit is in a byte of `OUT` or pending. -/
theorem Wrote.length_eq (h : Wrote s bits t v) : 8 * v.length + t.wpos.toNat = s.writerBits.length + bits.length := by
  obtain ⟨-, hlen, hpos, -⟩ := h.ok
  have hbits := congrArg List.length h.bits_eq
  rwa [List.length_append, List.length_append, streamBits_length, State.writerBits_length hlen hpos.le] at hbits

/-- Writing is blind to `ARG0`. -/
theorem Wrote.withArg0 (h : Wrote s bits t v) (x : Word64) :
    Wrote { s with arg0 := x } bits { t with arg0 := x } v where
  frame := congrArg (fun u : State => { u with arg0 := x }) h.frame
  ok := h.ok
  out := h.out
  pos := h.pos
  total := h.total
  bits_eq := h.bits_eq

end Wrote

/-- Past the counter's limit `WriteBits` writes the bits up to it and raises `Overflow(2)` at the next one. -/
theorem writeBits_overflow (pat : Word64) (len : Nat) {s : State} (hw : s.WriterOk)
    (ht : 2 ^ 64 - 1 < s.wtotal.toNat + len) (hr : s.RoomFor (2 ^ 64 - 1 - s.wtotal.toNat)) :
    ∃ t v, writeBits pat len s = .stop (t.raise .overflow 2) ∧
      Wrote s ((codeBits pat len).take (2 ^ 64 - 1 - s.wtotal.toNat)) t v := by
  have hmax := s.wtotal.isLt
  induction len generalizing s with
  | zero => omega
  | succ k ih =>
    by_cases hlimit : s.wtotal.toNat = 2 ^ 64 - 1
    · refine ⟨s, [], by rw [writeBits, writeBit_overflow _ hlimit, Run.bind_stop], ?_⟩
      rw [hlimit, Nat.sub_self, List.take_zero]
      exact Wrote.refl hw
    · obtain ⟨left, hleft⟩ : ∃ n, 2 ^ 64 - 1 - s.wtotal.toNat = 1 + n := ⟨2 ^ 64 - 1 - s.wtotal.toNat - 1, by omega⟩
      rw [hleft] at hr
      obtain ⟨t, v, hbit, hone⟩ := writeBit_spec (pat.getLsbD k) hw (by omega) hr.left
      have htotal := hone.total
      rw [List.length_singleton] at htotal
      have hrest : 2 ^ 64 - 1 - t.wtotal.toNat = left := by omega
      have hroom : t.RoomFor left := State.RoomFor.right hr hone
      obtain ⟨u, w, hstop, hmore⟩ := ih hone.ok (by omega) (by rwa [hrest]) t.wtotal.isLt
      refine ⟨u, v ++ w, by rw [writeBits, hbit, Run.bind_ok, hstop], ?_⟩
      rw [hrest] at hmore
      rw [hleft, Nat.add_comm, codeBits_succ, List.take_succ_cons]
      exact hone.trans hmore

theorem wellFormed_bwWrite {a : BitVec 12} (ha : a.toNat ≤ 64) : (Instr.bwWrite a).wellFormed = true :=
  decide_eq_true ha

section Write

variable {s : State} {a : BitVec 12} (hs : s.NoFault) (hv : s.status.bwValid = true) (hw : s.WriterOk)
  (ha : a.toNat ≤ 64)

include hv ha in
/-- With its checks passed `BW_WRITE` is `WriteBits`. -/
theorem runBwWrite_eq : runBwWrite a s = writeBits s.arg0 a.toNat s := by
  rw [runBwWrite, checkImm, wellFormed_bwWrite ha, require_true, Run.bind_ok, hv, require_true, Run.bind_ok, immLength]

include hs hv hw ha

theorem exec_bwWrite (ht : s.wtotal.toNat + a.toNat ≤ 2 ^ 64 - 1) (hr : s.RoomFor a.toNat) :
    ∃ t v, exec (.bwWrite a) s = .next t ∧ Wrote s (codeBits s.arg0 a.toNat) t v := by
  obtain ⟨t, v, hrun, hwrote⟩ := writeBits_spec s.arg0 a.toNat hw ht hr
  exact ⟨t, v, exec_eq_next (by simp) hs (by rw [procOf, runBwWrite_eq hv ha, hrun, Run.state_ok]), hwrote⟩

theorem exec_bwWrite_overflow (ht : 2 ^ 64 - 1 < s.wtotal.toNat + a.toNat)
    (hr : s.RoomFor (2 ^ 64 - 1 - s.wtotal.toNat)) :
    ∃ t v, exec (.bwWrite a) s = .next (t.faulted 11 2) ∧
      Wrote s ((codeBits s.arg0 a.toNat).take (2 ^ 64 - 1 - s.wtotal.toNat)) t v := by
  obtain ⟨t, v, hrun, hwrote⟩ := writeBits_overflow s.arg0 a.toNat hw ht hr
  have hclear : t.NoFault := (congrArg Status.fault hwrote.status).trans hs
  refine ⟨t, v, exec_eq_next (by simp) hs ?_, hwrote⟩
  rw [procOf, runBwWrite_eq hv ha, hrun, Run.state_stop]
  exact State.raise_eq_faulted hclear .overflow 2

end Write

/-- Settles O32: the counter has room for all the bits, or the bits up to its limit are written first. -/
theorem bwWriteResult : Obligations.BwWriteResult := by
  intro s a hs hv hw ha
  constructor
  · intro ht q hr
    obtain ⟨t, v, hexec, hwrote⟩ := exec_bwWrite hs hv hw ha ht hr
    obtain ⟨hframe, hok, hout, -, htotal, hbits⟩ := hwrote
    rw [codeBits_length] at hout htotal
    exact ⟨t, v, hexec, hframe, hok, hout, htotal, hbits⟩
  · intro ht q hr
    obtain ⟨t, v, hexec, hwrote⟩ := exec_bwWrite_overflow hs hv hw ha ht hr
    have hlen : ((codeBits s.arg0 a.toNat).take (2 ^ 64 - 1 - s.wtotal.toNat)).length =
        2 ^ 64 - 1 - s.wtotal.toNat := by
      rw [List.length_take, codeBits_length]
      omega
    have hout := hwrote.out
    rw [hlen] at hout
    refine ⟨t.faulted 11 2, v, hexec, rfl, rfl, rfl, hwrote.output, hout, ?_, ?_⟩
    · show t.inPos = s.inPos
      rw [hwrote.frame]
    · calc streamBits v <+: streamBits v ++ t.writerBits := List.prefix_append _ _
        _ = s.writerBits ++ (codeBits s.arg0 a.toNat).take (2 ^ 64 - 1 - s.wtotal.toNat) := hwrote.bits_eq
        _ <+: s.writerBits ++ codeBits s.arg0 a.toNat := (List.prefix_append_right_inj _).2 (List.take_prefix _ _)

/-! ## `BW_FLUSH` (44 R184) -/

/-- With room for the used bytes `BW_FLUSH` appends them and empties the buffer. -/
theorem exec_bwFlush {s : State} (hs : s.NoFault) (hv : s.status.bwValid = true)
    (hfits : (s.wbuf.take (ceilDiv s.wpos.toNat 8)).length ≤ s.room) :
    exec .bwFlush s = .next { s with
      output := s.output ++ s.wbuf.take (ceilDiv s.wpos.toNat 8)
      wbuf := List.replicate s.bufBytes.toNat 0, wpos := 0 } := by
  refine exec_eq_next (by simp) hs ?_
  rw [procOf, runBwFlush, hv, require_true, Run.bind_ok, outAppend_of_fits hfits, Run.bind_ok, Run.state_ok]
  rfl

/-- Settles O33: the used bytes of the buffer are the pending bits, padded with the zeros above `WPOS`. -/
theorem bwFlushResult : Obligations.BwFlushResult := by
  intro s hs hv hc hl hp hroom
  refine ⟨_, exec_bwFlush hs hv ?_, packs_writerBits hc hl hp⟩
  rw [List.length_take, ceilDiv, State.room_eq]
  by_cases hzero : s.wpos = 0
  · simp [hzero]
  · have hroom := hroom hzero
    omega

/-! ## A sequence of writes (44 R185) -/

/-- Whole bytes before packed bits are packed with them. -/
theorem Packs.append_bytes {v w : List Byte} {pending bits : List Bool} (hw : Packs w pending)
    (h : streamBits v ++ pending = bits) : Packs (v ++ w) bits := by
  obtain ⟨hlen, hbits⟩ := hw
  subst h
  constructor
  · rw [List.length_append, List.length_append, hlen, streamBits_length, ceilDiv, ceilDiv]
    omega
  · have hpad : 8 * (v ++ w).length - (streamBits v ++ pending).length = 8 * w.length - pending.length := by
      rw [List.length_append, List.length_append, streamBits_length]
      omega
    rw [streamBits_append, hbits, hpad, List.append_assoc]

/-- The whole buffers that `n` bits fill hold no more than `n` bits. -/
theorem buffers_le (n b : Nat) : 8 * (n / (8 * b) * b) ≤ n := by
  rw [Nat.mul_left_comm]
  exact Nat.div_mul_le_self n (8 * b)

/-- From an empty writer there is room for the whole buffers where there is room for the packed bits. -/
theorem State.writerStarted_roomFor {s : State} {n : Nat} (h : s.output.length + (n + 7) / 8 ≤ s.outCap.toNat) :
    s.writerStarted.RoomFor n := by
  intro _
  have hle := buffers_le (s.writerStarted.wpos.toNat + n) s.bufBytes.toNat
  have hzero : s.writerStarted.wpos.toNat = 0 := rfl
  show s.output.length + (s.writerStarted.wpos.toNat + n) / (8 * s.bufBytes.toNat) * s.bufBytes.toNat ≤ s.outCap.toNat
  omega

/-- The host's listing of writes, a pattern and a length each. -/
def listWrites (ws : List (Word64 × BitVec 12)) : List HostAction :=
  ws.flatMap fun w => [listSetArg0 w.1, listCommand (.bwWrite w.2)]

/-- The bits of a sequence of writes. -/
def writtenBits (ws : List (Word64 × BitVec 12)) : List Bool := ws.flatMap fun w => codeBits w.1 w.2.toNat

theorem listWrites_cons (w : Word64 × BitVec 12) (ws : List (Word64 × BitVec 12)) :
    listWrites (w :: ws) = listSetArg0 w.1 :: listCommand (.bwWrite w.2) :: listWrites ws := rfl

theorem writtenBits_cons (w : Word64 × BitVec 12) (ws : List (Word64 × BitVec 12)) :
    writtenBits (w :: ws) = codeBits w.1 w.2.toNat ++ writtenBits ws := rfl

/-- A sequence of writes writes its bits; the last pattern stays in `ARG0`. -/
theorem performAll_listWrites {ws : List (Word64 × BitVec 12)} (hws : ∀ w ∈ ws, w.2.toNat ≤ 64) {s : State}
    (hs : s.NoFault) (hv : s.status.bwValid = true) (hw : s.WriterOk)
    (ht : s.wtotal.toNat + (writtenBits ws).length ≤ 2 ^ 64 - 1) (hr : s.RoomFor (writtenBits ws).length) :
    ∃ t v x, performAll (listWrites ws) s = .next t ∧ Wrote { s with arg0 := x } (writtenBits ws) t v := by
  induction ws generalizing s with
  | nil => exact ⟨s, [], s.arg0, rfl, Wrote.refl hw⟩
  | cons w ws ih =>
    have ha : w.2.toNat ≤ 64 := hws w List.mem_cons_self
    have hlen : (writtenBits (w :: ws)).length = (codeBits w.1 w.2.toNat).length + (writtenBits ws).length := by
      rw [writtenBits_cons, List.length_append]
    rw [hlen] at ht hr
    have hroom : State.RoomFor { s with arg0 := w.1 } w.2.toNat := by
      have hleft := State.RoomFor.left hr
      rwa [codeBits_length] at hleft
    rw [codeBits_length] at ht
    obtain ⟨t, v, hexec, hone⟩ := exec_bwWrite (s := { s with arg0 := w.1 }) hs hv hw ha (by simp only; omega) hroom
    have hstatus : t.status = s.status := hone.status
    have htotal : t.wtotal.toNat = s.wtotal.toNat + w.2.toNat := by rw [hone.total, codeBits_length]
    obtain ⟨u, y, x, hrest, hmore⟩ := ih (fun w' hw' => hws w' (List.mem_cons_of_mem w hw')) (s := t)
      ((congrArg Status.fault hstatus).trans hs) ((congrArg Status.bwValid hstatus).trans hv) hone.ok (by omega)
      (State.RoomFor.right (s := { s with arg0 := w.1 }) hr hone)
    refine ⟨u, v ++ y, x, ?_, (hone.withArg0 x).trans hmore⟩
    rw [listWrites_cons, performAll_cons (perform_listSetArg0 w.1 s),
      performAll_cons ((perform_listCommand (wellFormed_bwWrite ha) _).trans hexec), hrest]

/-- Settles O34: after `BW_INIT` nothing is pending, the writes add their bits, and the flush packs what is pending
behind the whole buffers already in `OUT`. -/
theorem writerGuarantee : Obligations.WriterGuarantee := by
  intro s ws hs h0 hws bits hcount hroom
  obtain ⟨t, v, x, hwrites, hwrote⟩ := performAll_listWrites hws (s := s.writerStarted) hs rfl
    (State.writerStarted_ok h0) ((Nat.zero_add _).trans_le hcount) (State.writerStarted_roomFor hroom)
  have hnone : State.writerBits { s.writerStarted with arg0 := x } = [] := rfl
  have hstatus : t.status = { s.status with bwValid := true } := hwrote.status
  have hcap : t.outCap = s.outCap := by rw [hwrote.frame]; rfl
  have hout : t.output = s.output ++ v := hwrote.output
  have hclear : t.NoFault := by rw [State.NoFault, hstatus]; exact hs
  have hlen : 8 * v.length + t.wpos.toNat = bits.length := by
    rw [hwrote.length_eq, hnone, List.length_nil, Nat.zero_add]
    rfl
  have htotal : t.wtotal.toNat = bits.length := hwrote.total.trans (Nat.zero_add _)
  have hstream : streamBits v ++ t.writerBits = bits := by
    rw [hwrote.bits_eq, hnone, List.nil_append]
    rfl
  obtain ⟨-, hwbuf, hpos, -, hclean⟩ := hwrote.ok
  obtain ⟨w, hflush, hpacks⟩ := bwFlushResult t hclear (by rw [hstatus]) hclean hwbuf hpos.le fun _ => by
    rw [hout, hcap, List.length_append]
    omega
  have hstart := performAll_cons ((perform_listCommand rfl s).trans (exec_bwInit hs))
  have hend := performAll_singleton ((perform_listCommand rfl t).trans hflush)
  refine ⟨_, v ++ w, (hstart _).trans ((performAll_append hwrites _).trans hend), hclear, ?_,
    hpacks.append_bytes hstream, htotal⟩
  rw [hout, List.append_assoc]

end Sys2Proof.Machine
end

section
/-! The bit reader (44 R189 to R192): what a `BR_READ` leaves, and a sequence of reads. -/

namespace Sys2Proof.Machine

/-! ## `BR_INIT` (44 R189) -/

theorem exec_brInit {s : State} (hs : s.NoFault) : exec .brInit s = .next (s.initReader s.arg0) :=
  command_of_noFault hs runBrInit

/-- Settles O35: `BR_INIT` has no check. -/
theorem brInitResult : Obligations.BrInitResult := ⟨decode_eq_ok_iff.2 ⟨rfl, rfl⟩, fun _ hs => exec_brInit hs⟩

/-- A reader just initialised has nothing in its buffer. -/
theorem initReader_ok {s : State} (limit : Word64) (h0 : s.bufBytes ≠ 0) (hl : s.rbuf.length = s.bufBytes.toNat)
    (hin : s.input.length < 2 ^ 64) : (s.initReader limit).ReaderOk :=
  ⟨h0, hl, Nat.zero_le _, Nat.zero_le _, Nat.zero_le _, hin⟩

/-- A reader just initialised has the bytes up to its limit to return. -/
theorem initReader_readerBits (s : State) (limit : Word64) :
    (s.initReader limit).readerBits = streamBits (s.unread.take limit.toNat) := by
  rw [State.readerBits, State.initReader_rfill, State.initReader_rpos, State.initReader_rlimit]
  rfl

/-! ## `BR_READ` (44 R190, R191) -/

theorem bitResult_some (b : Bool) : bitResult (some b) = if b then 1 else 0 := by cases b <;> rfl

/-- A reader with no bit left has used up its buffer. -/
theorem rpos_of_readerBits_nil {s : State} (hr : s.ReaderOk) (hb : s.readerBits = []) :
    s.rpos.toNat = 8 * s.rfill.toNat := by
  obtain ⟨-, hl, hf, hp, -⟩ := hr
  have hlen := congrArg List.length (List.append_eq_nil_iff.1 hb).1
  rw [List.length_drop, List.length_take, streamBits_length, hl, List.length_nil] at hlen
  omega

/-- With no bit left `ReadBit` returns the sentinel, wherever the counter stands. -/
theorem readBit_of_nil {s : State} (hr : s.ReaderOk) (hb : s.readerBits = []) : readBit s = .ok none s := by
  have hp := rpos_of_readerBits_nil hr hb
  rw [readBit, if_pos hp, if_pos ((readerBits_eq_nil_iff hr hp).1 hb)]

section Read

variable {s : State} (hs : s.NoFault) (hv : s.status.brValid = true)
include hs hv

/-- With its check passed `BR_READ` is `ReadBit` and the write of `RES`. -/
theorem exec_brRead :
    exec .brRead s = .next ((readBit s).bind fun b t => .ok () (t.setRes (bitResult b))).state :=
  exec_eq_next (by simp) hs (by rw [procOf, runBrRead, hv, require_true, Run.bind_ok])

theorem exec_brRead_of_ok {b : Option Bool} {t : State} (h : readBit s = .ok b t) :
    exec .brRead s = .next (t.setRes (bitResult b)) := by
  rw [exec_brRead hs hv, h, Run.bind_ok, Run.state_ok]

theorem exec_brRead_of_stop {t : State} (h : readBit s = .stop t) : exec .brRead s = .next t := by
  rw [exec_brRead hs hv, h, Run.bind_stop, Run.state_stop]

end Read

/-- Settles O36: `ReadBit` returns the sentinel, stops at the counter's limit, or takes the next bit. -/
theorem brReadResult : Obligations.BrReadResult := by
  intro s hs hv hr n
  refine ⟨fun hb => exec_brRead_of_ok hs hv (readBit_of_nil hr hb), fun hb ht => ?_, fun b rest hb ht => ?_⟩
  · have hexec := exec_brRead_of_stop hs hv (readBit_overflow hr ht hb)
    by_cases hp : s.rpos.toNat = 8 * s.rfill.toNat
    · obtain ⟨-, -, -, -, hpos, -⟩ := refill_spec hr hp
      rw [if_pos hp, State.raise_of_noFault (s := s.refill) hs] at hexec
      exact ⟨_, hexec, rfl, rfl, rfl, rfl, by rw [if_pos hp]; exact hpos⟩
    · rw [if_neg hp, State.raise_of_noFault hs] at hexec
      exact ⟨_, hexec, rfl, rfl, rfl, rfl, by rw [if_neg hp, Nat.add_zero]⟩
  · obtain ⟨hnil, -⟩ | ⟨c, t, hread, hbits, hframe, hok, htotal, hinside, hrefill⟩ := readBit_spec hr ht
    · rw [hnil] at hb
      cases hb
    · obtain ⟨rfl, hrest⟩ := List.cons.inj (hb.symm.trans hbits)
      refine ⟨_, exec_brRead_of_ok hs hv hread, ?_, hok, htotal, hrest.symm, hinside, fun hp => ?_⟩
      · rw [hframe, bitResult_some]
        rfl
      · obtain ⟨hpos, hfill⟩ := hrefill hp
        exact ⟨BitVec.eq_of_toNat_eq hpos, hfill⟩

/-! ## A sequence of reads (44 R192) -/

/-- One read: the first of the bits left, or the sentinel; the others are left. -/
theorem perform_brRead {s : State} (hs : s.NoFault) (hv : s.status.brValid = true) (hr : s.ReaderOk)
    (ht : s.rtotal.toNat < 2 ^ 64 - 1) :
    ∃ t, perform (listCommand .brRead) s = .next t ∧ t.status = s.status ∧ t.ReaderOk ∧
      t.readerBits = s.readerBits.tail ∧ t.rtotal.toNat = s.rtotal.toNat + min 1 s.readerBits.length ∧
      t.res = bitResult s.readerBits[0]? := by
  rw [perform_listCommand rfl]
  obtain ⟨hnil, hread⟩ | ⟨b, t, hread, hbits, hframe, hok, htotal, -⟩ := readBit_spec hr ht
  · rw [hnil]
    exact ⟨_, exec_brRead_of_ok hs hv hread, rfl, hr, hnil, rfl, rfl⟩
  · rw [hbits]
    have hstatus : t.status = s.status := by rw [hframe]
    exact ⟨_, exec_brRead_of_ok hs hv hread, hstatus, hok, rfl, by simpa using htotal, rfl⟩

/-- The read number `i` of a sequence returns bit `i` of those left, or the sentinel. -/
theorem performAll_brReads (i : Nat) {s : State} (hs : s.NoFault) (hv : s.status.brValid = true) (hr : s.ReaderOk)
    (ht : s.rtotal.toNat + i < 2 ^ 64 - 1) :
    ∃ t, performAll (List.replicate (i + 1) (listCommand .brRead)) s = .next t ∧ t.NoFault ∧
      t.rtotal.toNat = s.rtotal.toNat + min (i + 1) s.readerBits.length ∧ t.res = bitResult s.readerBits[i]? := by
  induction i generalizing s with
  | zero =>
    obtain ⟨t, hread, hstatus, -, -, htotal, hres⟩ := perform_brRead hs hv hr ht
    exact ⟨t, performAll_singleton hread, (congrArg Status.fault hstatus).trans hs, htotal, hres⟩
  | succ i ih =>
    obtain ⟨t, hread, hstatus, hok, hbits, htotal, -⟩ := perform_brRead hs hv hr (by omega)
    obtain ⟨u, hreads, hclear, hutotal, hres⟩ := ih (s := t) ((congrArg Status.fault hstatus).trans hs)
      ((congrArg Status.brValid hstatus).trans hv) hok (by omega)
    refine ⟨u, (performAll_cons hread _).trans hreads, hclear, ?_, ?_⟩
    · rw [hutotal, htotal, hbits, List.length_tail]
      omega
    · rw [hres, hbits, List.getElem?_tail]

/-- Settles O37: after `BR_INIT` the bits left are those of the bytes up to the limit. -/
theorem readerGuarantee : Obligations.ReaderGuarantee := by
  intro s i hs h0 hl hin hi bits
  have hbits : (s.initReader s.arg0).readerBits = bits := initReader_readerBits s s.arg0
  have hzero : (s.initReader s.arg0).rtotal.toNat = 0 := rfl
  obtain ⟨t, hreads, hclear, htotal, hres⟩ := performAll_brReads i (s := s.initReader s.arg0) hs rfl
    (initReader_ok s.arg0 h0 hl hin) (by omega)
  rw [hbits] at htotal hres
  have hstart := performAll_cons ((perform_listCommand rfl s).trans (exec_brInit hs))
  refine ⟨t, (hstart _).trans hreads, hclear, by omega, ?_⟩
  rw [hres]
  cases bits[i]? with
  | none => rfl
  | some b => exact bitResult_some b

end Sys2Proof.Machine
end

section
/-! The header and the trailer (45 R203, R205, R211): what `HDR_WRITE` and `TRL_WRITE` append, what `HDR_READ` leaves, and
the bytes of a container read back. -/

namespace Sys2Proof.Machine

/-! ## `TRL_WRITE` (45 R211) -/

/-- With room for eight bytes `TRL_WRITE` appends the total. -/
theorem runTrlWrite_of_fits {s : State} (hv : s.status.bwValid = true)
    (hfits : s.output.length + 8 ≤ s.outCap.toNat) :
    runTrlWrite s = .ok () { s with output := s.output ++ le64 s.wtotal } := by
  rw [runTrlWrite, hv, require_true, Run.bind_ok, outAppend_of_fits]
  rw [le64_length, State.room_eq]
  omega

/-- Settles O43: the eight bytes are the little-endian digits of `WTOTAL`. -/
theorem trlWriteResult : Obligations.TrlWriteResult := by
  intro s hs hv hfits
  exact ⟨le64 s.wtotal, exec_eq_next (by simp) hs (congrArg Run.state (runTrlWrite_of_fits hv hfits)),
    le64_length _, le64_getElem _⟩

/-! ## `HDR_WRITE` (45 R203) -/

/-- Where `OUT` has no room for all pairs, what fits is appended; the pair that does not is short of one byte or of
two. -/
theorem writePairs_of_short (cs : List Byte) {s : State} (h : s.room < (pairBytes s.sft cs).length) :
    writePairs cs s = .stop ({ s with output := s.output ++ (pairBytes s.sft cs).take s.room }.raise .ioWrite
      (word (2 - s.room % 2))) := by
  induction cs generalizing s with
  | nil => simp at h
  | cons c cs ih =>
    rw [pairBytes_cons] at h ⊢
    by_cases hc : symAt s.sft c = 0
    · rw [if_pos hc, List.nil_append] at h ⊢
      rw [writePairs, if_pos hc, ih h]
    · rw [if_neg hc, List.length_append, List.length_cons, List.length_singleton] at h
      rw [if_neg hc, writePairs, if_neg hc]
      by_cases hroom : s.room < 2
      · rw [outAppend_of_short hroom, Run.bind_stop, Nat.mod_eq_of_lt hroom,
          List.take_append_of_le_length (by simp; omega)]
        rfl
      · have hleft := s.room_append [c, symAt s.sft c]
        rw [List.length_cons, List.length_singleton] at hleft
        have hmod : (s.room - 2) % 2 = s.room % 2 := by omega
        have hrest := ih (s := { s with output := s.output ++ [c, symAt s.sft c] })
          (by rw [hleft]; exact Nat.sub_lt_left_of_lt_add (by omega) h)
        rw [hleft, hmod] at hrest
        have htake : ([c, symAt s.sft c] ++ pairBytes s.sft cs).take s.room =
            [c, symAt s.sft c] ++ (pairBytes s.sft cs).take (s.room - 2) := by
          have hpair : [c, symAt s.sft c].take s.room = [c, symAt s.sft c] := List.take_of_length_le (by simp; omega)
          rw [List.take_append, hpair]
          rfl
        rw [outAppend_of_fits (by simp; omega), Run.bind_ok, hrest, htake]
        simp only [List.append_assoc]

section HdrWrite

variable {s : State} (hv : s.status.sftValid = true)

theorem headerBytes_length (n : Nat) (sft : Vector Byte 256) :
    (headerBytes n sft).length = 1 + 2 * (presentSymbols sft).length := by
  rw [headerBytes_eq, List.length_cons, pairBytes_length, presentSymbols, Nat.add_comm]

include hv

theorem runHdrWrite_of_large (hn : 255 < s.nsym.toNat) :
    runHdrWrite s = .stop (s.raise .alphabet256 (word s.nsym.toNat)) := by
  rw [runHdrWrite, hv, require_true, Run.bind_ok, decide_eq_false (by omega), require_false, Run.bind_stop, word,
    BitVec.ofNat_toNat]

variable (hn : s.nsym.toNat ≤ 255)
include hn

/-- With its checks passed `HDR_WRITE` appends the count byte and runs the pair loop. -/
theorem runHdrWrite_eq :
    runHdrWrite s = (outAppend [BitVec.ofNat 8 s.nsym.toNat] s).bind fun _ t => writePairs allSymbols t := by
  rw [runHdrWrite, hv, require_true, Run.bind_ok, decide_eq_true hn, require_true, Run.bind_ok, BitVec.ofNat_toNat]

theorem runHdrWrite_of_fits (hfits : (headerBytes s.nsym.toNat s.sft).length ≤ s.room) :
    runHdrWrite s = .ok () { s with output := s.output ++ headerBytes s.nsym.toNat s.sft } := by
  rw [headerBytes_eq, List.length_cons] at hfits
  rw [runHdrWrite_eq hv hn, outAppend_of_fits (by simp; omega), Run.bind_ok, writePairs_spec, headerBytes_eq,
    List.append_assoc]
  · rfl
  · rw [State.room_append, List.length_singleton]
    exact Nat.le_sub_of_add_le hfits

/-- Without room for the header `HDR_WRITE` appends what fits and counts what is missing of the count byte or of the
pair it was at. -/
theorem runHdrWrite_of_short (hshort : s.room < (headerBytes s.nsym.toNat s.sft).length) :
    runHdrWrite s = .stop ({ s with output := s.output ++ (headerBytes s.nsym.toNat s.sft).take s.room }.raise .ioWrite
      (word (if s.room = 0 then 1 else 2 - (s.room - 1) % 2))) := by
  rw [headerBytes_eq, List.length_cons] at hshort
  rw [runHdrWrite_eq hv hn, headerBytes_eq]
  by_cases hroom : s.room = 0
  · rw [outAppend_of_short (by simp [hroom]), Run.bind_stop, if_pos hroom, hroom]
    rfl
  · obtain ⟨room, hsucc⟩ : ∃ m, s.room = m + 1 := ⟨s.room - 1, by omega⟩
    have hleft := s.room_append [BitVec.ofNat 8 s.nsym.toNat]
    rw [List.length_singleton, hsucc, Nat.add_sub_cancel] at hleft
    have hrest := writePairs_of_short allSymbols (s := { s with output := s.output ++ [BitVec.ofNat 8 s.nsym.toNat] })
      (by rw [hleft]; rw [hsucc] at hshort; exact Nat.lt_of_succ_lt_succ hshort)
    rw [hleft] at hrest
    rw [outAppend_of_fits (by simp; omega), Run.bind_ok, hrest, if_neg hroom, hsucc, Nat.add_sub_cancel,
      List.take_succ_cons]
    simp only [List.append_assoc, List.singleton_append]

end HdrWrite

/-- Settles O38: too many symbols, or a header that fits, or one that does not. -/
theorem hdrWriteResult : Obligations.HdrWriteResult := by
  intro s hs hv
  have hexec : ∀ t, (runHdrWrite s).state = t → exec .hdrWrite s = .next t := fun _ =>
    exec_eq_next (i := .hdrWrite) (by simp) hs
  refine ⟨fun hn => hexec _ ?_, fun hn => ?_⟩
  · rw [runHdrWrite_of_large hv hn, Run.state_stop, State.raise_eq_faulted hs]
    rfl
  · intro file room
    have hlen := headerBytes_length s.nsym.toNat s.sft
    have hroom : s.room = s.outCap.toNat - s.output.length := s.room_eq
    refine ⟨fun hfits => hexec _ ?_, fun hshort => ?_⟩
    · rw [runHdrWrite_of_fits hv hn (by omega)]
      rfl
    · have hrun := runHdrWrite_of_short hv hn (by omega)
      rw [State.raise_of_noFault (by exact hs)] at hrun
      refine ⟨_, hexec _ (congrArg Run.state hrun), rfl, rfl, ?_, rfl, rfl⟩
      show word (if room = 0 then 1 else 2 - (room - 1) % 2) = if room = 0 then 1 else _
      rw [apply_ite word]
      rfl

/-! ## `HDR_READ` (45 R205) -/

/-- Inside the stream `IN[pos]` is the byte of the list. -/
theorem State.inByte_eq {s : State} {pos : Nat} (h : pos < s.input.length) : s.inByte pos = s.input.getD pos 0 := by
  rw [State.inByte, List.getD_eq_getElem _ _ h, List.getD_eq_getElem _ _ h]

theorem State.trailer_eq (s : State) : s.trailer = trailerField s.input := by
  have htake : (s.input.drop (s.input.length - 8)).take 8 = s.input.drop (s.input.length - 8) :=
    List.take_of_length_le (by rw [List.length_drop]; omega)
  exact congrArg unLe64 htake

/-- The trailer's eight bytes are a 64-bit number. -/
theorem trailerField_lt (file : List Byte) : trailerField file < 2 ^ 64 := by
  have hlen : (file.drop (file.length - 8)).length ≤ 8 := by
    rw [List.length_drop]
    omega
  calc trailerField file < 256 ^ (file.drop (file.length - 8)).length := unLe64_lt _
    _ ≤ 256 ^ 8 := Nat.pow_le_pow_right (by decide) hlen
    _ = 2 ^ 64 := by norm_num

/-- The state `HDR_READ` leaves when it accepts the container and its pairs make the scaled table `sft`. -/
def State.headerRead (s : State) (sft : Vector Byte 256) : State :=
  { s with
    sft := sft
    nsym := BitVec.ofNat 9 (countField s.input)
    totalBits := word (trailerField s.input)
    inPos := word (1 + 2 * countField s.input)
    status := { s.status with sftValid := true, hdrValid := true } }

theorem State.headerRead_nsym (s : State) (sft : Vector Byte 256) :
    (s.headerRead sft).nsym.toNat = countField s.input := by
  have hlt := (s.input.getD 0 0).isLt
  exact Nat.mod_eq_of_lt (by rw [countField]; omega)

theorem State.headerRead_totalBits (s : State) (sft : Vector Byte 256) :
    (s.headerRead sft).totalBits.toNat = trailerField s.input := word_toNat (trailerField_lt _)

theorem State.headerRead_inPos (s : State) (sft : Vector Byte 256) :
    (s.headerRead sft).inPos.toNat = 1 + 2 * countField s.input := by
  have hlt := (s.input.getD 0 0).isLt
  exact word_toNat (by rw [countField]; omega)

/-- The table holds the pairs of a container, and zero for the symbols without one. -/
structure HoldsPairs (file : List Byte) (sft : Vector Byte 256) : Prop where
  pair : ∀ i < countField file, symAt sft (pairSym file i) = pairFreq file i
  rest : ∀ c, (∀ i < countField file, pairSym file i ≠ c) → symAt sft c = 0

/-- `HDR_READ` accepts a container that none of the six reasons rejects. -/
theorem runHdrRead_of_containerOk {s : State} (h : ContainerOk s.input) :
    ∃ sft, runHdrRead s = .ok () (s.headerRead sft) ∧ HoldsPairs s.input sft := by
  obtain ⟨hlen, ⟨hfreq, hdistinct⟩, htotal, hbits⟩ := h
  have hcount : s.inByte 0 = s.input.getD 0 0 := State.inByte_eq (by omega)
  have hsym : ∀ i < countField s.input, s.inByte (1 + 2 * i) = pairSym s.input i :=
    fun i hi => State.inByte_eq (by omega)
  have hval : ∀ i < countField s.input, s.inByte (2 + 2 * i) = pairFreq s.input i :=
    fun i hi => State.inByte_eq (by omega)
  obtain ⟨sft, hpairs, hpair, hrest⟩ := readPairs_spec (countField s.input) 0
    (s := { s with sft := Vector.replicate 256 0 })
    (fun k hk => by rw [Nat.zero_add]; exact (hval k hk).trans_ne (hfreq k hk))
    (fun k hk => symAt_replicate 0 _)
    (fun k hk j hj => by
      rw [Nat.zero_add, Nat.zero_add]
      exact (hsym j (by omega)).trans_ne ((hdistinct k hk j hj).trans_eq (hsym k hk).symm))
  simp only [Nat.zero_add] at hpair hrest
  refine ⟨sft, ?_, fun i hi => ?_, fun c hc => ?_⟩
  · have htrailer : State.trailer { s with sft := sft } = trailerField s.input := State.trailer_eq _
    have hin : s.inLen = s.input.length := rfl
    have hsome : 1 ≤ s.input.length := by omega
    rw [runHdrRead]
    dsimp only
    rw [hin, decide_eq_true hsome, require_true, Run.bind_ok, hcount, ← countField, decide_eq_true hlen, require_true, Run.bind_ok, hpairs, Run.bind_ok]
    dsimp only
    rw [htrailer, decide_eq_true htotal, require_true, Run.bind_ok, decide_eq_true hbits, require_true, Run.bind_ok]
    rfl
  · exact (congrArg (symAt sft) (hsym i hi).symm).trans ((hpair i hi).trans (hval i hi))
  · exact (hrest c fun k hk => (hsym k hk).trans_ne (hc k hk)).trans (symAt_replicate 0 c)

/-- Settles O39: the pair loop stores the pairs, the trailer and the count go to their registers. -/
theorem hdrReadResult : Obligations.HdrReadResult := by
  intro s hs hfile
  obtain ⟨sft, hrun, hpairs⟩ := runHdrRead_of_containerOk hfile
  exact ⟨_, exec_eq_next (by simp) hs (congrArg Run.state hrun), rfl, s.headerRead_nsym sft, s.headerRead_totalBits sft,
    s.headerRead_inPos sft, hpairs.pair, hpairs.rest⟩

/-! ## A container written and read back (45 R200, R207) -/

/-- The container of a scaled table with these bitstream bytes and this total (45 R200). -/
def container (sft : Vector Byte 256) (body : List Byte) (total : Word64) : List Byte :=
  headerBytes (presentCount sft) sft ++ body ++ le64 total

/-- A pair's two bytes stand one after another. -/
theorem pairBytes_getElem? (sft : Vector Byte 256) (cs : List Byte) (i : Nat) :
    (cs.flatMap fun c => [c, symAt sft c])[2 * i]? = cs[i]? ∧
      (cs.flatMap fun c => [c, symAt sft c])[2 * i + 1]? = cs[i]?.map (symAt sft) := by
  induction cs generalizing i with
  | nil => exact ⟨rfl, rfl⟩
  | cons c cs ih =>
    cases i with
    | zero => exact ⟨rfl, rfl⟩
    | succ i => exact ih i

section Container

variable (sft : Vector Byte 256) (body : List Byte) (total : Word64)

theorem container_length : (container sft body total).length = 1 + 2 * presentCount sft + body.length + 8 := by
  rw [container, List.length_append, List.length_append, headerBytes_length, le64_length, presentCount_byte]

theorem countField_container (hn : presentCount sft ≤ 255) : countField (container sft body total) = presentCount sft :=
  Nat.mod_eq_of_lt (by omega)

/-- The bytes after the header. -/
theorem drop_container :
    (container sft body total).drop (1 + 2 * presentCount sft) = body ++ le64 total := by
  rw [container, List.append_assoc]
  exact List.drop_left' (by rw [headerBytes_length, presentCount_byte])

theorem trailerField_container : trailerField (container sft body total) = total.toNat := by
  have hlen : (container sft body total).length - 8 = (headerBytes (presentCount sft) sft ++ body).length := by
    rw [container, List.length_append (bs := le64 total), le64_length, Nat.add_sub_cancel]
  rw [trailerField, hlen, container, List.drop_left, unLe64_le64]

/-- Pair `i` is the present symbol number `i` with its frequency. -/
theorem pair_container {i : Nat} (hi : i < (presentSymbols sft).length) :
    pairSym (container sft body total) i = (presentSymbols sft)[i] ∧
      pairFreq (container sft body total) i = symAt sft (presentSymbols sft)[i] := by
  obtain ⟨hsym, hfreq⟩ := pairBytes_getElem? sft (presentSymbols sft) i
  have hlen : ((presentSymbols sft).flatMap fun c => [c, symAt sft c]).length = 2 * (presentSymbols sft).length :=
    pairBytes_length sft allSymbols
  have hfile : container sft body total = BitVec.ofNat 8 (presentCount sft) ::
      ((presentSymbols sft).flatMap (fun c => [c, symAt sft c]) ++ (body ++ le64 total)) := by
    rw [container, headerBytes, List.append_assoc, List.cons_append]
  rw [List.getElem?_eq_getElem hi] at hsym hfreq
  rw [pairSym, pairFreq, hfile, show 1 + 2 * i = 2 * i + 1 by omega, show 2 + 2 * i = 2 * i + 1 + 1 by omega,
    List.getD_cons_succ, List.getD_cons_succ, List.getD_append _ _ _ _ (by omega), List.getD_append _ _ _ _ (by omega),
    List.getD_eq_getElem?_getD, List.getD_eq_getElem?_getD, hsym, hfreq]
  exact ⟨rfl, rfl⟩

variable (hn : presentCount sft ≤ 255)
include hn

/-- A written container is one `HDR_READ` accepts. -/
theorem containerOk_container (hbody : ceilDiv total.toNat 8 ≤ body.length)
    (hzero : presentCount sft ≠ 0 ∨ total.toNat = 0) : ContainerOk (container sft body total) := by
  rw [ContainerOk, PairsOk, countField_container sft body total hn, trailerField_container, container_length]
  refine ⟨by omega, ⟨fun i hi => ?_, fun i hi j hj => ?_⟩, by omega, hzero⟩
  · rw [presentCount_byte] at hi
    rw [(pair_container sft body total hi).2]
    exact mem_presentSymbols.1 (List.getElem_mem hi)
  · rw [presentCount_byte] at hi
    rw [(pair_container sft body total hi).1, (pair_container sft body total (hj.trans hi)).1]
    exact fun heq => absurd ((presentSymbols_nodup sft).getElem_inj_iff.1 heq) (by omega)

/-- The table that holds a written container's pairs is the one written. -/
theorem HoldsPairs.eq_of_container {sft' : Vector Byte 256} (h : HoldsPairs (container sft body total) sft') :
    sft' = sft := by
  have hcount := countField_container sft body total hn
  refine table_ext fun c => ?_
  by_cases hc : c ∈ presentSymbols sft
  · obtain ⟨i, hi, rfl⟩ := List.getElem_of_mem hc
    obtain ⟨hsym, hfreq⟩ := pair_container sft body total hi
    have hpair := h.pair i (by rwa [hcount, presentCount_byte])
    rwa [hsym, hfreq] at hpair
  · have hzero : symAt sft c = 0 := not_not.1 fun hne => hc (mem_presentSymbols.2 hne)
    rw [hzero]
    refine h.rest c fun i hi heq => hc ?_
    rw [hcount, presentCount_byte] at hi
    rw [← heq, (pair_container sft body total hi).1]
    exact List.getElem_mem hi

/-- `HDR_READ` reads a written container back (45 R207). -/
theorem runHdrRead_container {u : State} (hu : u.input = container sft body total)
    (hbody : ceilDiv total.toNat 8 ≤ body.length) (hzero : presentCount sft ≠ 0 ∨ total.toNat = 0) :
    runHdrRead u = .ok () (u.headerRead sft) := by
  obtain ⟨sft', hrun, hpairs⟩ := runHdrRead_of_containerOk (hu ▸ containerOk_container sft body total hn hbody hzero)
  rw [hu] at hpairs
  rw [hrun, hpairs.eq_of_container sft body total hn]

end Container

end Sys2Proof.Machine
end

section
/-! The header round trip (45 R207): a listed sequence of commands that ends without a fault had none on its way, and what
its parts left in `OUT` is a container. -/

namespace Sys2Proof.Machine

/-! ## Sequences that end without a fault -/

/-- An action of a command listing: a command that the sticky gate holds, or a write of `ARG0`. -/
def ListedAction (a : HostAction) : Prop :=
  (∃ i : Instr, i.wellFormed = true ∧ i ≠ .clr ∧ a = listCommand i) ∨ ∃ v, a = listSetArg0 v

theorem listedAction_command {i : Instr} (hw : i.wellFormed = true) (hi : i ≠ .clr) : ListedAction (listCommand i) :=
  .inl ⟨i, hw, hi, rfl⟩

/-- A recorded fault is not cleared by a listed action (60 R243). -/
theorem ListedAction.perform {a : HostAction} (h : ListedAction a) (s : State) :
    ∃ t, perform a s = .next t ∧ (t.NoFault → s.NoFault) := by
  rcases h with ⟨i, hw, hi, rfl⟩ | ⟨v, rfl⟩
  · rw [perform_listCommand hw, exec_eq_command hi, command_eq_next]
    refine ⟨_, rfl, fun ht => ?_⟩
    by_contra hs
    rw [if_pos (by simpa using hs)] at ht
    exact hs ht
  · exact ⟨_, perform_listSetArg0 v s, id⟩

/-- A listing that ends without a fault began without one. -/
theorem noFault_of_performAll {as : List HostAction} (ha : ∀ a ∈ as, ListedAction a) {s t : State}
    (h : performAll as s = .next t) (ht : t.NoFault) : s.NoFault := by
  induction as generalizing s with
  | nil =>
    rw [Host.Outcome.next.inj h]
    exact ht
  | cons a as ih =>
    obtain ⟨u, hu, hback⟩ := (ha a List.mem_cons_self).perform s
    rw [performAll_cons hu] at h
    exact hback (ih (fun b hb => ha b (List.mem_cons_of_mem a hb)) h)

/-- The first command of a listing that ends without a fault completed its procedure. -/
theorem performAll_command {i : Instr} (hw : i.wellFormed = true) (hi : i ≠ .clr) {rest : List HostAction}
    (hrest : ∀ a ∈ rest, ListedAction a) {s t : State} (h : performAll (listCommand i :: rest) s = .next t)
    (ht : t.NoFault) : ∃ u, procOf i s = .ok () u ∧ performAll rest u = .next t := by
  obtain ⟨u, hu, hback⟩ := (listedAction_command hw hi).perform s
  rw [performAll_cons hu] at h
  have hclear := noFault_of_performAll hrest h ht
  exact ⟨u, procOf_eq_ok hi (hback hclear) hclear ((perform_listCommand hw s).symm.trans hu), h⟩

/-! ## Writes that completed (44 R182) -/

/-- A completed `WriteBit` wrote its bit. -/
theorem wrote_of_writeBit {b : Bool} {s t : State} (hw : s.WriterOk) (h : writeBit b s = .ok () t) :
    ∃ v, Wrote s [b] t v := by
  have hcount : s.wtotal.toNat < 2 ^ 64 - 1 := by
    rw [writeBit, Run.bind_eq_ok] at h
    obtain ⟨_, _, hreq, -⟩ := h
    exact of_decide_eq_true (require_eq_ok.1 hreq).1
  have hroom : s.RoomFor 1 := by
    intro hq
    obtain ⟨hpos, -, hlen, -, -⟩ := placeBit_spec b hw hcount
    obtain ⟨h0, -, hlt, -, -⟩ := hw
    have hfull : s.wpos.toNat + 1 = 8 * s.bufBytes.toNat := by
      by_contra hne
      exact hq (Nat.div_eq_of_lt (by omega))
    rw [writeBit, decide_eq_true hcount, require_true, Run.bind_ok] at h
    dsimp only at h
    rw [if_pos (by rw [hpos]; exact hfull), Run.bind_eq_ok] at h
    obtain ⟨_, _, happ, -⟩ := h
    have hfits := (outAppend_eq_ok.1 happ).1
    rw [List.length_take, hlen, State.placeBit_bufBytes, Nat.min_self, State.room_eq, State.placeBit_outCap, State.placeBit_output] at hfits
    have hb := bufBytes_pos h0
    rw [hfull, Nat.div_self (by omega)]
    omega
  obtain ⟨u, v, hrun, hwrote⟩ := writeBit_spec b hw hcount hroom
  obtain ⟨-, rfl⟩ := Run.ok.inj (hrun.symm.trans h)
  exact ⟨v, hwrote⟩

/-- A completed `WriteBits` wrote its code. -/
theorem wrote_of_writeBits {pat : Word64} {len : Nat} {s t : State} (hw : s.WriterOk)
    (h : writeBits pat len s = .ok () t) : ∃ v, Wrote s (codeBits pat len) t v := by
  induction len generalizing s with
  | zero =>
    obtain ⟨-, rfl⟩ := Run.ok.inj h
    exact ⟨[], Wrote.refl hw⟩
  | succ k ih =>
    rw [writeBits, Run.bind_eq_ok] at h
    obtain ⟨_, u, hbit, hrest⟩ := h
    obtain ⟨v, hone⟩ := wrote_of_writeBit hw hbit
    obtain ⟨w, hmore⟩ := ih hone.ok hrest
    rw [codeBits_succ]
    exact ⟨v ++ w, hone.trans hmore⟩

theorem listedAction_write {ws : List (Word64 × BitVec 12)} (hws : ∀ w ∈ ws, w.2.toNat ≤ 64) :
    ∀ a ∈ listWrites ws, ListedAction a := by
  intro a ha
  obtain ⟨w, hw, hmem⟩ := List.mem_flatMap.1 ha
  rw [List.mem_cons, List.mem_singleton] at hmem
  rcases hmem with rfl | rfl
  · exact .inr ⟨w.1, rfl⟩
  · exact listedAction_command (wellFormed_bwWrite (hws w hw)) (by simp)

/-- A listing of writes, and what follows it, that ends without a fault wrote its bits first. -/
theorem wrote_of_listWrites {ws : List (Word64 × BitVec 12)} (hws : ∀ w ∈ ws, w.2.toNat ≤ 64)
    {rest : List HostAction} (hrest : ∀ a ∈ rest, ListedAction a) {s t : State} (hv : s.status.bwValid = true)
    (hw : s.WriterOk) (h : performAll (listWrites ws ++ rest) s = .next t) (ht : t.NoFault) :
    ∃ u v x, performAll rest u = .next t ∧ Wrote { s with arg0 := x } (writtenBits ws) u v := by
  induction ws generalizing s with
  | nil => exact ⟨s, [], s.arg0, h, Wrote.refl hw⟩
  | cons w ws ih =>
    have hws' : ∀ w' ∈ ws, w'.2.toNat ≤ 64 := fun w' hw' => hws w' (List.mem_cons_of_mem w hw')
    have ha : w.2.toNat ≤ 64 := hws w List.mem_cons_self
    rw [listWrites_cons, List.cons_append, List.cons_append, performAll_cons (perform_listSetArg0 w.1 s)] at h
    obtain ⟨u, hrun, hnext⟩ := performAll_command (wellFormed_bwWrite ha) (by simp)
      (fun a hmem => (List.mem_append.1 hmem).elim (listedAction_write hws' a) (hrest a)) h ht
    rw [procOf, runBwWrite_eq (s := { s with arg0 := w.1 }) hv ha] at hrun
    obtain ⟨v, hone⟩ := wrote_of_writeBits (s := { s with arg0 := w.1 }) hw hrun
    obtain ⟨x, y, z, hend, hmore⟩ := ih hws' ((congrArg Status.bwValid hone.status).trans hv) hone.ok hnext
    rw [writtenBits_cons]
    exact ⟨x, v ++ y, z, hend, (hone.withArg0 z).trans hmore⟩

/-! ## The commands between the writes that completed -/

theorem runBwInit_eq (s : State) : runBwInit s = .ok () s.writerStarted := rfl

/-- A completed `HDR_WRITE` had no more than 255 symbols and appended the header. -/
theorem runHdrWrite_eq_ok {s t : State} (hv : s.status.sftValid = true) (h : runHdrWrite s = .ok () t) :
    s.nsym.toNat ≤ 255 ∧ t = { s with output := s.output ++ headerBytes s.nsym.toNat s.sft } := by
  by_cases hn : s.nsym.toNat ≤ 255
  · refine ⟨hn, ?_⟩
    by_cases hfits : (headerBytes s.nsym.toNat s.sft).length ≤ s.room
    · rw [runHdrWrite_of_fits hv hn hfits] at h
      exact (Run.ok.inj h).2.symm
    · rw [runHdrWrite_of_short hv hn (by omega)] at h
      cases h
  · rw [runHdrWrite_of_large hv (by omega)] at h
    cases h

/-- A completed `BW_FLUSH` appended the used bytes of the buffer. -/
theorem runBwFlush_eq_ok {s t : State} (h : runBwFlush s = .ok () t) :
    t = { s with
      output := s.output ++ s.wbuf.take (ceilDiv s.wpos.toNat 8)
      wbuf := List.replicate s.bufBytes.toNat 0, wpos := 0 } := by
  rw [runBwFlush, Run.bind_eq_ok] at h
  obtain ⟨_, _, hreq, h⟩ := h
  obtain ⟨-, rfl⟩ := require_eq_ok.1 hreq
  rw [Run.bind_eq_ok] at h
  obtain ⟨_, _, happ, h⟩ := h
  obtain ⟨-, rfl⟩ := outAppend_eq_ok.1 happ
  exact (Run.ok.inj h).2.symm

/-- A completed `TRL_WRITE` appended the total. -/
theorem runTrlWrite_eq_ok {s t : State} (h : runTrlWrite s = .ok () t) :
    t = { s with output := s.output ++ le64 s.wtotal } := by
  rw [runTrlWrite, Run.bind_eq_ok] at h
  obtain ⟨_, _, hreq, h⟩ := h
  obtain ⟨-, rfl⟩ := require_eq_ok.1 hreq
  exact (outAppend_eq_ok.1 h).2

/-- The bits of writes of length 0. -/
theorem writtenBits_eq_nil {ws : List (Word64 × BitVec 12)} (h : ∀ w ∈ ws, w.2 = 0) : writtenBits ws = [] := by
  refine List.flatMap_eq_nil_iff.2 fun w hw => ?_
  rw [h w hw]
  rfl

/-- What `HDR_WRITE`, `BW_INIT`, writes, `BW_FLUSH` and `TRL_WRITE` leave in an empty `OUT` when none of them faults. -/
theorem output_of_listing {s t : State} {ws : List (Word64 × BitVec 12)} (h0 : s.bufBytes ≠ 0)
    (hv : s.status.sftValid = true) (hout : s.output = []) (hws : ∀ w ∈ ws, w.2.toNat ≤ 64)
    (h : performAll (listCommand .hdrWrite :: listCommand .bwInit ::
      (listWrites ws ++ [listCommand .bwFlush, listCommand .trlWrite])) s = .next t) (ht : t.NoFault) :
    ∃ body, s.nsym.toNat ≤ 255 ∧ t.output = headerBytes s.nsym.toNat s.sft ++ body ++ le64 t.wtotal ∧
      Packs body (writtenBits ws) ∧ t.wtotal.toNat = (writtenBits ws).length := by
  have htail : ∀ a ∈ [listCommand .bwFlush, listCommand .trlWrite], ListedAction a := by
    simp only [List.mem_cons, List.not_mem_nil, or_false]
    rintro a (rfl | rfl) <;> exact listedAction_command rfl (by simp)
  have hwrites : ∀ a ∈ listWrites ws ++ [listCommand .bwFlush, listCommand .trlWrite], ListedAction a :=
    fun a ha => (List.mem_append.1 ha).elim (listedAction_write hws a) (htail a)
  obtain ⟨s1, hhdr, h⟩ := performAll_command rfl (by simp)
    (List.forall_mem_cons.2 ⟨listedAction_command rfl (by simp), hwrites⟩) h ht
  obtain ⟨hn, hs1⟩ := runHdrWrite_eq_ok hv hhdr
  have h0 : s1.bufBytes ≠ 0 := by rw [hs1]; exact h0
  have hout : s1.output = headerBytes s.nsym.toNat s.sft := by rw [hs1, hout, List.nil_append]
  obtain ⟨s2, hinit, h⟩ := performAll_command rfl (by simp) hwrites h ht
  obtain ⟨-, rfl⟩ := Run.ok.inj ((runBwInit_eq _).symm.trans hinit)
  obtain ⟨s3, v, x, h, hwrote⟩ := wrote_of_listWrites hws htail rfl (State.writerStarted_ok h0) h ht
  obtain ⟨s4, hflush, h⟩ := performAll_command rfl (by simp)
    (List.forall_mem_singleton.2 (listedAction_command rfl (by simp))) h ht
  obtain ⟨s5, htrl, h⟩ := performAll_command rfl (by simp) (fun a ha => absurd ha List.not_mem_nil) h ht
  obtain rfl := Host.Outcome.next.inj h
  obtain rfl := runBwFlush_eq_ok hflush
  obtain rfl := runTrlWrite_eq_ok htrl
  have hok := hwrote.ok
  obtain ⟨-, hlen, hpos, -, hclean⟩ := hok
  refine ⟨v ++ s3.wbuf.take (ceilDiv s3.wpos.toNat 8), hn, ?_,
    (packs_writerBits hclean hlen hpos.le).append_bytes hwrote.bits_eq, hwrote.total.trans (Nat.zero_add _)⟩
  show s3.output ++ s3.wbuf.take (ceilDiv s3.wpos.toNat 8) ++ le64 s3.wtotal = _
  rw [hwrote.output]
  show s1.output ++ v ++ _ ++ _ = _
  rw [hout, List.append_assoc (headerBytes _ _) v]

/-- Settles O41: a listing without a fault leaves a container, and `HDR_READ` reads a written container back. -/
theorem headerRoundTrip : Obligations.HeaderRoundTrip := by
  intro s t u ws hs h0 hv hout hn hws hempty h ht hu hin
  obtain ⟨body, h255, hfile, ⟨hbody, -⟩, htotal⟩ := output_of_listing h0 hv hout hws h ht
  rw [hn, ← container] at hfile
  have hzero : presentCount s.sft ≠ 0 ∨ t.wtotal.toNat = 0 := by
    by_cases hsym : s.nsym = 0
    · exact .inr (by rw [htotal, writtenBits_eq_nil (hempty hsym), List.length_nil])
    · exact .inl fun hc => hsym (BitVec.eq_of_toNat_eq (hn.trans hc))
  have hrun := runHdrRead_container s.sft body t.wtotal (hn ▸ h255) (hin.trans hfile) (by rw [htotal, hbody]) hzero
  refine ⟨_, exec_eq_next (by simp) hu (congrArg Run.state hrun), hu, rfl, ?_, ?_⟩
  · refine BitVec.eq_of_toNat_eq ?_
    rw [Run.state_ok, State.headerRead_nsym, hin, hfile, countField_container _ _ _ (hn ▸ h255), hn]
  · refine BitVec.eq_of_toNat_eq ?_
    rw [Run.state_ok, State.headerRead_totalBits, hin, hfile, trailerField_container]

end Sys2Proof.Machine
end

section
/-! Encoding a stream (45 R210): `ENC_STREAM` up to the end of `IN` or to the first byte without a code. -/

namespace Sys2Proof.Machine

/-- Encoding bytes and then more is encoding all of them. -/
theorem encodeBytes_append (a b : List Byte) (s : State) :
    encodeBytes (a ++ b) s = (encodeBytes a s).bind fun _ t => encodeBytes b t := by
  induction a generalizing s with
  | nil => rfl
  | cons c cs ih =>
    rw [List.cons_append, encodeBytes, encodeBytes]
    cases require (symAt s.ctLen c != 0) .noCode (c.setWidth 64) s with
    | stop t => rfl
    | ok _ t =>
      simp only [Run.bind_ok]
      cases writeBits (symAt t.ctPat c) (symAt t.ctLen c).toNat { t with inPos := word (t.inPos.toNat + 1) } with
      | stop u => rfl
      | ok _ u => exact ih u

/-- At a byte without a code the loop stops. -/
theorem encodeBytes_noCode {c : Byte} {rest : List Byte} {s : State} (hc : symAt s.ctLen c = 0) :
    encodeBytes (c :: rest) s = .stop (s.raise .noCode (c.setWidth 64)) := by
  rw [encodeBytes, hc]
  rfl

theorem runEncStream_eq {s : State} (hc : s.status.ctValid = true) (hb : s.status.bwValid = true) :
    runEncStream s = encodeBytes s.unread s := by
  rw [runEncStream, hc, hb]
  rfl

/-- `IN_POS` moves over unread bytes within its 64 bits. -/
theorem inPos_add_lt {s : State} {msg rest : List Byte} (hin : s.input.length < 2 ^ 64) (h : s.unread = msg ++ rest) :
    s.inPos.toNat + msg.length < 2 ^ 64 := by
  have hpos := s.inPos.isLt
  have hlen := congrArg List.length h
  rw [State.unread, List.length_drop, List.length_append] at hlen
  omega

/-- Settles O42: the loop writes the codes up to the end of `IN`, or up to the byte where it stops. -/
theorem encStreamResult : Obligations.EncStreamResult := by
  intro s msg hs hc hb hw hin hcodes bits q htotal hroom
  have hrun := runEncStream_eq hc hb
  refine ⟨fun hmsg => ?_, fun c rest hmsg hnone => ?_⟩
  · have hpos := inPos_add_lt (s := s) (rest := []) hin (hmsg.trans (List.append_nil msg).symm)
    obtain ⟨t, v, henc, hend, hwrote⟩ := encodeBytes_spec msg hw hcodes htotal hroom hpos
    rw [show s.unread = msg from hmsg, henc] at hrun
    exact ⟨t, v, exec_eq_next (by simp) hs (congrArg Run.state hrun), hwrote.frame, hwrote.ok, hend, hwrote.out,
      hwrote.total, hwrote.bits_eq⟩
  · obtain ⟨t, v, henc, hend, hwrote⟩ := encodeBytes_spec msg hw hcodes htotal hroom (inPos_add_lt hin hmsg)
    have hlen : t.ctLen = s.ctLen := by rw [hwrote.frame]
    have hclear : t.NoFault := (congrArg Status.fault hwrote.status).trans hs
    rw [show s.unread = msg ++ c :: rest from hmsg, encodeBytes_append, henc, Run.bind_ok,
      encodeBytes_noCode (hlen ▸ hnone), State.raise_of_noFault hclear] at hrun
    exact ⟨_, exec_eq_next (by simp) hs (congrArg Run.state hrun), rfl, rfl, rfl, hend⟩

end Sys2Proof.Machine
end

section
/-! Decoding a stream (45 R213, R214): what the bit loop has done after a number of bits, over a tree and over one leaf, and
the two ways in which it finds the stream corrupt. -/

namespace Sys2Proof.Machine

/-! ## What decoding does -/

/-- What decoding `bits` into `msg` does from `s` to `t`: the bits are consumed, the bytes emitted, in whole buffers to
`OUT` and the rest to `OBUF`. -/
structure Decoded (s : State) (bits : List Bool) (msg : List Byte) (t : State) : Prop where
  frame : t = { s with
    output := t.output, obuf := t.obuf, olen := t.olen, rbuf := t.rbuf, rfill := t.rfill, rpos := t.rpos
    rlimit := t.rlimit, inPos := t.inPos, rtotal := t.rtotal }
  reader : t.ReaderOk
  emitter : t.EmitterOk
  bits_eq : s.readerBits = bits ++ t.readerBits
  total : t.rtotal.toNat = s.rtotal.toNat + bits.length
  emitted : t.emitted = s.emitted ++ msg
  whole : ∃ k, t.output.length = s.output.length + k * s.bufBytes.toNat

/-- Decoding nothing. -/
theorem Decoded.refl {s : State} (hr : s.ReaderOk) (ho : s.EmitterOk) : Decoded s [] [] s where
  frame := rfl
  reader := hr
  emitter := ho
  bits_eq := rfl
  total := rfl
  emitted := (List.append_nil _).symm
  whole := ⟨0, by simp⟩

section Decoded

variable {s t u : State} {bits bits' : List Bool} {msg msg' : List Byte}

theorem Decoded.node (h : Decoded s bits msg t) : t.node = s.node := by rw [h.frame]
theorem Decoded.root (h : Decoded s bits msg t) : t.root = s.root := by rw [h.frame]
theorem Decoded.outCap (h : Decoded s bits msg t) : t.outCap = s.outCap := by rw [h.frame]
theorem Decoded.status (h : Decoded s bits msg t) : t.status = s.status := by rw [h.frame]

theorem Decoded.emitted_length (h : Decoded s bits msg t) : t.emitted.length = s.emitted.length + msg.length := by
  rw [h.emitted, List.length_append]

/-- Decoding some bits and then more is decoding all of them. -/
theorem Decoded.trans (h : Decoded s bits msg t) (h' : Decoded t bits' msg' u) :
    Decoded s (bits ++ bits') (msg ++ msg') u where
  frame := by rw [h'.frame, h.frame]
  reader := h'.reader
  emitter := h'.emitter
  bits_eq := by rw [h.bits_eq, h'.bits_eq, List.append_assoc]
  total := by rw [h'.total, h.total, List.length_append, Nat.add_assoc]
  emitted := by rw [h'.emitted, h.emitted, List.append_assoc]
  whole := by
    obtain ⟨j, hj⟩ := h.whole
    obtain ⟨k, hk⟩ := h'.whole
    have hbuf : t.bufBytes = s.bufBytes := by rw [h.frame]
    exact ⟨j + k, by rw [hk, hj, hbuf, Nat.add_mul, Nat.add_assoc]⟩

/-- Reading a bit consumes it. -/
theorem readBit_decoded (hr : s.ReaderOk) (ho : s.EmitterOk) (ht : s.rtotal.toNat < 2 ^ 64 - 1) {b : Bool}
    {rest : List Bool} (hb : s.readerBits = b :: rest) :
    ∃ t, readBit s = .ok (some b) t ∧ Decoded s [b] [] t := by
  obtain ⟨hnil, -⟩ | ⟨c, t, hread, hbits, hframe, hok, htotal, -⟩ := readBit_spec hr ht
  · rw [hnil] at hb
    cases hb
  · obtain ⟨rfl, -⟩ := List.cons.inj (hb.symm.trans hbits)
    refine ⟨t, hread, ?_, hok, ?_, hbits, htotal, ?_, 0, ?_⟩
    all_goals rw [hframe]
    · exact ho
    · exact (List.append_nil _).symm
    · exact (Nat.zero_mul _).symm ▸ rfl

/-- Emitting a byte consumes no bit. -/
theorem emit_decoded (c : Byte) (hr : s.ReaderOk) (ho : s.EmitterOk) (hroom : s.emitted.length + 1 ≤ s.outCap.toNat) :
    ∃ t, emit c s = .ok () t ∧ Decoded s [] [c] t := by
  obtain ⟨t, hrun, hframe, hok, hemitted, hout⟩ := emit_spec c ho hroom
  have hwhole : ∃ k, t.output.length = s.output.length + k * s.bufBytes.toNat := by
    obtain ⟨hlen, hlt⟩ := ho
    rw [hout, List.length_append]
    split
    next hfull =>
      refine ⟨1, ?_⟩
      rw [List.length_append, List.length_take, List.length_singleton]
      omega
    next => exact ⟨0, by simp⟩
  refine ⟨t, hrun, ?_, ?_, hok, ?_, ?_, hemitted, hwhole⟩
  all_goals rw [hframe]
  · exact hr
  · rfl
  · rfl

/-- Whatever the bit and the tree, acting on a bit consumes no other and emits at most one byte. -/
theorem decodeBit_decoded (b : Bool) (cur : Handle) (hr : s.ReaderOk) (ho : s.EmitterOk)
    (hroom : s.emitted.length + 1 ≤ s.outCap.toNat) :
    ∃ cur' t msg, decodeBit b cur s = .ok cur' t ∧ Decoded s [] msg t ∧ msg.length ≤ 1 := by
  cases hroot : (nodeAt s.node s.root).isLeaf with
  | true =>
    obtain ⟨t, hrun, hdec⟩ := emit_decoded (nodeAt s.node s.root).sym hr ho hroom
    exact ⟨cur, t, _, by rw [decodeBit_leaf hroot, hrun, Run.bind_ok], hdec, le_rfl⟩
  | false =>
    rw [decodeBit_node hroot]
    dsimp only
    generalize (if b then (nodeAt s.node cur).r else (nodeAt s.node cur).l) = next
    split
    · obtain ⟨t, hrun, hdec⟩ := emit_decoded (nodeAt s.node next).sym hr ho hroom
      exact ⟨t.root, t, _, by rw [hrun, Run.bind_ok], hdec, le_rfl⟩
    · exact ⟨next, s, [], rfl, .refl hr ho, Nat.zero_le 1⟩

end Decoded

/-! ## Descending a tree -/

/-- A code that begins with a bit is a code of the child the bit names. -/
theorem HTree.mem_codes_cons {t : HTree} {c : Byte} {b : Bool} {p : List Bool} (h : (c, b :: p) ∈ t.codes) :
    ∃ l r, t = .node l r ∧ (c, p) ∈ (if b then r else l).codes := by
  cases t with
  | leaf d => simp [HTree.codes] at h
  | node l r =>
    refine ⟨l, r, rfl, ?_⟩
    simp only [HTree.codes, List.mem_append, List.mem_map] at h
    rcases h with ⟨q, hq, he⟩ | ⟨q, hq, he⟩
    all_goals
      obtain ⟨rfl, hpath⟩ := Prod.mk.inj he
      obtain ⟨rfl, rfl⟩ := List.cons.inj hpath
      exact hq

/-- Only a leaf has an empty code. -/
theorem HTree.eq_leaf_of_mem_codes_nil {t : HTree} {c : Byte} (h : (c, []) ∈ t.codes) : t = .leaf c := by
  cases t with
  | leaf d =>
    simp only [HTree.codes, List.mem_singleton, Prod.mk.injEq, and_true] at h
    rw [h]
  | node l r => exact absurd rfl (HTree.code_ne_nil_of_node h)

/-- The child a bit names holds the subtree the bit names. -/
theorem HTree.At.child {arena : Vector Node 511} {l r : HTree} {h : Handle} (hat : (HTree.node l r).At arena h)
    (b : Bool) : (if b then r else l).At arena (if b then (nodeAt arena h).r else (nodeAt arena h).l) := by
  obtain ⟨-, hl, hr⟩ := hat
  cases b
  · exact hl
  · exact hr

/-- The arena entry of a tree is a leaf exactly when the tree is. -/
theorem HTree.At.isLeaf_iff {arena : Vector Node 511} {t : HTree} {h : Handle} (hat : t.At arena h) :
    (nodeAt arena h).isLeaf = true ↔ ∃ c, t = .leaf c := by
  cases t with
  | leaf c => exact ⟨fun _ => ⟨c, rfl⟩, fun _ => hat.1⟩
  | node l r => exact ⟨fun h => absurd hat.1 (by simp [h]), fun ⟨_, h⟩ => nomatch h⟩

section Descend

variable {s : State} (hroot : (nodeAt s.node s.root).isLeaf = false) (hr : s.ReaderOk) (ho : s.EmitterOk)
include hroot hr ho

/-- The bits of a proper beginning of a code lead from `cur` into the tree below it and emit nothing. -/
theorem decodeLoop_descend {tail : List Bool} {sub : HTree} {cur : Handle} {c : Byte} {p rest : List Bool}
    (hat : sub.At s.node cur) (hcode : (c, tail ++ p) ∈ sub.codes) (hp : p ≠ []) (hbits : s.readerBits = tail ++ rest)
    (ht : s.rtotal.toNat + tail.length ≤ 2 ^ 64 - 1) :
    ∃ (cur' : Handle) (t : State) (sub' : HTree), decodeLoop tail.length cur s = .ok cur' t ∧ Decoded s tail [] t ∧ sub'.At s.node cur' ∧
      (c, p) ∈ sub'.codes ∧ sub'.depth + tail.length ≤ sub.depth := by
  induction tail generalizing s sub cur with
  | nil => exact ⟨cur, s, sub, rfl, .refl hr ho, hat, hcode, le_rfl⟩
  | cons b tail ih =>
    rw [List.length_cons] at ht ⊢
    obtain ⟨l, r, rfl, hbelow⟩ := HTree.mem_codes_cons hcode
    obtain ⟨t, hread, hone⟩ := readBit_decoded hr ho (by omega) (rest := tail ++ rest) hbits
    have hchild := hat.child b
    have hnode : (nodeAt t.node (if b then (nodeAt t.node cur).r else (nodeAt t.node cur).l)).isLeaf = false := by
      rw [hone.node, Bool.eq_false_iff, ne_eq, hchild.isLeaf_iff]
      rintro ⟨d, hd⟩
      rw [hd, HTree.codes, List.mem_singleton, Prod.mk.injEq] at hbelow
      exact hp (List.append_eq_nil_iff.1 hbelow.2).2
    have hroot' : (nodeAt t.node t.root).isLeaf = false := by rwa [hone.node, hone.root]
    have hbit : decodeBit b cur t = .ok (if b then (nodeAt t.node cur).r else (nodeAt t.node cur).l) t := by
      rw [decodeBit_node hroot']
      dsimp only
      rw [hnode]
      rfl
    have hrest : t.readerBits = tail ++ rest := (List.cons.inj (hone.bits_eq.symm.trans hbits)).2
    have htotal : t.rtotal.toNat = s.rtotal.toNat + 1 := hone.total
    obtain ⟨cur', u, sub', hloop, hmore, hsub, hmem, hdepth⟩ := ih (s := t) hroot' hone.reader hone.emitter
      (sub := if b then r else l) (cur := if b then (nodeAt t.node cur).r else (nodeAt t.node cur).l)
      (by rw [hone.node]; exact hchild) hbelow hrest (by omega)
    refine ⟨cur', u, sub', by rw [decodeLoop_some hread, hbit, Run.bind_ok, hloop], hone.trans hmore, hone.node ▸ hsub,
      hmem, ?_⟩
    have hle : (if b then r else l).depth ≤ max l.depth r.depth := by
      cases b
      · exact le_max_left _ _
      · exact le_max_right _ _
    rw [HTree.depth]
    omega

/-- The last bit of a code reaches its leaf, emits its symbol and returns to the root. -/
theorem decodeLoop_last {sub : HTree} {cur : Handle} {c : Byte} {b : Bool} {rest : List Bool}
    (hat : sub.At s.node cur) (hcode : (c, [b]) ∈ sub.codes) (hbits : s.readerBits = b :: rest)
    (ht : s.rtotal.toNat < 2 ^ 64 - 1) (hroom : s.emitted.length + 1 ≤ s.outCap.toNat) :
    ∃ t, decodeLoop 1 cur s = .ok s.root t ∧ Decoded s [b] [c] t := by
  obtain ⟨l, r, rfl, hleaf⟩ := HTree.mem_codes_cons hcode
  obtain ⟨t, hread, hone⟩ := readBit_decoded hr ho ht hbits
  have hchild := hat.child b
  rw [HTree.eq_leaf_of_mem_codes_nil hleaf, ← hone.node] at hchild
  obtain ⟨hisLeaf, hsym⟩ := hchild
  have hroot' : (nodeAt t.node t.root).isLeaf = false := by rwa [hone.node, hone.root]
  obtain ⟨u, hemit, htwo⟩ := emit_decoded c hone.reader hone.emitter (by
    rw [hone.emitted_length, hone.outCap]
    exact hroom)
  refine ⟨u, ?_, hone.trans htwo⟩
  rw [decodeLoop_some hread, decodeBit_node hroot']
  dsimp only
  rw [hisLeaf, if_pos rfl, hsym, hemit, Run.bind_ok, Run.bind_ok, decodeLoop_zero, htwo.root,
    hone.root]

/-- The bits of a code emit its symbol. -/
theorem decodeLoop_code {tree : HTree} {c : Byte} {p rest : List Bool} (hat : tree.At s.node s.root)
    (hcode : (c, p) ∈ tree.codes) (hbits : s.readerBits = p ++ rest) (ht : s.rtotal.toNat + p.length ≤ 2 ^ 64 - 1)
    (hroom : s.emitted.length + 1 ≤ s.outCap.toNat) :
    ∃ t, decodeLoop p.length s.root s = .ok s.root t ∧ Decoded s p [c] t := by
  obtain rfl | ⟨tail, b, rfl⟩ := p.eq_nil_or_concat'
  · rw [HTree.eq_leaf_of_mem_codes_nil hcode] at hat
    exact absurd hat.1 (by simp [hroot])
  · rw [List.length_append, List.length_singleton] at ht ⊢
    rw [List.append_assoc] at hbits
    obtain ⟨cur, t, sub, hloop, htail, hsub, hlast, -⟩ := decodeLoop_descend hroot hr ho hat hcode (by simp) hbits
      (by omega)
    have htotal := htail.total
    obtain ⟨u, hend, hone⟩ := decodeLoop_last (s := t) (by rwa [htail.node, htail.root]) htail.reader htail.emitter
      (htail.node ▸ hsub) hlast (List.append_cancel_left (htail.bits_eq.symm.trans hbits)) (by omega)
      (by rw [htail.emitted_length, htail.outCap]; exact hroom)
    exact ⟨u, by rw [decodeLoop_add, hloop, Run.bind_ok, hend, htail.root], htail.trans hone⟩

end Descend

/-! ## Decoding a message -/

/-- The bits of a message: those of its first symbol and those of the others. -/
theorem HTree.encode_cons {t : HTree} {c : Byte} {cs : List Byte} {bits : List Bool}
    (h : t.encode (c :: cs) = some bits) :
    ∃ p bs, t.codes.lookup c = some p ∧ t.encode cs = some bs ∧ bits = p ++ bs := by
  rw [HTree.encode] at h
  split at h
  next p bs hp hbs => exact ⟨p, bs, hp, hbs, (Option.some.inj h).symm⟩
  next => cases h
  next => cases h

theorem mem_codes_of_lookup {l : List (Byte × List Bool)} {c : Byte} {p : List Bool} (h : l.lookup c = some p) :
    (c, p) ∈ l := by
  obtain ⟨a, b, rfl, -⟩ := List.lookup_eq_some_iff.1 h
  simp

/-- The bits of a message over a tree emit the message. -/
theorem decodeLoop_message {msg : List Byte} {s : State} {tree : HTree} {bits rest : List Bool}
    (hroot : (nodeAt s.node s.root).isLeaf = false) (hr : s.ReaderOk) (ho : s.EmitterOk) (hat : tree.At s.node s.root)
    (henc : tree.encode msg = some bits) (hbits : s.readerBits = bits ++ rest)
    (ht : s.rtotal.toNat + bits.length ≤ 2 ^ 64 - 1) (hroom : s.emitted.length + msg.length ≤ s.outCap.toNat) :
    ∃ t, decodeLoop bits.length s.root s = .ok s.root t ∧ Decoded s bits msg t := by
  induction msg generalizing s bits with
  | nil =>
    obtain rfl := Option.some.inj henc
    exact ⟨s, rfl, .refl hr ho⟩
  | cons c cs ih =>
    obtain ⟨p, bs, hlook, hencs, rfl⟩ := HTree.encode_cons henc
    rw [List.length_append] at ht ⊢
    rw [List.length_cons] at hroom
    rw [List.append_assoc] at hbits
    obtain ⟨t, hloop, hone⟩ := decodeLoop_code hroot hr ho hat (mem_codes_of_lookup hlook) hbits (by omega) (by omega)
    have htotal := hone.total
    have hlen := hone.emitted_length
    rw [List.length_singleton] at hlen
    obtain ⟨u, hloop', hmore⟩ := ih (s := t) (by rwa [hone.node, hone.root]) hone.reader hone.emitter
      (by rwa [hone.node, hone.root]) hencs (List.append_cancel_left (hone.bits_eq.symm.trans hbits)) (by omega)
      (by rw [hone.outCap]; omega)
    rw [hone.root] at hloop'
    exact ⟨u, by rw [decodeLoop_add, hloop, Run.bind_ok, hloop'], hone.trans hmore⟩

/-- Over one leaf every bit emits its symbol (43 R173). -/
theorem decodeLoop_leaf {n : Nat} {s : State} {c : Byte} {cur : Handle} (hat : (HTree.leaf c).At s.node s.root)
    (hr : s.ReaderOk) (ho : s.EmitterOk) (hn : n ≤ s.readerBits.length) (ht : s.rtotal.toNat + n ≤ 2 ^ 64 - 1)
    (hroom : s.emitted.length + n ≤ s.outCap.toNat) :
    ∃ t, decodeLoop n cur s = .ok cur t ∧ Decoded s (s.readerBits.take n) (List.replicate n c) t := by
  induction n generalizing s with
  | zero => exact ⟨s, rfl, .refl hr ho⟩
  | succ n ih =>
    cases hbits : s.readerBits with
    | nil => simp [hbits] at hn
    | cons b rest =>
      obtain ⟨hleaf, hsym⟩ := hat
      obtain ⟨t, hread, hone⟩ := readBit_decoded hr ho (by omega) hbits
      have hlen := hone.emitted_length
      rw [List.length_nil] at hlen
      obtain ⟨u, hemit, htwo⟩ := emit_decoded c hone.reader hone.emitter (by rw [hone.outCap]; omega)
      have hbit : decodeBit b cur t = .ok cur u := by
        rw [decodeBit_leaf (by rwa [hone.node, hone.root]), hone.node, hone.root, hsym, hemit, Run.bind_ok]
      have hboth := hone.trans htwo
      have hrest : u.readerBits = rest := (List.cons.inj (hboth.bits_eq.symm.trans hbits)).2
      have htotal := hboth.total
      have hlen' := hboth.emitted_length
      rw [hbits, List.length_cons] at hn
      simp only [List.append_nil, List.nil_append, List.length_singleton] at htotal hlen'
      obtain ⟨v, hloop, hmore⟩ := ih (s := u) (by rw [hboth.node, hboth.root]; exact ⟨hleaf, hsym⟩) hboth.reader
        hboth.emitter (by rw [hrest]; omega) (by omega) (by rw [hboth.outCap]; omega)
      rw [hrest] at hmore
      exact ⟨v, by rw [decodeLoop_some hread, hbit, Run.bind_ok, hloop], hboth.trans hmore⟩

/-- With fewer bits left than the loop wants, it stops when they are used up (60 R245, `CorruptStream(1)`). -/
theorem decodeLoop_exhausted {n : Nat} {s : State} {cur : Handle} (hr : s.ReaderOk) (ho : s.EmitterOk)
    (hn : s.readerBits.length < n) (ht : s.rtotal.toNat + s.readerBits.length ≤ 2 ^ 64 - 1)
    (hroom : s.emitted.length + s.readerBits.length ≤ s.outCap.toNat) :
    ∃ t msg, decodeLoop n cur s = .stop (t.raise .corruptStream 1) ∧ Decoded s s.readerBits msg t := by
  induction n generalizing s cur with
  | zero => omega
  | succ n ih =>
    cases hbits : s.readerBits with
    | nil => exact ⟨s, [], decodeLoop_none (readBit_of_nil hr hbits), .refl hr ho⟩
    | cons b rest =>
      rw [hbits, List.length_cons] at hn ht hroom
      obtain ⟨t, hread, hone⟩ := readBit_decoded hr ho (by omega) hbits
      have hlen := hone.emitted_length
      rw [List.length_nil] at hlen
      obtain ⟨cur', u, msg, hbit, htwo, hshort⟩ := decodeBit_decoded b cur hone.reader hone.emitter
        (by rw [hone.outCap]; omega)
      have hboth := hone.trans htwo
      have hrest : u.readerBits = rest := (List.cons.inj (hboth.bits_eq.symm.trans hbits)).2
      have htotal := hboth.total
      have hlen' := hboth.emitted_length
      simp only [List.append_nil, List.nil_append, List.length_singleton] at htotal hlen'
      obtain ⟨v, msg', hloop, hmore⟩ := ih (s := u) (cur := cur') hboth.reader hboth.emitter (by rw [hrest]; omega)
        (by rw [hrest]; omega) (by rw [hrest, hboth.outCap]; omega)
      rw [hrest] at hmore
      exact ⟨v, _, by rw [decodeLoop_some hread, hbit, Run.bind_ok, hloop], hboth.trans hmore⟩

end Sys2Proof.Machine
end

section
/-! `DEC_STREAM` (45 R214): the bit loop between its checks and the last append. -/

namespace Sys2Proof.Machine

/-- The state in which the bit loop of `DEC_STREAM` begins. -/
def State.decodeStart (s : State) : State := { s with olen := 0 }

section DecStream

variable {s : State}

theorem State.decodeStart_emitted (s : State) : s.decodeStart.emitted = s.output := List.append_nil _

theorem State.decodeStart_emitterOk (hr : s.ReaderOk) (hl : s.obuf.length = s.bufBytes.toNat) :
    s.decodeStart.EmitterOk := by
  obtain ⟨h0, -⟩ := hr
  exact ⟨hl, bufBytes_pos h0⟩

variable (hh : s.status.hdrValid = true) (hb : s.status.brValid = true) (hroot : s.totalBits = 0 ∨ s.root ≠ 0x1FF)
include hh hb hroot

/-- With its checks passed `DEC_STREAM` runs the bit loop, requires it to end at the root and appends what is left. -/
theorem runDecStream_eq :
    runDecStream s = (decodeLoop (s.totalBits.toNat - s.rtotal.toNat) s.root s.decodeStart).bind fun cur t =>
      (require (cur == t.root) .corruptStream 2 t).bind fun _ t =>
        (outAppend (t.obuf.take t.olen.toNat) t).bind fun _ t => .ok () { t with olen := 0 } := by
  have hcheck : (s.totalBits == 0 || s.root != Config.null) = true := by
    rcases hroot with h | h
    · rw [h]; rfl
    · rw [Bool.or_eq_true, bne_iff_ne]; exact .inr h
  rw [runDecStream, hh, hb, Bool.and_self, require_true, Run.bind_ok, hcheck, require_true, Run.bind_ok]
  rfl

variable {t : State} {bits : List Bool} {msg : List Byte} (hdec : Decoded s.decodeStart bits msg t)
include hdec

/-- A loop that ends at the root, with room for its message, completes the command. -/
theorem runDecStream_of_root
    (hloop : decodeLoop (s.totalBits.toNat - s.rtotal.toNat) s.root s.decodeStart = .ok s.root t)
    (hroom : s.output.length + msg.length ≤ s.outCap.toNat) :
    runDecStream s = .ok () { t with output := s.output ++ msg, olen := 0 } := by
  have hcur : s.root = t.root := hdec.root.symm
  have hemitted : t.output ++ t.obuf.take t.olen.toNat = s.output ++ msg :=
    hdec.emitted.trans (by rw [s.decodeStart_emitted])
  have hcap : t.outCap = s.outCap := hdec.outCap
  have hlen := congrArg List.length hemitted
  rw [List.length_append, List.length_append] at hlen
  rw [runDecStream_eq hh hb hroot, hloop, Run.bind_ok, hcur, beq_self_eq_true, require_true, Run.bind_ok,
    outAppend_of_fits (by rw [State.room_eq, hcap]; omega), Run.bind_ok, hemitted]

/-- A loop that ends elsewhere stops the command (60 R245, `CorruptStream(2)`). -/
theorem runDecStream_of_inside {cur : Handle}
    (hloop : decodeLoop (s.totalBits.toNat - s.rtotal.toNat) s.root s.decodeStart = .ok cur t) (hcur : cur ≠ s.root) :
    runDecStream s = .stop (t.raise .corruptStream 2) := by
  have hne : (cur == t.root) = false := beq_eq_false_iff_ne.2 (by rw [hdec.root]; exact hcur)
  rw [runDecStream_eq hh hb hroot, hloop, Run.bind_ok, hne, require_false, Run.bind_stop]

omit hh hb hroot in
/-- What has reached `OUT` inside the command are the message's whole buffers. -/
theorem Decoded.output_eq : t.output = s.output ++ msg.take (s.bufBytes.toNat * (msg.length / s.bufBytes.toNat)) := by
  have hemitted : t.output ++ t.obuf.take t.olen.toNat = s.output ++ msg :=
    hdec.emitted.trans (by rw [s.decodeStart_emitted])
  have hbuf : t.bufBytes = s.bufBytes := by rw [hdec.frame]; rfl
  obtain ⟨k, hk⟩ := hdec.whole
  obtain ⟨hobuf, holen⟩ := hdec.emitter
  rw [hbuf] at hobuf holen
  have hk : t.output.length = s.output.length + k * s.bufBytes.toNat := hk
  have hlen := congrArg List.length hemitted
  rw [List.length_append, List.length_append, List.length_take, hobuf, hk, Nat.min_eq_left holen.le] at hlen
  have hdiv : msg.length / s.bufBytes.toNat = k := by
    rw [show msg.length = t.olen.toNat + k * s.bufBytes.toNat by omega,
      Nat.add_mul_div_right _ _ (Nat.zero_lt_of_lt holen), Nat.div_eq_of_lt holen, Nat.zero_add]
  have htake := congrArg (List.take t.output.length) hemitted
  rw [List.take_left, hk, List.take_append, List.take_of_length_le (by omega), Nat.add_sub_cancel_left] at htake
  rw [hdiv, Nat.mul_comm, htake]

end DecStream

/-- What a completed `DEC_STREAM` leaves: the message in `OUT`, the declared bits consumed. -/
theorem exec_decStream_of_root {s t : State} {bits : List Bool} {msg : List Byte} (hs : s.NoFault)
    (hh : s.status.hdrValid = true) (hb : s.status.brValid = true) (hroot : s.root ≠ 0x1FF)
    (htotal : s.totalBits.toNat = s.rtotal.toNat + bits.length) (hdec : Decoded s.decodeStart bits msg t)
    (hloop : decodeLoop bits.length s.root s.decodeStart = .ok s.root t)
    (hroom : s.output.length + msg.length ≤ s.outCap.toNat) :
    ∃ u, exec .decStream s = .next u ∧
      u = { s with
        output := s.output ++ msg, obuf := u.obuf, olen := 0, rbuf := u.rbuf, rfill := u.rfill
        rpos := u.rpos, rlimit := u.rlimit, inPos := u.inPos, rtotal := s.totalBits } ∧
      u.ReaderOk ∧ u.readerBits = s.readerBits.drop (s.totalBits.toNat - s.rtotal.toNat) := by
  have hcount : s.totalBits.toNat - s.rtotal.toNat = bits.length := by omega
  have hrun := runDecStream_of_root hh hb (.inr hroot) hdec (by rw [hcount]; exact hloop) hroom
  have hrtotal : t.rtotal = s.totalBits := BitVec.eq_of_toNat_eq (hdec.total.trans htotal.symm)
  have hbits : s.readerBits = bits ++ t.readerBits := hdec.bits_eq
  refine ⟨_, exec_eq_next (by simp) hs (congrArg Run.state hrun), ?_, hdec.reader, ?_⟩
  · have hframe := hdec.frame
    rw [hrtotal] at hframe
    rw [Run.state_ok, hframe]
    rfl
  · rw [hcount, hbits, List.drop_left]
    rfl

/-- Settles O44: no bit, or the bits of one leaf, or the bits of a message. -/
theorem decStreamResult : Obligations.DecStreamResult := by
  intro s tree hs hh hb hr hl
  have ho := State.decodeStart_emitterOk hr hl
  have hfull := s.totalBits.isLt
  refine ⟨fun hnone hroot => ?_, fun hroot hat => ?_⟩
  · have hzero : s.totalBits.toNat - s.rtotal.toNat = 0 := Nat.sub_eq_zero_of_le hnone
    have hrun := runDecStream_eq hh hb hroot
    rw [hzero, decodeLoop_zero, Run.bind_ok, show (s.root == s.decodeStart.root) = true from beq_self_eq_true _,
      require_true, Run.bind_ok, show s.decodeStart.obuf.take s.decodeStart.olen.toNat = [] from rfl, outAppend_nil,
      Run.bind_ok] at hrun
    exact exec_eq_next (by simp) hs (congrArg Run.state hrun)
  · intro writes
    refine ⟨fun c n htree htotal hn hroom => ?_, fun l r msg bits htree henc htotal hbits hroom => ?_⟩
    · subst htree
      have hlen : (s.readerBits.take n).length = n := List.length_take_of_le hn
      obtain ⟨t, hloop, hdec⟩ := decodeLoop_leaf (n := n) (s := s.decodeStart) (cur := s.root) hat hr ho hn
        (show s.rtotal.toNat + n ≤ 2 ^ 64 - 1 by omega) (by rw [s.decodeStart_emitted]; exact hroom)
      exact exec_decStream_of_root hs hh hb hroot (bits := s.readerBits.take n) (by rw [hlen]; exact htotal) hdec
        (by rw [hlen]; exact hloop) (by rw [List.length_replicate]; exact hroom)
    · subst htree
      obtain ⟨rest, hrest⟩ := hbits
      obtain ⟨t, hloop, hdec⟩ := decodeLoop_message (s := s.decodeStart) hat.1 hr ho hat henc hrest.symm
        (show s.rtotal.toNat + bits.length ≤ 2 ^ 64 - 1 by omega) (by rw [s.decodeStart_emitted]; exact hroom)
      exact exec_decStream_of_root hs hh hb hroot htotal hdec hloop hroom

/-- A message's bits are no fewer than its symbols, over a tree that is no leaf. -/
theorem HTree.length_le_of_encode {l r : HTree} {msg : List Byte} {bits : List Bool}
    (h : (HTree.node l r).encode msg = some bits) : msg.length ≤ bits.length := by
  induction msg generalizing bits with
  | nil => exact Nat.zero_le _
  | cons c cs ih =>
    obtain ⟨p, bs, hlook, hcs, rfl⟩ := HTree.encode_cons h
    have hpos : 0 < p.length := List.length_pos_iff.2 (HTree.code_ne_nil_of_node (mem_codes_of_lookup hlook))
    have hle := ih hcs
    rw [List.length_cons, List.length_append]
    omega

/-- After a message and a proper beginning of a code the loop stands below the root. -/
theorem decodeLoop_inside {s : State} {l r : HTree} {msg : List Byte} {bits tail p rest : List Bool} {c : Byte}
    (hr : s.ReaderOk) (ho : s.EmitterOk) (hat : (HTree.node l r).At s.node s.root)
    (henc : (HTree.node l r).encode msg = some bits) (hcode : (c, tail ++ p) ∈ (HTree.node l r).codes)
    (htail : tail ≠ []) (hp : p ≠ []) (hbits : s.readerBits = bits ++ tail ++ rest)
    (ht : s.rtotal.toNat + (bits ++ tail).length ≤ 2 ^ 64 - 1) (hroom : s.emitted.length + msg.length ≤ s.outCap.toNat) :
    ∃ cur t, decodeLoop (bits ++ tail).length s.root s = .ok cur t ∧ Decoded s (bits ++ tail) msg t ∧ cur ≠ s.root := by
  rw [List.length_append] at ht ⊢
  rw [List.append_assoc] at hbits
  obtain ⟨t, hloop, hmsg⟩ := decodeLoop_message hat.1 hr ho hat henc hbits (by omega) hroom
  have htotal := hmsg.total
  obtain ⟨cur, u, sub, hloop', hmore, hsub, -, hdepth⟩ := decodeLoop_descend (s := t)
    (by rw [hmsg.node, hmsg.root]; exact hat.1) hmsg.reader hmsg.emitter (cur := s.root) (by rw [hmsg.node]; exact hat)
    hcode hp (List.append_cancel_left (hmsg.bits_eq.symm.trans hbits)) (by omega)
  refine ⟨cur, u, by rw [decodeLoop_add, hloop, Run.bind_ok, hloop'], by simpa using hmsg.trans hmore, ?_⟩
  rintro rfl
  rw [hmsg.node] at hsub
  rw [HTree.at_unique hsub hat] at hdepth
  have hpos := List.length_pos_iff.2 htail
  omega

/-- Settles O45: the reader runs out inside the loop, or the loop ends below the root. -/
theorem decStreamFaults : Obligations.DecStreamFaults := by
  intro s tree hs hh hb hr hl hroot hat hroom
  have ho := State.decodeStart_emitterOk hr hl
  have hfull := s.totalBits.isLt
  have hclear : ∀ {bits msg t}, Decoded s.decodeStart bits msg t → t.NoFault :=
    fun hdec => (congrArg Status.fault hdec.status).trans hs
  refine ⟨fun hfew => ?_, fun msg bits c code tail henc hcode htail hne hproper hbits htotal => ?_⟩
  · obtain ⟨t, msg, hloop, hdec⟩ := decodeLoop_exhausted (n := s.totalBits.toNat - s.rtotal.toNat)
      (s := s.decodeStart) (cur := s.root) hr ho (show s.readerBits.length < _ by omega)
      (show s.rtotal.toNat + s.readerBits.length ≤ 2 ^ 64 - 1 by omega) (by rw [s.decodeStart_emitted]; exact hroom)
    have hrun := runDecStream_eq hh hb (.inr hroot)
    rw [hloop, Run.bind_stop, State.raise_of_noFault (hclear hdec)] at hrun
    exact ⟨_, exec_eq_next (by simp) hs (congrArg Run.state hrun), rfl, rfl, rfl, hdec.total⟩
  · obtain ⟨p, rfl⟩ := htail
    obtain ⟨rest, hrest⟩ := hbits
    have hp : p ≠ [] := fun h => hproper (by rw [h, List.append_nil])
    cases tree with
    | leaf d =>
      rw [HTree.codes, List.mem_singleton, Prod.mk.injEq] at hcode
      exact absurd (List.append_eq_nil_iff.1 hcode.2).1 hne
    | node l r =>
      have hshort := HTree.length_le_of_encode henc
      have hlen := congrArg List.length hrest
      rw [List.length_append, List.length_append] at hlen
      obtain ⟨cur, t, hloop, hdec, hcur⟩ := decodeLoop_inside (s := s.decodeStart) hr ho hat henc hcode hne hp
        hrest.symm (show s.rtotal.toNat + (bits ++ tail).length ≤ 2 ^ 64 - 1 by omega)
        (by rw [s.decodeStart_emitted]; exact (show s.output.length + msg.length ≤ s.outCap.toNat by omega))
      have hcount : s.totalBits.toNat - s.rtotal.toNat = (bits ++ tail).length := by omega
      have hrun := runDecStream_of_inside hh hb (.inr hroot) hdec (by rw [hcount]; exact hloop) hcur
      rw [State.raise_of_noFault (hclear hdec)] at hrun
      exact ⟨_, exec_eq_next (by simp) hs (congrArg Run.state hrun), rfl, rfl, rfl, hdec.output_eq⟩

end Sys2Proof.Machine
end

section
/-! The composites as sequences (45 R216, R217, 00 R16): a procedure that completes records no fault, so that commands
issued one after another run the procedures one after another. -/

namespace Sys2Proof.Machine

/-! ## Procedures that complete -/

/-- From a state without a fault the run does not complete with one recorded. -/
abbrev Run.Clean {α : Type} (r : Run α) : Prop := r.Ends (fun _ => State.NoFault) fun _ => True

theorem Run.Clean.require {α : Type} {c : Bool} {e : Err} {info : Word64} {s : State} {f : Unit → State → Run α}
    (hf : (f () s).Clean) : ((Machine.require c e info s).bind f).Clean := Run.Ends.require trivial fun _ => hf

theorem outAppend_clean {v : List Byte} {s : State} (hs : s.NoFault) : (outAppend v s).Clean := by
  by_cases h : v.length ≤ s.room
  · rw [outAppend_of_fits h]
    exact hs
  · rw [outAppend_of_short (Nat.lt_of_not_le h)]
    trivial

theorem newNode_clean {sym : Byte} {w : Nat} {l r : Handle} {s : State} (hs : s.NoFault) :
    (newNode sym w l r s).Clean := .require (.require hs)

theorem heapInsert_clean {h : Handle} {s : State} (hs : s.NoFault) : (heapInsert h s).Clean := .require hs

theorem heapExtract_clean {s : State} (hs : s.NoFault) : (heapExtract s).Clean := .require hs

theorem fillLeaves_clean (cs : List Byte) {s : State} (hs : s.NoFault) : (fillLeaves cs s).Clean := by
  induction cs generalizing s with
  | nil => exact hs
  | cons c cs ih =>
    rw [fillLeaves]
    split
    · exact ih hs
    · exact (newNode_clean hs).bind fun _ t ht => (heapInsert_clean ht).bind fun _ u hu => ih hu

theorem mergeLoop_clean (k : Nat) {s : State} (hs : s.NoFault) : (mergeLoop k s).Clean := by
  induction k generalizing s with
  | zero => exact hs
  | succ k ih =>
    have hround : (mergeRound s).Clean := (heapExtract_clean hs).bind fun _ t ht => (heapExtract_clean ht).bind
      fun _ u hu => (newNode_clean hu).bind fun _ v hv => (heapInsert_clean hv).bind fun _ x hx => hx
    exact hround.bind fun _ t ht => ih ht

theorem walk_clean (room : Nat) (h : Handle) (pat : Nat) {s : State} (hs : s.NoFault) : (walk room h pat s).Clean := by
  induction room generalizing h pat s with
  | zero =>
    cases hl : (nodeAt s.node h).isLeaf with
    | true =>
      rw [walk_leaf hl]
      exact .require hs
    | false =>
      rw [walk_node_zero hl]
      trivial
  | succ room ih =>
    cases hl : (nodeAt s.node h).isLeaf with
    | true =>
      rw [walk_leaf hl]
      exact .require hs
    | false =>
      rw [walk_node_succ hl]
      exact (ih _ _ hs).bind fun _ t ht => ih _ _ ht

theorem writeBits_clean (pat : Word64) (len : Nat) {s : State} (hs : s.NoFault) : (writeBits pat len s).Clean := by
  induction len generalizing s with
  | zero => exact hs
  | succ k ih =>
    have hbit : (writeBit (pat.getLsbD k) s).Clean := by
      refine .require ?_
      dsimp only
      split
      · exact (outAppend_clean (s := s.placeBit _) hs).bind fun _ t ht => ht
      · exact hs
    exact hbit.bind fun _ t ht => ih ht

theorem encodeBytes_clean (msg : List Byte) {s : State} (hs : s.NoFault) : (encodeBytes msg s).Clean := by
  induction msg generalizing s with
  | nil => exact hs
  | cons c cs ih =>
    exact .require ((writeBits_clean _ _ (s := { s with inPos := word (s.inPos.toNat + 1) }) hs).bind
      fun _ t ht => ih ht)

theorem readBit_clean {s : State} (hs : s.NoFault) : (readBit s).Clean := by
  unfold readBit
  split_ifs
  · exact hs
  · exact .require hs
  · exact .require hs

theorem emit_clean (c : Byte) {s : State} (hs : s.NoFault) : (emit c s).Clean := by
  unfold emit
  dsimp only
  split
  · exact (outAppend_clean (by exact hs)).bind fun _ t ht => ht
  · exact hs

theorem writePairs_clean (cs : List Byte) {s : State} (hs : s.NoFault) : (writePairs cs s).Clean := by
  induction cs generalizing s with
  | nil => exact hs
  | cons c cs ih =>
    rw [writePairs]
    split
    · exact ih hs
    · exact (outAppend_clean hs).bind fun _ t ht => ih ht

theorem readPairs_clean (n i : Nat) {s : State} (hs : s.NoFault) : (readPairs n i s).Clean := by
  induction n generalizing i s with
  | zero => exact hs
  | succ n ih => exact .require (.require (ih (i + 1) (by exact hs)))

section Commands

variable {s : State} (hs : s.NoFault)
include hs

theorem runHpFill_clean : (runHpFill s).Clean := .require (fillLeaves_clean _ (by exact hs))

theorem runTbBuild_clean : (runTbBuild s).Clean :=
  .require <| .require <| (mergeLoop_clean _ hs).bind fun _ _ ht => (heapExtract_clean ht).bind fun _ _ hu => hu

theorem runCgRun_clean : (runCgRun s).Clean := by
  refine .require ?_
  dsimp only
  split
  · exact hs
  · exact (walk_clean _ _ _ (s := s.zeroCodes.setSingle false) hs).bind fun _ _ ht => ht

theorem runHdrWrite_clean : (runHdrWrite s).Clean :=
  .require <| .require <| (outAppend_clean hs).bind fun _ _ ht => writePairs_clean _ ht

theorem runHdrRead_clean : (runHdrRead s).Clean :=
  .require <| .require <| (readPairs_clean _ _ (by exact hs)).bind fun _ _ ht =>
    .require trivial fun _ => .require trivial fun _ => ht

theorem runEncStream_clean : (runEncStream s).Clean := .require (encodeBytes_clean _ hs)

theorem runBwFlush_clean : (runBwFlush s).Clean := .require <| (outAppend_clean hs).bind fun _ _ ht => ht

theorem runTrlWrite_clean : (runTrlWrite s).Clean := .require (outAppend_clean hs)

theorem runDecStream_clean : (runDecStream s).Clean :=
  .require <| .require <| (decodeLoop_ends (fun _ => readBit_clean)
    (fun b cur _ => decodeBit_ends (fun c _ => emit_clean c) b cur) (fun _ _ => trivial) _ _ (by exact hs)).bind
      fun _ _ ht => .require trivial fun _ => (outAppend_clean ht).bind fun _ _ hu => hu

theorem buildCodes_clean : (buildCodes s).Clean := by
  unfold buildCodes
  split
  · exact (runHpFill_clean hs).bind fun _ _ ht => (runTbBuild_clean ht).bind fun _ _ hu =>
      (runCgRun_clean hu).bind fun _ _ hv => hv
  · exact hs

theorem writeFile_clean : (writeFile s).Clean :=
  (runHdrWrite_clean hs).bind fun _ t ht => (runEncStream_clean (s := t.writerStarted) ht).bind fun _ _ hu =>
    (runBwFlush_clean hu).bind fun _ _ hv => runTrlWrite_clean hv

theorem rebuildTree_clean : (rebuildTree s).Clean := by
  unfold rebuildTree
  split
  · exact (runHpFill_clean hs).bind fun _ _ ht => runTbBuild_clean ht
  · exact hs

/-- No command completes with a fault recorded that was not there before. -/
theorem procOf_clean {i : Instr} (hi : i ≠ .clr) : (procOf i s).Clean := by
  cases i with
  | clr => exact absurd rfl hi
  | nop => exact hs
  | fcRun => exact hs
  | fqScale => exact .require hs
  | hpCreate a => exact .require hs
  | hpInsert a => exact .require <| .require <| .require <| (heapInsert_clean hs).bind fun _ _ ht => ht
  | hpExtract => exact .require <| (heapExtract_clean hs).bind fun _ _ ht => ht
  | hpFill => exact runHpFill_clean hs
  | ndLeaf a => exact .require <| (newNode_clean hs).bind fun _ _ ht => ht
  | tbBuild => exact runTbBuild_clean hs
  | tbFree => exact hs
  | cgRun => exact runCgRun_clean hs
  | bwInit => exact hs
  | bwWrite a => exact .require <| .require <| writeBits_clean _ _ hs
  | bwFlush => exact runBwFlush_clean hs
  | brInit => exact hs
  | brRead => exact .require <| (readBit_clean hs).bind fun _ _ ht => ht
  | hdrWrite => exact runHdrWrite_clean hs
  | hdrRead => exact runHdrRead_clean hs
  | encStream => exact runEncStream_clean hs
  | trlWrite => exact runTrlWrite_clean hs
  | decStream => exact runDecStream_clean hs
  | compress =>
    exact runCompress_ends (P := State.NoFault) hs (fun _ ht => Run.Clean.require ht) (fun _ _ => trivial)
      (fun _ => buildCodes_clean) fun _ => writeFile_clean
  | decompress =>
    exact runDecompress_ends (P := State.NoFault) (runHdrRead_clean hs) (fun _ => rebuildTree_clean)
      (fun t limit ht => runDecStream_clean (s := t.initReader limit) ht) fun _ ht => ht

end Commands

/-! ## Commands one after another -/

theorem Run.bind_assoc {α β γ : Type} (r : Run α) (f : α → State → Run β) (g : β → State → Run γ) :
    (r.bind f).bind g = r.bind fun a s => (f a s).bind g := by cases r <;> rfl

theorem Run.bind_unit (r : Run Unit) : (r.bind fun _ s => .ok () s) = r := by cases r <;> rfl

/-- The procedures of some commands, one after another up to the first `raise`. -/
def runAll : List Instr → Proc Unit
  | [], s => .ok () s
  | i :: rest, s => (procOf i s).bind fun _ t => runAll rest t

/-- Commands issued while a fault is recorded do nothing. -/
theorem execAll_of_fault {is : List Instr} (hi : .clr ∉ is) {s : State} (hs : s.status.fault = true) :
    execAll is s = .next s := by
  induction is with
  | nil => rfl
  | cons i is ih =>
    rw [List.mem_cons, not_or] at hi
    rw [execAll, exec_eq_command (Ne.symm hi.1), command_of_fault hs]
    exact ih hi.2

/-- Commands issued one after another run their procedures one after another: those after a `raise` are ignored. -/
theorem execAll_eq_runAll {is : List Instr} (hi : .clr ∉ is) {s : State} (hs : s.NoFault) :
    execAll is s = .next (runAll is s).state := by
  induction is generalizing s with
  | nil => rfl
  | cons i is ih =>
    rw [List.mem_cons, not_or] at hi
    obtain ⟨hne, hrest⟩ := hi
    have hdoes := procOf_does i s
    have hclean := procOf_clean hs (Ne.symm hne)
    rw [execAll, exec_eq_command (Ne.symm hne), command_of_noFault hs, runAll]
    cases hrun : procOf i s with
    | ok a t =>
      rw [hrun] at hclean
      exact ih hrest hclean
    | stop t =>
      rw [hrun] at hdoes
      exact execAll_of_fault hrest hdoes.2

/-! ## `COMPRESS` (45 R216) -/

/-- The state `COMPRESS` has after counting and scaling all of `IN`. -/
def State.analysed (s : State) : State := { s with inPos := 0 }.counted.scaled

theorem runCompress_eq (s : State) :
    runCompress s = (require (decide (s.analysed.nsym.toNat ≤ 255)) .alphabet256 (s.analysed.nsym.setWidth 64)
      s.analysed).bind fun _ t => (buildCodes t).bind fun _ t => writeFile t := rfl

/-- With 1 to 255 symbols `COMPRESS` goes on as the nine commands do. -/
theorem runCompress_eq_runAll {s : State} (h1 : 1 ≤ s.analysed.nsym.toNat) (h255 : s.analysed.nsym.toNat ≤ 255) :
    runCompress s =
      runAll [.hpFill, .tbBuild, .cgRun, .tbFree, .hdrWrite, .bwInit, .encStream, .bwFlush, .trlWrite] s.analysed := by
  rw [runCompress_eq, decide_eq_true h255, require_true, Run.bind_ok, buildCodes, if_pos h1]
  simp only [runAll, procOf, writeFile, Run.bind_assoc, Run.bind_unit]

/-! ## `DECOMPRESS` (45 R217) -/

/-- The limit of `DECOMPRESS`'s reader: the size of the bitstream region. -/
def State.bitstreamLimit (s : State) : Word64 := word (s.input.length - 8 - s.inPos.toNat)

theorem runDecompress_eq (s : State) :
    runDecompress s = (runHdrRead s).bind fun _ u => (rebuildTree u).bind fun _ v =>
      runAll [.decStream, .tbFree] (v.initReader v.bitstreamLimit) := rfl

/-- The tree part of `DECOMPRESS` is the commands the count chooses. -/
theorem rebuildTree_eq_runAll (u : State) :
    rebuildTree u = runAll (if 1 ≤ u.nsym.toNat then [.hpFill, .tbBuild] else [.tbFree]) u := by
  unfold rebuildTree
  split
  · simp only [runAll, procOf, Run.bind_unit]
  · rfl

/-- A fault before the reader starts is the last thing that happens: the commands that follow, with `ARG0` lent to
`BR_INIT` and returned, are ignored. -/
theorem decode_of_fault {s v : State} (hv : v.status.fault = true) (harg : v.arg0 = s.arg0) :
    ∃ w x, exec .brInit { v with arg0 := v.bitstreamLimit } = .next w ∧
      execAll [.decStream, .tbFree] { w with arg0 := s.arg0 } = .next x ∧ v = x := by
  refine ⟨{ v with arg0 := v.bitstreamLimit }, { v with arg0 := s.arg0 }, ?_, ?_, ?_⟩
  · exact command_of_fault (s := { v with arg0 := v.bitstreamLimit }) hv _
  · exact execAll_of_fault (by simp) hv
  · rw [← harg]

/-- The commands after `HDR_READ` have the effect of the rest of `DECOMPRESS`. -/
theorem decode_parts {s u : State} (hu : u.NoFault) (harg : u.arg0 = s.arg0) :
    ∃ v w x, execAll (if 1 ≤ u.nsym.toNat then [.hpFill, .tbBuild] else [.tbFree]) u = .next v ∧
      exec .brInit { v with arg0 := v.bitstreamLimit } = .next w ∧
      execAll [.decStream, .tbFree] { w with arg0 := s.arg0 } = .next x ∧
      ((rebuildTree u).bind fun _ v => runAll [.decStream, .tbFree] (v.initReader v.bitstreamLimit)).state = x := by
  have hbuild := rebuildTree_does u
  have hclear := rebuildTree_clean hu
  have hsame := execAll_eq_runAll (is := if 1 ≤ u.nsym.toNat then [.hpFill, .tbBuild] else [.tbFree])
    (by split <;> simp) hu
  rw [← rebuildTree_eq_runAll] at hsame
  have harg' : (rebuildTree u).state.arg0 = s.arg0 := (hbuild.writes .host (by simp)).1.trans harg
  cases htree : rebuildTree u with
  | stop v =>
    rw [htree] at hbuild hsame harg'
    obtain ⟨w, x, hw, hx, rfl⟩ := decode_of_fault hbuild.2 harg'
    exact ⟨v, w, v, hsame, hw, hx, rfl⟩
  | ok a v =>
    rw [htree] at hclear hsame harg'
    have hrest := execAll_eq_runAll (is := [.decStream, .tbFree]) (s := v.initReader v.bitstreamLimit) (by simp) hclear
    refine ⟨v, _, _, hsame, exec_brInit (s := { v with arg0 := v.bitstreamLimit }) hclear, ?_, rfl⟩
    rw [← harg']
    exact hrest

/-- Settles O47: on both sides the same procedures run in the same order, up to the same `raise`. -/
theorem compositeSteps : Obligations.CompositeSteps := by
  intro s u hs
  refine ⟨fun hu h1 h255 => ?_, fun hu => ?_⟩
  · rw [execAll_eq_runAll (s := { s with inPos := 0 }) (by simp) hs] at hu
    obtain rfl : s.analysed = u := Host.Outcome.next.inj hu
    rw [execAll_eq_runAll (s := s.analysed) (by simp) hs, ← runCompress_eq_runAll h1 h255]
    exact exec_eq_next (by simp) hs rfl
  · rw [execAll_eq_runAll (by simp) hs] at hu
    have hread := runHdrRead_does s
    have hclear := runHdrRead_clean hs
    have hexec : exec .decompress s = .next (runDecompress s).state := exec_eq_next (by simp) hs rfl
    rw [runDecompress_eq] at hexec
    obtain rfl : (runHdrRead s).state = u := by
      rw [← Host.Outcome.next.inj hu, runAll, procOf]
      exact congrArg Run.state (Run.bind_unit _).symm
    cases hhdr : runHdrRead s with
    | stop u =>
      rw [hhdr] at hread hexec
      obtain ⟨hwrites, hfault⟩ := hread
      obtain ⟨w, x, hw, hx, rfl⟩ := decode_of_fault hfault (hwrites .host (by simp)).1
      exact ⟨u, w, u, execAll_of_fault (by split <;> simp) hfault, hw, hx, hexec⟩
    | ok a u =>
      rw [hhdr] at hread hclear hexec
      obtain ⟨v, w, x, hbuild, hw, hx, rfl⟩ := decode_parts hclear (hread .host (by simp)).1
      exact ⟨v, w, _, hbuild, hw, hx, hexec⟩

end Sys2Proof.Machine
end

section
/-! The tree and the codes of a scaled table (42 R165, 43 R175): what `HP_FILL` and `TB_BUILD` build depends on the table
alone, and `CG_RUN` gives its codes. -/

namespace Sys2Proof.Machine

/-! ## The tree of a table -/

/-- `HP_FILL` and then `TB_BUILD`. -/
def fillTree : Proc Unit := fun s => (runHpFill s).bind fun _ t => runTbBuild t

/-- From `s`, `HP_FILL` and `TB_BUILD` leave `v` with this tree under its root: one leaf per present symbol, none deeper
than 22. -/
structure Built (s v : State) (tree : HTree) : Prop where
  run : fillTree s = .ok () v
  frame : v = { s with
    node := v.node, nalloc := v.nalloc, root := v.root, heap := v.heap, hsize := 0, hmax := s.nsym
    status := { s.status with heapValid := true }, freeCount := s.freeCount + 2 }
  root : v.root ≠ 0x1FF
  below : tree.Below v.node v.nalloc.toNat v.root
  depth : tree.depth ≤ 22
  syms : tree.syms.Perm (presentSymbols s.sft)

/-- The leaves `HP_FILL` makes hold the present symbols. -/
theorem Filled.syms {s t : State} (f : Filled s t) (hn : s.nsym.toNat = presentCount s.sft) :
    (t.heapList.map fun h => (nodeAt t.node h).sym).Perm (presentSymbols s.sft) := by
  have hlist : ((List.range s.nsym.toNat).map (BitVec.ofNat 9)).map (fun h => (nodeAt t.node h).sym) =
      presentSymbols s.sft := by
    refine List.ext_getElem (by simp [hn, presentCount_byte]) fun k _ hk => ?_
    simp only [List.getElem_map, List.getElem_range, f.leaves k hk]
    rfl
  exact hlist ▸ f.handles.map _

/-- With a valid scaled table of one symbol or more, `HP_FILL` and `TB_BUILD` complete. -/
theorem exists_built {s : State} (hv : s.status.sftValid = true) (hn : s.nsym.toNat = presentCount s.sft)
    (h1 : 1 ≤ s.nsym.toNat) : ∃ v tree, Built s v tree := by
  obtain ⟨t, ht, f⟩ := runHpFill_filled hv hn
  obtain ⟨u, tree, hu, -, hroot, -, hat, hdepth⟩ := f.runTbBuild_ok hn h1
  have h256 : s.nsym.toNat ≤ 256 := hn ▸ presentCount_le s.sft
  have hsize := congrArg BitVec.toNat f.hsize
  have hmax := congrArg BitVec.toNat f.hmax
  have hna := f.nalloc
  have htotal := f.total_le hn
  have start := Forest.start t fun h hh => ⟨(f.mem_heapList hn).1 hh, f.isLeaf hn ((f.mem_heapList hn).1 hh)⟩
  obtain ⟨v, h, tree', hloop, fv, hz, hhead, -⟩ :=
    start.loop (t.hsize.toNat - 1) (by omega) (by omega) (by omega) (by omega) (by omega)
  obtain ⟨heap', hu'⟩ := runTbBuild_of_mergeLoop (by rw [f.status]) (by omega) hloop hz
  obtain ⟨-, rfl⟩ := Run.ok.inj (hu'.symm.trans hu)
  have hbelow : tree'.Below v.node v.nalloc.toNat (heapAt v.heap 0) := hhead ▸ fv.trees _ (List.mem_singleton_self _)
  obtain rfl : tree' = tree := HTree.at_unique hbelow.at_ hat
  have hsyms := fv.syms
  rw [List.flatMap_cons, List.flatMap_nil, List.append_nil] at hsyms
  refine ⟨_, tree', by rw [fillTree, ht, Run.bind_ok, hu], ?_, hroot, hbelow, hdepth, hsyms.trans (f.syms hn)⟩
  rw [fv.frame, f.frame]

/-! ## It depends on the table alone -/

theorem fillStart_agree {s t : State} (hsft : s.sft = t.sft) (hn : s.nsym = t.nsym) : Agree s.fillStart t.fillStart where
  sft := hsft
  nsym := hn
  nalloc := rfl
  hsize := rfl
  hmax := hn
  small := Nat.zero_le _
  nodes := fun _ h => absurd h (Nat.not_lt_zero _)
  heap := fun _ h => absurd h (Nat.not_lt_zero _)
  valid := fun _ h => absurd h (Nat.not_lt_zero _)

/-- `TB_BUILD` keeps agreement and makes the same handle the root. -/
theorem runTbBuild_same {s t u v : State} (h : Agree s t) (hm : s.hmax.toNat ≤ 256) (hu : runTbBuild s = .ok () u)
    (hv : runTbBuild t = .ok () v) :
    u.root = v.root ∧ u.nalloc = v.nalloc ∧
      ∀ k : Handle, k.toNat < u.nalloc.toNat → nodeAt u.node k = nodeAt v.node k := by
  simp only [runTbBuild, Run.bind_eq_ok, require_eq_ok] at hu hv
  obtain ⟨_, _, ⟨-, rfl⟩, _, _, ⟨-, rfl⟩, _, s1, hs1, a, s2, hs2, hu⟩ := hu
  obtain ⟨_, _, ⟨-, rfl⟩, _, _, ⟨-, rfl⟩, _, t1, ht1, b, t2, ht2, hv⟩ := hv
  obtain ⟨-, rfl⟩ := Run.ok.inj hu
  obtain ⟨-, rfl⟩ := Run.ok.inj hv
  obtain ⟨t1', ht1', h1⟩ := (mergeLoop_same _ h hm).of_ok hs1
  rw [h.hsize, ht1] at ht1'
  obtain ⟨-, rfl⟩ := Run.ok.inj ht1'
  obtain ⟨t2', ht2', h2⟩ := (heapExtract_same h1).of_ok hs2
  obtain ⟨rfl, rfl⟩ := Run.ok.inj (ht2.symm.trans ht2')
  exact ⟨rfl, h2.nalloc, h2.nodes⟩

/-- Two machines with the same table build the same tree (42 R165, 45 R218). -/
theorem Built.unique {s s' v v' : State} {tree tree' : HTree} (b : Built s v tree) (b' : Built s' v' tree')
    (hv : s.status.sftValid = true) (hv' : s'.status.sftValid = true) (hsft : s.sft = s'.sft) (hn : s.nsym = s'.nsym)
    (h256 : s.nsym.toNat ≤ 256) : tree = tree' := by
  have hrun := b.run
  have hrun' := b'.run
  rw [fillTree, Run.bind_eq_ok] at hrun hrun'
  obtain ⟨_, t, hfill, hbuild⟩ := hrun
  obtain ⟨_, t', hfill', hbuild'⟩ := hrun'
  rw [runHpFill_eq hv] at hfill
  rw [runHpFill_eq hv'] at hfill'
  obtain ⟨t'', ht'', hagree⟩ := (fillLeaves_same allSymbols (fillStart_agree hsft hn) h256).of_ok hfill
  obtain ⟨-, rfl⟩ := Run.ok.inj (hfill'.symm.trans ht'')
  have hwrites := fillLeaves_does allSymbols s.fillStart
  rw [hfill] at hwrites
  have hmax : t.hmax = s.nsym := hwrites .hmax (by simp)
  obtain ⟨hroot, hnalloc, hnodes⟩ := runTbBuild_same hagree (hmax ▸ h256) hbuild hbuild'
  have hmoved := b.below.mono (le_of_eq rfl) fun k hk => (hnodes k hk).symm
  rw [hroot] at hmoved
  exact HTree.at_unique hmoved.at_ b'.below.at_

/-! ## Its codes -/

/-- The code table of `w` holds the codes of the tree: the paths to its leaves, or the one bit 0 for a tree of one leaf
(43 R170, R173). -/
structure TreeCodes (tree : HTree) (w : State) : Prop where
  short : ∀ c, (symAt w.ctLen c).toNat ≤ 22
  present : ∀ c ∈ tree.syms, symAt w.ctLen c ≠ 0
  leaf : ∀ c, tree = .leaf c → w.codeOf c = [false]
  node : ∀ l r, tree = .node l r → ∀ c ∈ tree.syms, (c, w.codeOf c) ∈ tree.codes

/-- The codes depend on the code table alone. -/
theorem TreeCodes.congr {tree : HTree} {w x : State} (h : TreeCodes tree w) (hpat : x.ctPat = w.ctPat)
    (hlen : x.ctLen = w.ctLen) : TreeCodes tree x := by
  have hcode : x.codeOf = w.codeOf := by
    funext c
    rw [State.codeOf, State.codeOf, hpat, hlen]
  exact ⟨hlen ▸ h.short, hlen ▸ h.present, hcode ▸ h.leaf, hcode ▸ h.node⟩

/-- A tree with one leaf is that leaf. -/
theorem HTree.syms_length_eq_one_iff {t : HTree} : t.syms.length = 1 ↔ ∃ c, t = .leaf c := by
  cases t with
  | leaf c => simp
  | node l r =>
    have hl := List.length_pos_iff.2 l.syms_ne_nil
    have hr := List.length_pos_iff.2 r.syms_ne_nil
    rw [HTree.syms_node, List.length_append]
    exact ⟨fun h => by omega, fun ⟨_, h⟩ => nomatch h⟩

/-- The codes the walk over an internal root leaves. -/
theorem Coded.treeCodes {v t : State} {l r : HTree} (h : Coded v.walkStart 0 0 (.node l r) t)
    (hd : (HTree.node l r).depth ≤ 22) : TreeCodes (.node l r) t where
  short := by
    intro c
    by_cases hc : c ∈ (HTree.node l r).syms
    · obtain ⟨p, hp, rfl⟩ := List.mem_map.1 hc
      rw [(h.path hp).2.1]
      exact (HTree.code_length_le_depth hp).trans hd
    · rw [(h.rest hc).1]
      exact Nat.zero_le _
  present := fun _ hc => h.present_iff.2 hc
  leaf := fun _ he => nomatch he
  node := fun _ _ _ _ hc => h.mem_codes (h.present_iff.2 hc)

/-- Over a shallow tree of distinct symbols `CG_RUN` completes with the tree's codes. -/
theorem runCgRun_treeCodes {v : State} {tree : HTree} (hroot : v.root ≠ 0x1FF) (hat : tree.At v.node v.root)
    (hd : tree.depth ≤ 22) (hn : tree.syms.Nodup) :
    ∃ w, runCgRun v = .ok () w ∧
      w = { v with
        ctPat := w.ctPat, ctLen := w.ctLen
        status := { v.status with single := w.status.single, ctValid := true } } ∧
      TreeCodes tree w ∧ (w.status.single = true ↔ ∃ c, tree = .leaf c) := by
  cases tree with
  | leaf c =>
    obtain ⟨hleaf, rfl⟩ := hat
    refine ⟨v.singleCoded, runCgRun_of_leaf hroot hleaf, rfl, ⟨fun d => ?_, fun d hd' => ?_, fun d he => ?_,
      fun _ _ he => nomatch he⟩, iff_of_true rfl ⟨_, rfl⟩⟩
    · rw [v.singleCoded_ctLen]
      split <;> decide
    · rw [HTree.syms_leaf, List.mem_singleton] at hd'
      rw [v.singleCoded_ctLen, if_pos hd']
      decide
    · rw [← HTree.leaf.inj he, v.singleCoded_codeOf]
  | node l r =>
    obtain ⟨t, hwalk, hcoded⟩ := cgWalk_ok hat (by omega) hn
    have hrun : runCgRun v = .ok () t.setCtValid := by rw [runCgRun_of_node hroot hat.1, hwalk, Run.bind_ok]
    refine ⟨t.setCtValid, hrun, ?_, (hcoded.treeCodes hd).congr rfl rfl,
      iff_of_false ?_ fun ⟨_, he⟩ => nomatch he⟩
    all_goals rw [hcoded.frame]
    · rfl
    · exact Bool.false_ne_true

/-- A leaf's path is what looking its symbol up finds. -/
theorem lookup_of_mem_codes {l : List (Byte × List Bool)} (hn : (l.map Prod.fst).Nodup) {c : Byte} {p : List Bool}
    (h : (c, p) ∈ l) : l.lookup c = some p := by
  obtain ⟨a, b, rfl⟩ := List.append_of_mem h
  refine List.lookup_eq_some_iff.2 ⟨a, b, rfl, fun q hq => bne_iff_ne.2 fun he => ?_⟩
  rw [List.map_append, List.map_cons, List.nodup_append'] at hn
  exact hn.2.2 (List.mem_map_of_mem hq) (he ▸ List.mem_cons_self)

/-- A message's bits are its symbols' codes in order. -/
theorem HTree.encode_eq_flatMap {t : HTree} (hn : t.syms.Nodup) {f : Byte → List Bool} {msg : List Byte}
    (h : ∀ c ∈ msg, (c, f c) ∈ t.codes) : t.encode msg = some (msg.flatMap f) := by
  induction msg with
  | nil => rfl
  | cons c cs ih =>
    rw [HTree.encode, lookup_of_mem_codes hn (h c List.mem_cons_self),
      ih fun d hd => h d (List.mem_cons_of_mem c hd)]
    rfl

end Sys2Proof.Machine
end

section
/-! `COMPRESS` (45 R216): the counts of all of `IN`, the codes of their tree, and the file. -/

namespace Sys2Proof.Machine

/-! ## Counting and scaling -/

section Analysed

variable {s : State}

theorem State.analysed_eq (s : State) : s.analysed = { s with
    ft := countBytes s.input, divisor := word (scaleDivisor (countBytes s.input))
    sft := scaledTable (countBytes s.input), nsym := BitVec.ofNat 9 (presentCount (countBytes s.input)), inPos := 0
    status := { s.status with ftValid := true, sftValid := true } } := rfl

theorem State.analysed_unread (s : State) : s.analysed.unread = s.input := rfl

theorem State.analysed_nsym (s : State) : s.analysed.nsym.toNat = presentCount (countBytes s.input) :=
  State.scaled_nsym_toNat _

/-- `NSYM` counts the present symbols of the scaled table. -/
theorem State.analysed_count (s : State) : s.analysed.nsym.toNat = presentCount s.analysed.sft :=
  s.analysed_nsym.trans (presentCount_scaledTable _).symm

variable (hin : s.input.length < 2 ^ 64)
include hin

theorem countBytes_ne_zero {c : Byte} : symAt (countBytes s.input) c ≠ 0 ↔ c ∈ s.input := by
  rw [← List.count_pos_iff, ← symAt_countBytes hin, Nat.pos_iff_ne_zero, ne_eq, ne_eq, ← BitVec.toNat_inj]
  rfl

/-- The present symbols are the bytes of `IN`. -/
theorem State.analysed_present {c : Byte} : symAt s.analysed.sft c ≠ 0 ↔ c ∈ s.input :=
  (not_congr (scaledTable_eq_zero _ c)).trans (countBytes_ne_zero hin)

theorem presentCount_of_all (hall : ∀ c, c ∈ s.input) : presentCount (countBytes s.input) = 256 := by
  have hfilter : (allSymbols.filter fun c => symAt (countBytes s.input) c != 0) = allSymbols :=
    List.filter_eq_self.2 fun c _ => bne_iff_ne.2 ((countBytes_ne_zero hin).2 (hall c))
  rw [presentCount_eq, hfilter, allSymbols_length]

theorem presentCount_of_missing (hmiss : ∃ c, c ∉ s.input) : presentCount (countBytes s.input) ≤ 255 := by
  obtain ⟨c, hc⟩ := hmiss
  have hzero : ¬ (symAt (countBytes s.input) c != 0) = true := by
    rw [bne_iff_ne]
    exact fun h => hc ((countBytes_ne_zero hin).1 h)
  have hlt := List.length_filter_lt_length_iff_exists (p := fun c => symAt (countBytes s.input) c != 0).2
    ⟨c, mem_allSymbols c, hzero⟩
  rw [← presentCount_eq, allSymbols_length] at hlt
  omega

end Analysed

/-- With all 256 byte values in `IN`, `COMPRESS` stops before any output (93 U1). -/
theorem runCompress_of_all {s : State} (hs : s.NoFault) (hin : s.input.length < 2 ^ 64) (hall : ∀ c, c ∈ s.input) :
    runCompress s = .stop (s.analysed.faulted 7 256) := by
  have hn : s.analysed.nsym.toNat = 256 := s.analysed_nsym.trans (presentCount_of_all hin hall)
  have hinfo : s.analysed.nsym.setWidth 64 = word 256 := by rw [← hn, word, BitVec.ofNat_toNat]
  rw [runCompress_eq, decide_eq_false (by omega), require_false, Run.bind_stop, hinfo,
    State.raise_eq_faulted (s := s.analysed) hs]
  rfl

/-- Settles O50: 256 symbols are one too many, found before any output. -/
theorem alphabet256Rejected : Obligations.Alphabet256Rejected := by
  intro s hs hin hall
  exact ⟨_, exec_eq_next (by simp) hs (congrArg Run.state (runCompress_of_all hs hin hall)), rfl⟩

/-! ## The codes -/

/-- The state `TB_FREE` leaves (42 R166). -/
def State.treeFreed (s : State) : State :=
  { s with
    nalloc := 0, root := 0x1FF, hsize := 0, hmax := 0, node := freeArena s.freeCount
    heap := freeTable 9 (s.freeCount + 1) 0, freeCount := s.freeCount + 2
    status := { s.status with heapValid := false } }

theorem runTbFree_eq (s : State) : runTbFree s = .ok () s.treeFreed := rfl

/-- The state the code part of `COMPRESS` leaves when there is no symbol. -/
def State.noCodes (s : State) : State := (s.treeFreed.zeroCodes.setSingle false).setCtValid

/-- What the code part of `COMPRESS` leaves: the codes of the table's tree, none longer than 22 bits, and the tree
released. -/
structure Encoder (s w : State) : Prop where
  frame : w = { s with
    ctPat := w.ctPat, ctLen := w.ctLen, root := 0x1FF, nalloc := 0, hsize := 0, hmax := 0, node := w.node
    heap := w.heap, freeCount := w.freeCount
    status := { s.status with heapValid := false, single := w.status.single, ctValid := true } }
  short : ∀ c, (symAt w.ctLen c).toNat ≤ 22
  present : ∀ c, symAt s.sft c ≠ 0 → symAt w.ctLen c ≠ 0
  single : w.status.single = true ↔ s.nsym = 1
  tree : 1 ≤ s.nsym.toNat → ∃ v tree, Built s v tree ∧ TreeCodes tree w

/-- With `NSYM` the count of a valid scaled table the code part of `COMPRESS` completes. -/
theorem buildCodes_encoder {s : State} (hv : s.status.sftValid = true) (hn : s.nsym.toNat = presentCount s.sft) :
    ∃ w, buildCodes s = .ok () w ∧ Encoder s w := by
  have hone : s.nsym = 1 ↔ s.nsym.toNat = 1 := ⟨fun h => by rw [h]; rfl, fun h => BitVec.eq_of_toNat_eq h⟩
  by_cases h1 : 1 ≤ s.nsym.toNat
  · obtain ⟨v, tree, b⟩ := exists_built hv hn h1
    have hnodup : tree.syms.Nodup := b.syms.nodup_iff.2 (presentSymbols_nodup s.sft)
    obtain ⟨x, hrun, hframe, hcodes, hsingle⟩ := runCgRun_treeCodes b.root b.below.at_ b.depth hnodup
    obtain ⟨_, t, hfill, hbuild⟩ := Run.bind_eq_ok.1 b.run
    refine ⟨x.treeFreed, ?_, ?_, hcodes.short,
      fun c hc => hcodes.present c (b.syms.mem_iff.2 (mem_presentSymbols.2 hc)), ?_,
      fun _ => ⟨v, tree, b, hcodes.congr rfl rfl⟩⟩
    · rw [buildCodes, if_pos h1, hfill, Run.bind_ok, hbuild, Run.bind_ok, hrun, Run.bind_ok, runTbFree_eq]
    · rw [hframe, b.frame]
      rfl
    · rw [hone, hn, presentCount_byte, ← b.syms.length_eq, HTree.syms_length_eq_one_iff, ← hsingle]
      rfl
  · have hnone : presentSymbols s.sft = [] := List.length_eq_zero_iff.1 (by rw [← presentCount_byte]; omega)
    have hlen : ∀ c, symAt s.noCodes.ctLen c = 0 := symAt_replicate 0
    refine ⟨s.noCodes, by rw [buildCodes, if_neg h1]; rfl, rfl, fun c => ?_, fun c hc => ?_,
      iff_of_false Bool.false_ne_true ?_, fun h => absurd h h1⟩
    · rw [hlen]
      exact Nat.zero_le _
    · rw [← mem_presentSymbols, hnone] at hc
      cases hc
    · rw [hone]
      omega

/-! ## The file -/

/-- With `BW_VALID` and room for the used bytes `BW_FLUSH` appends them. -/
theorem runBwFlush_of_fits {s : State} (hv : s.status.bwValid = true)
    (hfits : (s.wbuf.take (ceilDiv s.wpos.toNat 8)).length ≤ s.room) :
    runBwFlush s = .ok () { s with
      output := s.output ++ s.wbuf.take (ceilDiv s.wpos.toNat 8)
      wbuf := List.replicate s.bufBytes.toNat 0, wpos := 0 } := by
  rw [runBwFlush, hv, require_true, Run.bind_ok, outAppend_of_fits hfits, Run.bind_ok]
  rfl

/-- After `bits` were written from an empty writer, the flush and the trailer append them packed and their number. -/
theorem flush_and_trailer {x t : State} {bits : List Bool} {v : List Byte} (h : Wrote x bits t v)
    (hv : t.status.bwValid = true) (hx : x.writerBits = [])
    (hroom : x.output.length + ((bits.length + 7) / 8 + 8) ≤ x.outCap.toNat) :
    ∃ body, Packs body bits ∧ ((runBwFlush t).bind fun _ u => runTrlWrite u) = .ok () { t with
      output := x.output ++ body ++ le64 t.wtotal, wbuf := List.replicate t.bufBytes.toNat 0, wpos := 0 } := by
  have hout : t.output = x.output ++ v := h.output
  have hcap : t.outCap = x.outCap := by rw [h.frame]
  have hbytes := h.length_eq
  have hstream := h.bits_eq
  rw [hx, List.nil_append] at hstream
  rw [hx, List.length_nil, Nat.zero_add] at hbytes
  have hok := h.ok
  obtain ⟨-, hwbuf, hwpos, -, hclean⟩ := hok
  have hused : (t.wbuf.take (ceilDiv t.wpos.toNat 8)).length ≤ (t.wpos.toNat + 7) / 8 := by
    rw [List.length_take, ceilDiv]
    omega
  have hlen := congrArg List.length hout
  rw [List.length_append] at hlen
  have hflush := runBwFlush_of_fits hv (by rw [State.room_eq, hcap]; omega)
  have htrl := runTrlWrite_of_fits (s := { t with
      output := t.output ++ t.wbuf.take (ceilDiv t.wpos.toNat 8)
      wbuf := List.replicate t.bufBytes.toNat 0, wpos := 0 }) hv (by
    rw [List.length_append, hcap]
    omega)
  refine ⟨v ++ t.wbuf.take (ceilDiv t.wpos.toNat 8), (packs_writerBits hclean hwbuf hwpos.le).append_bytes hstream, ?_⟩
  rw [hflush, Run.bind_ok, htrl, ← List.append_assoc x.output, ← hout]

/-- From a started writer `ENC_STREAM` writes the codes of all of `IN`. -/
theorem runEncStream_started {s : State} (hc : s.status.ctValid = true) (h0 : s.bufBytes ≠ 0) (hpos : s.inPos = 0)
    (hin : s.input.length < 2 ^ 64) (hcodes : ∀ c ∈ s.input, symAt s.ctLen c ≠ 0)
    (hcount : (s.input.flatMap s.codeOf).length ≤ 2 ^ 64 - 1)
    (hroom : s.output.length + ((s.input.flatMap s.codeOf).length + 7) / 8 ≤ s.outCap.toNat) :
    ∃ t v, runEncStream s.writerStarted = .ok () t ∧
      Wrote { s.writerStarted with inPos := word s.input.length } (s.input.flatMap s.codeOf) t v := by
  have hzero : s.writerStarted.inPos.toNat = 0 := congrArg BitVec.toNat hpos
  have hunread : s.writerStarted.unread = s.input := by
    rw [State.unread, hzero]
    rfl
  obtain ⟨t, v, henc, hend, hwrote⟩ := encodeBytes_spec s.input (s := s.writerStarted) (State.writerStarted_ok h0) hcodes
    ((Nat.zero_add _).trans_le hcount) (State.writerStarted_roomFor hroom) (by omega)
  have hinPos : t.inPos = word s.input.length :=
    BitVec.eq_of_toNat_eq (by rw [hend, hzero, Nat.zero_add, word_toNat hin])
  rw [hinPos] at hwrote
  exact ⟨t, v, by rw [runEncStream_eq (by exact hc) rfl, hunread, henc], hwrote⟩

/-- With codes for all of `IN` and room in `OUT` the output part of `COMPRESS` appends the container (45 R200). -/
theorem writeFile_container {s : State} (hv : s.status.sftValid = true) (hc : s.status.ctValid = true)
    (h0 : s.bufBytes ≠ 0) (hn : s.nsym.toNat = presentCount s.sft) (h255 : presentCount s.sft ≤ 255)
    (hpos : s.inPos = 0) (hin : s.input.length < 2 ^ 64) (hcodes : ∀ c ∈ s.input, symAt s.ctLen c ≠ 0)
    (hcount : (s.input.flatMap s.codeOf).length ≤ 2 ^ 64 - 1)
    (hroom : s.output.length + (1 + 2 * presentCount s.sft + ((s.input.flatMap s.codeOf).length + 7) / 8 + 8) ≤
      s.outCap.toNat) :
    ∃ t body, writeFile s = .ok () t ∧
      t = { s with
        wbuf := t.wbuf, wpos := 0, wtotal := t.wtotal, inPos := word s.input.length
        output := s.output ++ container s.sft body t.wtotal, status := { s.status with bwValid := true } } ∧
      Packs body (s.input.flatMap s.codeOf) ∧ t.wtotal.toNat = (s.input.flatMap s.codeOf).length := by
  have hheader := headerBytes_length (presentCount s.sft) s.sft
  rw [← presentCount_byte] at hheader
  have hhdr := runHdrWrite_of_fits hv (hn ▸ h255) (by rw [hn, State.room_eq]; omega)
  rw [hn] at hhdr
  have hlen : (s.output ++ headerBytes (presentCount s.sft) s.sft).length =
      s.output.length + (1 + 2 * presentCount s.sft) := by rw [List.length_append, hheader]
  obtain ⟨t, v, henc, hwrote⟩ := runEncStream_started
    (s := { s with output := s.output ++ headerBytes (presentCount s.sft) s.sft }) hc h0 hpos hin hcodes hcount
    (show (s.output ++ headerBytes (presentCount s.sft) s.sft).length + ((s.input.flatMap s.codeOf).length + 7) / 8 ≤
      s.outCap.toNat by rw [hlen]; omega)
  obtain ⟨body, hpacks, hend⟩ := flush_and_trailer hwrote (by rw [hwrote.status]; rfl) rfl
    (show (s.output ++ headerBytes (presentCount s.sft) s.sft).length +
      (((s.input.flatMap s.codeOf).length + 7) / 8 + 8) ≤ s.outCap.toNat by rw [hlen]; omega)
  have htotal : t.wtotal.toNat = (s.input.flatMap s.codeOf).length := hwrote.total.trans (Nat.zero_add _)
  have hfile : s.output ++ headerBytes (presentCount s.sft) s.sft ++ body ++ le64 t.wtotal =
      s.output ++ container s.sft body t.wtotal := by
    rw [container]
    simp only [List.append_assoc]
  refine ⟨{ t with
      output := s.output ++ container s.sft body t.wtotal, wbuf := List.replicate t.bufBytes.toNat 0, wpos := 0 },
    body, ?_, ?_, hpacks, htotal⟩
  · rw [writeFile, hhdr, Run.bind_ok, runBwInit_eq, Run.bind_ok, henc, Run.bind_ok, hend, ← hfile]
    rfl
  · rw [hwrote.frame]
    rfl

/-! ## The whole operation -/

/-- The bits of a message number its bytes' code lengths, byte value by byte value. -/
theorem length_flatMap_eq_sum (f : Byte → List Bool) (msg : List Byte) :
    (msg.flatMap f).length = (allSymbols.map fun c => msg.count c * (f c).length).sum := by
  calc (msg.flatMap f).length = (msg.map fun c => (f c).length).sum := List.length_flatMap
    _ = ∑ c ∈ msg.toFinset, msg.count c • (f c).length := Finset.sum_list_map_count msg _
    _ = ∑ c ∈ allSymbols.toFinset, msg.count c * (f c).length :=
      Finset.sum_subset (fun c _ => List.mem_toFinset.2 (mem_allSymbols c)) fun c _ hc => by
        rw [List.count_eq_zero_of_not_mem (fun h => hc (List.mem_toFinset.2 h)), zero_smul]
    _ = _ := List.sum_toFinset _ allSymbols_nodup

theorem State.codeOf_length (s : State) (c : Byte) : (s.codeOf c).length = (symAt s.ctLen c).toNat :=
  codeBits_length _ _

/-- With codes of at most 22 bits a message's bits are at most 22 times its bytes. -/
theorem Encoder.bits_le {s w : State} (e : Encoder s w) (msg : List Byte) :
    (msg.flatMap w.codeOf).length ≤ 22 * msg.length := by
  have hsum : (msg.map fun c => (w.codeOf c).length).sum ≤ (msg.map fun c => (w.codeOf c).length).length • 22 := by
    refine List.sum_le_card_nsmul _ _ fun n hn => ?_
    obtain ⟨c, -, rfl⟩ := List.mem_map.1 hn
    rw [w.codeOf_length]
    exact e.short c
  rw [List.length_map, smul_eq_mul] at hsum
  rw [List.length_flatMap]
  omega

/-- What `COMPRESS` leaves of an input that lacks some byte value: its container, the end state of 45 R216, and the
codes it used. -/
structure Compressed (s t : State) (body : List Byte) : Prop where
  frame : t = { s.analysed with
    ctPat := t.ctPat, ctLen := t.ctLen, root := 0x1FF, nalloc := 0, hsize := 0, hmax := 0, node := t.node
    heap := t.heap, freeCount := t.freeCount, wbuf := t.wbuf, wpos := 0, wtotal := t.wtotal
    inPos := word s.input.length, output := s.output ++ container s.analysed.sft body t.wtotal
    status := { s.analysed.status with
      heapValid := false, single := t.status.single, ctValid := true, bwValid := true } }
  packs : Packs body (s.input.flatMap t.codeOf)
  total : t.wtotal.toNat = (s.input.flatMap t.codeOf).length
  bits_le : (s.input.flatMap t.codeOf).length ≤ 22 * s.input.length
  single : t.status.single = true ↔ s.analysed.nsym = 1
  tree : 1 ≤ s.analysed.nsym.toNat → ∃ v tree, Built s.analysed v tree ∧ TreeCodes tree t

/-- `COMPRESS` of an input that lacks some byte value completes where `OUT` has room. -/
theorem runCompress_compressed {s : State} (h0 : s.bufBytes ≠ 0) (hmiss : ∃ c, c ∉ s.input)
    (hlen : 22 * s.input.length < 2 ^ 64)
    (hroom : s.output.length + (9 + 2 * presentCount s.analysed.sft + 3 * s.input.length) ≤ s.outCap.toNat) :
    ∃ t body, runCompress s = .ok () t ∧ Compressed s t body := by
  have hin : s.input.length < 2 ^ 64 := by omega
  have hn := s.analysed_count
  have h255 : presentCount s.analysed.sft ≤ 255 := hn ▸ s.analysed_nsym ▸ presentCount_of_missing hin hmiss
  obtain ⟨w, hbuild, e⟩ := buildCodes_encoder (s := s.analysed) rfl hn
  have hbits := e.bits_le s.input
  have hinput : w.input = s.input := by rw [e.frame]; rfl
  have hsft : w.sft = s.analysed.sft := by rw [e.frame]
  obtain ⟨t, body, hwrite, hframe, hpacks, htotal⟩ := writeFile_container (s := w) (by rw [e.frame]; rfl)
    (by rw [e.frame]) (by rw [e.frame]; exact h0) (by rw [e.frame]; exact hn) (by rw [hsft]; exact h255)
    (by rw [e.frame]; rfl) (by rw [hinput]; exact hin)
    (by rw [hinput]; exact fun c hc => e.present c ((State.analysed_present hin).2 hc))
    (by rw [hinput]; omega)
    (by rw [hsft, hinput, show w.output = s.output by rw [e.frame]; rfl, show w.outCap = s.outCap by rw [e.frame]; rfl]
        omega)
  rw [hinput] at hpacks htotal
  have hpat : t.ctPat = w.ctPat := by rw [hframe]
  have hctLen : t.ctLen = w.ctLen := by rw [hframe]
  have hcode : t.codeOf = w.codeOf := by
    funext c
    rw [State.codeOf, State.codeOf, hpat, hctLen]
  have hsingle : t.status.single = w.status.single := by rw [hframe]
  refine ⟨t, body, ?_, ?_, hcode ▸ hpacks, hcode ▸ htotal, hcode ▸ hbits, hsingle ▸ e.single, fun h1 => ?_⟩
  · rw [runCompress_eq, decide_eq_true (by omega), require_true, Run.bind_ok, hbuild, Run.bind_ok, hwrite]
  · rw [hframe, hinput, hsft, e.frame]
    rfl
  · obtain ⟨v, tree, b, hcodes⟩ := e.tree h1
    exact ⟨v, tree, b, hcodes.congr hpat hctLen⟩

/-- Settles O46: the end state of a completed `COMPRESS`, read off its parts. -/
theorem compressResult : Obligations.CompressResult := by
  intro s hs h0 hmiss hlen hroom
  have hin : s.input.length < 2 ^ 64 := by omega
  have h255 := presentCount_of_missing hin hmiss
  rw [← s.analysed_nsym, s.analysed_count] at h255
  obtain ⟨t, body, hrun, c⟩ := runCompress_compressed h0 hmiss hlen (by omega)
  have hnsym : t.nsym = s.analysed.nsym := by rw [c.frame]
  have hsft : t.sft = s.analysed.sft := by rw [c.frame]
  have hft : t.ft = countBytes s.input := by rw [c.frame]; rfl
  refine ⟨t, body, exec_eq_next (by simp) hs (congrArg Run.state hrun), ?_, c.packs, c.total, ?_, fun x => ?_, ?_, ?_⟩
  · have hfile : headerBytes t.nsym.toNat t.sft ++ body ++ le64 t.wtotal =
        container s.analysed.sft body t.wtotal := by
      rw [hnsym, hsft, s.analysed_count, container]
    rw [hfile]
    conv_lhs => rw [c.frame]
    rw [hft, hsft, hnsym, show t.divisor = s.analysed.divisor by rw [c.frame]]
    rfl
  · rw [c.total, length_flatMap_eq_sum]
    simp only [State.codeOf_length]
  · rw [hft, symAt_countBytes hin]
  · rw [hnsym, hsft, s.analysed_count]
  · rw [c.single, hnsym]

end Sys2Proof.Machine
end

section
/-! `DECOMPRESS` (45 R217): small containers, and the round trip of 45 R218. -/

namespace Sys2Proof.Machine

/-! ## The decoder's start -/

/-- The bytes between the pairs and the trailer (45 R200). -/
def bitstreamRegion (file : List Byte) : List Byte :=
  (file.drop (1 + 2 * countField file)).take (file.length - 9 - 2 * countField file)

theorem bitstreamRegion_length {file : List Byte} (h : ContainerOk file) :
    (bitstreamRegion file).length = file.length - 9 - 2 * countField file := by
  obtain ⟨hlen, -⟩ := h
  rw [bitstreamRegion, List.length_take, List.length_drop]
  omega

theorem bitstreamRegion_container (sft : Vector Byte 256) (body : List Byte) (total : Word64)
    (hn : presentCount sft ≤ 255) : bitstreamRegion (container sft body total) = body := by
  have hlen : (container sft body total).length - 9 - 2 * presentCount sft = body.length := by
    rw [container_length]
    omega
  rw [bitstreamRegion, countField_container _ _ _ hn, hlen, drop_container, List.take_left]

/-- `d` is ready to decode the container of `u` from its first bit. -/
structure ReadyToDecode (u d : State) : Prop where
  noFault : d.NoFault
  header : d.status.hdrValid = true
  started : d.status.brValid = true
  reader : d.ReaderOk
  buffer : d.obuf.length = d.bufBytes.toNat
  total : d.totalBits.toNat = trailerField u.input
  zero : d.rtotal.toNat = 0
  output : d.output = u.output
  outCap : d.outCap = u.outCap
  bits : d.readerBits = streamBits (bitstreamRegion u.input)

section Ready

variable {u : State} (hu : u.NoFault) (h0 : u.bufBytes ≠ 0) (hrbuf : u.rbuf.length = u.bufBytes.toNat)
  (hobuf : u.obuf.length = u.bufBytes.toNat) (hin : u.input.length < 2 ^ 64)
  (hlen : 1 + 2 * countField u.input + 8 ≤ u.input.length)
include hu h0 hrbuf hobuf hin hlen

/-- After `HDR_READ` and the tree part, whatever they left in the arena and the heap, the reader starts at the first bit
of the bitstream. -/
theorem readyToDecode {sft : Vector Byte 256} {v : State}
    (hv : v = { u.headerRead sft with
      node := v.node, nalloc := v.nalloc, root := v.root, heap := v.heap, hsize := v.hsize, hmax := v.hmax
      status := v.status, freeCount := v.freeCount })
    (hstatus : v.status = { (u.headerRead sft).status with heapValid := v.status.heapValid }) :
    ReadyToDecode u (v.initReader v.bitstreamLimit) := by
  have hbuf : v.bufBytes = u.bufBytes := by rw [hv]; rfl
  have hinput : v.input = u.input := by rw [hv]; rfl
  have hpos : v.inPos.toNat = 1 + 2 * countField u.input := by
    rw [hv]
    exact u.headerRead_inPos sft
  have hlimit : v.bitstreamLimit.toNat = u.input.length - 9 - 2 * countField u.input := by
    rw [State.bitstreamLimit, hpos, hinput, word_toNat (by omega)]
    omega
  exact {
    noFault := by rw [State.NoFault, State.initReader_status, hstatus]; exact hu
    header := by rw [State.initReader_status, hstatus]; rfl
    started := rfl
    reader := initReader_ok _ (hbuf ▸ h0) (by rw [hbuf, hv]; exact hrbuf) (hinput ▸ hin)
    buffer := by rw [State.initReader_bufBytes, hbuf, hv]; exact hobuf
    total := by rw [hv]; exact u.headerRead_totalBits sft
    zero := rfl
    output := by rw [hv]; rfl
    outCap := by rw [hv]; rfl
    bits := by rw [initReader_readerBits, State.unread, hpos, hlimit, hinput, bitstreamRegion] }

/-- The reader behind a tree that was built is ready, and the tree stays under the root. -/
theorem Built.ready {sft : Vector Byte 256} {v : State} {tree : HTree} (b : Built (u.headerRead sft) v tree) :
    ReadyToDecode u (v.initReader v.bitstreamLimit) := by
  refine readyToDecode hu h0 hrbuf hobuf hin hlen (sft := sft) (v := v) ?_ ?_
  all_goals rw [b.frame]

end Ready

/-! ## `DECOMPRESS` with a tree and without -/

/-- `DECOMPRESS` of a container with symbols appends what `DEC_STREAM` does. -/
theorem exec_decompress_of_decStream {u v t : State} {sft : Vector Byte 256} {tree : HTree} (hu : u.NoFault)
    (hread : runHdrRead u = .ok () (u.headerRead sft)) (h1 : 1 ≤ countField u.input)
    (b : Built (u.headerRead sft) v tree) (hready : ReadyToDecode u (v.initReader v.bitstreamLimit))
    (hdec : exec .decStream (v.initReader v.bitstreamLimit) = .next t) (ht : t.NoFault) :
    ∃ x, exec .decompress u = .next x ∧ x.NoFault ∧ x.output = t.output := by
  have hrun : runDecStream (v.initReader v.bitstreamLimit) = .ok () t :=
    procOf_eq_ok (i := .decStream) (by simp) hready.noFault ht hdec
  have hbuild : rebuildTree (u.headerRead sft) = .ok () v := by
    rw [rebuildTree, if_pos (by rw [u.headerRead_nsym]; exact h1)]
    exact b.run
  refine ⟨t.treeFreed, exec_eq_next (by simp) hu ?_, ht, rfl⟩
  rw [procOf, runDecompress_eq, hread, Run.bind_ok, hbuild, Run.bind_ok, runAll, procOf, hrun]
  rfl

/-- `DECOMPRESS` of a container without symbols appends nothing. -/
theorem exec_decompress_empty {u : State} {sft : Vector Byte 256} (hu : u.NoFault) (h0 : u.bufBytes ≠ 0)
    (hrbuf : u.rbuf.length = u.bufBytes.toNat) (hobuf : u.obuf.length = u.bufBytes.toNat)
    (hin : u.input.length < 2 ^ 64) (hlen : 1 + 2 * countField u.input + 8 ≤ u.input.length)
    (hread : runHdrRead u = .ok () (u.headerRead sft)) (hn : countField u.input = 0)
    (htotal : trailerField u.input = 0) : ∃ x, exec .decompress u = .next x ∧ x.NoFault ∧ x.output = u.output := by
  have hbuild : rebuildTree (u.headerRead sft) = .ok () (u.headerRead sft).treeFreed := by
    rw [rebuildTree, if_neg (by rw [u.headerRead_nsym]; omega), runTbFree_eq]
  generalize hv : (u.headerRead sft).treeFreed = v at hbuild
  have hready : ReadyToDecode u (v.initReader v.bitstreamLimit) := by
    refine readyToDecode hu h0 hrbuf hobuf hin hlen (sft := sft) (v := v) ?_ ?_
    all_goals rw [← hv]; rfl
  have hzero : (v.initReader v.bitstreamLimit).totalBits = 0 :=
    BitVec.eq_of_toNat_eq (hready.total.trans htotal)
  obtain ⟨hnone, -⟩ := decStreamResult _ (.leaf 0) hready.noFault hready.header hready.started hready.reader hready.buffer
  have hdec := hnone (by rw [hzero]; exact Nat.zero_le _) (.inl hzero)
  have hrun := procOf_eq_ok (i := .decStream) (by simp) hready.noFault (by exact hready.noFault) hdec
  refine ⟨State.treeFreed { v.initReader v.bitstreamLimit with olen := 0 }, exec_eq_next (by simp) hu ?_,
    hready.noFault, hready.output⟩
  rw [procOf, runDecompress_eq, hread, Run.bind_ok, hbuild, Run.bind_ok, runAll, hrun]
  rfl

/-- `DECOMPRESS` of a container of one symbol appends that symbol once per declared bit (43 R173). -/
theorem exec_decompress_leaf {u v : State} {sft : Vector Byte 256} {c : Byte} (hu : u.NoFault)
    (hread : runHdrRead u = .ok () (u.headerRead sft)) (h1 : 1 ≤ countField u.input)
    (b : Built (u.headerRead sft) v (.leaf c)) (hready : ReadyToDecode u (v.initReader v.bitstreamLimit))
    (hbits : trailerField u.input ≤ 8 * (bitstreamRegion u.input).length)
    (hroom : u.output.length + trailerField u.input ≤ u.outCap.toNat) :
    ∃ x, exec .decompress u = .next x ∧ x.NoFault ∧
      x.output = u.output ++ List.replicate (trailerField u.input) c := by
  obtain ⟨-, htree⟩ := decStreamResult _ (.leaf c) hready.noFault hready.header hready.started hready.reader
    hready.buffer
  obtain ⟨hleaf, -⟩ := htree b.root b.below.at_
  obtain ⟨t, hdec, hframe, -⟩ := hleaf c (trailerField u.input) rfl (by rw [hready.total, hready.zero, Nat.zero_add])
    (by rw [hready.bits, streamBits_length]; exact hbits) (by rw [hready.output, hready.outCap]; exact hroom)
  obtain ⟨x, hx, hclear, hout⟩ := exec_decompress_of_decStream hu hread h1 b hready hdec
    (by rw [hframe]; exact hready.noFault)
  exact ⟨x, hx, hclear, by rw [hout, hframe, hready.output]⟩

/-- `DECOMPRESS` of a container whose bitstream begins with the codes of a message, and declares their number, appends
the message. -/
theorem exec_decompress_node {u v : State} {sft : Vector Byte 256} {l r : HTree} {msg : List Byte} {bits : List Bool}
    (hu : u.NoFault) (hread : runHdrRead u = .ok () (u.headerRead sft)) (h1 : 1 ≤ countField u.input)
    (b : Built (u.headerRead sft) v (.node l r)) (hready : ReadyToDecode u (v.initReader v.bitstreamLimit))
    (henc : (HTree.node l r).encode msg = some bits) (hcount : trailerField u.input = bits.length)
    (hbits : bits <+: streamBits (bitstreamRegion u.input)) (hroom : u.output.length + msg.length ≤ u.outCap.toNat) :
    ∃ x, exec .decompress u = .next x ∧ x.NoFault ∧ x.output = u.output ++ msg := by
  obtain ⟨-, htree⟩ := decStreamResult _ (.node l r) hready.noFault hready.header hready.started hready.reader
    hready.buffer
  obtain ⟨-, hnode⟩ := htree b.root b.below.at_
  obtain ⟨t, hdec, hframe, -⟩ := hnode l r msg bits rfl henc
    (by rw [hready.total, hready.zero, Nat.zero_add, hcount]) (by rw [hready.bits]; exact hbits)
    (by rw [hready.output, hready.outCap]; exact hroom)
  obtain ⟨x, hx, hclear, hout⟩ := exec_decompress_of_decStream hu hread h1 b hready hdec
    (by rw [hframe]; exact hready.noFault)
  exact ⟨x, hx, hclear, by rw [hout, hframe, hready.output]⟩

/-! ## Small containers (45 R202) -/

/-- The count of an accepted container is the number of present symbols of its table. -/
theorem presentCount_of_runHdrRead {u : State} {sft : Vector Byte 256} (hread : runHdrRead u = .ok () (u.headerRead sft)) :
    (u.headerRead sft).nsym.toNat = presentCount (u.headerRead sft).sft := by
  have htable := runHdrRead_table u
  rw [hread] at htable
  exact htable rfl

/-- An accepted container of one symbol is one of a tree of one leaf. -/
theorem Built.eq_leaf {u v : State} {sft : Vector Byte 256} {tree : HTree} (b : Built (u.headerRead sft) v tree)
    (h : HoldsPairs u.input sft) (hread : runHdrRead u = .ok () (u.headerRead sft)) (hone : countField u.input = 1)
    (hfreq : pairFreq u.input 0 ≠ 0) : tree = .leaf (pairSym u.input 0) := by
  have hlen : tree.syms.length = 1 := by
    rw [b.syms.length_eq, ← presentCount_byte, ← presentCount_of_runHdrRead hread, u.headerRead_nsym, hone]
  obtain ⟨c, rfl⟩ := HTree.syms_length_eq_one_iff.1 hlen
  have hpresent : pairSym u.input 0 ∈ presentSymbols sft :=
    mem_presentSymbols.2 (by rw [h.pair 0 (by omega)]; exact hfreq)
  have hmem := b.syms.mem_iff.2 hpresent
  rw [HTree.syms_leaf, List.mem_singleton] at hmem
  rw [hmem]

theorem presentCount_countBytes_nil : presentCount (countBytes []) = 0 := by
  rw [countBytes, List.foldl_nil, presentCount, Vector.toList_replicate, List.countP_replicate]
  rfl

/-- The container of the empty input is nine zero bytes. -/
theorem container_of_empty {sft : Vector Byte 256} {body : List Byte} {total : Word64} (hn : presentCount sft = 0)
    (hbody : body = []) (htotal : total = 0) : container sft body total = List.replicate 9 0 := by
  have hnone : presentSymbols sft = [] := List.length_eq_zero_iff.1 (by rw [← presentCount_byte, hn])
  rw [container, headerBytes, hnone, hn, hbody, htotal]
  rfl

/-- Settles O49: no symbol gives no bits, one symbol a tree of one leaf. -/
theorem smallContainers : Obligations.SmallContainers := by
  intro s hs h0
  refine ⟨fun hempty hroom => ?_, fun hfile hin hrbuf hobuf => ?_⟩
  · have hnsym : s.analysed.nsym = 0 := BitVec.eq_of_toNat_eq
      (by rw [s.analysed_nsym, hempty, presentCount_countBytes_nil]; rfl)
    have hcount : presentCount s.analysed.sft = 0 := by rw [← s.analysed_count, hnsym]; rfl
    obtain ⟨t, body, hrun, c⟩ := runCompress_compressed h0 ⟨0, by simp [hempty]⟩ (by rw [hempty]; simp)
      (by rw [hcount, hempty]; exact hroom)
    have htotal : t.wtotal.toNat = 0 := by rw [c.total, hempty]; rfl
    obtain ⟨hbody, -⟩ := c.packs
    rw [← c.total, htotal] at hbody
    refine ⟨t, exec_eq_next (by simp) hs (congrArg Run.state hrun), by rw [c.frame]; exact hs, ?_,
      by rw [c.frame]; exact hnsym⟩
    rw [← container_of_empty hcount (List.length_eq_zero_iff.1 hbody) (BitVec.eq_of_toNat_eq htotal)]
    rw [c.frame]
  · obtain ⟨sft, hread, hpairs⟩ := runHdrRead_of_containerOk hfile
    have hregion := bitstreamRegion_length hfile
    obtain ⟨hlen, ⟨hfreq, -⟩, htotal, hzero⟩ := hfile
    refine ⟨fun hn => exec_decompress_empty hs h0 hrbuf hobuf hin hlen hread hn ?_, fun hone hroom => ?_⟩
    · exact hzero.resolve_left (not_not.2 hn)
    · obtain ⟨v, tree, b⟩ := exists_built (s := s.headerRead sft) rfl (presentCount_of_runHdrRead hread)
        (by rw [s.headerRead_nsym, hone])
      obtain rfl := b.eq_leaf hpairs hread hone (hfreq 0 (by omega))
      refine exec_decompress_leaf hs hread hone.ge b (b.ready hs h0 hrbuf hobuf hin hlen) ?_ hroom
      rw [hregion]
      rw [ceilDiv] at htotal
      omega

/-! ## The round trip (45 R218) -/

/-- Only the empty input has no symbols. -/
theorem State.input_eq_nil {s : State} (hin : s.input.length < 2 ^ 64) (hn : presentCount s.analysed.sft = 0) :
    s.input = [] := by
  have hnone : presentSymbols s.analysed.sft = [] := List.length_eq_zero_iff.1 (by rw [← presentCount_byte, hn])
  refine List.eq_nil_iff_forall_not_mem.2 fun x hx => ?_
  have hmem := mem_presentSymbols.2 ((State.analysed_present hin).2 hx)
  rw [hnone] at hmem
  cases hmem

/-- Over a tree of one leaf the input repeats its symbol, with one bit for each byte. -/
theorem Built.input_eq_replicate {s t v : State} {x : Byte} (b : Built s.analysed v (.leaf x))
    (hin : s.input.length < 2 ^ 64) (hcode : t.codeOf x = [false]) :
    s.input = List.replicate s.input.length x ∧ (s.input.flatMap t.codeOf).length = s.input.length := by
  have hall : s.input = List.replicate s.input.length x := List.eq_replicate_iff.2 ⟨rfl, fun y hy => by
    have hmem := b.syms.mem_iff.2 (mem_presentSymbols.2 ((State.analysed_present hin).2 hy))
    rwa [HTree.syms_leaf, List.mem_singleton] at hmem⟩
  refine ⟨hall, ?_⟩
  rw [hall, List.flatMap_replicate, hcode]
  simp

section RoundTrip

variable {s t : State} {body : List Byte} (c : Compressed s t body)
include c

theorem Compressed.output : t.output = s.output ++ container s.analysed.sft body t.wtotal := by rw [c.frame]

/-- Compressor and decompressor build the same tree: `NSYM` and `SFT` are the same on both sides. -/
theorem Compressed.exists_common_tree {u : State} (hcount : countField u.input = presentCount s.analysed.sft)
    (hn : presentCount s.analysed.sft ≠ 0) (hread : runHdrRead u = .ok () (u.headerRead s.analysed.sft)) :
    ∃ v v' tree, Built s.analysed v tree ∧ TreeCodes tree t ∧ Built (u.headerRead s.analysed.sft) v' tree := by
  have hnsym : s.analysed.nsym = (u.headerRead s.analysed.sft).nsym :=
    BitVec.eq_of_toNat_eq (by rw [u.headerRead_nsym, hcount, s.analysed_count])
  obtain ⟨v, tree, b, hcodes⟩ := c.tree (by rw [s.analysed_count]; omega)
  obtain ⟨v', tree', b'⟩ := exists_built (s := u.headerRead s.analysed.sft) rfl (presentCount_of_runHdrRead hread)
    (by rw [u.headerRead_nsym]; omega)
  obtain rfl := b.unique b' rfl rfl rfl hnsym (by rw [s.analysed_count]; exact presentCount_le _)
  exact ⟨v, v', tree, b, hcodes, b'⟩

variable (hlen : 22 * s.input.length < 2 ^ 64) (h255 : presentCount s.analysed.sft ≤ 255)
include hlen h255

/-- The file is shorter than any stream's limit. -/
theorem Compressed.file_length : (container s.analysed.sft body t.wtotal).length < 2 ^ 64 := by
  obtain ⟨hbody, -⟩ := c.packs
  have hbits := c.bits_le
  rw [container_length, hbody, ceilDiv]
  omega

/-- `DECOMPRESS` gives back what was compressed. -/
theorem Compressed.exec_decompress {u : State} (hu : u.NoFault) (h0 : u.bufBytes ≠ 0)
    (hrbuf : u.rbuf.length = u.bufBytes.toNat) (hobuf : u.obuf.length = u.bufBytes.toNat)
    (hfile : u.input = container s.analysed.sft body t.wtotal)
    (hroom : u.output.length + s.input.length ≤ u.outCap.toNat) :
    ∃ x, exec .decompress u = .next x ∧ x.NoFault ∧ x.output = u.output ++ s.input := by
  have hcount : countField u.input = presentCount s.analysed.sft := by rw [hfile, countField_container _ _ _ h255]
  have htrailer : trailerField u.input = (s.input.flatMap t.codeOf).length := by
    rw [hfile, trailerField_container, c.total]
  have hregion : bitstreamRegion u.input = body := by rw [hfile, bitstreamRegion_container _ _ _ h255]
  obtain ⟨hbody, hstream⟩ := c.packs
  have hin : u.input.length < 2 ^ 64 := by rw [hfile]; exact c.file_length hlen h255
  have hfileLen : 1 + 2 * countField u.input + 8 ≤ u.input.length := by
    rw [hcount, hfile, container_length]
    omega
  have hempty : presentCount s.analysed.sft = 0 → (s.input.flatMap t.codeOf).length = 0 := fun hn => by
    rw [State.input_eq_nil (by omega) hn]
    rfl
  have hread := runHdrRead_container s.analysed.sft body t.wtotal h255 hfile (by rw [c.total, hbody])
    (by rw [c.total]; exact (Nat.eq_zero_or_pos _).symm.imp Nat.ne_of_gt hempty)
  by_cases hn : presentCount s.analysed.sft = 0
  · obtain ⟨x, hx, hclear, hout⟩ := exec_decompress_empty hu h0 hrbuf hobuf hin hfileLen hread (hcount.trans hn)
      (htrailer.trans (hempty hn))
    exact ⟨x, hx, hclear, by rw [hout, State.input_eq_nil (by omega) hn, List.append_nil]⟩
  have h1 : 1 ≤ countField u.input := by omega
  obtain ⟨v, v', tree, b, hcodes, b'⟩ := c.exists_common_tree hcount hn hread
  have hready := b'.ready hu h0 hrbuf hobuf hin hfileLen
  cases tree with
  | leaf x =>
    obtain ⟨hall, hbits⟩ := b.input_eq_replicate (by omega) (hcodes.leaf x rfl)
    rw [hbits] at htrailer
    obtain ⟨x', hx', hclear, hout⟩ := exec_decompress_leaf hu hread h1 b' hready
      (by rw [htrailer, hregion, hbody, hbits, ceilDiv]; omega) (by rw [htrailer]; exact hroom)
    rw [htrailer, ← hall] at hout
    exact ⟨x', hx', hclear, hout⟩
  | node l r =>
    have hnodup := b.syms.nodup_iff.2 (presentSymbols_nodup s.analysed.sft)
    have henc := HTree.encode_eq_flatMap hnodup fun x hx => hcodes.node l r rfl x
      (b.syms.mem_iff.2 (mem_presentSymbols.2 ((State.analysed_present (by omega)).2 hx)))
    exact exec_decompress_node hu hread h1 b' hready henc htrailer (by rw [hregion, hstream]; exact List.prefix_append _ _)
      hroom

end RoundTrip

/-- Settles O48: with a byte value missing the file is the input's container, which decodes to the input; with none
missing there is no file. -/
theorem roundTrip : Obligations.RoundTrip := by
  intro s hs h0 hout
  refine ⟨fun hall hin => ?_, fun hmiss hlen hroom => ?_⟩
  · exact ⟨_, exec_eq_next (by simp) hs (congrArg Run.state (runCompress_of_all hs hin hall)), rfl, rfl, hout⟩
  · have h255 := presentCount_of_missing (by omega) hmiss
    rw [← s.analysed_nsym, s.analysed_count] at h255
    obtain ⟨t, body, hrun, c⟩ := runCompress_compressed h0 hmiss hlen (by rw [hout, List.length_nil]; omega)
    refine ⟨t, exec_eq_next (by simp) hs (congrArg Run.state hrun), by rw [c.frame]; exact hs,
      fun u hu hu0 hrbuf hobuf huout hfile hcap => ?_⟩
    have hfile : u.input = container s.analysed.sft body t.wtotal := by rw [hfile, c.output, hout, List.nil_append]
    obtain ⟨x, hx, hclear, hxout⟩ := c.exec_decompress hlen h255 hu hu0 hrbuf hobuf hfile
      (by rw [huout, List.length_nil, Nat.zero_add]; exact hcap)
    exact ⟨x, hx, hclear, by rw [hxout, huout, List.nil_append]⟩

end Sys2Proof.Machine
end

section
/-! The system family (46 R231, R232): what `NOP` and `CLR` leave. -/

namespace Sys2Proof.Machine

/-! ## `NOP` (46 R231) -/

/-- Settles O13: under the sticky gate or past it, `NOP` leaves the state as it is. -/
theorem nopResult : Obligations.NopResult := by
  refine ⟨decode_eq_ok_iff.2 ⟨rfl, rfl⟩, fun s => ?_⟩
  cases hs : s.status.fault with
  | true => exact command_of_fault hs runNop
  | false => exact command_of_noFault hs runNop

/-! ## `CLR` (46 R232) -/

/-- With no table valid and nothing allocated every table entry reads as a draw of its width (10 R52). -/
theorem regRead_tables_of_invalid {t : State} (hstatus : t.status = Status.zero) (hnalloc : t.nalloc = 0) :
    (∀ c : Byte, ∀ p ∈ ([(0x0100, 64), (0x0200, 8), (0x0300, 64), (0x0400, 8), (0x0500, 9)] : List (RegNum × Nat)),
      t.regRead (p.1 + c.setWidth 16) = t.drawn p.2) ∧
    ∀ h : Handle, h.toNat ≤ 510 →
      t.regRead (0x0800 + h.setWidth 16) = t.drawn 64 ∧ t.regRead (0x0A00 + h.setWidth 16) = t.drawn 26 := by
  obtain ⟨hbyte, hnode⟩ := portReadTables t (congrArg Status.fault hstatus)
  simp only [hstatus, hnalloc, Status.zero] at hbyte hnode
  refine ⟨fun c p hp => ?_, fun h hh => ?_⟩
  · obtain ⟨hft, hsft, hpat, hlen, hheap⟩ := hbyte c
    fin_cases hp
    · exact hft
    · exact hsft
    · exact hpat
    · exact hlen
    · exact hheap.trans (if_neg fun hv => Bool.false_ne_true hv.1)
  · obtain ⟨hw, hlinks⟩ := hnode h hh
    exact ⟨hw.trans (if_neg (Nat.not_lt_zero _)), hlinks.trans (if_neg (Nat.not_lt_zero _))⟩

/-- The items `CLR` leaves unchanged, and the model's own fields, in a state otherwise that of reset. -/
def State.keptByClear (s : State) : State :=
  { State.reset with
    arg0 := s.arg0, inPos := s.inPos, outCap := s.outCap, input := s.input, output := s.output, bufBytes := s.bufBytes
    pending := s.pending, portOut := s.portOut, freeCount := s.freeCount }

/-- `State.clear` reads nothing but what it keeps. -/
theorem State.clear_eq_keptByClear_clear (s : State) : s.clear = s.keptByClear.clear := rfl

/-- Settles O12: `CLR` leaves `State.clear`, which has no table valid and nothing allocated, and is a function of the
items it keeps. -/
theorem clrResult : Obligations.ClrResult := by
  refine ⟨decode_eq_ok_iff.2 ⟨rfl, rfl⟩, fun s => ?_⟩
  obtain ⟨hbytes, hnodes⟩ := regRead_tables_of_invalid s.clear_status s.clear_nalloc
  refine ⟨s.clear, rfl, s.clear_status, ⟨rfl, rfl, rfl, rfl, rfl, rfl⟩, ⟨rfl, rfl, rfl, rfl⟩,
    ⟨rfl, rfl, rfl, rfl, rfl, rfl, rfl⟩, ⟨rfl, rfl, rfl, rfl, rfl, rfl⟩, hbytes, hnodes,
    fun s' harg0 hinPos houtCap hinput houtput hbufBytes hpending hportOut hfreeCount => ?_⟩
  have hkept : s'.keptByClear = s.keptByClear := by
    rw [State.keptByClear, harg0, hinPos, houtCap, hinput, houtput, hbufBytes, hpending, hportOut, hfreeCount]
    rfl
  have hclear : s'.clear = s.clear := by
    rw [s'.clear_eq_keptByClear_clear, hkept, ← s.clear_eq_keptByClear_clear]
  exact congrArg Host.Outcome.next hclear

end Sys2Proof.Machine
end

section
/-! The gate and the step (10 R26, R51, 20 R96, 60 R241, R243, 70 R296): what a recorded fault lets the host change, and
which steps answer. -/

namespace Sys2Proof.Machine

/-! ## The gate (60 R243) -/

/-- The word 0x00000001 is that of `CLR`, which the gate lets pass (46 R232). -/
theorem runWord_clr (s : State) : runWord 0x00000001 s = .next s.clear := by
  have hword : decode 0x00000001 = .ok .clr := decode_eq_ok_iff.2 ⟨rfl, rfl⟩
  rw [runWord, hword]
  rfl

section Gate

variable {s t : State} (hs : s.status.fault = true)
include hs

/-- While a fault is recorded a word other than that of `CLR` changes nothing: another command is ignored, and an
illegal word is ignored or its `raise` keeps the first record. -/
theorem runWord_of_fault {w : Word32} (hw : w ≠ 0x00000001) : runWord w s = .next s := by
  unfold runWord
  split
  next i hi =>
    have hne : i ≠ .clr := by
      rintro rfl
      exact hw (decode_eq_ok_iff.1 hi).1.symm
    rw [exec_eq_command hne, command_of_fault hs]
  next =>
    rw [illegalWord_eq_next, State.raise_of_fault hs, ite_self]

/-- Only `CLR` and reset remove a fault. -/
theorem clr_or_reset_of_noFault {a : HostAction} (ha : perform a s = .next t) (ht : t.NoFault) :
    a = .reset ∨ ∃ v : Word64, a = .regWrite 0x0000 v ∧ v.setWidth 32 = 0x00000001#32 := by
  have keeps : t.status = s.status → False := fun h => by
    rw [State.NoFault, h, hs] at ht
    cases ht
  cases a with
  | reset => exact .inl rfl
  | discardOut => exact (keeps (by rw [← Host.Outcome.next.inj ha]; rfl)).elim
  | regRead n =>
    obtain ⟨v, k, -, hread⟩ := regRead_frame n s
    exact (keeps (by rw [← Host.Outcome.next.inj ha, hread])).elim
  | replaceIn bytes =>
    simp only [perform, replaceInput] at ha
    split at ha
    · exact (keeps (by rw [← Host.Outcome.next.inj ha])).elim
    · cases ha
  | regWrite n v =>
    rw [perform] at ha
    split at ha
    next hn =>
      refine .inr ⟨v, by rw [portReg_eq_cmd.1 hn], by_contra fun hv => keeps ?_⟩
      rw [← Host.Outcome.next.inj ((runWord_of_fault hs hv).symm.trans ha)]
    next =>
      refine (keeps ?_).elim
      rw [← Host.Outcome.next.inj ha, regWrite_eq]
      split_ifs <;> rfl

end Gate

/-- A write to a register other than `CMD` performs the write. -/
theorem perform_regWrite {n : RegNum} (hn : n ≠ 0x0000) (v : Word64) (s : State) :
    perform (.regWrite n v) s = .next (s.regWrite n v) := by
  rw [perform, if_neg fun h => hn (portReg_eq_cmd.1 h)]

/-- Settles O6: the gate ignores every word but `CLR`'s, and of the host's actions only that word and reset write
`STATUS`. -/
theorem faultGate : Obligations.FaultGate := by
  intro s hs
  refine ⟨fun w hw => runWord_of_fault hs hw, ⟨s.clear, runWord_clr s, rfl, rfl⟩, fun v => ?_, fun v => ?_, fun v => ?_,
    fun a t => clr_or_reset_of_noFault hs⟩
  all_goals rw [perform_regWrite (by decide), regWrite_eq]; rfl

/-! ## Every step answers (20 R96, 46 R234, 70 R296) -/

/-- Every command answers a next state in every state. -/
theorem exec_answers (i : Instr) (s : State) : ∃ t, exec i s = .next t := by
  by_cases hi : i = .clr
  · exact ⟨s.clear, by rw [hi]; rfl⟩
  · exact ⟨_, by rw [exec_eq_command hi, command_eq_next]⟩

theorem runWord_answers (w : Word32) (s : State) : ∃ t, runWord w s = .next t := by
  unfold runWord
  split
  · exact exec_answers _ s
  · exact ⟨_, illegalWord_eq_next w s⟩

/-- A host action that places no stream too long for `IN_LEN` answers a next state. -/
theorem perform_answers {a : HostAction} (ha : ∀ bytes, a = .replaceIn bytes → bytes.length < 2 ^ 64) (s : State) :
    ∃ t, perform a s = .next t := by
  cases a with
  | regRead n => exact ⟨_, rfl⟩
  | regWrite n v =>
    rw [perform]
    split
    · exact runWord_answers _ s
    · exact ⟨_, rfl⟩
  | replaceIn bytes => exact ⟨_, if_pos (ha bytes rfl)⟩
  | discardOut => exact ⟨_, rfl⟩
  | reset => exact ⟨_, rfl⟩

theorem step_of_pending {a : HostAction} {rest : List HostAction} {s : State} (h : s.pending = a :: rest) :
    step s = perform a { s with pending := rest } := by
  rw [step, h]

/-- Settles O60: a step is idle or performs the first pending action. -/
theorem stepAnswers : Obligations.StepAnswers := by
  refine ⟨exec_answers, fun s => ⟨fun hidle => by rw [step, hidle], fun hgoes => ?_, ?_, fun bytes rest h hlen => ?_,
    fun rest h => step_of_pending h⟩⟩
  · cases h : s.pending with
    | nil => exact ⟨s, by rw [step, h]⟩
    | cons a rest =>
      rw [step_of_pending h]
      refine perform_answers (fun bytes ha => ?_) _
      by_contra hlong
      exact hgoes ⟨bytes, rest, ha ▸ h, Nat.le_of_not_lt hlong⟩
  · rintro ⟨bytes, rest, h, hlong⟩
    exact (step_of_pending h).trans (if_neg (Nat.not_lt.2 hlong))
  · exact (step_of_pending h).trans (if_pos hlen)

end Sys2Proof.Machine
end

section
/-! `HDR_READ` and the containers it does not accept (60 R247): the six reasons in their order, and that a container
none of them rejects is the only one it reads to the end. -/

namespace Sys2Proof.Machine

/-! ## The pair loop up to a bad pair -/

/-- The state with another scaled table. -/
def State.withSft (sft : Vector Byte 256) (s : State) : State := { s with sft := sft }

/-- The loop over `m + n` pairs is the loop over `m` and then the loop over `n`. -/
theorem readPairs_add (m n i : Nat) (s : State) :
    readPairs (m + n) i s = (readPairs m i s).bind fun _ t => readPairs n (i + m) t := by
  induction m generalizing i s with
  | zero => rw [Nat.zero_add, readPairs_zero, Run.bind_ok, Nat.add_zero]
  | succ m ih =>
    rw [Nat.add_right_comm, readPairs_succ, readPairs_succ, ih, Nat.add_right_comm i 1 m]
    split_ifs <;> rfl

theorem pairsOk_succ {file : List Byte} {n : Nat} :
    PairsOk file (n + 1) ↔
      PairsOk file n ∧ pairFreq file n ≠ 0 ∧ ∀ j < n, pairSym file j ≠ pairSym file n := by
  simp only [PairsOk, Nat.forall_lt_succ_right]
  tauto

/-- Either all pairs are good or one is the first that is not. -/
theorem pairsOk_or_first_bad (file : List Byte) (n : Nat) :
    PairsOk file n ∨ ∃ i < n, PairsOk file i ∧
      (pairFreq file i = 0 ∨ pairFreq file i ≠ 0 ∧ ∃ j < i, pairSym file j = pairSym file i) := by
  induction n with
  | zero => exact .inl ⟨fun _ h => absurd h (Nat.not_lt_zero _), fun _ h => absurd h (Nat.not_lt_zero _)⟩
  | succ n ih =>
    rcases ih with hok | ⟨i, hi, hbad⟩
    · by_cases hfreq : pairFreq file n = 0
      · exact .inr ⟨n, n.lt_succ_self, hok, .inl hfreq⟩
      · by_cases hseen : ∃ j < n, pairSym file j = pairSym file n
        · exact .inr ⟨n, n.lt_succ_self, hok, .inr ⟨hfreq, hseen⟩⟩
        · exact .inl (pairsOk_succ.2 ⟨hok, hfreq, fun j hj he => hseen ⟨j, hj, he⟩⟩)
    · exact .inr ⟨i, Nat.lt_succ_of_lt hi, hbad⟩

/-- The pair loop of `HDR_READ`, from an `SFT` that is all zero (45 R205). -/
def headerPairs (n : Nat) : Proc Unit := fun s => readPairs n 0 (s.withSft (Vector.replicate 256 0))

section Pairs

variable {s : State} {i : Nat} (hok : PairsOk s.input i)
include hok

/-- Good pairs are stored. -/
theorem headerPairs_of_pairsOk (hlen : 1 + 2 * i ≤ s.input.length) :
    ∃ sft, headerPairs i s = .ok () (s.withSft sft) ∧
      ∀ k < i, symAt sft (pairSym s.input k) = pairFreq s.input k := by
  obtain ⟨hfreq, hdistinct⟩ := hok
  have hsym : ∀ k < i, s.inByte (1 + 2 * k) = pairSym s.input k := fun k hk => State.inByte_eq (by omega)
  have hval : ∀ k < i, s.inByte (2 + 2 * k) = pairFreq s.input k := fun k hk => State.inByte_eq (by omega)
  obtain ⟨sft, hpairs, hstored, -⟩ := readPairs_spec i 0 (s := s.withSft (Vector.replicate 256 0))
    (fun k hk => by rw [Nat.zero_add]; exact (hval k hk).trans_ne (hfreq k hk))
    (fun k _ => symAt_replicate 0 _)
    (fun k hk j hj => by
      rw [Nat.zero_add, Nat.zero_add]
      exact (hsym j (hj.trans hk)).trans_ne ((hdistinct k hk j hj).trans_eq (hsym k hk).symm))
  simp only [Nat.zero_add] at hstored
  exact ⟨sft, hpairs, fun k hk => hsym k hk ▸ hval k hk ▸ hstored k hk⟩

variable {n : Nat} (hlen : 1 + 2 * n ≤ s.input.length) (hi : i < n)
include hlen hi

/-- After good pairs the loop is at the next one. -/
theorem headerPairs_eq_readPairs :
    ∃ rest sft, headerPairs n s = readPairs (rest + 1) i (s.withSft sft) ∧
      ∀ k < i, symAt sft (pairSym s.input k) = pairFreq s.input k := by
  obtain ⟨rest, rfl⟩ : ∃ m, n = i + (m + 1) := ⟨n - i - 1, by omega⟩
  obtain ⟨sft, hpairs, hstored⟩ := headerPairs_of_pairsOk hok (by omega)
  rw [headerPairs] at hpairs
  exact ⟨rest, sft, by rw [headerPairs, readPairs_add, hpairs, Run.bind_ok, Nat.zero_add], hstored⟩

/-- At a zero frequency the loop stops with reason 3. -/
theorem headerPairs_of_zeroFreq (hfreq : pairFreq s.input i = 0) :
    ∃ sft, headerPairs n s = .stop ((s.withSft sft).raise .corruptHeader 3) := by
  obtain ⟨rest, sft, hpairs, -⟩ := headerPairs_eq_readPairs hok hlen hi
  have hval : (s.withSft sft).inByte (2 + 2 * i) = pairFreq s.input i := State.inByte_eq (s := s) (by omega)
  exact ⟨sft, by rw [hpairs, readPairs_succ, if_pos (hval.trans hfreq)]⟩

/-- At a symbol seen before the loop stops with reason 4. -/
theorem headerPairs_of_repeat (hfreq : pairFreq s.input i ≠ 0)
    (hseen : ∃ j < i, pairSym s.input j = pairSym s.input i) :
    ∃ sft, headerPairs n s = .stop ((s.withSft sft).raise .corruptHeader 4) := by
  obtain ⟨rest, sft, hpairs, hstored⟩ := headerPairs_eq_readPairs hok hlen hi
  obtain ⟨j, hj, heq⟩ := hseen
  have hval : (s.withSft sft).inByte (2 + 2 * i) = pairFreq s.input i := State.inByte_eq (s := s) (by omega)
  have hsym : (s.withSft sft).inByte (1 + 2 * i) = pairSym s.input i := State.inByte_eq (s := s) (by omega)
  have hpresent : symAt (s.withSft sft).sft (pairSym s.input i) ≠ 0 := by
    rw [← heq]
    exact (hstored j hj).trans_ne (hok.1 j hj)
  exact ⟨sft, by rw [hpairs, readPairs_succ, hval, if_neg hfreq, hsym, if_pos hpresent]⟩

end Pairs

/-! ## The six reasons -/

/-- What `HDR_READ` does after the pair loop over `n` pairs of a container of `len` bytes (45 R205). -/
def headerTrailer (len n : Nat) : Proc Unit := fun s =>
  (require (decide (ceilDiv s.trailer 8 ≤ len - 9 - 2 * n)) .corruptHeader 5 s).bind fun _ t =>
    (require (decide (n ≠ 0 ∨ s.trailer = 0)) .corruptHeader 6 t).bind fun _ t =>
      .ok () { t with
        nsym := BitVec.ofNat 9 n
        totalBits := word s.trailer
        inPos := word (1 + 2 * n) }.setSftValid.setHdrValid

section Reasons

variable {s : State}

theorem runHdrRead_of_empty (h : s.input = []) : runHdrRead s = .stop (s.raise .corruptHeader 1) := by
  have hnone : ¬ 1 ≤ s.inLen := by rw [State.inLen, h]; exact Nat.not_succ_le_zero 0
  rw [runHdrRead, decide_eq_false hnone, require_false, Run.bind_stop]

/-- With a first byte `HDR_READ` has a count of pairs, and requires room for them and the trailer. -/
theorem runHdrRead_of_ne_nil (h : s.input ≠ []) :
    runHdrRead s = (require (decide (1 + 2 * countField s.input + 8 ≤ s.input.length)) .corruptHeader 2 s).bind
      fun _ t => (headerPairs (countField s.input) t).bind fun _ t =>
        headerTrailer s.input.length (countField s.input) t := by
  have hsome : 1 ≤ s.inLen := List.length_pos_iff.2 h
  have hcount : (s.inByte 0).toNat = countField s.input := congrArg BitVec.toNat (State.inByte_eq hsome)
  rw [runHdrRead, decide_eq_true hsome, require_true, Run.bind_ok, hcount]
  rfl

theorem runHdrRead_of_short (h : s.input ≠ []) (hlen : s.input.length < 1 + 2 * countField s.input + 8) :
    runHdrRead s = .stop (s.raise .corruptHeader 2) := by
  rw [runHdrRead_of_ne_nil h, decide_eq_false (Nat.not_le.2 hlen), require_false, Run.bind_stop]

variable (hlen : 1 + 2 * countField s.input + 8 ≤ s.input.length)
include hlen

/-- With room for the pairs and the trailer `HDR_READ` reads them. -/
theorem runHdrRead_of_length :
    runHdrRead s = (headerPairs (countField s.input) s).bind fun _ t =>
      headerTrailer s.input.length (countField s.input) t := by
  have hne : s.input ≠ [] := List.ne_nil_of_length_pos (by omega)
  rw [runHdrRead_of_ne_nil hne, decide_eq_true hlen, require_true, Run.bind_ok]

/-- `HDR_READ` stops where its pair loop does. -/
theorem runHdrRead_of_badPair {e : Err} {info : Word64}
    (h : ∃ sft, headerPairs (countField s.input) s = .stop ((s.withSft sft).raise e info)) :
    ∃ sft, runHdrRead s = .stop ((s.withSft sft).raise e info) := by
  obtain ⟨sft, hstop⟩ := h
  exact ⟨sft, by rw [runHdrRead_of_length hlen, hstop, Run.bind_stop]⟩

variable (hok : PairsOk s.input (countField s.input))
include hok

/-- Behind good pairs the trailer decides. -/
theorem runHdrRead_of_pairsOk :
    ∃ sft, runHdrRead s = headerTrailer s.input.length (countField s.input) (s.withSft sft) ∧
      (s.withSft sft).trailer = trailerField s.input := by
  obtain ⟨sft, hpairs, -⟩ := headerPairs_of_pairsOk hok (by omega)
  exact ⟨sft, by rw [runHdrRead_of_length hlen, hpairs, Run.bind_ok], State.trailer_eq _⟩

theorem runHdrRead_of_long_total
    (hbits : s.input.length - 9 - 2 * countField s.input < ceilDiv (trailerField s.input) 8) :
    ∃ sft, runHdrRead s = .stop ((s.withSft sft).raise .corruptHeader 5) := by
  obtain ⟨sft, hrun, htrailer⟩ := runHdrRead_of_pairsOk hlen hok
  exact ⟨sft, by rw [hrun, headerTrailer, htrailer, decide_eq_false (Nat.not_le.2 hbits), require_false, Run.bind_stop]⟩

theorem runHdrRead_of_bits_without_symbols
    (hbits : ceilDiv (trailerField s.input) 8 ≤ s.input.length - 9 - 2 * countField s.input)
    (hnone : ¬ (countField s.input ≠ 0 ∨ trailerField s.input = 0)) :
    ∃ sft, runHdrRead s = .stop ((s.withSft sft).raise .corruptHeader 6) := by
  obtain ⟨sft, hrun, htrailer⟩ := runHdrRead_of_pairsOk hlen hok
  exact ⟨sft, by rw [hrun, headerTrailer, htrailer, decide_eq_true hbits, require_true, Run.bind_ok,
    decide_eq_false hnone, require_false, Run.bind_stop]⟩

end Reasons

/-- `HDR_READ` reads to the end only a container that none of the six reasons rejects. -/
theorem containerOk_of_runHdrRead {s t : State} (h : runHdrRead s = .ok () t) : ContainerOk s.input := by
  have stops : ∀ {e info}, ¬ ∃ sft, runHdrRead s = .stop ((s.withSft sft).raise e info) := by
    rintro e info ⟨sft, hstop⟩
    cases h.symm.trans hstop
  have hne : s.input ≠ [] := fun he => by cases h.symm.trans (runHdrRead_of_empty he)
  have hlen : 1 + 2 * countField s.input + 8 ≤ s.input.length :=
    Nat.le_of_not_lt fun hlt => by cases h.symm.trans (runHdrRead_of_short hne hlt)
  have hroom : 1 + 2 * countField s.input ≤ s.input.length := by omega
  have hok : PairsOk s.input (countField s.input) := by
    rcases pairsOk_or_first_bad s.input (countField s.input) with hok | ⟨i, hi, hok, hfreq | ⟨hfreq, hseen⟩⟩
    · exact hok
    · exact (stops (runHdrRead_of_badPair hlen (headerPairs_of_zeroFreq hok hroom hi hfreq))).elim
    · exact (stops (runHdrRead_of_badPair hlen (headerPairs_of_repeat hok hroom hi hfreq hseen))).elim
  have hbits := Nat.le_of_not_lt fun hlt => stops (runHdrRead_of_long_total hlen hok hlt)
  exact ⟨hlen, hok, hbits, not_not.1 fun hnone => stops (runHdrRead_of_bits_without_symbols hlen hok hbits hnone)⟩

/-- Settles O40: each reason is met where the ones before it are not. -/
theorem hdrReadRejects : Obligations.HdrReadRejects := by
  intro s hs file n fails
  have failsWith : ∀ {reason : Nat},
      (∃ sft, runHdrRead s = .stop ((s.withSft sft).raise .corruptHeader (word reason))) → fails reason := by
    rintro reason ⟨sft, hstop⟩
    rw [State.raise_eq_faulted (s := s.withSft sft) hs] at hstop
    exact ⟨_, exec_eq_next (by simp) hs (congrArg Run.state hstop), rfl⟩
  refine ⟨fun he => failsWith ⟨s.sft, runHdrRead_of_empty he⟩,
    fun hne hlt => failsWith ⟨s.sft, runHdrRead_of_short hne hlt⟩, fun hlen => ?_⟩
  have hroom : 1 + 2 * n ≤ s.input.length := Nat.le_of_add_right_le hlen
  refine ⟨fun i hi hok hfreq => ?_, fun i hi hok hfreq hseen => ?_, fun hok hlt => ?_, fun hok hbits hn htotal => ?_⟩
  · exact failsWith (runHdrRead_of_badPair hlen (headerPairs_of_zeroFreq hok hroom hi hfreq))
  · exact failsWith (runHdrRead_of_badPair hlen (headerPairs_of_repeat hok hroom hi hfreq hseen))
  · exact failsWith (runHdrRead_of_long_total hlen hok hlt)
  · exact failsWith (runHdrRead_of_bits_without_symbols hlen hok hbits fun h => h.elim (absurd hn) htotal)

end Sys2Proof.Machine
end

section
/-! Which faults a command can record (60 R246, R250): each procedure with the errors it raises, and the precondition
each command checks before anything else. -/

namespace Sys2Proof.Machine

/-! ## The faults of a run -/

/-- One of these faults is recorded. -/
def State.Raised (es : List Err) (s : State) : Prop := ∃ e ∈ es, s.err = e.code

/-- The run completes without a fault recorded, or stops with one of these. -/
abbrev Run.Raises {α : Type} (es : List Err) (r : Run α) : Prop := r.Ends (fun _ => State.NoFault) (State.Raised es)

section Raises

variable {α : Type} {es es' : List Err} {s : State} {r : Run α}

theorem State.raise_raised (hs : s.NoFault) {e : Err} (he : e ∈ es) (info : Word64) : (s.raise e info).Raised es :=
  ⟨e, he, by rw [State.raise_of_noFault hs]⟩

theorem Run.Raises.mono (h : r.Raises es) (hes : es ⊆ es') : r.Raises es' :=
  Ends.mono h (fun _ _ ht => ht) fun _ ⟨e, he, herr⟩ => ⟨e, hes he, herr⟩

/-- A check that may fail. -/
theorem Run.Raises.require {c : Bool} {e : Err} {info : Word64} {f : Unit → State → Run α} (hs : s.NoFault)
    (he : e ∈ es) (hf : c = true → (f () s).Raises es) : ((Machine.require c e info s).bind f).Raises es :=
  Ends.require (State.raise_raised hs he info) hf

/-- A run that raises as said, with the items it writes. -/
theorem Run.Raises.writing {w : List Item} (h : r.Raises es) (hd : r.Does w s) :
    r.Ends (fun _ t => t.NoFault ∧ Writes w s t) (State.Raised es) := by
  cases r with
  | ok a t => exact ⟨h, hd⟩
  | stop t => exact h

theorem Run.Raises.state_cases (h : r.Raises es) : r.state.NoFault ∨ r.state.Raised es := by
  cases r with
  | ok a t => exact .inl h
  | stop t => exact .inr h

/-- What follows a check that passes. -/
theorem require_bind_of_true {c : Bool} (hc : c = true) (e : Err) (info : Word64) (f : Unit → State → Run α) :
    (Machine.require c e info s).bind f = f () s := by rw [hc, require_true, Run.bind_ok]

/-- What follows a check that fails. -/
theorem require_bind_of_false {c : Bool} (hc : c = false) (e : Err) (info : Word64) (f : Unit → State → Run α) :
    (Machine.require c e info s).bind f = .stop (s.raise e info) := by rw [hc, require_false, Run.bind_stop]

end Raises

/-! ## Procedures -/

section Procedures

variable {es : List Err} {s : State} (hs : s.NoFault)
include hs

theorem outAppend_raises (hio : .ioWrite ∈ es) (v : List Byte) : (outAppend v s).Raises es := by
  by_cases h : v.length ≤ s.room
  · rw [outAppend_of_fits h]
    exact hs
  · rw [outAppend_of_short (Nat.lt_of_not_le h)]
    exact State.raise_raised (s := { s with output := s.output ++ v.take s.room }) hs hio _

theorem newNode_raises (ha : .alloc ∈ es) {w : Nat} (ho : w < 2 ^ 64 ∨ .overflow ∈ es) (sym : Byte) (l r : Handle) :
    (newNode sym w l r s).Raises es := by
  refine .require hs ha fun _ => ?_
  rcases ho with hw | ho
  · rw [require_bind_of_true (decide_eq_true hw)]
    exact hs
  · exact .require hs ho fun _ => hs

theorem heapInsert_raises (hf : .heapFull ∈ es) (h : Handle) : (heapInsert h s).Raises es :=
  .require hs hf fun _ => hs

theorem heapExtract_raises (he : .heapEmpty ∈ es) : (heapExtract s).Raises es := .require hs he fun _ => hs

theorem fillLeaves_raises (ha : .alloc ∈ es) (ho : .overflow ∈ es) (hf : .heapFull ∈ es) (cs : List Byte) :
    (fillLeaves cs s).Raises es := by
  induction cs generalizing s with
  | nil => exact hs
  | cons c cs ih =>
    rw [fillLeaves]
    split
    · exact ih hs
    · exact (newNode_raises hs ha (.inr ho) c _ _).bind fun h t ht =>
        (heapInsert_raises ht hf h).bind fun _ u hu => ih hu

/-- A round on two elements or more extracts both; it takes one element from the heap. -/
theorem mergeRound_raises (ha : .alloc ∈ es) (ho : .overflow ∈ es) (h2 : 2 ≤ s.hsize.toNat)
    (hf : s.hsize.toNat ≤ s.hmax.toNat ∨ .heapFull ∈ es) :
    (mergeRound s).Ends (fun _ t => t.NoFault ∧ t.hsize.toNat = s.hsize.toNat - 1 ∧ t.hmax = s.hmax)
      (State.Raised es) := by
  have hsize : s.extracted.extracted.hsize.toNat = s.hsize.toNat - 1 - 1 := by
    rw [State.extracted_hsize_toNat, State.extracted_hsize_toNat]
  rw [mergeRound_eq h2]
  refine ((newNode_raises (s := s.extracted.extracted) hs ha (.inr ho) _ _ _).writing (newNode_does ..)).bind
    fun n t ⟨ht, hw⟩ => ?_
  have htmax : t.hmax = s.hmax := hw .hmax (by simp)
  obtain ⟨htsize, -⟩ := hw .heap (by simp)
  by_cases hroom : t.hsize.toNat < t.hmax.toNat
  · rw [heapInsert_eq n hroom, Run.bind_ok]
    refine ⟨ht, ?_, htmax⟩
    show (BitVec.ofNat 9 (t.hsize.toNat + 1)).toNat = _
    have hlt := s.hsize.isLt
    rw [htsize, hsize, BitVec.toNat_ofNat]
    omega
  · rw [heapInsert_full hroom, Run.bind_stop]
    refine State.raise_raised ht (hf.resolve_left fun hle => hroom ?_) _
    rw [htsize, htmax, hsize]
    omega

/-- The merge loop ends with one element. -/
theorem mergeLoop_raises (ha : .alloc ∈ es) (ho : .overflow ∈ es) {k : Nat} (hk : s.hsize.toNat = k + 1)
    (hf : s.hsize.toNat ≤ s.hmax.toNat ∨ .heapFull ∈ es) :
    (mergeLoop k s).Ends (fun _ t => t.NoFault ∧ t.hsize.toNat = 1) (State.Raised es) := by
  induction k generalizing s with
  | zero => exact ⟨hs, hk⟩
  | succ k ih =>
    refine (mergeRound_raises hs ha ho (by omega) hf).bind fun _ t ⟨ht, hsize, hmax⟩ => ?_
    exact ih ht (by omega) (hf.imp_left fun hle => by rw [hsize, hmax]; omega)

theorem walk_raises_of_leaf (hd : .dupSymbol ∈ es) {room : Nat} {h : Handle} {pat : Nat}
    (hleaf : (nodeAt s.node h).isLeaf = true) : (walk room h pat s).Raises es := by
  rw [walk_leaf hleaf]
  exact .require hs hd fun _ => hs

theorem walk_raises (hd : .dupSymbol ∈ es) (hl : .codeLen ∈ es) (room : Nat) (h : Handle) (pat : Nat) :
    (walk room h pat s).Raises es := by
  induction room generalizing h pat s with
  | zero =>
    cases hleaf : (nodeAt s.node h).isLeaf with
    | true => exact walk_raises_of_leaf hs hd hleaf
    | false =>
      rw [walk_node_zero hleaf]
      exact State.raise_raised hs hl _
  | succ room ih =>
    cases hleaf : (nodeAt s.node h).isLeaf with
    | true => exact walk_raises_of_leaf hs hd hleaf
    | false =>
      rw [walk_node_succ hleaf]
      exact (ih hs _ _).bind fun _ t ht => ih ht _ _

theorem writeBits_raises (hio : .ioWrite ∈ es) (ho : .overflow ∈ es) (pat : Word64) (len : Nat) :
    (writeBits pat len s).Raises es := by
  induction len generalizing s with
  | zero => exact hs
  | succ k ih =>
    have hbit : (writeBit (pat.getLsbD k) s).Raises es := by
      refine .require hs ho fun _ => ?_
      dsimp only
      split
      · exact (outAppend_raises (s := s.placeBit _) hs hio _).bind fun _ t ht => ht
      · exact hs
    exact hbit.bind fun _ t ht => ih ht

/-- The byte loop of `ENC_STREAM` finds no missing code where every byte has one. -/
theorem encodeBytes_raises (hio : .ioWrite ∈ es) (ho : .overflow ∈ es) (msg : List Byte)
    (hc : (∀ c ∈ msg, symAt s.ctLen c ≠ 0) ∨ .noCode ∈ es) : (encodeBytes msg s).Raises es := by
  induction msg generalizing s with
  | nil => exact hs
  | cons c cs ih =>
    have hrest : ((writeBits (symAt s.ctPat c) (symAt s.ctLen c).toNat
        { s with inPos := word (s.inPos.toNat + 1) }).bind fun _ t => encodeBytes cs t).Raises es := by
      refine ((writeBits_raises (s := { s with inPos := word (s.inPos.toNat + 1) }) hs hio ho _ _).writing
        (writeBits_does ..)).bind fun _ t ⟨ht, hw⟩ => ih ht (hc.imp_left fun hall d hd => ?_)
      rw [(hw .codes (by simp)).2]
      exact hall d (List.mem_cons_of_mem c hd)
    rw [encodeBytes]
    rcases hc with hall | hno
    · rw [require_bind_of_true (bne_iff_ne.2 (hall c List.mem_cons_self))]
      exact hrest
    · exact .require hs hno fun _ => hrest

theorem readBit_raises (ho : .overflow ∈ es) : (readBit s).Raises es := by
  unfold readBit
  split_ifs
  · exact hs
  · exact .require (s := s.refill) hs ho fun _ => hs
  · exact .require hs ho fun _ => hs

omit hs in
/-- Below the counter's limit `ReadBit` raises nothing, and counts at most one bit. -/
theorem readBit_completes (ht : s.rtotal.toNat < 2 ^ 64 - 1) :
    ∃ b t, readBit s = .ok b t ∧ t.status = s.status ∧ t.rtotal.toNat ≤ s.rtotal.toNat + 1 := by
  have hcount : (word (s.rtotal.toNat + 1)).toNat ≤ s.rtotal.toNat + 1 := (word_toNat (by omega)).le
  unfold readBit
  split_ifs
  · exact ⟨none, s, rfl, rfl, Nat.le_succ _⟩
  · exact ⟨_, _, takeBit_ok (s := s.refill) ht, rfl, hcount⟩
  · exact ⟨_, _, takeBit_ok ht, rfl, hcount⟩

theorem emit_raises (hio : .ioWrite ∈ es) (c : Byte) : (emit c s).Raises es := by
  unfold emit
  dsimp only
  split
  · exact (outAppend_raises (by exact hs) hio _).bind fun _ t ht => ht
  · exact hs

/-- Inside the declared number of bits the counter stays below its limit, so that the bit loop raises no `Overflow`. -/
theorem decodeLoop_raises (hio : .ioWrite ∈ es) (hcs : .corruptStream ∈ es) (n : Nat) (cur : Handle)
    (ht : s.rtotal.toNat + n < 2 ^ 64) : (decodeLoop n cur s).Raises es := by
  induction n generalizing s cur with
  | zero => exact hs
  | succ n ih =>
    obtain ⟨b, t, hread, hstatus, hcount⟩ := readBit_completes (s := s) (by omega)
    have htf : t.NoFault := (congrArg Status.fault hstatus).trans hs
    cases b with
    | none =>
      rw [decodeLoop_none hread]
      exact State.raise_raised htf hcs 1
    | some b =>
      rw [decodeLoop_some hread]
      have hbit : (decodeBit b cur t).Raises es := decodeBit_ends (fun c _ hu => emit_raises hu hio c) b cur htf
      refine (hbit.writing (decodeBit_does ..)).bind fun cur u ⟨hu, hw⟩ => ih hu cur ?_
      obtain ⟨-, -, hrtotal, -⟩ := hw .reader (by simp)
      rw [hrtotal]
      omega

theorem writePairs_raises (hio : .ioWrite ∈ es) (cs : List Byte) : (writePairs cs s).Raises es := by
  induction cs generalizing s with
  | nil => exact hs
  | cons c cs ih =>
    rw [writePairs]
    split
    · exact ih hs
    · exact (outAppend_raises hs hio _).bind fun _ t ht => ih ht

theorem readPairs_raises (hh : .corruptHeader ∈ es) (n i : Nat) : (readPairs n i s).Raises es := by
  induction n generalizing i s with
  | zero => exact hs
  | succ n ih => exact .require hs hh fun _ => .require hs hh fun _ => ih (by exact hs) (i + 1)

end Procedures

/-! ## The precondition of a command (60 R250) -/

/-- A command whose precondition fails raises `State` with its opcode before it does anything else. -/
theorem procOf_of_not_precondition {i : Instr} {s : State} (hw : i.wellFormed = true) (hp : ¬ s.Precondition i) :
    procOf i s = .stop (s.raise .state (opInfo (opcode i))) := by
  cases i with
  | fqScale => exact require_bind_of_false (Bool.eq_false_iff.2 hp) _ _ _
  | hpInsert a =>
    refine (require_bind_of_true hw _ _ _).trans ?_
    by_cases hv : s.status.heapValid = true
    · refine (require_bind_of_true hv _ _ _).trans ?_
      exact require_bind_of_false (decide_eq_false fun ha => hp ⟨hv, ha⟩) _ _ _
    · exact require_bind_of_false (Bool.eq_false_iff.2 hv) _ _ _
  | hpExtract => exact require_bind_of_false (Bool.eq_false_iff.2 hp) _ _ _
  | hpFill => exact require_bind_of_false (Bool.eq_false_iff.2 hp) _ _ _
  | tbBuild =>
    by_cases hv : s.status.heapValid = true
    · refine (require_bind_of_true hv _ _ _).trans ?_
      exact require_bind_of_false (decide_eq_false fun h1 => hp ⟨hv, h1⟩) _ _ _
    · exact require_bind_of_false (Bool.eq_false_iff.2 hv) _ _ _
  | cgRun => exact require_bind_of_false (Bool.eq_false_iff.2 fun h => hp (bne_iff_ne.1 h)) _ _ _
  | bwWrite a =>
    exact (require_bind_of_true hw _ _ _).trans (require_bind_of_false (Bool.eq_false_iff.2 hp) _ _ _)
  | bwFlush => exact require_bind_of_false (Bool.eq_false_iff.2 hp) _ _ _
  | brRead => exact require_bind_of_false (Bool.eq_false_iff.2 hp) _ _ _
  | hdrWrite => exact require_bind_of_false (Bool.eq_false_iff.2 hp) _ _ _
  | encStream => exact require_bind_of_false (Bool.eq_false_iff.2 fun h => hp (Bool.and_eq_true_iff.1 h)) _ _ _
  | trlWrite => exact require_bind_of_false (Bool.eq_false_iff.2 hp) _ _ _
  | decStream =>
    by_cases hv : s.status.hdrValid = true ∧ s.status.brValid = true
    · refine (require_bind_of_true (Bool.and_eq_true_iff.2 hv) _ _ _).trans ?_
      refine require_bind_of_false (Bool.eq_false_iff.2 fun h => hp ⟨hv, ?_⟩) _ _ _
      exact (Bool.or_eq_true_iff.1 h).imp beq_iff_eq.1 bne_iff_ne.1
    · exact require_bind_of_false (Bool.eq_false_iff.2 fun h => hv (Bool.and_eq_true_iff.1 h)) _ _ _
  | _ => exact absurd trivial hp

/-! ## Commands past their precondition -/

section Commands

variable {es : List Err} {s : State} (hs : s.NoFault)
include hs

/-- Past its checks `TB_BUILD` never extracts from an empty heap. -/
theorem runTbBuild_raises (hv : s.status.heapValid = true) (h1 : 1 ≤ s.hsize.toNat) (ha : .alloc ∈ es)
    (ho : .overflow ∈ es) (hf : s.hsize.toNat ≤ s.hmax.toNat ∨ .heapFull ∈ es) : (runTbBuild s).Raises es := by
  rw [runTbBuild_eq hv h1]
  refine (mergeLoop_raises hs ha ho (by omega) hf).bind fun _ t ⟨ht, hsize⟩ => ?_
  rw [heapExtract_eq (by omega), Run.bind_ok]
  exact ht

theorem runCgRun_raises (hroot : s.root ≠ 0x1FF) (hd : .dupSymbol ∈ es) (hl : .codeLen ∈ es) :
    (runCgRun s).Raises es := by
  have hcheck : (s.root != Config.null) = true := bne_iff_ne.2 hroot
  rw [runCgRun, require_bind_of_true hcheck]
  dsimp only
  split
  · exact hs
  · exact (walk_raises (s := s.zeroCodes.setSingle false) hs hd hl _ _ _).bind fun _ _ ht => ht

theorem runHdrWrite_raises (hv : s.status.sftValid = true) (ha : .alphabet256 ∈ es) (hio : .ioWrite ∈ es) :
    (runHdrWrite s).Raises es := by
  rw [runHdrWrite, require_bind_of_true hv]
  exact .require hs ha fun _ => (outAppend_raises hs hio _).bind fun _ t ht => writePairs_raises ht hio _

theorem runHdrRead_raises (hh : .corruptHeader ∈ es) : (runHdrRead s).Raises es :=
  .require hs hh fun _ => .require hs hh fun _ => (readPairs_raises (by exact hs) hh _ _).bind fun _ _ ht =>
    Run.Raises.require ht hh fun _ => .require ht hh fun _ => ht

theorem runEncStream_raises (hc : s.status.ctValid = true) (hb : s.status.bwValid = true) (hio : .ioWrite ∈ es)
    (ho : .overflow ∈ es) (hcodes : (∀ c ∈ s.unread, symAt s.ctLen c ≠ 0) ∨ .noCode ∈ es) :
    (runEncStream s).Raises es := by
  rw [runEncStream_eq hc hb]
  exact encodeBytes_raises hs hio ho _ hcodes

theorem runBwFlush_raises (hb : s.status.bwValid = true) (hio : .ioWrite ∈ es) : (runBwFlush s).Raises es := by
  rw [runBwFlush, require_bind_of_true hb]
  exact (outAppend_raises hs hio _).bind fun _ _ ht => ht

theorem runTrlWrite_raises (hb : s.status.bwValid = true) (hio : .ioWrite ∈ es) : (runTrlWrite s).Raises es := by
  rw [runTrlWrite, require_bind_of_true hb]
  exact outAppend_raises hs hio _

theorem runDecStream_raises (hh : s.status.hdrValid = true) (hb : s.status.brValid = true)
    (hroot : s.totalBits = 0 ∨ s.root ≠ 0x1FF) (hcs : .corruptStream ∈ es) (hio : .ioWrite ∈ es) :
    (runDecStream s).Raises es := by
  have hcount : s.rtotal.toNat + (s.totalBits.toNat - s.rtotal.toNat) < 2 ^ 64 := by
    have := s.rtotal.isLt
    have := s.totalBits.isLt
    omega
  rw [runDecStream_eq hh hb hroot]
  exact (decodeLoop_raises (s := s.decodeStart) hs hio hcs _ _ hcount).bind fun _ _ ht =>
    Run.Raises.require ht hcs fun _ => (outAppend_raises ht hio _).bind fun _ _ hu => hu

/-- The output part of `COMPRESS` finds its tables valid, and no code missing where every byte has one. -/
theorem writeFile_raises (hv : s.status.sftValid = true) (hc : s.status.ctValid = true) (ha : .alphabet256 ∈ es)
    (hio : .ioWrite ∈ es) (ho : .overflow ∈ es)
    (hcodes : (∀ c ∈ s.unread, symAt s.ctLen c ≠ 0) ∨ .noCode ∈ es) : (writeFile s).Raises es := by
  refine ((runHdrWrite_raises hs hv ha hio).writing (runHdrWrite_does s)).bind fun _ t ⟨ht, hw⟩ => ?_
  have hct : t.status.ctValid = true := hw (.unset .ctValid) (by simp) hc
  have hunread : t.unread = s.unread := by
    obtain ⟨-, -, hin, -⟩ := hw .host (by simp)
    have hpos : t.inPos = s.inPos := hw .inPos (by simp)
    rw [State.unread, State.unread, hin, hpos]
  have hlen : t.ctLen = s.ctLen := (hw .codes (by simp)).2
  refine ((runEncStream_raises (s := t.writerStarted) ht hct rfl hio ho ?_).writing (runEncStream_does _)).bind
    fun _ u ⟨hu, hwu⟩ => ?_
  · exact hcodes.imp_left fun hall c hmem => by
      rw [show t.writerStarted.ctLen = s.ctLen from hlen]
      exact hall c (hunread ▸ hmem)
  have hbu : u.status.bwValid = true := hwu (.unset .bwValid) (by simp) rfl
  refine ((runBwFlush_raises hu hbu hio).writing (runBwFlush_does u)).bind fun _ v ⟨hvf, hwv⟩ => ?_
  exact runTrlWrite_raises hvf (hwv (.unset .bwValid) (by simp) hbu) hio

/-- `COMPRESS` finds every precondition of its parts met, and, in a stream `IN_LEN` can hold, a code for every byte. -/
theorem runCompress_raises (ha : .alphabet256 ∈ es) (hio : .ioWrite ∈ es) (ho : .overflow ∈ es)
    (hin : s.input.length < 2 ^ 64 ∨ .noCode ∈ es) : (runCompress s).Raises es := by
  obtain ⟨w, hbuild, e⟩ := buildCodes_encoder (s := s.analysed) rfl s.analysed_count
  have hunread : w.unread = s.input := by rw [e.frame]; rfl
  have hcodes : (∀ c ∈ w.unread, symAt w.ctLen c ≠ 0) ∨ .noCode ∈ es := by
    rw [hunread]
    exact hin.imp_left fun hlt c hc => e.present c ((State.analysed_present hlt).2 hc)
  rw [runCompress_eq]
  refine .require (s := s.analysed) hs ha fun _ => ?_
  rw [hbuild, Run.bind_ok]
  refine writeFile_raises ?_ ?_ ?_ ha hio ho hcodes
  · rw [e.frame]; exact hs
  all_goals rw [e.frame]
  rfl

end Commands

/-- What the tree part of `DECOMPRESS` leaves: nothing but the tree is written, and there is one if bits are
declared. -/
structure TreeRebuilt (u v : State) : Prop where
  frame : v = { u with
    node := v.node, nalloc := v.nalloc, root := v.root, heap := v.heap, hsize := v.hsize, hmax := v.hmax
    status := v.status, freeCount := v.freeCount }
  status : v.status = { u.status with heapValid := v.status.heapValid }
  root : v.totalBits = 0 ∨ v.root ≠ 0x1FF

/-- After `HDR_READ` the tree part of `DECOMPRESS` completes. -/
theorem rebuildTree_completes {s t : State} (h : runHdrRead s = .ok () t) :
    ∃ sft v, t = s.headerRead sft ∧ rebuildTree t = .ok () v ∧ TreeRebuilt t v := by
  have hfile := containerOk_of_runHdrRead h
  obtain ⟨sft, hread, -⟩ := runHdrRead_of_containerOk hfile
  obtain ⟨-, rfl⟩ := Run.ok.inj (h.symm.trans hread)
  by_cases h1 : 1 ≤ (s.headerRead sft).nsym.toNat
  · obtain ⟨v, tree, b⟩ := exists_built (s := s.headerRead sft) rfl (presentCount_of_runHdrRead hread) h1
    refine ⟨sft, v, rfl, by rw [rebuildTree, if_pos h1]; exact b.run, ?_, ?_, .inr b.root⟩
    all_goals rw [b.frame]
  · refine ⟨sft, (s.headerRead sft).treeFreed, rfl, by rw [rebuildTree, if_neg h1, runTbFree_eq], rfl, rfl, .inl ?_⟩
    obtain ⟨-, -, -, hzero⟩ := hfile
    rw [s.headerRead_nsym] at h1
    show word (trailerField s.input) = 0
    rw [hzero.resolve_left (by omega)]
    rfl

/-- `DECOMPRESS` finds every precondition of its parts met. -/
theorem runDecompress_raises {es : List Err} {s : State} (hs : s.NoFault) (hh : .corruptHeader ∈ es)
    (hcs : .corruptStream ∈ es) (hio : .ioWrite ∈ es) : (runDecompress s).Raises es := by
  have hraises := runHdrRead_raises hs hh
  rw [runDecompress_eq]
  cases hread : runHdrRead s with
  | stop t => rwa [hread] at hraises
  | ok _ t =>
    obtain ⟨sft, v, rfl, hbuild, htree⟩ := rebuildTree_completes hread
    rw [Run.bind_ok, hbuild, Run.bind_ok]
    refine (runDecStream_raises (s := v.initReader v.bitstreamLimit) ?_ ?_ rfl htree.root hcs hio).bind fun _ _ ht => ht
    · rw [State.NoFault, State.initReader_status, htree.status]
      exact hs
    · rw [State.initReader_status, htree.status]
      rfl

/-- The faults of a command whose precondition holds, whatever else the state is. -/
def faultsWhenReady : Instr → List Err
  | .nop => []
  | .clr => []
  | .fcRun => []
  | .hpCreate _ => []
  | .tbFree => []
  | .bwInit => []
  | .brInit => []
  | .fqScale => []
  | .hpInsert _ => [.heapFull]
  | .hpExtract => [.heapEmpty]
  | .hpFill => [.alloc, .overflow, .heapFull]
  | .ndLeaf _ => [.alloc]
  | .tbBuild => [.alloc, .overflow, .heapFull]
  | .cgRun => [.dupSymbol, .codeLen]
  | .bwWrite _ => [.ioWrite, .overflow]
  | .bwFlush => [.ioWrite]
  | .brRead => [.overflow]
  | .hdrWrite => [.alphabet256, .ioWrite]
  | .hdrRead => [.corruptHeader]
  | .encStream => [.noCode, .ioWrite, .overflow]
  | .trlWrite => [.ioWrite]
  | .decStream => [.corruptStream, .ioWrite]
  | .compress => [.alphabet256, .ioWrite, .overflow, .noCode]
  | .decompress => [.corruptHeader, .corruptStream, .ioWrite]

/-- A command whose precondition holds raises one of its other faults, if any. -/
theorem procOf_raises {i : Instr} {s : State} (hw : i.wellFormed = true) (hs : s.NoFault) (hi : i ≠ .clr)
    (hp : s.Precondition i) : (procOf i s).Raises (faultsWhenReady i) := by
  cases i with
  | clr => exact absurd rfl hi
  | fqScale =>
    rw [procOf, runFqScale, require_bind_of_true hp]
    exact hs
  | hpCreate a =>
    rw [procOf, runHpCreate, checkImm, require_bind_of_true hw]
    exact hs
  | hpInsert a =>
    obtain ⟨hv, ha⟩ := hp
    rw [procOf, runHpInsert, checkImm, require_bind_of_true hw, require_bind_of_true hv,
      require_bind_of_true (decide_eq_true ha)]
    exact (heapInsert_raises hs (by simp [faultsWhenReady]) _).bind fun _ _ ht => ht
  | hpExtract =>
    rw [procOf, runHpExtract, require_bind_of_true hp]
    exact (heapExtract_raises hs (by decide)).bind fun _ _ ht => ht
  | hpFill =>
    rw [procOf, runHpFill_eq hp]
    exact fillLeaves_raises (s := s.fillStart) hs (by decide) (by decide) (by decide) _
  | ndLeaf a =>
    rw [procOf, runNdLeaf, checkImm, require_bind_of_true hw]
    exact (newNode_raises hs (by simp [faultsWhenReady]) (.inl s.arg0.isLt) _ _ _).bind fun _ _ ht => ht
  | tbBuild => exact runTbBuild_raises hs hp.1 hp.2 (by decide) (by decide) (.inr (by decide))
  | cgRun => exact runCgRun_raises hs hp (by decide) (by decide)
  | bwWrite a =>
    rw [procOf, runBwWrite, checkImm, require_bind_of_true hw, require_bind_of_true hp]
    exact writeBits_raises hs (by simp [faultsWhenReady]) (by simp [faultsWhenReady]) _ _
  | bwFlush => exact runBwFlush_raises hs hp (by decide)
  | brRead =>
    rw [procOf, runBrRead, require_bind_of_true hp]
    exact (readBit_raises hs (by decide)).bind fun _ _ ht => ht
  | hdrWrite => exact runHdrWrite_raises hs hp (by decide) (by decide)
  | hdrRead => exact runHdrRead_raises hs (by decide)
  | encStream => exact runEncStream_raises hs hp.1 hp.2 (by decide) (by decide) (.inr (by decide))
  | trlWrite => exact runTrlWrite_raises hs hp (by decide)
  | decStream =>
    obtain ⟨⟨hh, hb⟩, hroot⟩ := hp
    exact runDecStream_raises hs hh hb hroot (by decide) (by decide)
  | compress => exact runCompress_raises hs (by decide) (by decide) (by decide) (.inr (by decide))
  | decompress => exact runDecompress_raises hs (by decide) (by decide) (by decide)
  | _ => exact hs

/-! ## The two statements -/

theorem state_notMem_faultsWhenReady (i : Instr) : .state ∉ faultsWhenReady i := by
  cases i <;> simp [faultsWhenReady]

/-- A command with a precondition has `State` in its row of 60 R246. -/
theorem state_mem_mayRaise {i : Instr} {s : State} (hp : ¬ s.Precondition i) : .state ∈ mayRaise i := by
  revert hp
  cases i <;> simp [mayRaise, State.Precondition]

theorem Err.eq_state_of_code {e : Err} (h : e.code = 10) : e = .state := by
  revert h
  cases e <;> decide

/-- Settles O56: a precondition that fails is the first thing a command finds; one that holds leaves it other faults
only. -/
theorem preconditions : Obligations.Preconditions := by
  intro i s hw hs herr
  refine ⟨fun hp => ?_, fun hp t he => ?_⟩
  · have hi : i ≠ .clr := by
      rintro rfl
      exact hp trivial
    have hinfo : opInfo (opcode i) = word (opcode i).toNat := by rw [opInfo, word, BitVec.ofNat_toNat]
    refine exec_eq_next hi hs ?_
    rw [procOf_of_not_precondition hw hp, Run.state_stop, hinfo, State.raise_eq_faulted hs]
    rfl
  · by_cases hi : i = .clr
    · subst hi
      obtain rfl := Host.Outcome.next.inj he
      exact (by decide : (0 : BitVec 8) ≠ 10)
    rcases (procOf_raises hw hs hi hp).state_cases with hclear | ⟨e, hmem, hcode⟩
    · rw [← exec_of_noFault hi hs he] at hclear
      have hrec : RecordMoves s t := exec_same he .record (by simpa [Item.writers, mnemonic_eq_clr] using hi)
      rw [(hrec.of_noFault hclear).1, herr]
      decide
    · rw [exec_of_noFault hi hs he, hcode]
      exact fun h => state_notMem_faultsWhenReady i (Err.eq_state_of_code h ▸ hmem)

/-- In a state that meets the invariants a ready command raises the faults of its row alone. -/
theorem procOf_raises_mayRaise {i : Instr} {s : State} (hw : i.wellFormed = true) (hs : s.NoFault) (hi : i ≠ .clr)
    (hb : s.Bounds) (hset : s.Settled) (hp : s.Precondition i) : (procOf i s).Raises (mayRaise i) := by
  obtain ⟨-, -, -, -, hin, -, -, -, -, -, -, hsize, -⟩ := hb
  cases i with
  | hpFill =>
    obtain ⟨-, -, htable, -⟩ := hset hs
    obtain ⟨t, hrun, f⟩ := runHpFill_filled hp (htable hp)
    rw [procOf, hrun]
    exact (congrArg Status.fault f.status).trans hs
  | tbBuild => exact runTbBuild_raises hs hp.1 hp.2 (by decide) (by decide) (.inl hsize)
  | compress => exact runCompress_raises hs (by decide) (by decide) (by decide) (.inl hin)
  | _ => exact (procOf_raises hw hs hi hp).mono (by simp [faultsWhenReady, mayRaise])

/-- Settles O55: the precondition fails with `State`, or the command's other faults are those of its row. -/
theorem faultMatrix : Obligations.FaultMatrix := by
  intro i s t hw hs hb _ hset he
  by_cases hi : i = .clr
  · subst hi
    obtain rfl := Host.Outcome.next.inj he
    exact .inl rfl
  rw [exec_of_noFault hi hs he]
  by_cases hp : s.Precondition i
  · exact (procOf_raises_mayRaise hw hs hi hb hset hp).state_cases
  · rw [procOf_of_not_precondition hw hp]
    exact .inr (State.raise_raised hs (state_mem_mayRaise hp) _)

end Sys2Proof.Machine
end

section
/-! The buffers and their size are hidden (70 R298): the parts of the whole operations that do no bit input or output do
not look at them, and what the bits become depends on the stream alone. -/

namespace Sys2Proof.Machine

/-! ## Procedures that do not look at the buffers -/

/-- `BUF_BYTES` and the contents of `WBUF`, `RBUF` and `OBUF`. -/
structure Buffers where
  bytes : Word64
  wbuf : List Byte
  rbuf : List Byte
  obuf : List Byte

/-- The state with other buffers. -/
def State.withBuffers (s : State) (b : Buffers) : State :=
  { s with bufBytes := b.bytes, wbuf := b.wbuf, rbuf := b.rbuf, obuf := b.obuf }

/-- The run with other buffers in the state it ends in. -/
def Run.withBuffers {α : Type} (b : Buffers) : Run α → Run α
  | .ok a s => .ok a (s.withBuffers b)
  | .stop s => .stop (s.withBuffers b)

/-- Other buffers change nothing of what the procedure does. -/
def Blind {α : Type} (p : Proc α) : Prop := ∀ b s, p (s.withBuffers b) = (p s).withBuffers b

section Blind

variable {α β : Type} {b : Buffers} {s : State}

theorem State.raise_withBuffers (e : Err) (info : Word64) :
    (s.withBuffers b).raise e info = (s.raise e info).withBuffers b := by
  cases hf : s.status.fault with
  | true => rw [State.raise_of_fault hf, State.raise_of_fault (s := s.withBuffers b) hf]
  | false =>
    rw [State.raise_of_noFault hf, State.raise_of_noFault (s := s.withBuffers b) hf]
    rfl

theorem fail_blind {e : Err} {info : Word64} : Blind (fail (α := α) e info) := fun _ _ =>
  congrArg Run.stop (State.raise_withBuffers e info)

theorem require_blind {c : Bool} {e : Err} {info : Word64} : Blind (Machine.require c e info) := by
  intro b s
  cases c
  · exact fail_blind b s
  · rfl

/-- What follows a blind procedure may use the state before it, but not its buffers. -/
theorem Blind.bind {p : Proc α} {f g : α → Proc β} (hp : Blind p)
    (hf : ∀ a t, f a (t.withBuffers b) = (g a t).withBuffers b) :
    (p (s.withBuffers b)).bind f = ((p s).bind g).withBuffers b := by
  rw [hp]
  cases p s with
  | ok a t => exact hf a t
  | stop t => rfl

end Blind

/-! ## The procedures of the heap, the tree, the codes and the header -/

theorem newNode_blind {sym : Byte} {w : Nat} {l r : Handle} : Blind (newNode sym w l r) := fun _ _ =>
  require_blind.bind fun _ _ => require_blind.bind fun _ _ => rfl

theorem heapInsert_blind {h : Handle} : Blind (heapInsert h) := fun _ _ => require_blind.bind fun _ _ => rfl

theorem heapExtract_blind : Blind heapExtract := fun _ _ => require_blind.bind fun _ _ => rfl

theorem fillLeaves_blind {cs : List Byte} : Blind (fillLeaves cs) := by
  induction cs with
  | nil => exact fun _ _ => rfl
  | cons c cs ih =>
    intro b s
    rw [fillLeaves, fillLeaves]
    by_cases h : symAt s.sft c = 0
    · rw [if_pos h, if_pos (by exact h)]
      exact ih b s
    · rw [if_neg h, if_neg (by exact h)]
      exact newNode_blind.bind fun h t => heapInsert_blind.bind fun _ u => ih b u

theorem mergeRound_blind : Blind mergeRound := fun _ _ =>
  heapExtract_blind.bind fun _ _ => heapExtract_blind.bind fun _ _ =>
    newNode_blind.bind fun _ _ => heapInsert_blind.bind fun _ _ => rfl

theorem mergeLoop_blind {k : Nat} : Blind (mergeLoop k) := by
  induction k with
  | zero => exact fun _ _ => rfl
  | succ k ih => exact fun b s => mergeRound_blind.bind fun _ t => ih b t

/-- A walk that is at a leaf. -/
theorem walk_withBuffers_of_leaf {room : Nat} {h : Handle} {pat : Nat} {s : State}
    (hl : (nodeAt s.node h).isLeaf = true) (b : Buffers) :
    walk room h pat (s.withBuffers b) = (walk room h pat s).withBuffers b := by
  rw [walk_leaf hl, walk_leaf (s := s.withBuffers b) hl]
  exact require_blind.bind fun _ _ => rfl

theorem walk_blind {room : Nat} {h : Handle} {pat : Nat} : Blind (walk room h pat) := by
  induction room generalizing h pat with
  | zero =>
    intro b s
    cases hl : (nodeAt s.node h).isLeaf with
    | true => exact walk_withBuffers_of_leaf hl b
    | false =>
      rw [walk_node_zero hl, walk_node_zero (s := s.withBuffers b) hl]
      exact fail_blind b s
  | succ room ih =>
    intro b s
    cases hl : (nodeAt s.node h).isLeaf with
    | true => exact walk_withBuffers_of_leaf hl b
    | false =>
      rw [walk_node_succ hl, walk_node_succ (s := s.withBuffers b) hl]
      exact ih.bind fun _ t => ih b t

theorem runTbFree_blind : Blind runTbFree := fun _ _ => rfl

theorem runHpFill_blind : Blind runHpFill := fun b _ =>
  require_blind.bind fun _ _ => runTbFree_blind.bind fun _ u =>
    fillLeaves_blind b ({ u with hsize := 0, hmax := u.nsym }.setHeapValid true)

theorem runTbBuild_blind : Blind runTbBuild := fun _ _ =>
  require_blind.bind fun _ _ => require_blind.bind fun _ _ =>
    mergeLoop_blind.bind fun _ _ => heapExtract_blind.bind fun _ _ => rfl

theorem runCgRun_blind : Blind runCgRun := by
  refine fun b _ => require_blind.bind fun _ t => ?_
  dsimp only
  cases hl : (nodeAt t.node t.root).isLeaf with
  | true =>
    rw [if_pos (by exact hl), if_pos (by exact hl)]
    rfl
  | false =>
    rw [if_neg (by exact ne_true_of_eq_false hl), if_neg (by exact ne_true_of_eq_false hl)]
    exact walk_blind.bind (s := t.zeroCodes.setSingle false) fun _ _ => rfl

theorem buildCodes_blind : Blind buildCodes := by
  intro b s
  by_cases h1 : 1 ≤ s.nsym.toNat
  · rw [buildCodes, buildCodes, if_pos h1, if_pos (by exact h1)]
    exact runHpFill_blind.bind fun _ _ => runTbBuild_blind.bind fun _ _ => runCgRun_blind.bind fun _ _ => rfl
  · rw [buildCodes, buildCodes, if_neg h1, if_neg (by exact h1)]
    rfl

theorem rebuildTree_blind : Blind rebuildTree := by
  intro b s
  by_cases h1 : 1 ≤ s.nsym.toNat
  · rw [rebuildTree, rebuildTree, if_pos h1, if_pos (by exact h1)]
    exact runHpFill_blind.bind fun _ t => runTbBuild_blind b t
  · rw [rebuildTree, rebuildTree, if_neg h1, if_neg (by exact h1)]
    rfl

theorem readPairs_blind {n i : Nat} : Blind (readPairs n i) := by
  induction n generalizing i with
  | zero => exact fun _ _ => rfl
  | succ n ih =>
    exact fun b s => require_blind.bind fun _ _ => require_blind.bind fun _ u =>
      ih b { u with sft := symPut u.sft (s.inByte (1 + 2 * i)) (s.inByte (2 + 2 * i)) }

theorem runHdrRead_blind : Blind runHdrRead := fun _ _ =>
  require_blind.bind fun _ _ => require_blind.bind fun _ u =>
    readPairs_blind.bind (s := u.withSft (Vector.replicate 256 0)) fun _ _ =>
      require_blind.bind fun _ _ => require_blind.bind fun _ _ => rfl

end Sys2Proof.Machine
end

section
/-! What a completed `ENC_STREAM` and a completed `DEC_STREAM` have done (45 R210, R214), with no room assumed. -/

namespace Sys2Proof.Machine

/-! ## Packed bits determine their bytes (44 R185) -/

theorem byteBits_injective : Function.Injective byteBits := by
  intro x y h
  refine BitVec.eq_of_getLsbD_eq fun i hi => ?_
  have hbit := List.map_inj_left.1 h (7 - i) (List.mem_range.2 (by omega))
  rwa [show 7 - (7 - i) = i by omega] at hbit

theorem streamBits_injective : Function.Injective streamBits := by
  intro v w h
  induction v generalizing w with
  | nil =>
    have hlen := congrArg List.length h
    rw [streamBits_length, streamBits_length, List.length_nil] at hlen
    exact (List.length_eq_zero_iff.1 (by omega)).symm
  | cons x v ih =>
    cases w with
    | nil => simp [streamBits_cons, byteBits] at h
    | cons y w =>
      rw [streamBits_cons, streamBits_cons] at h
      obtain ⟨hx, hv⟩ := List.append_inj h (by rw [byteBits_length, byteBits_length])
      rw [byteBits_injective hx, ih hv]

theorem Packs.unique {v w : List Byte} {bits : List Bool} (hv : Packs v bits) (hw : Packs w bits) : v = w := by
  obtain ⟨hvlen, hvbits⟩ := hv
  obtain ⟨hwlen, hwbits⟩ := hw
  exact streamBits_injective (by rw [hvbits, hwbits, hvlen, hwlen])

/-! ## Encoding that completed -/

/-- A completed byte loop of `ENC_STREAM` wrote the codes of its bytes. -/
theorem wrote_of_encodeBytes {msg : List Byte} {s t : State} (hw : s.WriterOk)
    (hp : s.inPos.toNat + msg.length < 2 ^ 64) (h : encodeBytes msg s = .ok () t) :
    t.inPos.toNat = s.inPos.toNat + msg.length ∧
      ∃ v, Wrote { s with inPos := t.inPos } (msg.flatMap s.codeOf) t v := by
  induction msg generalizing s with
  | nil =>
    obtain ⟨-, rfl⟩ := Run.ok.inj h
    exact ⟨rfl, [], Wrote.refl hw⟩
  | cons c cs ih =>
    rw [List.length_cons] at hp ⊢
    simp only [encodeBytes, Run.bind_eq_ok, require_eq_ok] at h
    obtain ⟨_, s, ⟨-, rfl⟩, _, u, hbits, hrest⟩ := h
    obtain ⟨v, hone⟩ := wrote_of_writeBits (s := { s with inPos := word (s.inPos.toNat + 1) }) hw hbits
    have hpos : u.inPos.toNat = s.inPos.toNat + 1 := by rw [hone.frame]; exact word_toNat (by omega)
    have hcode : u.codeOf = s.codeOf := by rw [hone.frame]; rfl
    obtain ⟨hend, w, hmore⟩ := ih hone.ok (by omega) hrest
    have hone' : Wrote { s with inPos := t.inPos } (s.codeOf c) { u with inPos := t.inPos } v :=
      { frame := by conv_lhs => rw [hone.frame]
        ok := hone.ok
        out := hone.out
        pos := hone.pos
        total := hone.total
        bits_eq := hone.bits_eq }
    rw [hcode] at hmore
    exact ⟨by omega, v ++ w, hone'.trans hmore⟩

/-- From a started writer a completed `ENC_STREAM` wrote the codes of all of `IN`. -/
theorem wrote_of_runEncStream {s t : State} (hc : s.status.ctValid = true) (h0 : s.bufBytes ≠ 0) (hpos : s.inPos = 0)
    (hin : s.input.length < 2 ^ 64) (h : runEncStream s.writerStarted = .ok () t) :
    ∃ v, Wrote { s.writerStarted with inPos := word s.input.length } (s.input.flatMap s.codeOf) t v := by
  have hzero : s.writerStarted.inPos.toNat = 0 := congrArg BitVec.toNat hpos
  have hunread : s.writerStarted.unread = s.input := congrArg (List.drop · s.input) hzero
  rw [runEncStream_eq (by exact hc) rfl, hunread] at h
  obtain ⟨hend, v, hwrote⟩ := wrote_of_encodeBytes (State.writerStarted_ok h0) (by omega) h
  rw [hzero, Nat.zero_add] at hend
  have hinPos : t.inPos = word s.input.length := BitVec.eq_of_toNat_eq (hend.trans (word_toNat hin).symm)
  rw [hinPos] at hwrote
  exact ⟨v, hwrote⟩

/-- The whole buffers that went out and the used bytes of the last one are the bits written, packed. -/
theorem Wrote.packs {s t : State} {bits : List Bool} {v : List Byte} (h : Wrote s bits t v) (hs : s.writerBits = []) :
    Packs (v ++ t.wbuf.take (ceilDiv t.wpos.toNat 8)) bits := by
  have hstream := h.bits_eq
  rw [hs, List.nil_append] at hstream
  obtain ⟨-, hlen, hpos, -, hclean⟩ := h.ok
  exact (packs_writerBits hclean hlen hpos.le).append_bytes hstream

/-- A completed output part of `COMPRESS` appended the header, the packed codes of `IN` and the number of their bits. -/
theorem writeFile_eq_ok {s t : State} (hv : s.status.sftValid = true) (hc : s.status.ctValid = true)
    (h0 : s.bufBytes ≠ 0) (hpos : s.inPos = 0) (hin : s.input.length < 2 ^ 64) (h : writeFile s = .ok () t) :
    ∃ body, t = { s with
        wbuf := List.replicate s.bufBytes.toNat 0, wpos := 0, wtotal := t.wtotal, inPos := word s.input.length
        output := s.output ++ headerBytes s.nsym.toNat s.sft ++ body ++ le64 t.wtotal
        status := { s.status with bwValid := true } } ∧
      Packs body (s.input.flatMap s.codeOf) ∧ t.wtotal.toNat = (s.input.flatMap s.codeOf).length := by
  simp only [writeFile, Run.bind_eq_ok] at h
  obtain ⟨_, u, hhdr, _, _, hinit, _, x, henc, _, y, hflush, htrl⟩ := h
  obtain ⟨-, hu⟩ := runHdrWrite_eq_ok hv hhdr
  obtain ⟨-, rfl⟩ := Run.ok.inj ((runBwInit_eq _).symm.trans hinit)
  subst hu
  obtain rfl := runTrlWrite_eq_ok htrl
  obtain rfl := runBwFlush_eq_ok hflush
  obtain ⟨v, hwrote⟩ := wrote_of_runEncStream
    (s := { s with output := s.output ++ headerBytes s.nsym.toNat s.sft }) hc h0 hpos hin henc
  refine ⟨v ++ x.wbuf.take (ceilDiv x.wpos.toNat 8), ?_, hwrote.packs rfl, hwrote.total.trans (Nat.zero_add _)⟩
  rw [← List.append_assoc (s.output ++ _) v]
  conv_lhs => rw [hwrote.frame]
  rfl

/-- Output parts of `COMPRESS` that complete from states that differ in the buffers alone end in such states. -/
theorem writeFile_withBuffers {s t t' : State} {b : Buffers} (hv : s.status.sftValid = true)
    (hc : s.status.ctValid = true) (h0 : s.bufBytes ≠ 0) (h0' : b.bytes ≠ 0) (hpos : s.inPos = 0)
    (hin : s.input.length < 2 ^ 64) (h : writeFile s = .ok () t) (h' : writeFile (s.withBuffers b) = .ok () t') :
    ∃ c, t' = t.withBuffers c := by
  obtain ⟨body, ht, hbody, htotal⟩ := writeFile_eq_ok hv hc h0 hpos hin h
  obtain ⟨body', ht', hbody', htotal'⟩ := writeFile_eq_ok (s := s.withBuffers b) hv hc h0' hpos hin h'
  obtain rfl : body' = body := Packs.unique hbody' hbody
  have hwtotal : t'.wtotal = t.wtotal := BitVec.eq_of_toNat_eq (htotal'.trans htotal.symm)
  rw [hwtotal] at ht'
  refine ⟨⟨t'.bufBytes, t'.wbuf, t'.rbuf, t'.obuf⟩, ?_⟩
  rw [ht', ht]
  rfl

/-! ## Emitting that completed (45 R213) -/

/-- The state with a byte put into `OBUF`, before `Emit`'s full-buffer test. -/
def State.buffered (c : Byte) (s : State) : State :=
  { s with obuf := s.obuf.set s.olen.toNat c, olen := word (s.olen.toNat + 1) }

section Emit

variable {c : Byte} {s t : State} (ho : s.EmitterOk)
include ho

theorem State.buffered_olen : (s.buffered c).olen.toNat = s.olen.toNat + 1 :=
  word_toNat (by have := s.bufBytes.isLt; omega)

theorem State.buffered_emitted : (s.buffered c).emitted = s.emitted ++ [c] := by
  obtain ⟨hlen, hlt⟩ := ho
  have htake : (s.obuf.set s.olen.toNat c).take (s.olen.toNat + 1) = s.obuf.take s.olen.toNat ++ [c] := by
    rw [List.take_add_one, List.take_set_of_le le_rfl, List.getElem?_set_self (by omega), Option.toList_some]
  rw [State.emitted, State.buffered_olen ⟨hlen, hlt⟩, State.buffered, htake, ← List.append_assoc]
  rfl

theorem emit_of_full (hfull : s.olen.toNat + 1 = s.bufBytes.toNat) :
    emit c s = (outAppend ((s.buffered c).obuf.take s.bufBytes.toNat) (s.buffered c)).bind
      fun _ t => .ok () { t with olen := 0 } := if_pos ((State.buffered_olen ho).trans hfull)

theorem emit_of_not_full (hfull : s.olen.toNat + 1 ≠ s.bufBytes.toNat) : emit c s = .ok () (s.buffered c) :=
  if_neg fun h => hfull ((State.buffered_olen ho).symm.trans h)

/-- A completed `Emit` of a full buffer had room for it. -/
theorem room_of_emit (hfull : s.olen.toNat + 1 = s.bufBytes.toNat) (h : emit c s = .ok () t) :
    s.emitted.length + 1 ≤ s.outCap.toNat := by
  rw [emit_of_full ho hfull, Run.bind_eq_ok] at h
  obtain ⟨_, _, happ, -⟩ := h
  have hfits : ((s.obuf.set s.olen.toNat c).take s.bufBytes.toNat).length ≤ s.outCap.toNat - s.output.length :=
    (outAppend_eq_ok.1 happ).1
  obtain ⟨hlen, hlt⟩ := ho
  rw [List.length_take, List.length_set, hlen, Nat.min_self] at hfits
  rw [State.emitted, List.length_append, List.length_take, hlen]
  omega

/-- A completed `Emit` emitted its byte. -/
theorem decoded_of_emit (hr : s.ReaderOk) (h : emit c s = .ok () t) : Decoded s [] [c] t := by
  by_cases hfull : s.olen.toNat + 1 = s.bufBytes.toNat
  · obtain ⟨u, hrun, hdec⟩ := emit_decoded c hr ho (room_of_emit ho hfull h)
    obtain ⟨-, rfl⟩ := Run.ok.inj (hrun.symm.trans h)
    exact hdec
  · have holen := State.buffered_olen (c := c) ho
    have hemitted := State.buffered_emitted (c := c) ho
    obtain ⟨-, rfl⟩ := Run.ok.inj ((emit_of_not_full ho hfull).symm.trans h)
    obtain ⟨hlen, hlt⟩ := ho
    have hless : (s.buffered c).olen.toNat < s.bufBytes.toNat := by omega
    exact
      { frame := rfl
        reader := hr
        emitter := ⟨List.length_set.trans hlen, hless⟩
        bits_eq := rfl
        total := rfl
        emitted := hemitted
        whole := ⟨0, by rw [Nat.zero_mul]; rfl⟩ }

end Emit

/-! ## The walk of the bits (45 R214) -/

/-- What one bit does to the walk at `cur`: where the walk is then, and what it emits. -/
def walkBit (arena : Vector Node 511) (root : Handle) (b : Bool) (cur : Handle) : Handle × List Byte :=
  if (nodeAt arena root).isLeaf then (cur, [(nodeAt arena root).sym])
  else
    let next := if b then (nodeAt arena cur).r else (nodeAt arena cur).l
    if (nodeAt arena next).isLeaf then (root, [(nodeAt arena next).sym]) else (next, [])

/-- The message that bits walk to from `cur`. -/
def walkBits (arena : Vector Node 511) (root : Handle) : List Bool → Handle → List Byte
  | [], _ => []
  | b :: bs, cur => (walkBit arena root b cur).2 ++ walkBits arena root bs (walkBit arena root b cur).1

/-- A bit that was decoded did what the walk says. -/
theorem decoded_of_decodeBit {b : Bool} {cur cur' : Handle} {s t : State} (hr : s.ReaderOk) (ho : s.EmitterOk)
    (h : decodeBit b cur s = .ok cur' t) :
    cur' = (walkBit s.node s.root b cur).1 ∧ Decoded s [] (walkBit s.node s.root b cur).2 t := by
  cases hroot : (nodeAt s.node s.root).isLeaf with
  | true =>
    rw [decodeBit_leaf hroot, Run.bind_eq_ok] at h
    obtain ⟨_, u, hemit, hend⟩ := h
    obtain ⟨rfl, rfl⟩ := Run.ok.inj hend
    rw [walkBit, if_pos hroot]
    exact ⟨rfl, decoded_of_emit ho hr hemit⟩
  | false =>
    rw [decodeBit_node hroot] at h
    rw [walkBit, if_neg (by rw [hroot]; exact Bool.false_ne_true)]
    dsimp only at h ⊢
    generalize (if b then (nodeAt s.node cur).r else (nodeAt s.node cur).l) = next at h ⊢
    split at h
    next hleaf =>
      rw [if_pos hleaf]
      obtain ⟨_, u, hemit, hend⟩ := Run.bind_eq_ok.1 h
      obtain ⟨rfl, rfl⟩ := Run.ok.inj hend
      have hdec := decoded_of_emit ho hr hemit
      exact ⟨hdec.root, hdec⟩
    next hnode =>
      rw [if_neg hnode]
      obtain ⟨rfl, rfl⟩ := Run.ok.inj h
      exact ⟨rfl, .refl hr ho⟩

/-- A completed bit loop consumed its bits and emitted what they walk to. -/
theorem decoded_of_decodeLoop {n : Nat} {cur cur' : Handle} {s t : State} (hr : s.ReaderOk) (ho : s.EmitterOk)
    (ht : s.rtotal.toNat + n < 2 ^ 64) (h : decodeLoop n cur s = .ok cur' t) :
    n ≤ s.readerBits.length ∧
      Decoded s (s.readerBits.take n) (walkBits s.node s.root (s.readerBits.take n) cur) t := by
  induction n generalizing s cur with
  | zero =>
    obtain ⟨rfl, rfl⟩ := Run.ok.inj h
    exact ⟨Nat.zero_le _, .refl hr ho⟩
  | succ n ih =>
    cases hbits : s.readerBits with
    | nil =>
      rw [decodeLoop_none (readBit_of_nil hr hbits)] at h
      cases h
    | cons b rest =>
      obtain ⟨u, hread, hone⟩ := readBit_decoded hr ho (by omega) hbits
      rw [decodeLoop_some hread, Run.bind_eq_ok] at h
      obtain ⟨next, v, hbit, hloop⟩ := h
      obtain ⟨rfl, htwo⟩ := decoded_of_decodeBit hone.reader hone.emitter hbit
      have hboth := hone.trans htwo
      have hrest : v.readerBits = rest := (List.cons.inj (hboth.bits_eq.symm.trans hbits)).2
      have htotal : v.rtotal.toNat = s.rtotal.toNat + 1 := hboth.total
      obtain ⟨hle, hmore⟩ := ih hboth.reader hboth.emitter (by omega) hloop
      rw [hrest, hboth.node, hboth.root] at hmore
      rw [hrest] at hle
      rw [hone.node, hone.root] at hmore hboth
      exact ⟨Nat.succ_le_succ hle, hboth.trans hmore⟩

/-- A completed `DEC_STREAM` appended what its declared bits walk to. -/
theorem runDecStream_eq_ok {s t : State} (hh : s.status.hdrValid = true) (hb : s.status.brValid = true)
    (hroot : s.totalBits = 0 ∨ s.root ≠ 0x1FF) (hr : s.ReaderOk) (hl : s.obuf.length = s.bufBytes.toNat)
    (hzero : s.rtotal.toNat = 0) (h : runDecStream s = .ok () t) :
    t.output = s.output ++ walkBits s.node s.root (s.readerBits.take s.totalBits.toNat) s.root ∧
      t.rtotal = s.totalBits ∧ t.sft = s.sft ∧ t.totalBits = s.totalBits := by
  rw [runDecStream_eq hh hb hroot, hzero, Nat.sub_zero, Run.bind_eq_ok] at h
  obtain ⟨cur, u, hloop, h⟩ := h
  simp only [Run.bind_eq_ok, require_eq_ok] at h
  obtain ⟨_, u, ⟨-, rfl⟩, _, _, happ, hend⟩ := h
  obtain ⟨-, rfl⟩ := Run.ok.inj hend
  obtain ⟨-, rfl⟩ := outAppend_eq_ok.1 happ
  have hfits : s.decodeStart.rtotal.toNat + s.totalBits.toNat < 2 ^ 64 := by
    have := s.totalBits.isLt
    show s.rtotal.toNat + _ < _
    omega
  obtain ⟨hle, hdec⟩ := decoded_of_decodeLoop (s := s.decodeStart) hr (State.decodeStart_emitterOk hr hl) hfits hloop
  have hemitted := hdec.emitted
  have htotal := hdec.total
  rw [s.decodeStart_emitted] at hemitted
  rw [List.length_take_of_le hle, show s.decodeStart.rtotal.toNat = 0 from hzero, Nat.zero_add] at htotal
  refine ⟨hemitted, BitVec.eq_of_toNat_eq htotal, ?_, ?_⟩
  all_goals rw [hdec.frame]; rfl

end Sys2Proof.Machine
end

section
/-! The whole operations on machines that differ in the buffers and their size alone (70 R298). -/

namespace Sys2Proof.Machine

/-- A completed `COMPRESS` built its codes and then wrote its file. -/
theorem runCompress_eq_ok {s t : State} (h : runCompress s = .ok () t) :
    ∃ w, buildCodes s.analysed = .ok () w ∧ Encoder s.analysed w ∧ writeFile w = .ok () t := by
  obtain ⟨w, hbuild, e⟩ := buildCodes_encoder (s := s.analysed) rfl s.analysed_count
  rw [runCompress_eq, Run.bind_eq_ok] at h
  obtain ⟨_, _, hreq, h⟩ := h
  obtain ⟨-, rfl⟩ := require_eq_ok.1 hreq
  rw [hbuild, Run.bind_ok] at h
  exact ⟨w, hbuild, e, h⟩

/-- `COMPRESS`s that complete from states that differ in the buffers alone end in such states. -/
theorem runCompress_withBuffers {s t t' : State} {b : Buffers} (h0 : s.bufBytes ≠ 0) (h0' : b.bytes ≠ 0)
    (hin : s.input.length < 2 ^ 64) (h : runCompress s = .ok () t) (h' : runCompress (s.withBuffers b) = .ok () t') :
    ∃ c, t' = t.withBuffers c := by
  obtain ⟨w, hbuild, e, hwrite⟩ := runCompress_eq_ok h
  obtain ⟨w', hbuild', -, hwrite'⟩ := runCompress_eq_ok h'
  have hsame := buildCodes_blind b s.analysed
  rw [hbuild] at hsame
  obtain ⟨-, rfl⟩ := Run.ok.inj (hbuild'.symm.trans hsame)
  refine writeFile_withBuffers ?_ ?_ ?_ h0' ?_ ?_ hwrite hwrite'
  all_goals rw [e.frame]
  · rfl
  · exact h0
  · rfl
  · exact hin

/-- What a completed `DECOMPRESS` read from the header, and the message it then appended. -/
theorem runDecompress_eq_ok {s t : State} (hs : s.NoFault) (h0 : s.bufBytes ≠ 0)
    (hrbuf : s.rbuf.length = s.bufBytes.toNat) (hobuf : s.obuf.length = s.bufBytes.toNat)
    (hin : s.input.length < 2 ^ 64) (h : runDecompress s = .ok () t) :
    ∃ u v, runHdrRead s = .ok () u ∧ rebuildTree u = .ok () v ∧
      t.output = v.output ++
        walkBits v.node v.root ((streamBits (bitstreamRegion s.input)).take v.totalBits.toNat) v.root ∧
      t.rtotal = v.totalBits ∧ t.sft = v.sft ∧ t.totalBits = v.totalBits := by
  rw [runDecompress_eq, Run.bind_eq_ok] at h
  obtain ⟨_, u, hread, h⟩ := h
  obtain ⟨sft, v, rfl, hbuild, htree⟩ := rebuildTree_completes hread
  rw [hbuild, Run.bind_ok, runAll] at h
  obtain ⟨hlen, -⟩ := containerOk_of_runHdrRead hread
  have hready := readyToDecode hs h0 hrbuf hobuf hin hlen htree.frame htree.status
  cases hdec : procOf .decStream (v.initReader v.bitstreamLimit) with
  | stop x =>
    rw [hdec] at h
    cases h
  | ok _ x =>
    rw [hdec] at h
    obtain ⟨-, rfl⟩ := Run.ok.inj h
    obtain ⟨hout, hrest⟩ := runDecStream_eq_ok hready.header hready.started htree.root hready.reader hready.buffer
      hready.zero hdec
    rw [hready.bits] at hout
    exact ⟨_, v, hread, hbuild, hout, hrest⟩

/-- `DECOMPRESS`s that complete from states that differ in the buffers alone leave the same message, table and
counts. -/
theorem runDecompress_withBuffers {s t t' : State} {b : Buffers} (hs : s.NoFault) (h0 : s.bufBytes ≠ 0)
    (h0' : b.bytes ≠ 0) (hin : s.input.length < 2 ^ 64) (hrbuf : s.rbuf.length = s.bufBytes.toNat)
    (hobuf : s.obuf.length = s.bufBytes.toNat) (hrbuf' : b.rbuf.length = b.bytes.toNat)
    (hobuf' : b.obuf.length = b.bytes.toNat) (h : runDecompress s = .ok () t)
    (h' : runDecompress (s.withBuffers b) = .ok () t') :
    t.output = t'.output ∧ t.sft = t'.sft ∧ t.rtotal = t'.rtotal ∧ t.totalBits = t'.totalBits := by
  obtain ⟨u, v, hread, hbuild, hout, hrtotal, hsft, htotal⟩ := runDecompress_eq_ok hs h0 hrbuf hobuf hin h
  obtain ⟨u', v', hread', hbuild', hout', hrtotal', hsft', htotal'⟩ :=
    runDecompress_eq_ok (s := s.withBuffers b) hs h0' hrbuf' hobuf' hin h'
  have hsame := runHdrRead_blind b s
  rw [hread] at hsame
  obtain ⟨-, rfl⟩ := Run.ok.inj (hread'.symm.trans hsame)
  have hsame := rebuildTree_blind b u
  rw [hbuild] at hsame
  obtain ⟨-, rfl⟩ := Run.ok.inj (hbuild'.symm.trans hsame)
  exact ⟨hout.trans hout'.symm, hsft.trans hsft'.symm, hrtotal.trans hrtotal'.symm, htotal.trans htotal'.symm⟩

/-- Settles O59: the codes and the tree are built without a look at the buffers, and the bits written and read are those
of the streams. -/
theorem bufferSizeHidden : Obligations.BufferSizeHidden := by
  intro s s' t t' hs h0 h0' hin hs' ht ht'
  generalize hb : (⟨s'.bufBytes, s'.wbuf, s'.rbuf, s'.obuf⟩ : Buffers) = b
  obtain rfl : s' = s.withBuffers b := by rw [← hb]; exact hs'
  refine ⟨fun he he' => ?_, fun hrbuf hobuf hrbuf' hobuf' he he' => ?_⟩
  · have h := procOf_eq_ok (by simp) hs ht he
    have h' := procOf_eq_ok (s := s.withBuffers b) (by simp) hs ht' he'
    obtain ⟨c, rfl⟩ := runCompress_withBuffers h0 h0' hin h h'
    exact ⟨rfl, rfl, rfl, rfl, rfl, rfl, rfl, rfl⟩
  · have h := procOf_eq_ok (by simp) hs ht he
    have h' := procOf_eq_ok (s := s.withBuffers b) (by simp) hs ht' he'
    exact runDecompress_withBuffers hs h0 h0' hin hrbuf hobuf hrbuf' hobuf' h h'

end Sys2Proof.Machine
end
